-- ==== Sys2Proof/Word.lean ====
section
/-! DEFINITION. The two word types of the block: the 32-bit host word and the 8-bit sample
(spec/00_scope.md R11). -/

namespace Sys2Proof

/-- The host word: 32 bits (R11). -/
abbrev Word := BitVec 32

/-- A sample or a byte of the bitstream: 8 bits (R11, R51, R59). -/
abbrev Byte := BitVec 8

end Sys2Proof
end

