-- ==== Sys2Proof/Config.lean ====
section
/-! DEFINITION. What an implementation fixes (the parameters of spec/00_scope.md R10) and the free
values: what spec/93_implementation_defined.md Part 1 calls "any value". A free value is an opaque
constant applied to the number of a draw, so nothing can be proved of it but that it is a value. -/

namespace Sys2Proof

/-- The implementation parameters of R10. A state carries them (assumption log 1), so a statement
over all states is a statement over all configurations. -/
structure Params where
  /-- MAX_SAMPLES: samples in SB, entries in RB and in CB. -/
  maxSamples : Nat
  /-- DICT_CAP: entries in DT, seeds included. -/
  dictCap : Nat
  /-- BIT_CAP: bytes in BB. -/
  bitCap : Nat
  /-- BASE: the platform address of window 0, offset 0 (spec/20_memory.md R101). -/
  base : Nat
  deriving DecidableEq, Repr

/-- The reference configuration of R12. -/
def Config.reference : Params :=
  { maxSamples := 4096, dictCap := 8192, bitCap := 8192, base := 0 }

/-- FREE VALUE (U1, U2): the byte that draw `d` gives the location at a block address. -/
opaque Config.freeByte : (d : Nat) → (addr : Nat) → Byte

/-- FREE VALUE (U3, U4): the word that draw `d` gives a register (named by its offset) or a host
read of a window address while BUSY. -/
opaque Config.freeWord : (d : Nat) → (addr : Nat) → Word

/-- FREE VALUE (H1): how the host spells the end-of-stream line of a container. The block never
sees it (assumption log 15). -/
opaque Config.eosSpelling : String

end Sys2Proof
end

