-- ==== Sys2Proof/Syntax.lean ====
section
/-! DEFINITION. The syntax of the block's world: the ten commands (spec/opcode_table.json), the
names of registers and windows (spec/10_state.md R31, spec/20_memory.md R102), the host
transaction (spec/20_memory.md R100) and the host program notation (spec/30_encoding.md
R160-R167). -/

namespace Sys2Proof

/-- The commands, one constructor per row of spec/opcode_table.json. A command has no operand
fields (spec/30_encoding.md R140, R143). -/
inductive Instr where
  /-- NOP (spec/40_command_lifecycle.md R188). -/
  | nop
  /-- RLE_ENC (spec/41_rle.md R201). -/
  | rleEnc
  /-- RLE_DEC (spec/41_rle.md R206). -/
  | rleDec
  /-- LZW_ENC (spec/42_lzw.md R233). -/
  | lzwEnc
  /-- LZW_DEC (spec/42_lzw.md R240). -/
  | lzwDec
  /-- HUF_FREQ (spec/43_huffman_tree.md R272). -/
  | hufFreq
  /-- HUF_TREE (spec/43_huffman_tree.md R278). -/
  | hufTree
  /-- HUF_CODES (spec/44_huffman_codes.md R311). -/
  | hufCodes
  /-- HUF_PACK (spec/45_bitstream.md R332). -/
  | hufPack
  /-- HUF_UNPACK (spec/45_bitstream.md R340). -/
  | hufUnpack
  deriving DecidableEq, Repr

/-- The nineteen registers of window 0 (spec/10_state.md R31). -/
inductive Reg where
  | id | cfg | dim | cmd | status | intEn | errInfo | runCount | codeCount | dictSize
  | freqCount | nodeCount | root | bitLen | byteLen | pad
  | paramMaxSamples | paramDictCap | paramBitCap
  deriving DecidableEq, Repr

/-- The eight internal memories, each behind one host window (spec/20_memory.md R102). -/
inductive Buf where
  /-- FT, the frequency table (R54). -/
  | ft
  /-- ND, the node arena (R55). -/
  | nd
  /-- CT, the code table (R56). -/
  | ct
  /-- DT, the LZW dictionary (R57). -/
  | dt
  /-- SB, the sample buffer (R51). -/
  | sb
  /-- RB, the run buffer (R52). -/
  | rb
  /-- CB, the LZW code buffer (R53). -/
  | cb
  /-- BB, the bitstream buffer (R59). -/
  | bb
  deriving DecidableEq, Repr

/-- What bits [31:28] of a block address select (R102). -/
inductive Window where
  | regs
  | buffer (b : Buf)
  | reserved
  deriving DecidableEq, Repr

inductive AccessKind where
  | read | write
  deriving DecidableEq, Repr

/-- The access sizes of R100: 1, 2 or 4 bytes. -/
inductive AccessSize where
  | one | two | four
  deriving DecidableEq, Repr

/-- A host transaction `(kind, addr, size, wdata)` at a block-relative address (R100). -/
structure Transaction where
  kind  : AccessKind
  addr  : Word
  size  : AccessSize
  wdata : Word
  deriving DecidableEq, Repr

/-- The block's answer to a transaction (R100). -/
inductive Reply where
  /-- `OK(rdata)`: a legal read. -/
  | data (v : Word)
  /-- `OK`: a legal write, performed or ignored. -/
  | ok
  /-- `BUS_ERROR`: an access of another size or alignment (R103). -/
  | busError
  deriving DecidableEq, Repr

/-- What the host does at one of its turns. The lines of R160-R167 expand into these. -/
inductive HostOp where
  /-- Issue one transaction; a name given here is bound to the word a read returns (R160). -/
  | access (t : Transaction) (name : Option String)
  /-- Read STATUS, again at the next turn while BUSY is 1 (R163). -/
  | wait (name : Option String)
  /-- If the STATUS value last read has ERR = 1, leave out the next `rest` operations (R166). -/
  | stopOnErr (rest : Nat)
  /-- Read a word and note a failed test if it is not the value given (R167). -/
  | expect (addr value : Word)
  deriving DecidableEq, Repr

/-- An ADDR operand of a host program line (R161). -/
inductive HostAddr where
  /-- A 32-bit constant, as in R162's `wr 0x0000000C, 0x00000006`. -/
  | const (addr : Word)
  /-- A register name. -/
  | reg (r : Reg)
  /-- `SB+o`, `BB+o`, `FT+o`, `ND+o`, `CT+o`, `DT+o`, `RB+o` and `CB+o`. -/
  | window (b : Buf) (o : Nat)
  /-- `RB[i].VALUE`. -/
  | rbValue (i : Nat)
  /-- `RB[i].COUNT`. -/
  | rbCount (i : Nat)
  /-- `FT[i].SYMBOL`. -/
  | ftSymbol (i : Nat)
  /-- `FT[i].COUNT`. -/
  | ftCount (i : Nat)
  /-- `CB[i]`. -/
  | cb (i : Nat)
  /-- `DT[k].PREFIX`. -/
  | dtPrefix (k : Nat)
  /-- `DT[k].SYMBOL`. -/
  | dtSymbol (k : Nat)
  /-- `ND[j].FLAGS`. -/
  | ndFlags (j : Nat)
  /-- `ND[j].SYMBOL`. -/
  | ndSymbol (j : Nat)
  /-- `ND[j].FREQ`. -/
  | ndFreq (j : Nat)
  /-- `ND[j].LEFT`. -/
  | ndLeft (j : Nat)
  /-- `ND[j].RIGHT`. -/
  | ndRight (j : Nat)
  /-- `CT[s].FLAGS`. -/
  | ctFlags (s : Nat)
  /-- `CT[s].LEN`. -/
  | ctLen (s : Nat)
  /-- `CT[s].CODE0`. -/
  | ctCode0 (s : Nat)
  deriving DecidableEq, Repr

/-- A line of a host program (R160-R167). -/
inductive HostLine where
  /-- `wr ADDR, VALUE` (R160). -/
  | wr (addr : HostAddr) (value : Word)
  /-- `rd ADDR` and `rd ADDR -> NAME` (R160). -/
  | rd (addr : HostAddr) (name : Option String)
  /-- `cmd MNEM` (R162). -/
  | cmd (i : Instr)
  /-- `wait` and `wait -> s` (R163). -/
  | wait (name : Option String)
  /-- `run MNEM` and `run MNEM -> s` (R164). -/
  | run (i : Instr) (name : Option String)
  /-- `ack` (R165). -/
  | ack
  /-- `ackdrop` (R165). -/
  | ackdrop
  /-- `huf.encode` (R166). -/
  | hufEncode
  /-- `huf.decode` (R166). -/
  | hufDecode
  /-- `ld.bytes BASEADDR, b0, b1, ...` (R167). -/
  | ldBytes (base : HostAddr) (bytes : List Byte)
  /-- `expect ADDR, VALUE` (R167). -/
  | expect (addr : HostAddr) (value : Word)
  deriving DecidableEq, Repr

end Sys2Proof
end

