-- ==== Sys2Proof/WellFormed.lean ====
section
/-! DEFINITION. What is well formed: a command word (spec/30_encoding.md R140, R142), and a
configuration (spec/00_scope.md R10). A command itself has no field that could be ill formed
(R143). -/

namespace Sys2Proof

/-- Every command is well formed: it has no operand field (R143). -/
def Instr.wellFormed : Instr → Bool
  | .nop | .rleEnc | .rleDec | .lzwEnc | .lzwDec => true
  | .hufFreq | .hufTree | .hufCodes | .hufPack | .hufUnpack => true

/-- RSVD = w[31:4] must be 0 (R140). -/
def CommandWord.reservedZero (w : Word) : Bool := w.toNat / 16 == 0

/-- OPCODE = w[3:0] must be at most 0x9 (R142). -/
def CommandWord.opcodeDefined (w : Word) : Bool := w.toNat % 16 ≤ 9

/-- A legal command word (R142). -/
def CommandWord.wellFormed (w : Word) : Bool :=
  CommandWord.reservedZero w && CommandWord.opcodeDefined w

/-- The legal ranges of R10. -/
def Params.wellFormed (p : Params) : Bool :=
  (1 ≤ p.maxSamples && p.maxSamples ≤ 2 ^ 25) &&
  (256 ≤ p.dictCap && p.dictCap ≤ 2 ^ 25) &&
  (1 ≤ p.bitCap && p.bitCap ≤ 2 ^ 28)

end Sys2Proof
end

