-- ==== Sys2Proof/Decode.lean ====
section
/-! DEFINITION. Decoding a command word (spec/30_encoding.md R140-R142, R145), total on every
32-bit word and rejecting by name; and, after it, the encoder, from the same table. -/

namespace Sys2Proof

/-- Why a word is no command (R142, R145). The engine completes it with IllegalCommand. -/
inductive DecodeError where
  /-- RSVD = w[31:4] is not 0. -/
  | reservedBits
  /-- OPCODE is 0xA to 0xF. -/
  | reservedOpcode
  deriving DecidableEq, Repr

/-- The OPCODE field, w[3:0] (R140). -/
def opcodeField (w : Word) : BitVec 4 := w.extractLsb' 0 4

/-- The RSVD field, w[31:4] (R140). -/
def rsvdField (w : Word) : BitVec 28 := w.extractLsb' 4 28

/-- The opcode map of R141. -/
def decodeOpcode (op : BitVec 4) : Option Instr :=
  match op.toNat with
  | 0x0 => some .nop
  | 0x1 => some .rleEnc
  | 0x2 => some .rleDec
  | 0x3 => some .lzwEnc
  | 0x4 => some .lzwDec
  | 0x5 => some .hufFreq
  | 0x6 => some .hufTree
  | 0x7 => some .hufCodes
  | 0x8 => some .hufPack
  | 0x9 => some .hufUnpack
  | _ => none

/-- Decoding of a command word: exactly one command, or illegal for a named reason (R142). -/
def decode (w : Word) : Except DecodeError Instr :=
  if rsvdField w = 0 then
    match decodeOpcode (opcodeField w) with
    | some i => .ok i
    | none => .error .reservedOpcode
  else .error .reservedBits

/-- The decoder on an instruction's bits as spec/opcode_table.json numbers them. A command is one
32-bit word, written to CMD as data (R110, R146), so it has one word and no byte order. -/
def decodeTableWord (_nbits w : Nat) : Option Instr :=
  if w < 2 ^ 32 then
    match decode (BitVec.ofNat 32 w) with
    | .ok i => some i
    | .error _ => none
  else none

/-- OPCODE of each command (R141). -/
def opcodeOf : Instr → BitVec 4
  | .nop => 0x0
  | .rleEnc => 0x1
  | .rleDec => 0x2
  | .lzwEnc => 0x3
  | .lzwDec => 0x4
  | .hufFreq => 0x5
  | .hufTree => 0x6
  | .hufCodes => 0x7
  | .hufPack => 0x8
  | .hufUnpack => 0x9

/-- The one word of a command: RSVD = 0, then OPCODE (R140). -/
def encode (i : Instr) : Word := 0#28 ++ opcodeOf i

end Sys2Proof
end

