-- ==== Sys2Proof/Machine/State.lean ====
section
/-! DEFINITION. The state of the block as plain data (spec/10_state.md), with the host side of its
bus port and the schedule that says who moves next, and the state after reset. -/

namespace Sys2Proof.Machine

open Sys2Proof

/-- One internal memory: (byte offset in its window, byte) pairs, offsets strictly rising. An
offset that is not listed holds no written byte; it reads as its draw (R71, assumption log 2). -/
abbrev Memory := List Host.Cell

/-- The canonical form of a memory: offsets strictly rising. -/
abbrev Memory.wf (m : Memory) : Prop := m.Pairwise (fun x y => x.1 < y.1)

/-- The engine phase (R44). -/
inductive Phase where
  | idle
  /-- Running the accepted command word. -/
  | busy (w : Word)
  deriving DecidableEq, Repr

/-- CFG (R33): the two bits that are storage; [31:2] are RAZ/WI. -/
structure Cfg where
  /-- [0] ALPHA: true is the grayscale alphabet. -/
  alpha : Bool
  /-- [1] EOS_EN. -/
  eosEn : Bool
  deriving DecidableEq, Repr

/-- STATUS (R37) but for BUSY, which is a view of the phase (R44). -/
structure Status where
  /-- [1] DONE. -/
  done : Bool
  /-- [2] ERR. -/
  err : Bool
  /-- [3] TREE_VALID. -/
  treeValid : Bool
  /-- [4] CODES_VALID. -/
  codesValid : Bool
  /-- [5] DROPPED. -/
  dropped : Bool
  /-- [11:8] ERRCODE. -/
  errcode : BitVec 4
  /-- [15:12] LAST_OP. -/
  lastOp : BitVec 4
  deriving DecidableEq, Repr

/-- Who moves at a step (spec/20_memory.md R116, spec/70_reset_and_hazards.md R410; log 5). -/
inductive Turn where
  | host | engine | reset
  deriving DecidableEq, Repr

/-- The host side of the bus port: MODEL'S OWN state (log 6). -/
structure HostSide where
  /-- What the host has still to do, next first. -/
  program : List HostOp
  /-- The block's answers, newest first. -/
  replies : List Reply
  /-- The names bound by `rd ADDR -> NAME` and `wait -> s`, newest first. -/
  names : List (String × Word)
  /-- An `expect` met another value. -/
  testFailed : Bool
  deriving DecidableEq, Repr

/-- The state of the block and of its port. -/
@[ext]
structure State where
  /-- The configuration, read back in the PARAM registers (R47); no step changes it. -/
  params : Params
  /-- The engine phase (R44). -/
  phase : Phase
  /-- CFG (R33). -/
  cfg : Cfg
  /-- DIM.HEIGHT (R35). -/
  height : BitVec 16
  /-- DIM.WIDTH (R35). -/
  width : BitVec 16
  /-- CMD read value: the last accepted command word (R36). -/
  cmd : Word
  /-- STATUS (R37). -/
  status : Status
  /-- INT_EN.DONE_IE (R39). -/
  doneIe : Bool
  /-- ERR_INFO (R40). -/
  errInfo : Word
  /-- RUN_COUNT (R41). -/
  runCount : Word
  /-- CODE_COUNT (R41). -/
  codeCount : Word
  /-- DICT_SIZE (R42). -/
  dictSize : Word
  /-- FREQ_COUNT (R43). -/
  freqCount : BitVec 9
  /-- NODE_COUNT (R45). -/
  nodeCount : BitVec 10
  /-- ROOT (R45). -/
  root : BitVec 10
  /-- BIT_LEN (R46). -/
  bitLen : Word
  /-- BYTE_LEN (R46). -/
  byteLen : Word
  /-- PAD (R46). -/
  pad : BitVec 3
  /-- FT (R54). -/
  ft : Memory
  /-- ND (R55). -/
  nd : Memory
  /-- CT (R56). -/
  ct : Memory
  /-- DT (R57). -/
  dt : Memory
  /-- SB (R51). -/
  sb : Memory
  /-- RB (R52). -/
  rb : Memory
  /-- CB (R53). -/
  cb : Memory
  /-- BB (R59). -/
  bb : Memory
  /-- MODEL'S OWN: the draw that unlisted bytes read as (log 2). -/
  memDraw : Nat
  /-- MODEL'S OWN: the next unused draw (log 2, 3, 4). -/
  draws : Nat
  /-- MODEL'S OWN: who moves next, and then after that (log 5). -/
  schedule : List Turn
  /-- MODEL'S OWN: the host side of the port (log 6). -/
  host : HostSide
  deriving DecidableEq, Repr

/-- Why the machine would stop. There is no such reason: the block has no state in which it hangs
(spec/40_command_lifecycle.md R192, spec/93_implementation_defined.md "stuck: never used"), a
failed command is an error completion (R182) and BUS_ERROR is an answer on the bus (R103), so this
type has no constructor and no step faults (log 16). -/
inductive Fault where
  deriving DecidableEq, Repr

/-- Why an instruction would have no meaning here. -/
inductive Refusal where
  /-- Raised only by an arm of `exec` whose instruction has no meaning yet, of which there is none.
  Safe: the machine stops where the hardware goes on. -/
  | notModelled (mnemonic : String)
  deriving DecidableEq, Repr

/-- The block right after reset (R70, R71, R410, R413), in the reference configuration (R12; log 1),
with nothing scheduled and nothing for the host to issue. -/
def State.reset : State where
  params := Config.reference
  phase := .idle
  cfg := { alpha := true, eosEn := true }
  height := 0
  width := 0
  cmd := 0
  status :=
    { done := false, err := false, treeValid := false, codesValid := false, dropped := false,
      errcode := 0, lastOp := 0 }
  doneIe := false
  errInfo := 0
  runCount := 0
  codeCount := 0
  dictSize := 0
  freqCount := 0
  nodeCount := 0
  root := 0
  bitLen := 0
  byteLen := 0
  pad := 0
  ft := []
  nd := []
  ct := []
  dt := []
  sb := []
  rb := []
  cb := []
  bb := []
  memDraw := 0
  draws := 1
  schedule := []
  host := { program := [], replies := [], names := [], testFailed := false }

end Sys2Proof.Machine
end

