-- ==== Sys2Proof/Machine/Flags.lean ====
section
/-! DEFINITION. The flags of the block: the STATUS bits (spec/10_state.md R37, R38, R48, R49) and
the interrupt line (spec/60_exceptions.md R380). -/

namespace Sys2Proof.Machine

open Sys2Proof

/-- STATUS.BUSY: 1 exactly when the phase is BUSY (R44). -/
def State.busy (s : State) : Bool :=
  match s.phase with
  | .idle => false
  | .busy _ => true

/-- The level interrupt `irq = INT_EN.DONE_IE and STATUS.DONE` (R380). -/
def State.irq (s : State) : Bool := s.doneIe && s.status.done

/-- The read value of STATUS (R37). -/
def State.statusWord (s : State) : Word :=
  0#16 ++ s.status.lastOp ++ s.status.errcode ++ 0#2 ++
    BitVec.ofBool s.status.dropped ++ BitVec.ofBool s.status.codesValid ++
    BitVec.ofBool s.status.treeValid ++ BitVec.ofBool s.status.err ++
    BitVec.ofBool s.status.done ++ BitVec.ofBool s.busy

/-- A host write to STATUS: a 1 in bit 1 clears DONE, a 1 in bit 5 clears DROPPED, and nothing else
has an effect (R38). -/
def State.ackStatus (s : State) (v : Word) : State :=
  { s with status := { s.status with
      done := s.status.done && !v.getLsbD 1
      dropped := s.status.dropped && !v.getLsbD 5 } }

/-- The engine notes a dropped CMD write (R38, spec/40_command_lifecycle.md R181). -/
def State.setDropped (s : State) : State :=
  { s with status := { s.status with dropped := true } }

/-- TREE_VALID <- 0 and CODES_VALID <- 0 (R49). -/
def State.clearValid (s : State) : State :=
  { s with status := { s.status with treeValid := false, codesValid := false } }

/-- TREE_VALID <- 1 and CODES_VALID <- 0: HUF_TREE completes with success (R49). -/
def State.markTree (s : State) : State :=
  { s with status := { s.status with treeValid := true, codesValid := false } }

/-- CODES_VALID <- 1: HUF_CODES completes with success (R49). -/
def State.markCodes (s : State) : State :=
  { s with status := { s.status with codesValid := true } }

end Sys2Proof.Machine
end

