-- ==== Sys2Proof/Machine/Ops.lean ====
section
/-! DEFINITION. The shared operations: bytes and words of the internal memories
(spec/20_memory.md R102-R108), the draws of unspecified values (spec/93_implementation_defined.md
U1-U4), accepting a command, its error and success completions (spec/40_command_lifecycle.md
R180-R187: the block's trap mechanism, spec/60_exceptions.md section 3), and reset
(spec/70_reset_and_hazards.md R410-R412). -/

namespace Sys2Proof.Machine

open Sys2Proof

/-! ## Bytes and words -/

/-- The word of four bytes, lowest offset in bits [7:0] (R106). -/
def wordOfBytes (b0 b1 b2 b3 : Byte) : Word := b3 ++ b2 ++ b1 ++ b0

/-- The four bytes of a word, bits [7:0] first (R106). -/
def wordBytes (w : Word) : List Byte :=
  [w.extractLsb' 0 8, w.extractLsb' 8 8, w.extractLsb' 16 8, w.extractLsb' 24 8]

/-- The bytes of a sequence of numbers, each a 32-bit word. -/
def numBytes (xs : List Nat) : List Byte := xs.flatMap fun x => wordBytes (BitVec.ofNat 32 x)

/-! ## Memories -/

/-- The written byte at an offset, if there is one. -/
def Memory.get (m : Memory) (o : Nat) : Option Byte := m.lookup o

/-- The cells from `lo` up to `hi` replaced by `cells`, whose offsets lie there and rise. Every
write is this one operation. -/
def Memory.splice (m : Memory) (lo hi : Nat) (cells : List Host.Cell) : Memory :=
  m.filter (fun c => c.1 < lo) ++ cells ++ m.filter (fun c => hi ≤ c.1)

/-- The cells of consecutive bytes from an offset on. -/
def cellsFrom (o : Nat) : List Byte → List Host.Cell
  | [] => []
  | b :: bs => (o, b) :: cellsFrom (o + 1) bs

/-- Consecutive bytes written from an offset on. -/
def Memory.write (m : Memory) (o : Nat) (bs : List Byte) : Memory :=
  m.splice o (o + bs.length) (cellsFrom o bs)

/-- The cells from `lo` up to `hi`. -/
def Memory.slice (m : Memory) (lo hi : Nat) : Memory := m.filter fun c => lo ≤ c.1 && c.1 < hi

/-- The number of a memory's window (R102). -/
def Buf.number : Buf → Nat
  | .ft => 1
  | .nd => 2
  | .ct => 3
  | .dt => 4
  | .sb => 5
  | .rb => 6
  | .cb => 7
  | .bb => 8

/-- The block address of a window's offset 0 (R102). -/
def Buf.base (b : Buf) : Nat := Buf.number b * 2 ^ 28

/-- The number of used bytes of a window (R102). -/
def Buf.used (p : Params) : Buf → Nat
  | .ft => 257 * 8
  | .nd => 513 * 32
  | .ct => 257 * 64
  | .dt => p.dictCap * 8
  | .sb => p.maxSamples
  | .rb => p.maxSamples * 8
  | .cb => p.maxSamples * 4
  | .bb => p.bitCap

/-- Whether an offset inside the used bytes holds storage. The reserved words of an ND or CT record
and FLAGS[31:8] do not (R102; log 13). -/
def Buf.stores : Buf → Nat → Bool
  | .nd, o => o % 32 = 0 || (4 ≤ o % 32 && o % 32 < 20)
  | .ct, o => o % 64 = 0 || (4 ≤ o % 64 && o % 64 < 8) || 32 ≤ o % 64
  | .ft, _ | .dt, _ | .sb, _ | .rb, _ | .cb, _ | .bb, _ => true

/-- Whether an offset is the FLAGS byte of a record, of which only bit 0 is storage (R102). -/
def Buf.isFlags : Buf → Nat → Bool
  | .nd, o => o % 32 = 0
  | .ct, o => o % 64 = 0
  | .ft, _ | .dt, _ | .sb, _ | .rb, _ | .cb, _ | .bb, _ => false

/-- A memory of the state. -/
def State.mem (s : State) : Buf → Memory
  | .ft => s.ft
  | .nd => s.nd
  | .ct => s.ct
  | .dt => s.dt
  | .sb => s.sb
  | .rb => s.rb
  | .cb => s.cb
  | .bb => s.bb

/-- A memory replaced. -/
def State.setMem (s : State) (b : Buf) (m : Memory) : State :=
  match b with
  | .ft => { s with ft := m }
  | .nd => { s with nd := m }
  | .ct => { s with ct := m }
  | .dt => { s with dt := m }
  | .sb => { s with sb := m }
  | .rb => { s with rb := m }
  | .cb => { s with cb := m }
  | .bb => { s with bb := m }

/-- What a byte that nothing has written since reset reads as: the draw of its location (R71). -/
def State.drawnByte (s : State) (b : Buf) (o : Nat) : Byte :=
  Config.freeByte s.memDraw (Buf.base b + o)

/-- The byte of a memory at an offset, as the engine reads it (R112, R194). -/
def State.byte (s : State) (b : Buf) (o : Nat) : Byte :=
  ((s.mem b).get o).getD (s.drawnByte b o)

/-- The 32-bit field of a memory at an offset (R107). -/
def State.word (s : State) (b : Buf) (o : Nat) : Word :=
  wordOfBytes (s.byte b o) (s.byte b (o + 1)) (s.byte b (o + 2)) (s.byte b (o + 3))

/-- Consecutive bytes of a memory written. -/
def State.putBytes (s : State) (b : Buf) (o : Nat) (bs : List Byte) : State :=
  s.setMem b ((s.mem b).write o bs)

/-- The byte of a window at an offset, as the host sees it: 0 past the used bytes and at reserved
places, bit 0 alone of a FLAGS byte (R102, R107, R108). -/
def State.hostByte (s : State) (b : Buf) (o : Nat) : Byte :=
  if o < Buf.used s.params b && Buf.stores b o then
    if Buf.isFlags b o then s.byte b o &&& 1 else s.byte b o
  else 0

/-- The word of a window at an offset, as the host sees it (R104, R106, R107). -/
def State.hostWord (s : State) (b : Buf) (o : Nat) : Word :=
  wordOfBytes (s.hostByte b o) (s.hostByte b (o + 1)) (s.hostByte b (o + 2)) (s.hostByte b (o + 3))

/-! ## Unspecified values -/

/-- The next draw is used up. -/
def State.nextDraw (s : State) : State := { s with draws := s.draws + 1 }

/-- `len` bytes of a memory from offset 0 on take unspecified values: the current draw, one value
per location (R186, U2; log 3). -/
def State.drawBytes (s : State) (b : Buf) (len : Nat) : State :=
  s.putBytes b 0 ((List.range len).map fun o => Config.freeByte s.draws (Buf.base b + o))

/-- The unspecified value the current draw gives a register, named by its window-0 offset (U3). -/
def State.drawnWord (s : State) (addr : Nat) : Word := Config.freeWord s.draws addr

/-! ## Raising, completing and accepting -/

/-- The errors a command can raise (R184, spec/60_exceptions.md R370). -/
inductive ErrorKind where
  | invalidInput | corruptStream | unsupportedAlphabet | capacityExceeded | sequenceError
  | illegalCommand
  deriving DecidableEq, Repr

/-- code(E) (R370). -/
def ErrorKind.code : ErrorKind → BitVec 4
  | .invalidInput => 1
  | .corruptStream => 2
  | .unsupportedAlphabet => 3
  | .capacityExceeded => 4
  | .sequenceError => 5
  | .illegalCommand => 6

/-- `raise E(info)` (R184). -/
structure Raise where
  kind : ErrorKind
  info : Nat
  deriving DecidableEq, Repr

/-- `if c: raise E(info)`. -/
def raiseIf (c : Bool) (kind : ErrorKind) (info : Nat) : Option Raise :=
  if c then some { kind := kind, info := info } else none

/-- The success completion (R182). -/
def State.succeed (s : State) : State :=
  { s with
    phase := .idle
    status := { s.status with done := true, err := false, errcode := 0 }
    errInfo := 0 }

/-- The error completion, which is how the block takes an exception (R182, R381): ERR, ERRCODE and
ERR_INFO record it, DONE is set, and the engine is idle. There is no handler and no return (R383):
the next acceptance clears the error fields. -/
def State.fail (s : State) (e : Raise) : State :=
  { s with
    phase := .idle
    status := { s.status with done := true, err := true, errcode := ErrorKind.code e.kind }
    errInfo := BitVec.ofNat 32 e.info }

/-- Acceptance of a command word while idle (R180). -/
def State.accept (s : State) (w : Word) : State :=
  { s with
    phase := .busy w
    cmd := w
    status := { s.status with
      done := false, err := false, errcode := 0, lastOp := w.extractLsb' 0 4 }
    errInfo := 0 }

/-- The completion step of a command (R182, R185-R187). `pre` is the first raise of its pre-check
phase, `s` the state such a raise leaves; `data` is its data phase, with the state it leaves on
success; `spoiled` is the state with the write range unspecified that a data-phase raise leaves. -/
def runCommand (s : State) (pre : Option Raise) (data : Unit → Except Raise State)
    (spoiled : Unit → State) : Host.Outcome State Fault Refusal :=
  match pre with
  | some e => .next (s.fail e)
  | none =>
    match data () with
    | .ok t => .next t.succeed
    | .error e => .next ((spoiled ()).fail e)

/-- A reset (R410-R412): every register at its reset value, the engine idle, the in-flight command
abandoned, every memory byte drawn afresh. The configuration, and the host's side of the port with
the schedule, are not the block's registers and stay (log 7). -/
def State.resetBlock (s : State) : State :=
  { State.reset with
    params := s.params
    memDraw := s.draws
    draws := s.draws + 1
    schedule := s.schedule
    host := s.host }

end Sys2Proof.Machine
end

