-- ==== Sys2Proof/Machine/Operands.lean ====
section
/-! DEFINITION. The implicit operands of the commands (spec/30_encoding.md R143, R144): the
alphabet, the dimensions, and the elements of the memories at their own widths
(spec/00_scope.md R16, spec/10_state.md R51-R59), with the checks the commands share
(spec/40_command_lifecycle.md R183, R190). -/

namespace Sys2Proof.Machine

open Sys2Proof

/-! ## Registers as numbers -/

/-- A, the alphabet size: 2 or 256 (spec/00_scope.md R16). -/
def State.alphabet (s : State) : Nat := if s.cfg.alpha then 256 else 2

/-- AMAX = A - 1, the largest legal sample value (R16). -/
def State.amax (s : State) : Nat := s.alphabet - 1

/-- n = H * W, computed exactly (R16, R35). -/
def State.n (s : State) : Nat := s.height.toNat * s.width.toNat

/-! ## Elements -/

/-- SB[k] (R51). -/
def State.sample (s : State) (k : Nat) : Nat := (s.byte .sb k).toNat

/-- SB[0..n-1], the grid in row-major order. -/
def State.samples (s : State) : List Nat := (List.range s.n).map s.sample

/-- RB[i] = (VALUE, COUNT) (R52). -/
def State.runAt (s : State) (i : Nat) : Nat × Nat :=
  ((s.word .rb (8 * i)).toNat, (s.word .rb (8 * i + 4)).toNat)

/-- RB[0..RUN_COUNT-1]. -/
def State.runs (s : State) : List (Nat × Nat) := (List.range s.runCount.toNat).map s.runAt

/-- CB[i] (R53). -/
def State.codeAt (s : State) (i : Nat) : Nat := (s.word .cb (4 * i)).toNat

/-- CB[0..CODE_COUNT-1]. -/
def State.codes (s : State) : List Nat := (List.range s.codeCount.toNat).map s.codeAt

/-- DT[k] = (PREFIX, SYMBOL) (R57). -/
def State.dictAt (s : State) (k : Nat) : Nat × Nat :=
  ((s.word .dt (8 * k)).toNat, (s.word .dt (8 * k + 4)).toNat)

/-- FT[i] = (SYMBOL, COUNT) (R54). -/
def State.freqAt (s : State) (i : Nat) : Nat × Nat :=
  ((s.word .ft (8 * i)).toNat, (s.word .ft (8 * i + 4)).toNat)

/-- FT[0..FREQ_COUNT-1], the table HUF_TREE reads (spec/43_huffman_tree.md R271). -/
def State.table (s : State) : List (Nat × Nat) := (List.range s.freqCount.toNat).map s.freqAt

/-- A node of the arena (R55, R150). -/
structure Node where
  isLeaf : Bool
  symbol : Nat
  freq   : Nat
  left   : Nat
  right  : Nat
  deriving DecidableEq, Repr

/-- NONE, the mark of a missing child (R55). -/
def noNode : Nat := 0xFFFFFFFF

/-- ND[j] (R55, layout R102). -/
def State.nodeAt (s : State) (j : Nat) : Node where
  isLeaf := (s.byte .nd (32 * j)).getLsbD 0
  symbol := (s.word .nd (32 * j + 4)).toNat
  freq := (s.word .nd (32 * j + 8)).toNat
  left := (s.word .nd (32 * j + 12)).toNat
  right := (s.word .nd (32 * j + 16)).toNat

/-- ND[0..NODE_COUNT-1]. -/
def State.nodes (s : State) : List Node := (List.range s.nodeCount.toNat).map s.nodeAt

/-- An entry of the code table (R56, R151). -/
structure Code where
  valid : Bool
  len   : Nat
  code  : Nat
  deriving DecidableEq, Repr

/-- The number whose base-256 digits, least significant first, are the bytes. -/
def leNat : List Byte → Nat
  | [] => 0
  | b :: bs => b.toNat + 256 * leNat bs

/-- CT[x] (R56, layout R102), read from the cells of its own record. -/
def State.codeEntry (s : State) (x : Nat) : Code :=
  let cells := s.ct.slice (64 * x) (64 * x + 64)
  let byte := fun o => (cells.get (64 * x + o)).getD (s.drawnByte .ct (64 * x + o))
  { valid := (byte 0).getLsbD 0
    len := leNat ((List.range 4).map fun i => byte (4 + i))
    code := leNat ((List.range 32).map fun i => byte (32 + i)) }

/-- bit(i) of the bitstream: BB[i div 8][7 - (i mod 8)] (spec/20_memory.md R111). -/
def State.streamBit (s : State) (i : Nat) : Bool := (s.byte .bb (i / 8)).getLsbD (7 - i % 8)

/-! ## Element writes -/

/-- SB[0..] <- values, each one byte. -/
def State.putSamples (s : State) (xs : List Nat) : State :=
  s.putBytes .sb 0 (xs.map (BitVec.ofNat 8))

/-- Pairs of 32-bit fields written from entry 0 on. -/
def State.putPairs (s : State) (b : Buf) (ps : List (Nat × Nat)) : State :=
  s.putBytes b 0 (numBytes (ps.flatMap fun p => [p.1, p.2]))

/-- The cells of one node (layout R102): FLAGS[0], then SYMBOL, FREQ, LEFT, RIGHT. -/
def nodeCells (j : Nat) (nd : Node) : List Host.Cell :=
  (32 * j, BitVec.ofNat 8 nd.isLeaf.toNat) ::
    cellsFrom (32 * j + 4) (numBytes [nd.symbol, nd.freq, nd.left, nd.right])

/-- The cells of consecutive nodes from index `j` on. -/
def nodesCells (j : Nat) : List Node → List Host.Cell
  | [] => []
  | nd :: nds => nodeCells j nd ++ nodesCells (j + 1) nds

/-- ND[0..] <- nodes. -/
def State.putNodes (s : State) (nds : List Node) : State :=
  s.setMem .nd (s.nd.splice 0 (32 * nds.length) (nodesCells 0 nds))

/-- `len` bytes of a number, least significant first. -/
def natBytes : (len : Nat) → Nat → List Byte
  | 0, _ => []
  | len + 1, x => BitVec.ofNat 8 x :: natBytes len (x / 256)

/-- The cells of one code entry (layout R102): FLAGS[0], then LEN, then CODE. -/
def codeCells (x : Nat) (c : Code) : List Host.Cell :=
  (64 * x, BitVec.ofNat 8 c.valid.toNat) ::
    (cellsFrom (64 * x + 4) (natBytes 4 c.len) ++ cellsFrom (64 * x + 32) (natBytes 32 c.code))

/-- The cells of consecutive code entries from symbol `x` on. -/
def codesCells (x : Nat) : List Code → List Host.Cell
  | [] => []
  | c :: cs => codeCells x c ++ codesCells (x + 1) cs

/-- CT[0..] <- entries. -/
def State.putCodes (s : State) (cs : List Code) : State :=
  s.setMem .ct (s.ct.splice 0 (64 * cs.length) (codesCells 0 cs))

/-! ## Shared checks -/

/-- DimCheck() (R183). -/
def State.dimCheck (s : State) : Option Raise :=
  (raiseIf (s.height.toNat = 0 || s.width.toNat = 0) .invalidInput 0).or
    (raiseIf (s.params.maxSamples < s.n) .capacityExceeded 0)

/-- ValidateSamples(): the lowest index whose sample is outside the alphabet (R190). -/
def State.validateSamples (s : State) : Option Raise :=
  (s.samples.findIdx? fun x => s.amax < x).map fun k => { kind := .unsupportedAlphabet, info := k }

/-- The pre-check phase of the grid encoders: DimCheck, then the pre-scan (R190). -/
def State.encoderCheck (s : State) : Option Raise := s.dimCheck.or s.validateSamples

end Sys2Proof.Machine
end

