-- ==== Sys2Proof/Machine/Huffman.lean ====
section
/-! DEFINITION. The Huffman frequency table, merge tree and code table commands
(spec/43_huffman_tree.md, spec/44_huffman_codes.md). -/

namespace Sys2Proof.Machine

open Sys2Proof

/-! ## HUF_FREQ -/

/-- The frequency table of a grid: the symbols that occur, ascending, then the end-of-stream
symbol 256 with count 1 (R272). -/
def frequencies (a : Nat) (eosEn : Bool) (xs : List Nat) : List (Nat × Nat) :=
  ((List.range a).filter fun v => 0 < xs.count v).map (fun v => (v, xs.count v)) ++
    if eosEn then [(256, 1)] else []

/-- The data phase of HUF_FREQ (R272). -/
def State.storeTable (s : State) : State :=
  let ft := frequencies s.alphabet s.cfg.eosEn s.samples
  { s.putPairs .ft ft with freqCount := BitVec.ofNat 9 ft.length }

/-- HUF_FREQ (R272): both valid bits are cleared whatever the outcome. -/
def execHufFreq (s : State) : Host.Outcome State Fault Refusal :=
  runCommand s.clearValid s.encoderCheck (fun _ => .ok s.clearValid.storeTable)
    (fun _ => s.clearValid)

/-! ## HUF_TREE -/

/-- The check of entry `i = seen.length` of R277, in the order shown there. -/
def entryBad (amax : Nat) (eosEn : Bool) (seen : List Nat) (e : Nat × Nat) : Bool :=
  !(decide (e.1 ≤ amax) || (eosEn && e.1 == 256)) || seen.contains e.1 || e.2 == 0

/-- The index of the first bad entry (R277); `seen` holds the symbols before it. -/
def firstBadEntry (amax : Nat) (eosEn : Bool) (seen : List Nat) : List (Nat × Nat) → Option Nat
  | [] => none
  | e :: es =>
    if entryBad amax eosEn seen e then some seen.length
    else firstBadEntry amax eosEn (seen ++ [e.1]) es

/-- TableCheck(N) (R277) on the ordered table. -/
def tableCheck (a : Nat) (eosEn : Bool) (ft : List (Nat × Nat)) : Option Raise :=
  (raiseIf (ft.length = 0 || decide (a + eosEn.toNat < ft.length)) .corruptStream 0).or <|
    ((firstBadEntry (a - 1) eosEn [] ft).map fun i => { kind := .corruptStream, info := i }).or <|
      (raiseIf (eosEn && !(ft.any fun e => e.1 == 256)) .corruptStream ft.length).or
        (raiseIf (decide (2 ^ 32 - 1 < (ft.map (·.2)).sum)) .corruptStream ft.length)

/-- A key (freq, seq) of the merge; seq is also the node's index (R276). -/
abbrev Key := Nat × Nat

/-- Keys compared lexicographically (R276). -/
def keyLess (x y : Key) : Bool := x.1 < y.1 || (x.1 == y.1 && x.2 < y.2)

/-- A key added to the queue, which is held least key first. -/
def insertKey (k : Key) : List Key → List Key
  | [] => [k]
  | x :: xs => if keyLess k x then k :: x :: xs else x :: insertKey k xs

/-- The leaves of a table, in table order (R278). -/
def leafNodes (ft : List (Nat × Nat)) : List Node :=
  ft.map fun e => { isLeaf := true, symbol := e.1, freq := e.2, left := noNode, right := noNode }

/-- The queue of the leaves' keys (R276, R278). -/
def leafQueue (ft : List (Nat × Nat)) : List Key :=
  (ft.zipIdx.map fun e => (e.1.2, e.2)).foldl (fun q k => insertKey k q) []

/-- An internal node (R278). -/
def mergeNode (freq left right : Nat) : Node :=
  { isLeaf := false, symbol := 0, freq := freq, left := left, right := right }

/-- The merge loop of R278: the internal nodes created, the first at index `next`. Each round removes
the two least keys, so there are at most `fuel` rounds for a queue of `fuel + 1` keys. -/
def mergeNodes : (fuel : Nat) → (next : Nat) → List Key → List Node
  | fuel + 1, next, x :: y :: q =>
    mergeNode (x.1 + y.1) x.2 y.2 :: mergeNodes fuel (next + 1) (insertKey (x.1 + y.1, next) q)
  | _, _, _ => []

/-- The arena HUF_TREE builds from a table: the leaves, then the internal nodes; the root is the
last (R278). One leaf gets a root with one child. -/
def buildTree : List (Nat × Nat) → List Node
  | [e] => leafNodes [e] ++ [mergeNode e.2 0 noNode]
  | ft => leafNodes ft ++ mergeNodes ft.length ft.length (leafQueue ft)

/-- The data phase of HUF_TREE (R278). -/
def State.storeTree (s : State) : State :=
  let nds := buildTree s.table
  State.markTree
    { s.putNodes nds with
      nodeCount := BitVec.ofNat 10 nds.length
      root := BitVec.ofNat 10 (nds.length - 1) }

/-- The pre-check phase of HUF_TREE (R278). -/
def State.treeCheck (s : State) : Option Raise := tableCheck s.alphabet s.cfg.eosEn s.table

/-- HUF_TREE (R278): a failure leaves both valid bits 0 and the arena unchanged. -/
def execHufTree (s : State) : Host.Outcome State Fault Refusal :=
  runCommand s.clearValid s.treeCheck (fun _ => .ok s.clearValid.storeTree) (fun _ => s.clearValid)

/-! ## HUF_CODES -/

/-- The number a path spells, its first edge most significant (R151, R312). -/
def pathNumber (path : List Bool) : Nat := path.foldl (fun acc b => 2 * acc + b.toNat) 0

/-- Visit(j, path) of R311: the leaves below node `j`, LEFT before RIGHT, each with its symbol and
its path. `depth` bounds the levels still visited (R192; log 11). -/
def visitTree (node : Nat → Node) : (depth : Nat) → (j : Nat) → (path : List Bool) →
    List (Nat × List Bool)
  | 0, _, _ => []
  | depth + 1, j, path =>
    if (node j).isLeaf then [((node j).symbol, path)]
    else
      (if (node j).left = noNode then []
        else visitTree node depth (node j).left (path ++ [false])) ++
      (if (node j).right = noNode then []
        else visitTree node depth (node j).right (path ++ [true]))

/-- The levels of the deepest tree: a root, and leaves down to depth 256 (R11). -/
def maxLevels : Nat := 257

/-- The entry of a symbol: the last leaf of that symbol in visit order, or the cleared entry
(R311). -/
def codeOf (leaves : List (Nat × List Bool)) (x : Nat) : Code :=
  match leaves.reverse.lookup x with
  | some path => { valid := true, len := path.length, code := pathNumber path }
  | none => { valid := false, len := 0, code := 0 }

/-- CT[0..256] as HUF_CODES derives it from a tree (R311). -/
def deriveCodes (node : Nat → Node) (root : Nat) : List Code :=
  (List.range 257).map (codeOf (visitTree node maxLevels root []))

/-- The pre-check phase of HUF_CODES and HUF_UNPACK's first check (R311, R340). -/
def State.needTree (s : State) : Option Raise := raiseIf (!s.status.treeValid) .sequenceError 0

/-- The data phase of HUF_CODES (R311). -/
def State.storeCodeTable (s : State) : State :=
  (s.putCodes (deriveCodes s.nodeAt s.root.toNat)).markCodes

/-- HUF_CODES (R311). -/
def execHufCodes (s : State) : Host.Outcome State Fault Refusal :=
  runCommand s s.needTree (fun _ => .ok s.storeCodeTable) (fun _ => s)

end Sys2Proof.Machine
end

