-- ==== Sys2Proof/Machine/Bitstream.lean ====
section
/-! DEFINITION. The bitstream commands (spec/45_bitstream.md). -/

namespace Sys2Proof.Machine

open Sys2Proof

/-! ## HUF_PACK -/

/-- The bits PutCode appends for a code entry, c_0 first (R330). -/
def codeBits (c : Code) : List Bool :=
  (List.range c.len).map fun i => c.code.testBit (c.len - 1 - i)

/-- ceil(bits / 8). -/
def bytesFor (bits : Nat) : Nat := (bits + 7) / 8

/-- The sample loop of R332 from sample `k` on, with `l` bits already out. -/
def packSamples (entry : Nat → Code) (cap : Nat) (k l : Nat) :
    List Nat → Except Raise (List Bool)
  | [] => .ok []
  | x :: xs =>
    let c := entry x
    if !c.valid then .error { kind := .invalidInput, info := k }
    else if cap < bytesFor (l + c.len) then .error { kind := .capacityExceeded, info := k }
    else (packSamples entry cap (k + 1) (l + c.len) xs).map (codeBits c ++ ·)

/-- The payload of R332: the samples' codes, then the end-of-stream code when it is used. -/
def packPayload (entry : Nat → Code) (cap : Nat) (eosEn : Bool) (xs : List Nat) :
    Except Raise (List Bool) :=
  match packSamples entry cap 0 0 xs with
  | .error e => .error e
  | .ok bits =>
    if !eosEn then .ok bits
    else if cap < bytesFor (bits.length + (entry 256).len) then
      .error { kind := .capacityExceeded, info := xs.length }
    else .ok (bits ++ codeBits (entry 256))

/-- PAD = (8 - L mod 8) mod 8 (R332, R152). -/
def padCount (l : Nat) : Nat := (8 - l % 8) % 8

/-- The number eight stream bits spell, the first most significant (spec/20_memory.md R111). -/
def byteOfBits (bits : List Bool) : Byte := BitVec.ofNat 8 (pathNumber bits)

/-- The bytes of a stream whose length is a whole number of bytes; `count` is that number. -/
def bytesOfBits : (count : Nat) → List Bool → List Byte
  | 0, _ => []
  | count + 1, bits => byteOfBits (bits.take 8) :: bytesOfBits count (bits.drop 8)

/-- The stream with its padding, BIT_LEN, PAD and BYTE_LEN stored (R332). -/
def State.storeStream (s : State) (bits : List Bool) : State :=
  let p := padCount bits.length
  let count := (bits.length + p) / 8
  { s.putBytes .bb 0 (bytesOfBits count (bits ++ List.replicate p false)) with
    bitLen := BitVec.ofNat 32 bits.length
    pad := BitVec.ofNat 3 p
    byteLen := BitVec.ofNat 32 count }

/-- The pre-check phase of HUF_PACK (R332). -/
def State.packCheck (s : State) : Option Raise :=
  (raiseIf (!s.status.codesValid) .sequenceError 0).or s.encoderCheck

/-- The write range of HUF_PACK after a data-phase failure (R144, R186, R332). -/
def State.spoilPack (s : State) : State :=
  State.nextDraw
    { s.drawBytes .bb s.params.bitCap with
      bitLen := s.drawnWord 0x038
      byteLen := s.drawnWord 0x03C
      pad := (s.drawnWord 0x040).extractLsb' 0 3 }

/-- HUF_PACK (R332). -/
def execHufPack (s : State) : Host.Outcome State Fault Refusal :=
  runCommand s s.packCheck
    (fun _ => (packPayload s.codeEntry s.params.bitCap s.cfg.eosEn s.samples).map s.storeStream)
    (fun _ => s.spoilPack)

/-! ## HUF_UNPACK -/

/-- The walk of R340 at stream position `pos`, at node `j`, with `k` samples already out: the
samples from here on. The list holds the bits not yet read. -/
def unpackWalk (node : Nat → Node) (root n : Nat) (eosEn : Bool) (pos k j : Nat) :
    List Bool → Except Raise (List Nat)
  | [] => .error { kind := .corruptStream, info := pos }
  | b :: bs =>
    let next := if b then (node j).right else (node j).left
    if next = noNode then .error { kind := .corruptStream, info := pos }
    else if (node next).isLeaf then
      let x := (node next).symbol
      if x = 256 then
        if k = n then .ok [] else .error { kind := .corruptStream, info := pos + 1 }
      else if k = n then .error { kind := .corruptStream, info := pos + 1 }
      else if !eosEn && k + 1 == n then .ok [x]
      else (unpackWalk node root n eosEn (pos + 1) (k + 1) root bs).map (x :: ·)
    else unpackWalk node root n eosEn (pos + 1) k next bs

/-- The stream bits before the padding: bit(0) .. bit(8 * BYTE_LEN - PAD - 1) (R340). -/
def State.streamBits (s : State) : List Bool :=
  (List.range (8 * s.byteLen.toNat - s.pad.toNat)).map s.streamBit

/-- The pre-check phase of HUF_UNPACK (R340). -/
def State.unpackCheck (s : State) : Option Raise :=
  s.needTree.or <| s.dimCheck.or <|
    (raiseIf (s.byteLen.toNat = 0) .invalidInput 0).or
      (raiseIf (s.params.bitCap < s.byteLen.toNat) .capacityExceeded 0)

/-- HUF_UNPACK (R340). The pre-check has n >= 1, so the loop's first test never ends it. -/
def execHufUnpack (s : State) : Host.Outcome State Fault Refusal :=
  runCommand s s.unpackCheck
    (fun _ => (unpackWalk s.nodeAt s.root.toNat s.n s.cfg.eosEn 0 0 s.root.toNat
      s.streamBits).map s.putSamples)
    (fun _ => (s.drawBytes .sb s.n).nextDraw)

end Sys2Proof.Machine
end

