-- ==== Sys2Proof/Machine/Engine.lean ====
section
/-! DEFINITION. The engine's own completions: NOP (spec/40_command_lifecycle.md R188) and an
illegal command word (R189). A meaning is a whole completion step (R182; log 18). -/

namespace Sys2Proof.Machine

open Sys2Proof

/-- NOP (R188): an empty data phase. -/
def execNop (s : State) : Host.Outcome State Fault Refusal :=
  runCommand s none (fun _ => .ok s) (fun _ => s)

/-- A reserved or illegal command word (R189): `raise IllegalCommand(w)` in the pre-check phase. -/
def completeIllegal (w : Word) (s : State) : Host.Outcome State Fault Refusal :=
  runCommand s (some { kind := .illegalCommand, info := w.toNat }) (fun _ => .ok s) (fun _ => s)

end Sys2Proof.Machine
end

