-- ==== Sys2Proof/Machine/Lzw.lean ====
section
/-! DEFINITION. The LZW commands (spec/42_lzw.md). The dictionary of a running command is the
alphabet size A with the list of inserted entries (PREFIX, SYMBOL): entry A + j is the j-th. -/

namespace Sys2Proof.Machine

open Sys2Proof

/-- SeedDict() (R231) and the entries inserted after it, as the words of DT. -/
def dictEntries (a : Nat) (ins : List (Nat × Nat)) : List (Nat × Nat) :=
  (List.range a).map (fun k => (noNode, k)) ++ ins

/-- The code j with A <= j < size and DT[j] = (w, x), if there is one (R233). -/
def dictFind (a : Nat) (ins : List (Nat × Nat)) (w x : Nat) : Option Nat :=
  (ins.findIdx? (· == (w, x))).map (a + ·)

/-- The scan of R233 at sample `k`, with candidate code `w`: the codes emitted from here on and the
inserted entries at the end. -/
def lzwScan (a cap : Nat) (k w : Nat) (ins : List (Nat × Nat)) :
    List Nat → Except Raise (List Nat × List (Nat × Nat))
  | [] => .ok ([w], ins)
  | x :: xs =>
    match dictFind a ins w x with
    | some j => lzwScan a cap (k + 1) j ins xs
    | none =>
      if a + ins.length = cap then .error { kind := .capacityExceeded, info := k }
      else (lzwScan a cap (k + 1) x (ins ++ [(w, x)]) xs).map fun r => (w :: r.1, r.2)

/-- Greedy dictionary coding of a grid (R233). -/
def lzwEncode (a cap : Nat) : List Nat → Except Raise (List Nat × List (Nat × Nat))
  | [] => .ok ([], [])
  | x :: xs => lzwScan a cap 1 x [] xs

/-- DT and DICT_SIZE after an LZW command that inserted `ins` (R233, R240). -/
def State.putDict (s : State) (ins : List (Nat × Nat)) : State :=
  { s.putPairs .dt (dictEntries s.alphabet ins) with
    dictSize := BitVec.ofNat 32 (s.alphabet + ins.length) }

/-- The registers and memories LZW_ENC writes (R233). -/
def State.storeCodes (s : State) (codes : List Nat) (ins : List (Nat × Nat)) : State :=
  { (s.putBytes .cb 0 (numBytes codes)).putDict ins with
    codeCount := BitVec.ofNat 32 codes.length }

/-- The write range of LZW_ENC after a data-phase failure (R144, R186). -/
def State.spoilLzwEnc (s : State) : State :=
  State.nextDraw
    { (s.drawBytes .cb (4 * s.n)).drawBytes .dt (8 * s.params.dictCap) with
      codeCount := s.drawnWord 0x024
      dictSize := s.drawnWord 0x028 }

/-- LZW_ENC (R233). -/
def execLzwEnc (s : State) : Host.Outcome State Fault Refusal :=
  runCommand s s.encoderCheck
    (fun _ => (lzwEncode s.alphabet s.params.dictCap s.samples).map fun r => s.storeCodes r.1 r.2)
    (fun _ => s.spoilLzwEnc)

/-- string(k) (spec/10_state.md R58). A prefix chain is at most as long as the number of inserted
entries plus one, which `fuel` bounds. -/
def dictString (a : Nat) (ins : List (Nat × Nat)) : (fuel : Nat) → Nat → List Nat
  | 0, k => [k]
  | fuel + 1, k =>
    if k < a then [k]
    else
      match ins[k - a]? with
      | some (p, x) => dictString a ins fuel p ++ [x]
      | none => [k]

/-- The string code `c` stands for when the dictionary holds `ins`: a known string, the KwKwK case,
or none (R240). -/
def lzwEntry (a : Nat) (ins : List (Nat × Nat)) (prev : List Nat) (c : Nat) : Option (List Nat) :=
  if c < a + ins.length then some (dictString a ins ins.length c)
  else if c = a + ins.length then some (prev ++ prev.take 1)
  else none

/-- The loop of R240 from code `i` on, with `k` samples already out, `prev` the previous output
string and `prevc` its code: the samples from here on and the inserted entries at the end. -/
def lzwReplay (a cap n : Nat) (i k : Nat) (prev : List Nat) (prevc : Nat)
    (ins : List (Nat × Nat)) : List Nat → Except Raise (List Nat × List (Nat × Nat))
  | [] => if k = n then .ok ([], ins) else .error { kind := .corruptStream, info := i }
  | c :: cs =>
    match lzwEntry a ins prev c with
    | none => .error { kind := .corruptStream, info := i }
    | some e =>
      if n < k + e.length then .error { kind := .corruptStream, info := i }
      else if a + ins.length = cap then .error { kind := .capacityExceeded, info := i }
      else
        (lzwReplay a cap n (i + 1) (k + e.length) e c (ins ++ [(prevc, e.headD 0)]) cs).map
          fun r => (e ++ r.1, r.2)

/-- The data phase of LZW_DEC on a code list (R240). -/
def lzwDecode (a cap n : Nat) : List Nat → Except Raise (List Nat × List (Nat × Nat))
  | [] => .error { kind := .corruptStream, info := 0 }
  | c :: cs =>
    if a ≤ c then .error { kind := .corruptStream, info := 0 }
    else (lzwReplay a cap n 1 1 [c] c [] cs).map fun r => (c :: r.1, r.2)

/-- The pre-check phase of LZW_DEC (R240). -/
def State.lzwDecCheck (s : State) : Option Raise :=
  s.dimCheck.or <|
    (raiseIf (s.codeCount.toNat = 0) .invalidInput 0).or
      (raiseIf (s.params.maxSamples < s.codeCount.toNat) .capacityExceeded 0)

/-- The write range of LZW_DEC after a data-phase failure (R144, R186). -/
def State.spoilLzwDec (s : State) : State :=
  State.nextDraw
    { (s.drawBytes .sb s.n).drawBytes .dt (8 * s.params.dictCap) with
      dictSize := s.drawnWord 0x028 }

/-- LZW_DEC (R240). -/
def execLzwDec (s : State) : Host.Outcome State Fault Refusal :=
  runCommand s s.lzwDecCheck
    (fun _ => (lzwDecode s.alphabet s.params.dictCap s.n s.codes).map fun r =>
      (s.putSamples r.1).putDict r.2)
    (fun _ => s.spoilLzwDec)

end Sys2Proof.Machine
end

