-- ==== Sys2Proof/Machine/Rle.lean ====
section
/-! DEFINITION. The RLE commands (spec/41_rle.md). -/

namespace Sys2Proof.Machine

open Sys2Proof

/-- The scan of R201 with a pending run of value `v` and count `c`. -/
def rleScan (v c : Nat) : List Nat → List (Nat × Nat)
  | [] => [(v, c)]
  | x :: xs => if x = v then rleScan v (c + 1) xs else (v, c) :: rleScan x 1 xs

/-- The maximal runs of a grid (R201). -/
def rleRuns : List Nat → List (Nat × Nat)
  | [] => []
  | x :: xs => rleScan x 1 xs

/-- The data phase of RLE_ENC (R201). -/
def State.storeRuns (s : State) : State :=
  let runs := rleRuns s.samples
  { s.putPairs .rb runs with runCount := BitVec.ofNat 32 runs.length }

/-- RLE_ENC (R201). -/
def execRleEnc (s : State) : Host.Outcome State Fault Refusal :=
  runCommand s s.encoderCheck (fun _ => .ok s.storeRuns) (fun _ => s)

/-- The replay of R206 from run `i` on, with `k` samples already out. -/
def rleReplay (amax n : Nat) (i k : Nat) : List (Nat × Nat) → Except Raise (List Nat)
  | [] => if k = n then .ok [] else .error { kind := .corruptStream, info := i }
  | (v, c) :: rs =>
    if amax < v then .error { kind := .unsupportedAlphabet, info := i }
    else if n < k + c then .error { kind := .corruptStream, info := i }
    else (rleReplay amax n (i + 1) (k + c) rs).map (List.replicate c v ++ ·)

/-- The pre-check phase of RLE_DEC (R206). -/
def State.rleDecCheck (s : State) : Option Raise :=
  s.dimCheck.or <|
    (raiseIf (s.runCount.toNat = 0) .invalidInput 0).or
      (raiseIf (s.params.maxSamples < s.runCount.toNat) .capacityExceeded 0)

/-- RLE_DEC (R206). -/
def execRleDec (s : State) : Host.Outcome State Fault Refusal :=
  runCommand s s.rleDecCheck
    (fun _ => (rleReplay s.amax s.n 0 0 s.runs).map s.putSamples)
    (fun _ => (s.drawBytes .sb s.n).nextDraw)

end Sys2Proof.Machine
end

