-- ==== Sys2Proof/Machine/Dispatch.lean ====
section
/-! DEFINITION. One arm per command: its meaning, a whole completion step. -/

namespace Sys2Proof.Machine

open Sys2Proof

def exec (i : Instr) (s : State) : Host.Outcome State Fault Refusal :=
  match i with
  | .nop => Sys2Proof.Machine.execNop s
  | .rleEnc => Sys2Proof.Machine.execRleEnc s
  | .rleDec => Sys2Proof.Machine.execRleDec s
  | .lzwEnc => Sys2Proof.Machine.execLzwEnc s
  | .lzwDec => Sys2Proof.Machine.execLzwDec s
  | .hufFreq => Sys2Proof.Machine.execHufFreq s
  | .hufTree => Sys2Proof.Machine.execHufTree s
  | .hufCodes => Sys2Proof.Machine.execHufCodes s
  | .hufPack => Sys2Proof.Machine.execHufPack s
  | .hufUnpack => Sys2Proof.Machine.execHufUnpack s

end Sys2Proof.Machine
end

