-- ==== Sys2Proof/Machine/HostPort.lean ====
section
/-! DEFINITION. The host port: the register map (spec/10_state.md R31-R47), the address map and the
host accesses (spec/20_memory.md R100-R113), and their behaviour while BUSY
(spec/70_reset_and_hazards.md R420-R422). -/

namespace Sys2Proof.Machine

open Sys2Proof

/-! ## The register map -/

/-- The offset of each register in window 0 (R31). -/
def Reg.offset : Reg → Nat
  | .id => 0x000
  | .cfg => 0x004
  | .dim => 0x008
  | .cmd => 0x00C
  | .status => 0x010
  | .intEn => 0x014
  | .errInfo => 0x018
  | .runCount => 0x020
  | .codeCount => 0x024
  | .dictSize => 0x028
  | .freqCount => 0x02C
  | .nodeCount => 0x030
  | .root => 0x034
  | .bitLen => 0x038
  | .byteLen => 0x03C
  | .pad => 0x040
  | .paramMaxSamples => 0x044
  | .paramDictCap => 0x048
  | .paramBitCap => 0x04C

/-- Every register (R31). -/
def allRegs : List Reg :=
  [.id, .cfg, .dim, .cmd, .status, .intEn, .errInfo, .runCount, .codeCount, .dictSize,
    .freqCount, .nodeCount, .root, .bitLen, .byteLen, .pad, .paramMaxSamples, .paramDictCap,
    .paramBitCap]

/-- The register at an offset; every other offset is reserved (R31, R109). -/
def regAt (o : Nat) : Option Reg := allRegs.find? fun r => Reg.offset r == o

/-- The read value of a register (R31-R47). -/
def State.readReg (s : State) : Reg → Word
  | .id => 0x434F5245
  | .cfg => 0#30 ++ BitVec.ofBool s.cfg.eosEn ++ BitVec.ofBool s.cfg.alpha
  | .dim => s.height ++ s.width
  | .cmd => s.cmd
  | .status => s.statusWord
  | .intEn => 0#31 ++ BitVec.ofBool s.doneIe
  | .errInfo => s.errInfo
  | .runCount => s.runCount
  | .codeCount => s.codeCount
  | .dictSize => s.dictSize
  | .freqCount => 0#23 ++ s.freqCount
  | .nodeCount => 0#22 ++ s.nodeCount
  | .root => 0#22 ++ s.root
  | .bitLen => s.bitLen
  | .byteLen => s.byteLen
  | .pad => 0#29 ++ s.pad
  | .paramMaxSamples => BitVec.ofNat 32 s.params.maxSamples
  | .paramDictCap => BitVec.ofNat 32 s.params.dictCap
  | .paramBitCap => BitVec.ofNat 32 s.params.bitCap

/-- A write to a register while IDLE (R31-R47, R180). -/
def State.writeRegIdle (s : State) (r : Reg) (v : Word) : State :=
  match r with
  | .cfg => State.clearValid { s with cfg := { alpha := v.getLsbD 0, eosEn := v.getLsbD 1 } }
  | .dim => { s with height := v.extractLsb' 16 16, width := v.extractLsb' 0 16 }
  | .cmd => s.accept v
  | .status => s.ackStatus v
  | .intEn => { s with doneIe := v.getLsbD 0 }
  | .runCount => { s with runCount := v }
  | .codeCount => { s with codeCount := v }
  | .freqCount => State.clearValid { s with freqCount := v.extractLsb' 0 9 }
  | .byteLen => { s with byteLen := v }
  | .pad => { s with pad := v.extractLsb' 0 3 }
  | .id | .errInfo | .dictSize | .nodeCount | .root | .bitLen => s
  | .paramMaxSamples | .paramDictCap | .paramBitCap => s

/-- A write to a register while BUSY: STATUS and INT_EN are performed, CMD is dropped, every other
write is ignored (R105, R181, R421). -/
def State.writeRegBusy (s : State) (r : Reg) (v : Word) : State :=
  match r with
  | .status => s.ackStatus v
  | .intEn => { s with doneIe := v.getLsbD 0 }
  | .cmd => s.setDropped
  | .id | .cfg | .dim | .errInfo | .runCount | .codeCount | .dictSize | .freqCount => s
  | .nodeCount | .root | .bitLen | .byteLen | .pad => s
  | .paramMaxSamples | .paramDictCap | .paramBitCap => s

/-! ## The windows -/

/-- Every memory. -/
def allBufs : List Buf := [.ft, .nd, .ct, .dt, .sb, .rb, .cb, .bb]

/-- window = addr[31:28] (R102). -/
def windowOf (addr : Word) : Window :=
  if addr.toNat / 2 ^ 28 = 0 then .regs
  else
    match allBufs.find? fun b => Buf.number b == addr.toNat / 2 ^ 28 with
    | some b => .buffer b
    | none => .reserved

/-- offset = addr[27:0] (R102). -/
def offsetOf (addr : Word) : Nat := addr.toNat % 2 ^ 28

/-- Which memories the host may write (R102, R60). -/
def Buf.hostWritable : Buf → Bool
  | .ft | .sb | .rb | .cb | .bb => true
  | .nd | .ct | .dt => false

/-- A word stored by the host at an offset of a window: nothing past the used bytes (R105, R108). -/
def State.storeHostWord (s : State) (b : Buf) (o : Nat) (v : Word) : State :=
  if Buf.hostWritable b && o < Buf.used s.params b then
    s.putBytes b o ((wordBytes v).take (Buf.used s.params b - o))
  else s

/-- A write to a window while IDLE: any write to window 1 also clears the valid bits (R54, R108). -/
def State.writeBufIdle (s : State) (b : Buf) (o : Nat) (v : Word) : State :=
  match b with
  | .ft => (s.storeHostWord .ft o v).clearValid
  | .nd => s.storeHostWord .nd o v
  | .ct => s.storeHostWord .ct o v
  | .dt => s.storeHostWord .dt o v
  | .sb => s.storeHostWord .sb o v
  | .rb => s.storeHostWord .rb o v
  | .cb => s.storeHostWord .cb o v
  | .bb => s.storeHostWord .bb o v

/-! ## Host accesses -/

/-- `MemRead(addr, 4)` (R104): the word, and the state after the read. A read changes nothing; while
BUSY a read of windows 1-8 uses up a fresh draw (R422; log 4). -/
def State.memRead (s : State) (addr : Word) : Word × State :=
  match windowOf addr with
  | .regs =>
    match regAt (offsetOf addr) with
    | some r => (s.readReg r, s)
    | none => (0, s)
  | .buffer b =>
    if s.busy then (s.drawnWord addr.toNat, s.nextDraw) else (s.hostWord b (offsetOf addr), s)
  | .reserved => (0, s)

/-- `MemWrite(addr, 4, v)` (R105). -/
def State.memWrite (s : State) (addr : Word) (v : Word) : State :=
  match windowOf addr with
  | .regs =>
    match regAt (offsetOf addr) with
    | some r => if s.busy then s.writeRegBusy r v else s.writeRegIdle r v
    | none => s
  | .buffer b => if s.busy then s else s.writeBufIdle b (offsetOf addr) v
  | .reserved => s

/-- Only 32-bit accesses at 4-byte-aligned addresses are legal (R103). -/
def Transaction.legal (t : Transaction) : Bool :=
  (match t.size with
    | .four => true
    | .one | .two => false) && t.addr.toNat % 4 == 0

/-- The block's answer to a transaction, and the state after it (R100, R103). -/
def State.access (s : State) (t : Transaction) : Reply × State :=
  if Transaction.legal t then
    match t.kind with
    | .read => (.data (s.memRead t.addr).1, (s.memRead t.addr).2)
    | .write => (.ok, s.memWrite t.addr t.wdata)
  else (.busError, s)

/-! ## The platform address -/

/-- The physical address of a block address (R101). -/
def Params.physical (p : Params) (addr : Word) : Nat := p.base + addr.toNat

/-- The block address of a physical address, if it lies in the block (R101; log 19). -/
def Params.blockAddr (p : Params) (phys : Nat) : Option Word :=
  if p.base ≤ phys && phys < p.base + 2 ^ 32 then some (BitVec.ofNat 32 (phys - p.base)) else none

end Sys2Proof.Machine
end

