-- ==== Sys2Proof/Machine/HostProgram.lean ====
section
/-! DEFINITION. The host's side: a turn of the host, and the host program notation of
spec/30_encoding.md R160-R167 as host operations. -/

namespace Sys2Proof.Machine

open Sys2Proof

/-! ## Addresses and transactions of the notation -/

/-- A register name as an address (R161). -/
def regAddr (r : Reg) : Word := BitVec.ofNat 32 (Reg.offset r)

/-- `SB+o` and the like (R161). -/
def bufAddr (b : Buf) (o : Nat) : Word := BitVec.ofNat 32 (Buf.base b + o)

/-- The block address an ADDR operand stands for (R161). -/
def HostAddr.word : HostAddr → Word
  | .const addr => addr
  | .reg r => regAddr r
  | .window b o => bufAddr b o
  | .rbValue i => bufAddr .rb (8 * i)
  | .rbCount i => bufAddr .rb (8 * i + 4)
  | .ftSymbol i => bufAddr .ft (8 * i)
  | .ftCount i => bufAddr .ft (8 * i + 4)
  | .cb i => bufAddr .cb (4 * i)
  | .dtPrefix k => bufAddr .dt (8 * k)
  | .dtSymbol k => bufAddr .dt (8 * k + 4)
  | .ndFlags j => bufAddr .nd (32 * j)
  | .ndSymbol j => bufAddr .nd (32 * j + 4)
  | .ndFreq j => bufAddr .nd (32 * j + 8)
  | .ndLeft j => bufAddr .nd (32 * j + 12)
  | .ndRight j => bufAddr .nd (32 * j + 16)
  | .ctFlags x => bufAddr .ct (64 * x)
  | .ctLen x => bufAddr .ct (64 * x + 4)
  | .ctCode0 x => bufAddr .ct (64 * x + 32)

/-- `wr ADDR, VALUE` as a transaction (R160). -/
def writeWord (addr v : Word) : Transaction :=
  { kind := .write, addr := addr, size := .four, wdata := v }

/-- `rd ADDR` as a transaction (R160). -/
def readWord (addr : Word) : Transaction :=
  { kind := .read, addr := addr, size := .four, wdata := 0 }

/-! ## Expansion -/

/-- `cmd MNEM` (R162). -/
def cmdOps (i : Instr) : List HostOp := [.access (writeWord (regAddr .cmd) (encode i)) none]

/-- `run MNEM -> s` (R164). -/
def runOps (i : Instr) (name : Option String) : List HostOp := cmdOps i ++ [.wait name]

/-- Commands run one after the other, stopping at the first whose STATUS.ERR is 1 (R166). -/
def runAllOps : List Instr → List HostOp
  | [] => []
  | i :: is =>
    match is with
    | [] => runOps i none
    | _ :: _ => runOps i none ++ .stopOnErr (runAllOps is).length :: runAllOps is

/-- Bytes packed into words little-endian, the last word padded with zero bytes (R167). -/
def loadOps (addr : Word) : List Byte → List HostOp
  | [] => []
  | [b0] => [.access (writeWord addr (wordOfBytes b0 0 0 0)) none]
  | [b0, b1] => [.access (writeWord addr (wordOfBytes b0 b1 0 0)) none]
  | [b0, b1, b2] => [.access (writeWord addr (wordOfBytes b0 b1 b2 0)) none]
  | b0 :: b1 :: b2 :: b3 :: bs =>
    .access (writeWord addr (wordOfBytes b0 b1 b2 b3)) none :: loadOps (addr + 4) bs

/-- The operations a line stands for (R160-R167). -/
def HostLine.expand : HostLine → List HostOp
  | .wr addr v => [.access (writeWord (HostAddr.word addr) v) none]
  | .rd addr name => [.access (readWord (HostAddr.word addr)) name]
  | .cmd i => cmdOps i
  | .wait name => [.wait name]
  | .run i name => runOps i name
  | .ack => [.access (writeWord (regAddr .status) 0x00000002) none]
  | .ackdrop => [.access (writeWord (regAddr .status) 0x00000020) none]
  | .hufEncode => runAllOps [.hufFreq, .hufTree, .hufCodes, .hufPack]
  | .hufDecode => runAllOps [.hufTree, .hufUnpack]
  | .ldBytes addr bs => loadOps (HostAddr.word addr) bs
  | .expect addr v => [.expect (HostAddr.word addr) v]

/-- A host program is a sequence of lines (R160). -/
def programOps (lines : List HostLine) : List HostOp := lines.flatMap HostLine.expand

/-! ## A turn of the host -/

/-- The host has the answer `r`; `rest` is what it does next. A name given is bound to a word that
was read (R160). -/
def State.answered (s : State) (r : Reply) (name : Option String) (rest : List HostOp) : State :=
  { s with host := { s.host with
      program := rest
      replies := r :: s.host.replies
      names :=
        match name, r with
        | some x, .data v => (x, v) :: s.host.names
        | _, _ => s.host.names } }

/-- Whether the last answer is a STATUS value with ERR = 1 (R166). -/
def State.lastReadErr (s : State) : Bool :=
  match s.host.replies with
  | .data v :: _ => v.getLsbD 2
  | _ => false

/-- One turn of the host: its next operation, one transaction at most (R100, R160-R167). -/
def State.hostTurn (s : State) : State :=
  match s.host.program with
  | [] => s
  | .access t name :: rest => (s.access t).2.answered (s.access t).1 name rest
  | .wait name :: rest =>
    let t := readWord (regAddr .status)
    if s.busy then (s.access t).2.answered (s.access t).1 none (.wait name :: rest)
    else (s.access t).2.answered (s.access t).1 name rest
  | .stopOnErr k :: rest =>
    { s with host := { s.host with
        program := if s.lastReadErr then rest.drop k else rest } }
  | .expect addr v :: rest =>
    let t := readWord addr
    let u := (s.access t).2.answered (s.access t).1 none rest
    { u with host := { u.host with
        testFailed := u.host.testFailed || (s.access t).1 != .data v } }

end Sys2Proof.Machine
end

