-- ==== Sys2Proof/Machine/Step.lean ====
section
/-! DEFINITION. One step: a turn of the host, of the engine or of the reset input
(spec/20_memory.md R116, spec/60_exceptions.md R379). -/

namespace Sys2Proof.Machine

open Sys2Proof

/-- A turn of the engine: the completion step of the command it runs (R182), nothing while idle. -/
def engineTurn (s : State) : Host.Outcome State Fault Refusal :=
  match s.phase with
  | .idle => .next s
  | .busy w =>
    match decode w with
    | .ok i => exec i s
    | .error _ => completeIllegal w s

/-- One step. The next turn of the schedule is taken; when the schedule is used up, a BUSY engine
completes and otherwise the host moves, so a completion is never postponed for ever (R431; log 5). -/
def step (s : State) : Host.Outcome State Fault Refusal :=
  match s.schedule with
  | .host :: rest => .next (State.hostTurn { s with schedule := rest })
  | .engine :: rest => engineTurn { s with schedule := rest }
  | .reset :: rest => .next (State.resetBlock { s with schedule := rest })
  | [] => if s.busy then engineTurn s else .next s.hostTurn

/-- The state with a command word accepted and the engine's turn next, so that the very next step
runs exactly it (log 9). The block fetches nothing: a command reaches the engine by acceptance
(R110, R180). -/
def State.withFetchWord (s : State) (_nbits w : Nat) : State :=
  { s.accept (BitVec.ofNat 32 w) with schedule := .engine :: s.schedule }

end Sys2Proof.Machine
end

