-- ==== Sys2Proof/Machine/Container.lean ====
section
/-! DEFINITION. The host-side containers of spec/00_scope.md R20-R26: host software, outside the
block, modelled so that a whole round trip can be stated. A container is its fields; its text is a
function of them (log 15). -/

namespace Sys2Proof.Machine

open Sys2Proof

/-- The fields of an RLE container (R21). -/
structure RleContainer where
  height : Nat
  width  : Nat
  runs   : List (Nat × Nat)
  deriving DecidableEq, Repr

/-- The fields of an LZW container (R22). -/
structure LzwContainer where
  height : Nat
  width  : Nat
  codes  : List Nat
  deriving DecidableEq, Repr

/-- The fields of a Huffman container (R23). The end-of-stream line has symbol 0x100. -/
structure HuffmanContainer where
  height  : Nat
  width   : Nat
  table   : List (Nat × Nat)
  /-- The Padding line, if there is one. -/
  padding : Option Nat
  bits    : List Bool
  deriving DecidableEq, Repr

/-! ## Text -/

/-- Two decimal numbers with a separator. -/
def pairText (sep : String) (x y : Nat) : String := toString x ++ sep ++ toString y

/-- R21. -/
def RleContainer.lines (c : RleContainer) : List String :=
  pairText " " c.height c.width :: c.runs.map fun r => pairText " " r.1 r.2

/-- R22. -/
def LzwContainer.lines (c : LzwContainer) : List String :=
  pairText "," c.height c.width :: c.codes.map toString

/-- A symbol of a frequency line; the end-of-stream spelling is the host's (R26, log 15). -/
def symbolText (x : Nat) : String := if x = 0x100 then Config.eosSpelling else toString x

/-- R23: header, frequency lines, the Padding line, a separator of 50 `-`, the bitstring. -/
def HuffmanContainer.lines (c : HuffmanContainer) : List String :=
  [pairText "," c.height c.width] ++
    c.table.map (fun e => symbolText e.1 ++ " " ++ toString e.2) ++
    (match c.padding with
      | some p => ["Padding: " ++ toString p]
      | none => []) ++
    [String.ofList (List.replicate 50 '-'),
      String.ofList (c.bits.map fun b => if b then '1' else '0')]

/-! ## Container to block -/

/-- One write of the host: the low 32 bits of the number (log 20). -/
def wrOps (addr : Word) (x : Nat) : List HostOp :=
  [.access (writeWord addr (BitVec.ofNat 32 x)) none]

/-- DIM from a header. PRESUMED (log 15): refused where a dimension does not fit its 16 bits. -/
def dimOps (height width : Nat) : Option (List HostOp) :=
  if height < 2 ^ 16 && width < 2 ^ 16 then
    some (wrOps (regAddr .dim) (height * 2 ^ 16 + width))
  else none

/-- Words written one after the other from an offset of a window on. DESIGN CHOICE (log 20): R24 to
R26 do not say what the host does with more entries than the window holds, or an entry total the
count register has no room for; it issues every write, and `wrOps` keeps the low 32 bits. -/
def wordsOps (b : Buf) (o : Nat) : List Nat → List HostOp
  | [] => []
  | x :: xs => wrOps (bufAddr b o) x ++ wordsOps b (o + 4) xs

/-- R24: the host refuses a count that does not fit 32 bits. DESIGN CHOICE (log 20): R24 names counts
only, and the model's host refuses a value that does not fit 32 bits too. -/
def RleContainer.load (c : RleContainer) : Option (List HostOp) :=
  if c.runs.any fun r => 2 ^ 32 ≤ r.1 || 2 ^ 32 ≤ r.2 then none
  else
    (dimOps c.height c.width).map fun dim =>
      dim ++ wordsOps .rb 0 (c.runs.flatMap fun r => [r.1, r.2]) ++
        wrOps (regAddr .runCount) c.runs.length

/-- R25. DESIGN CHOICE (log 20): R25 names no refusal, and the model's host refuses a code that does
not fit 32 bits. -/
def LzwContainer.load (c : LzwContainer) : Option (List HostOp) :=
  if c.codes.any fun x => 2 ^ 32 ≤ x then none
  else
    (dimOps c.height c.width).map fun dim =>
      dim ++ wordsOps .cb 0 c.codes ++ wrOps (regAddr .codeCount) c.codes.length

/-- The whole-byte stream and PAD of a container's bitstring (R26): read as including its pad bits
where its length is a multiple of 8, as excluding them otherwise; none where the container is
inconsistent. DESIGN CHOICE (log 20): where the Padding value asks for more bits to be removed than
the text has, all of them are, and the stream is empty. -/
def HuffmanContainer.stream (c : HuffmanContainer) : Option (List Bool × Nat) :=
  let p := c.padding.getD 0
  let l := c.bits.length
  if l % 8 = 0 then
    some (if 8 ≤ p then c.bits.take (l - 8 * (p / 8)) else c.bits, p % 8)
  else
    let z := 8 - l % 8
    match c.padding with
    | some q => if q = z then some (c.bits ++ List.replicate z false, z) else none
    | none => some (c.bits ++ List.replicate z false, z)

/-- R26: the host keeps FT in file order. DESIGN CHOICE (log 20): R26 names no refusal but the
inconsistent padding, and the model's host refuses a symbol or a count that does not fit 32 bits; of
a line total past FREQ_COUNT's nine bits the block keeps the low ones (R43); and a bitstring of more
bytes than window 8 holds (2^28) is written on past BB, the address wrapping at 2^32, with the low 32
bits of its byte total in BYTE_LEN. -/
def HuffmanContainer.load (c : HuffmanContainer) : Option (List HostOp) :=
  if c.table.any fun e => 2 ^ 32 ≤ e.1 || 2 ^ 32 ≤ e.2 then none
  else
    match dimOps c.height c.width, c.stream with
    | some dim, some (bits, pad) =>
      some (dim ++ wordsOps .ft 0 (c.table.flatMap fun e => [e.1, e.2]) ++
        wrOps (regAddr .freqCount) c.table.length ++
        loadOps (bufAddr .bb 0) (bytesOfBits (bits.length / 8) bits) ++
        wrOps (regAddr .byteLen) (bits.length / 8) ++ wrOps (regAddr .pad) pad)
    | _, _ => none

/-! ## Block to container -/

/-- The reverse of R24. -/
def State.rleContainer (s : State) : RleContainer :=
  { height := s.height.toNat, width := s.width.toNat, runs := s.runs }

/-- The reverse of R25. -/
def State.lzwContainer (s : State) : LzwContainer :=
  { height := s.height.toNat, width := s.width.toNat, codes := s.codes }

/-- The reverse of R26: the BIT_LEN + PAD bits of BB; the Padding line in the grayscale variant
only (R23). -/
def State.huffmanContainer (s : State) : HuffmanContainer :=
  { height := s.height.toNat
    width := s.width.toNat
    table := s.table
    padding := if s.cfg.alpha then some s.pad.toNat else none
    bits := (List.range (s.bitLen.toNat + s.pad.toNat)).map s.streamBit }

end Sys2Proof.Machine
end

