-- ==== Sys2Proof/Safety.lean ====
section
/-! DEFINITION. What a safe run means: the invariants of the block (spec/10_state.md R44, R48, R50,
spec/60_exceptions.md R370), and the write ranges a command keeps to (spec/30_encoding.md R144).
The claims are stated in these terms. -/

namespace Sys2Proof.Machine

open Sys2Proof

/-! ## Invariants -/

/-- Every memory is in its canonical form and holds only storage that exists (R102). -/
def State.memoriesOk (s : State) : Prop :=
  ∀ b, (s.mem b).wf ∧ ∀ c ∈ s.mem b, c.1 < Buf.used s.params b ∧ Buf.stores b c.1 = true

/-- While a command runs, CMD and LAST_OP name it and no result is shown (R44, R180). -/
def State.busyOk (s : State) : Prop :=
  ∀ w, s.phase = .busy w →
    s.cmd = w ∧ s.status.lastOp = w.extractLsb' 0 4 ∧ s.status.done = false ∧
      s.status.err = false ∧ s.status.errcode = 0 ∧ s.errInfo = 0

/-- ERRCODE is one of the seven values of R370, ERR says whether it is one of the six errors, and
ERR_INFO is 0 without an error (R37, R40). -/
def State.resultOk (s : State) : Prop :=
  s.status.errcode.toNat ≤ 6 ∧ (s.status.err = true ↔ s.status.errcode ≠ 0) ∧
    (s.status.err = false → s.errInfo = 0)

/-- TREE_VALID means: ND, NODE_COUNT and ROOT hold the tree of FT under CFG (R48). -/
def State.treeOk (s : State) : Prop :=
  s.status.treeValid = true →
    tableCheck s.alphabet s.cfg.eosEn s.table = none ∧ s.nodes = buildTree s.table ∧
      s.root.toNat + 1 = s.nodeCount.toNat

/-- CODES_VALID means: TREE_VALID, and CT holds the codes of that tree (R48). -/
def State.codesOk (s : State) : Prop :=
  s.status.codesValid = true →
    s.status.treeValid = true ∧
      ∀ x, x < 257 →
        s.codeEntry x = codeOf (visitTree s.nodeAt maxLevels s.root.toNat []) x

/-- The draw the memories read as is an older one than the next (log 2). -/
def State.drawsOk (s : State) : Prop := s.memDraw < s.draws

/-! ## Between two commands -/

/-- `t` is `s` after host accesses that touch no command's input: reads, writes of STATUS and INT_EN,
and the acceptance of the next command (R38, R39, R113, R180). -/
def State.handedOn (s t : State) : Prop :=
  t = { s with
    phase := t.phase
    cmd := t.cmd
    status :=
      { t.status with treeValid := s.status.treeValid, codesValid := s.status.codesValid }
    doneIe := t.doneIe
    errInfo := t.errInfo
    draws := t.draws
    schedule := t.schedule
    host := t.host }

/-! ## Trees -/

/-- The node a path of edges leads to from node `j`: LEFT at a 0, RIGHT at a 1 (R310). No node is
passed that is a leaf, and none that is missing. -/
def walkPath (node : Nat → Node) (j : Nat) : List Bool → Option Nat
  | [] => some j
  | b :: bs =>
    if (node j).isLeaf then none
    else
      let next := if b then (node j).right else (node j).left
      if next = noNode then none else walkPath node next bs

/-- The string of a code under the dictionary DT holds (R58); `fuel` bounds the prefix chain. -/
def State.stringOf (s : State) : (fuel : Nat) → Nat → List Nat
  | 0, k => [k]
  | fuel + 1, k =>
    if k < s.alphabet then [k]
    else s.stringOf fuel (s.dictAt k).1 ++ [(s.dictAt k).2]

/-- What a list of codes stands for (R58, R240, R241): a seed for its symbol, and code A + j for the
string of code j followed by the first symbol of the next code's string. The KwKwK case is the one
where that next code is the code itself. -/
def spellsCodes (a : Nat) (codes : List Nat) (es : List (List Nat)) : Prop :=
  es.length = codes.length ∧
  ∀ i c, codes[i]? = some c →
    (c < a → es[i]? = some [c]) ∧
    (a ≤ c → ∃ j x y, j < i ∧ c = a + j ∧ es[j]? = some x ∧ es[j + 1]? = some y ∧
      es[i]? = some (x ++ [y.headD 0]))

/-- The strings that coding the phrases `es` inserts, in order: each phrase but the last, followed by
the first symbol of the next phrase (R233, R235). -/
def phraseEntries (es : List (List Nat)) : List (List Nat) :=
  (es.zip es.tail).map fun p => p.1 ++ [p.2.headD 0]

/-! ## Write ranges -/

/-- How many bytes, from offset 0 on, of each memory a command may write (R144). -/
def State.writeExtent (s : State) : Instr → Buf → Nat
  | .nop, _ => 0
  | .rleEnc, .rb => 8 * s.n
  | .rleEnc, _ => 0
  | .rleDec, .sb => s.n
  | .rleDec, _ => 0
  | .lzwEnc, .cb => 4 * s.n
  | .lzwEnc, .dt => 8 * s.params.dictCap
  | .lzwEnc, _ => 0
  | .lzwDec, .sb => s.n
  | .lzwDec, .dt => 8 * s.params.dictCap
  | .lzwDec, _ => 0
  | .hufFreq, .ft => 8 * 257
  | .hufFreq, _ => 0
  | .hufTree, .nd => 32 * 513
  | .hufTree, _ => 0
  | .hufCodes, .ct => 64 * 257
  | .hufCodes, _ => 0
  | .hufPack, .bb => s.params.bitCap
  | .hufPack, _ => 0
  | .hufUnpack, .sb => s.n
  | .hufUnpack, _ => 0

/-- Which result registers a command may write (R144). Every command also writes STATUS and
ERR_INFO at its completion. -/
def Instr.writesReg : Instr → Reg → Bool
  | .rleEnc, .runCount => true
  | .lzwEnc, .codeCount | .lzwEnc, .dictSize => true
  | .lzwDec, .dictSize => true
  | .hufFreq, .freqCount => true
  | .hufTree, .nodeCount | .hufTree, .root => true
  | .hufPack, .bitLen | .hufPack, .byteLen | .hufPack, .pad => true
  | _, .status | _, .errInfo => true
  | _, _ => false

end Sys2Proof.Machine
end

