-- ==== Sys2Proof/Certificates/Slice0/Obligations.lean ====
section
/-! DEFINITION. The statements for the provers, in the order of OBLIGATIONS.json. Each says which
rule of the spec it formalises. Where a statement speaks of a draw, of `draws`, of `schedule` or of
`host`, it speaks of the model's own state (log 2 to 6). -/

open Sys2Proof Sys2Proof.Machine

/-! ## Command words -/

/-- R141: the ten command words, and reserved words beside them. -/
def Obligations.CommandWordsOfTheTable : Prop :=
  decode 0x00000000 = .ok .nop ∧ decode 0x00000001 = .ok .rleEnc ∧
  decode 0x00000002 = .ok .rleDec ∧ decode 0x00000003 = .ok .lzwEnc ∧
  decode 0x00000004 = .ok .lzwDec ∧ decode 0x00000005 = .ok .hufFreq ∧
  decode 0x00000006 = .ok .hufTree ∧ decode 0x00000007 = .ok .hufCodes ∧
  decode 0x00000008 = .ok .hufPack ∧ decode 0x00000009 = .ok .hufUnpack ∧
  decode 0x0000000A = .error .reservedOpcode ∧ decode 0x0000000B = .error .reservedOpcode ∧
  decode 0x0000000C = .error .reservedOpcode ∧ decode 0x0000000D = .error .reservedOpcode ∧
  decode 0x0000000E = .error .reservedOpcode ∧ decode 0x0000000F = .error .reservedOpcode ∧
  decode 0x00000010 = .error .reservedBits ∧ decode 0x80000000 = .error .reservedBits

/-- R140, R142: the decoder and the encoder agree, in both directions. -/
def Obligations.DecodeEncodeAgree : Prop :=
  (∀ i, Instr.wellFormed i = true → decode (encode i) = .ok i) ∧
  (∀ w i, decode w = .ok i → encode i = w)

/-- R189: every illegal word completes with IllegalCommand(w), and nothing outside STATUS and
ERR_INFO changes. -/
def Obligations.IllegalWordsCompleteWithTheWord : Prop :=
  ∀ (s : State) (w : Word), s.phase = .busy w → (16 ≤ w.toNat ∨ 10 ≤ w.toNat % 16) →
    engineTurn s = .next
      { s with
        phase := .idle
        status := { s.status with done := true, err := true, errcode := 6 }
        errInfo := w }

/-! ## Steps -/

/-- A step runs the accepted command: at an engine turn of the schedule, and when the schedule is
used up; and a word loaded by `withFetchWord` is accepted and run by the very next step (log 9). -/
def Obligations.StepRunsTheAcceptedCommand : Prop :=
  (∀ (s : State) (w : Word) (i : Instr), s.phase = .busy w → decode w = .ok i →
    (∀ rest, s.schedule = .engine :: rest → step s = exec i { s with schedule := rest }) ∧
    (s.schedule = [] → step s = exec i s)) ∧
  (∀ (s : State) (i : Instr),
    step (s.withFetchWord 32 (encode i).toNat) = exec i (s.accept (encode i)))

/-- R100, R160, R163, R166, R167: what a host turn does, for each operation: an access, with its name
bound to the word read; a read of STATUS that waits while BUSY is 1; the stop after a STATUS value
with ERR = 1; a test of a word read. And which operations the lines of R162 to R166 stand for; that
a stop leaves out the rest of its own line only is the model's reading (log 17, DEDUCED). -/
def Obligations.HostTurnPerformsOneTransaction : Prop :=
  (∀ (s : State) (ops : List HostOp) (rest : List Turn), s.schedule = .host :: rest →
    let u : State := { s with schedule := rest }
    let bind : Option String → Reply → List (String × Word) := fun name r =>
      match name, r with
      | some x, .data v => (x, v) :: s.host.names
      | _, _ => s.host.names
    (s.host.program = [] → step s = .next u) ∧
    (∀ t name, s.host.program = .access t name :: ops →
      step s = .next
        { (u.access t).2 with
          host := { s.host with
            program := ops
            replies := (u.access t).1 :: s.host.replies
            names := bind name (u.access t).1 } }) ∧
    (∀ name, s.host.program = .wait name :: ops →
      let r : Reply := .data (s.readReg .status)
      (s.busy = true →
        step s = .next { u with host := { s.host with replies := r :: s.host.replies } }) ∧
      (s.busy = false →
        step s = .next
          { u with host := { s.host with
              program := ops
              replies := r :: s.host.replies
              names := bind name r } })) ∧
    (∀ k v rs, s.host.program = .stopOnErr k :: ops → s.host.replies = .data v :: rs →
      step s = .next
        { u with host := { s.host with
            program := if v.getLsbD 2 then ops.drop k else ops } }) ∧
    (∀ addr v, s.host.program = .expect addr v :: ops →
      step s = .next
        { (u.access (readWord addr)).2 with
          host := { s.host with
            program := ops
            replies := (u.access (readWord addr)).1 :: s.host.replies
            testFailed :=
              s.host.testFailed || decide ((u.access (readWord addr)).1 ≠ .data v) } })) ∧
  (∀ i name,
    HostLine.expand (.cmd i) = [.access (writeWord 0x0000000C (encode i)) none] ∧
    HostLine.expand (.run i name) =
      [.access (writeWord 0x0000000C (encode i)) none, .wait name]) ∧
  HostLine.expand .ack = [.access (writeWord 0x00000010 0x00000002) none] ∧
  HostLine.expand .ackdrop = [.access (writeWord 0x00000010 0x00000020) none] ∧
  HostLine.expand .hufEncode =
    [.access (writeWord 0x0000000C 5) none, .wait none, .stopOnErr 8,
      .access (writeWord 0x0000000C 6) none, .wait none, .stopOnErr 5,
      .access (writeWord 0x0000000C 7) none, .wait none, .stopOnErr 2,
      .access (writeWord 0x0000000C 8) none, .wait none] ∧
  HostLine.expand .hufDecode =
    [.access (writeWord 0x0000000C 6) none, .wait none, .stopOnErr 2,
      .access (writeWord 0x0000000C 9) none, .wait none]

/-! ## Host accesses -/

/-- R180: acceptance of a command word. -/
def Obligations.IdleCommandWriteIsAccepted : Prop :=
  ∀ (s : State) (w : Word), s.phase = .idle →
    s.access (writeWord 0x0000000C w) =
      (.ok,
        { s with
          phase := .busy w
          cmd := w
          status := { s.status with
            done := false, err := false, errcode := 0, lastOp := w.extractLsb' 0 4 }
          errInfo := 0 })

/-- R181: a command word written while BUSY is dropped. -/
def Obligations.BusyCommandWriteIsDropped : Prop :=
  ∀ (s : State) (v w : Word), s.phase = .busy v →
    s.access (writeWord 0x0000000C w) =
      (.ok, { s with status := { s.status with dropped := true } })

/-- R421: every other write while BUSY but those to STATUS and INT_EN has no effect at all. -/
def Obligations.BusyWritesAreIgnored : Prop :=
  ∀ (s : State) (t : Transaction), s.busy = true → t.kind = .write → t.size = .four →
    t.addr.toNat % 4 = 0 → t.addr ≠ 0x0000000C → t.addr ≠ 0x00000010 → t.addr ≠ 0x00000014 →
      s.access t = (.ok, s)

/-- R103: an access of another size or alignment gets BUS_ERROR and has no effect; a 32-bit access
at a 4-byte-aligned address gets no BUS_ERROR. -/
def Obligations.IllegalAccessesHaveNoEffect : Prop :=
  ∀ (s : State) (t : Transaction),
    ((t.size ≠ .four ∨ t.addr.toNat % 4 ≠ 0) → s.access t = (.busError, s)) ∧
    (t.size = .four → t.addr.toNat % 4 = 0 → (s.access t).1 ≠ .busError)

/-- R113: a read has no side effect. While BUSY it may use up a draw, which is the model's own. -/
def Obligations.ReadsHaveNoSideEffects : Prop :=
  ∀ (s : State) (t : Transaction), t.kind = .read →
    (s.access t).2 = { s with draws := (s.access t).2.draws } ∧
      (s.busy = false → (s.access t).2 = s)

/-- R38: write 1 to clear, while idle and while BUSY; and a CMD write while BUSY sets DROPPED. -/
def Obligations.StatusIsWriteOneToClear : Prop :=
  ∀ (s : State) (v : Word),
    s.access (writeWord 0x00000010 v) =
      (.ok,
        { s with status := { s.status with
          done := s.status.done && !v.getLsbD 1
          dropped := s.status.dropped && !v.getLsbD 5 } }) ∧
    (s.busy = true → (s.access (writeWord 0x0000000C v)).2.status.dropped = true)

/-- R102, R104 to R108, R113: while idle a read of a window gives the word of its four bytes, the
lowest first: the byte stored where the layout has one, bit 0 alone of FLAGS, 0 at reserved places
and past the used bytes; and it changes nothing. A word the host writes to a window it may write
sets the used bytes of that word and no other byte of any memory, no register and not the phase,
but that a write to FT clears the valid bits. -/
def Obligations.WindowWriteThenRead : Prop :=
  ∀ (s : State) (b : Buf) (o : Nat), s.busy = false → o % 4 = 0 → o < 2 ^ 28 →
    let used : Nat :=
      match b with
      | .ft => 257 * 8
      | .nd => 513 * 32
      | .ct => 257 * 64
      | .dt => 8 * s.params.dictCap
      | .sb => s.params.maxSamples
      | .rb => 8 * s.params.maxSamples
      | .cb => 4 * s.params.maxSamples
      | .bb => s.params.bitCap
    let seen : Nat → Byte := fun k =>
      if used ≤ k then 0
      else
        match b with
        | .nd =>
          if k % 32 = 0 then s.byte .nd k &&& 1
          else if 4 ≤ k % 32 ∧ k % 32 < 20 then s.byte .nd k
          else 0
        | .ct =>
          if k % 64 = 0 then s.byte .ct k &&& 1
          else if (4 ≤ k % 64 ∧ k % 64 < 8) ∨ 32 ≤ k % 64 then s.byte .ct k
          else 0
        | .ft | .dt | .sb | .rb | .cb | .bb => s.byte b k
    s.access (readWord (bufAddr b o)) =
      (.data (seen (o + 3) ++ seen (o + 2) ++ seen (o + 1) ++ seen o), s) ∧
    (b ≠ .nd → b ≠ .ct → b ≠ .dt → ∀ v : Word,
      let t := (s.access (writeWord (bufAddr b o) v)).2
      (s.access (writeWord (bufAddr b o) v)).1 = .ok ∧
      (∀ b' k, t.byte b' k =
        if b' = b ∧ o ≤ k ∧ k < o + 4 ∧ k < used then v.extractLsb' (8 * (k - o)) 8
        else s.byte b' k) ∧
      (o + 4 ≤ used → (t.access (readWord (bufAddr b o))).1 = .data v) ∧
      t.phase = s.phase ∧
      (∀ r, (b = .ft → r ≠ .status) → t.readReg r = s.readReg r) ∧
      (b = .ft → t.status = { s.status with treeValid := false, codesValid := false }))

/-- R105, R109: writes to ND, CT, DT and to reserved windows and offsets are ignored, and reserved
windows and offsets read 0, whether the block is idle or BUSY. -/
def Obligations.ReadOnlyAndReservedPlaces : Prop :=
  ∀ (s : State) (addr v : Word), addr.toNat % 4 = 0 →
    ((0x20000000 ≤ addr.toNat ∧ addr.toNat < 0x50000000) → s.access (writeWord addr v) = (.ok, s)) ∧
    ((0x90000000 ≤ addr.toNat ∨ addr = 0x1C ∨ (0x50 ≤ addr.toNat ∧ addr.toNat < 0x10000000)) →
      s.access (writeWord addr v) = (.ok, s) ∧ s.access (readWord addr) = (.data 0, s))

/-- R31 to R47: in either phase a read of a register gives its word and changes nothing, and the word
is made of the state's fields at the places the register map gives, each bit of STATUS at its own.
While idle: what a writable register reads as after a write, that a write to a read-only one is
ignored, and that a write to a register but CMD and STATUS changes no other register, not the phase
and no byte of memory; at CFG and FREQ_COUNT it also clears the two valid bits of STATUS, and
nothing else of STATUS. -/
def Obligations.RegistersReadBack : Prop :=
  ∀ s : State,
    (∀ r, s.access (readWord (regAddr r)) = (.data (s.readReg r), s)) ∧
    (s.readReg .status).getLsbD 0 = s.busy ∧
    (s.busy = true ↔ ∃ w, s.phase = .busy w) ∧
    (s.readReg .status).getLsbD 1 = s.status.done ∧
    (s.readReg .status).getLsbD 2 = s.status.err ∧
    (s.readReg .status).getLsbD 3 = s.status.treeValid ∧
    (s.readReg .status).getLsbD 4 = s.status.codesValid ∧
    (s.readReg .status).getLsbD 5 = s.status.dropped ∧
    (s.readReg .status).extractLsb' 6 2 = 0 ∧
    (s.readReg .status).extractLsb' 8 4 = s.status.errcode ∧
    (s.readReg .status).extractLsb' 12 4 = s.status.lastOp ∧
    (s.readReg .status).extractLsb' 16 16 = 0 ∧
    s.readReg .id = 0x434F5245 ∧
    (s.readReg .cfg).toNat = s.cfg.alpha.toNat + 2 * s.cfg.eosEn.toNat ∧
    (s.readReg .dim).toNat = 2 ^ 16 * s.height.toNat + s.width.toNat ∧
    s.readReg .cmd = s.cmd ∧
    (s.readReg .intEn).toNat = s.doneIe.toNat ∧
    s.readReg .errInfo = s.errInfo ∧
    s.readReg .runCount = s.runCount ∧
    s.readReg .codeCount = s.codeCount ∧
    s.readReg .dictSize = s.dictSize ∧
    (s.readReg .freqCount).toNat = s.freqCount.toNat ∧
    (s.readReg .nodeCount).toNat = s.nodeCount.toNat ∧
    (s.readReg .root).toNat = s.root.toNat ∧
    s.readReg .bitLen = s.bitLen ∧
    s.readReg .byteLen = s.byteLen ∧
    (s.readReg .pad).toNat = s.pad.toNat ∧
    s.readReg .paramMaxSamples = BitVec.ofNat 32 s.params.maxSamples ∧
    s.readReg .paramDictCap = BitVec.ofNat 32 s.params.dictCap ∧
    s.readReg .paramBitCap = BitVec.ofNat 32 s.params.bitCap ∧
    (s.busy = false → ∀ v : Word,
      (∀ r, (r = .dim ∨ r = .runCount ∨ r = .codeCount ∨ r = .byteLen) →
        ((s.access (writeWord (regAddr r) v)).2.access (readWord (regAddr r))).1 = .data v) ∧
      (((s.access (writeWord (regAddr .cfg) v)).2.access (readWord (regAddr .cfg))).1 =
        .data (v &&& 0x3)) ∧
      (((s.access (writeWord (regAddr .intEn) v)).2.access (readWord (regAddr .intEn))).1 =
        .data (v &&& 0x1)) ∧
      (((s.access (writeWord (regAddr .freqCount) v)).2.access (readWord (regAddr .freqCount))).1 =
        .data (v &&& 0x1FF)) ∧
      (((s.access (writeWord (regAddr .pad) v)).2.access (readWord (regAddr .pad))).1 =
        .data (v &&& 0x7)) ∧
      (∀ r, (r = .id ∨ r = .errInfo ∨ r = .dictSize ∨ r = .nodeCount ∨ r = .root ∨ r = .bitLen ∨
          r = .paramMaxSamples ∨ r = .paramDictCap ∨ r = .paramBitCap) →
        s.access (writeWord (regAddr r) v) = (.ok, s)) ∧
      (∀ r, r ≠ .cmd → r ≠ .status →
        (s.access (writeWord (regAddr r) v)).1 = .ok ∧
        (s.access (writeWord (regAddr r) v)).2.phase = s.phase ∧
        (∀ r', r' ≠ r → (r' ≠ .status ∨ (r ≠ .cfg ∧ r ≠ .freqCount)) →
          (s.access (writeWord (regAddr r) v)).2.readReg r' = s.readReg r') ∧
        ((r = .cfg ∨ r = .freqCount) →
          (s.access (writeWord (regAddr r) v)).2.status =
            { s.status with treeValid := false, codesValid := false }) ∧
        (∀ b o, (s.access (writeWord (regAddr r) v)).2.byte b o = s.byte b o)))

/-- R422 with log 4: while BUSY a read of windows 1-8 returns a draw, fresh for each read, and a
register read returns its current value. -/
def Obligations.BusyWindowReadsAreDraws : Prop :=
  ∀ (s : State) (addr : Word), s.busy = true → addr.toNat % 4 = 0 →
    ((0x10000000 ≤ addr.toNat ∧ addr.toNat < 0x90000000) →
      s.access (readWord addr) =
        (.data (Config.freeWord s.draws addr.toNat), { s with draws := s.draws + 1 })) ∧
    (∀ r, s.access (readWord (regAddr r)) = (.data (s.readReg r), s))

/-! ## Reset and interrupt -/

/-- R70: the reset value of every register; PARAM registers read their parameters. -/
def Obligations.ResetRegisterValues : Prop :=
  State.reset.readReg .id = 0x434F5245 ∧ State.reset.readReg .cfg = 0x00000003 ∧
  (∀ r, (r = .dim ∨ r = .cmd ∨ r = .status ∨ r = .intEn ∨ r = .errInfo ∨ r = .runCount ∨
      r = .codeCount ∨ r = .dictSize ∨ r = .freqCount ∨ r = .nodeCount ∨ r = .root ∨
      r = .bitLen ∨ r = .byteLen ∨ r = .pad) → State.reset.readReg r = 0) ∧
  State.reset.readReg .paramMaxSamples = BitVec.ofNat 32 State.reset.params.maxSamples ∧
  State.reset.readReg .paramDictCap = BitVec.ofNat 32 State.reset.params.dictCap ∧
  State.reset.readReg .paramBitCap = BitVec.ofNat 32 State.reset.params.bitCap ∧
  State.reset.phase = .idle ∧ State.reset.irq = false

/-- R410, R411, R412: a reset turn, from any state, running command or not: every register but the
parameter readbacks takes its reset value, the engine is idle, irq is 0, and every byte of every
memory is drawn afresh. -/
def Obligations.ResetTurnRestoresRegisters : Prop :=
  ∀ (s : State) (rest : List Turn), s.schedule = .reset :: rest →
    ∃ t, step s = .next t ∧ t.phase = .idle ∧ t.irq = false ∧ t.params = s.params ∧
      (∀ r, r ≠ .paramMaxSamples → r ≠ .paramDictCap → r ≠ .paramBitCap →
        t.readReg r = State.reset.readReg r) ∧
      (∀ b o, t.byte b o = Config.freeByte s.draws (Buf.base b + o)) ∧ s.draws < t.draws

/-- R380: the level interrupt: what raises it, masks it and clears it. -/
def Obligations.InterruptFollowsDone : Prop :=
  State.reset.irq = false ∧ ∀ s : State,
    s.irq = (s.doneIe && s.status.done) ∧ s.resetBlock.irq = false ∧
    (s.busy = true → ∃ t, engineTurn s = .next t ∧ t.status.done = true ∧ t.irq = s.doneIe) ∧
    (s.doneIe = false → s.irq = false) ∧
    (∀ v : Word, v.getLsbD 1 = true → (s.access (writeWord 0x00000010 v)).2.irq = false) ∧
    (∀ w, s.phase = .idle → (s.access (writeWord 0x0000000C w)).2.irq = false) ∧
    (∀ v : Word, (s.access (writeWord 0x00000014 v)).2.status = s.status ∧
      (v.getLsbD 0 = true → (s.access (writeWord 0x00000014 v)).2.irq = s.status.done) ∧
      (v.getLsbD 0 = false → (s.access (writeWord 0x00000014 v)).2.irq = false))

/-! ## Completions and errors -/

/-- R182, R370, R381: every command, in every state, ends in one completion step, which records the
result and leaves the command's name, the inputs' registers and the interrupt enable alone. -/
def Obligations.EveryCommandCompletes : Prop :=
  ∀ (i : Instr) (s : State),
    ∃ t, exec i s = .next t ∧ t.phase = .idle ∧ t.status.done = true ∧
      (t.status.err = false → t.status.errcode = 0 ∧ t.errInfo = 0) ∧
      (t.status.err = true → 1 ≤ t.status.errcode.toNat ∧ t.status.errcode.toNat ≤ 5) ∧
      t.cmd = s.cmd ∧ t.status.lastOp = s.status.lastOp ∧ t.status.dropped = s.status.dropped ∧
      t.doneIe = s.doneIe ∧ t.cfg = s.cfg ∧ t.height = s.height ∧ t.width = s.width ∧
      t.params = s.params ∧ t.memDraw = s.memDraw ∧ t.schedule = s.schedule ∧ t.host = s.host

/-- R183, R186: the dimension check of every command that reads DIM, its two outcomes and its place
after the SequenceError check; nothing but STATUS and ERR_INFO changes. That DICT_SIZE is unchanged
after LZW_ENC and LZW_DEC is the model's reading of R186: R42 and 93 U3 call it unspecified after a
failed LZW command (log 10, DEDUCED). -/
def Obligations.DimensionCheckComesFirst : Prop :=
  ∀ (s : State) (code : BitVec 4),
    (((s.height = 0 ∨ s.width = 0) ∧ code = 1) ∨
      ((s.height ≠ 0 ∧ s.width ≠ 0 ∧
        s.params.maxSamples < s.height.toNat * s.width.toNat) ∧ code = 4)) →
    let st : Status := { s.status with done := true, err := true, errcode := code }
    let t : State := { s with phase := .idle, status := st, errInfo := 0 }
    exec .rleEnc s = .next t ∧ exec .rleDec s = .next t ∧ exec .lzwEnc s = .next t ∧
    exec .lzwDec s = .next t ∧
    exec .hufFreq s =
      .next { t with status := { st with treeValid := false, codesValid := false } } ∧
    (s.status.codesValid = true → exec .hufPack s = .next t) ∧
    (s.status.treeValid = true → exec .hufUnpack s = .next t) ∧
    (s.status.codesValid = false →
      exec .hufPack s = .next { t with status := { st with errcode := 5 } }) ∧
    (s.status.treeValid = false →
      exec .hufUnpack s = .next { t with status := { st with errcode := 5 } })

/-- R190, R186: the encoders' pre-scan reports the lowest index of a sample outside the alphabet, and
under ALPHA = 1 there is none; nothing but STATUS and ERR_INFO changes. That DICT_SIZE is unchanged
after LZW_ENC is the model's reading of R186: R42 and 93 U3 call it unspecified after a failed LZW
command (log 10, DEDUCED). -/
def Obligations.PreScanReportsTheLowestBadSample : Prop :=
  (∀ s : State, s.cfg.alpha = true → ∀ k, s.sample k ≤ s.amax) ∧
  ∀ (s : State) (k : Nat), s.height ≠ 0 → s.width ≠ 0 → s.n ≤ s.params.maxSamples → k < s.n →
    s.amax < s.sample k → (∀ j, j < k → s.sample j ≤ s.amax) →
    let st : Status := { s.status with done := true, err := true, errcode := 3 }
    let t : State := { s with phase := .idle, status := st, errInfo := BitVec.ofNat 32 k }
    exec .rleEnc s = .next t ∧ exec .lzwEnc s = .next t ∧
    exec .hufFreq s =
      .next { t with status := { st with treeValid := false, codesValid := false } } ∧
    (s.status.codesValid = true → exec .hufPack s = .next t)

/-- R375, R378: SequenceError, whatever the dimensions and counts are. -/
def Obligations.SequenceErrorsWinOverOtherErrors : Prop :=
  ∀ s : State,
    let t : State :=
      { s with
        phase := .idle
        status := { s.status with done := true, err := true, errcode := 5 }
        errInfo := 0 }
    (s.status.treeValid = false → exec .hufCodes s = .next t ∧ exec .hufUnpack s = .next t) ∧
    (s.status.codesValid = false → exec .hufPack s = .next t)

/-- R206, R240, R340, R186: the count checks of the three decoders, with nothing but STATUS and
ERR_INFO changed. That DICT_SIZE is unchanged after LZW_DEC is the model's reading of R186: R42 and
93 U3 call it unspecified after a failed LZW command (log 10, DEDUCED). -/
def Obligations.DecodersCheckTheirCounts : Prop :=
  ∀ s : State, s.height ≠ 0 → s.width ≠ 0 → s.n ≤ s.params.maxSamples →
    let t : BitVec 4 → State := fun code =>
      { s with
        phase := .idle
        status := { s.status with done := true, err := true, errcode := code }
        errInfo := 0 }
    (s.runCount = 0 → exec .rleDec s = .next (t 1)) ∧
    (s.params.maxSamples < s.runCount.toNat → s.runCount ≠ 0 → exec .rleDec s = .next (t 4)) ∧
    (s.codeCount = 0 → exec .lzwDec s = .next (t 1)) ∧
    (s.params.maxSamples < s.codeCount.toNat → s.codeCount ≠ 0 → exec .lzwDec s = .next (t 4)) ∧
    (s.status.treeValid = true → s.byteLen = 0 → exec .hufUnpack s = .next (t 1)) ∧
    (s.status.treeValid = true → s.params.bitCap < s.byteLen.toNat → s.byteLen ≠ 0 →
      exec .hufUnpack s = .next (t 4))

/-! ## NOP and RLE -/

/-- R188: NOP does nothing but complete. -/
def Obligations.NopOnlyCompletes : Prop :=
  ∀ s : State, exec .nop s = .next
    { s with
      phase := .idle
      status := { s.status with done := true, err := false, errcode := 0 }
      errInfo := 0 }

/-- R201, R202: RLE_ENC stores the maximal runs of the grid, and nothing else changes. -/
def Obligations.RleEncStoresMaximalRuns : Prop :=
  ∀ s : State, s.height ≠ 0 → s.width ≠ 0 → s.n ≤ s.params.maxSamples →
    (∀ x ∈ s.samples, x ≤ s.amax) →
    ∃ t, exec .rleEnc s = .next t ∧
      t = { s with
        phase := .idle
        status := { s.status with done := true, err := false, errcode := 0 }
        errInfo := 0
        rb := t.rb
        runCount := t.runCount } ∧
      t.runs.flatMap (fun r => List.replicate r.2 r.1) = s.samples ∧
      (∀ r ∈ t.runs, 1 ≤ r.2 ∧ r.1 ≤ s.amax) ∧
      (∀ i a b, t.runs[i]? = some a → t.runs[i + 1]? = some b → a.1 ≠ b.1) ∧
      (t.runs.map (·.2)).sum = s.n ∧
      (∀ o, 8 * t.runCount.toNat ≤ o → t.byte .rb o = s.byte .rb o)

/-- R206: RLE_DEC replays a run list whose values are in the alphabet and whose counts add up to n,
and nothing else changes. -/
def Obligations.RleDecReplaysRuns : Prop :=
  ∀ s : State, s.height ≠ 0 → s.width ≠ 0 → s.n ≤ s.params.maxSamples → s.runCount ≠ 0 →
    s.runCount.toNat ≤ s.params.maxSamples → (∀ r ∈ s.runs, r.1 ≤ s.amax) →
    (s.runs.map (·.2)).sum = s.n →
    ∃ t, exec .rleDec s = .next t ∧
      t = { s with
        phase := .idle
        status := { s.status with done := true, err := false, errcode := 0 }
        errInfo := 0
        sb := t.sb } ∧
      t.samples = s.runs.flatMap (fun r => List.replicate r.2 r.1) ∧
      (∀ o, s.n ≤ o → t.byte .sb o = s.byte .sb o)

/-- R206: RLE_DEC reports the first run at fault: a value outside the alphabet, a total past n, a
total that ends below n. SB[0..n-1] is then unspecified (log 3) and nothing else changes. -/
def Obligations.RleDecReportsTheFirstFault : Prop :=
  ∀ s : State, s.height ≠ 0 → s.width ≠ 0 → s.n ≤ s.params.maxSamples → s.runCount ≠ 0 →
    s.runCount.toNat ≤ s.params.maxSamples →
    ∀ (code : BitVec 4) (info : Nat),
      ((∃ v c, s.runs[info]? = some (v, c) ∧ (∀ r ∈ s.runs.take info, r.1 ≤ s.amax) ∧
          ((s.runs.take info).map (·.2)).sum ≤ s.n ∧
          ((s.amax < v ∧ code = 3) ∨
            (v ≤ s.amax ∧ s.n < ((s.runs.take info).map (·.2)).sum + c ∧ code = 2))) ∨
        ((∀ r ∈ s.runs, r.1 ≤ s.amax) ∧ (s.runs.map (·.2)).sum < s.n ∧
          info = s.runCount.toNat ∧ code = 2)) →
      ∃ t, exec .rleDec s = .next t ∧
        t = { s with
          phase := .idle
          status := { s.status with done := true, err := true, errcode := code }
          errInfo := BitVec.ofNat 32 info
          sb := t.sb
          draws := t.draws } ∧
        (∀ o, o < s.n → t.byte .sb o = Config.freeByte s.draws (Buf.base .sb + o)) ∧
        (∀ o, s.n ≤ o → t.byte .sb o = s.byte .sb o) ∧ s.draws < t.draws

/-- R207: the lossless law of RLE. -/
def Obligations.RleIsLossless : Prop :=
  ∀ s t u : State, exec .rleEnc s = .next t → t.status.err = false →
    u.params = t.params → u.cfg = t.cfg → u.height = t.height → u.width = t.width →
    u.runCount = t.runCount → u.runs = t.runs →
    ∃ v, exec .rleDec u = .next v ∧ v.status.err = false ∧ v.samples = s.samples

/-! ## LZW -/

/-- R233, R234, R235: LZW_ENC emits codes whose strings make up the grid, each known when it is
emitted, and inserts one entry fewer than it emits codes; nothing else changes. So it does on a grid
of few enough samples for the dictionary, and at every success; and where the grid is made of the
phrases codes spell, each followed by a new symbol, and the dictionary has room for their entries,
it succeeds with exactly those codes. -/
def Obligations.LzwEncCodesSpellTheGrid : Prop :=
  ∀ s : State,
    let coded : State → Prop := fun t =>
      t = { s with
        phase := .idle
        status := { s.status with done := true, err := false, errcode := 0 }
        errInfo := 0
        cb := t.cb
        codeCount := t.codeCount
        dt := t.dt
        dictSize := t.dictSize } ∧
      1 ≤ t.codeCount.toNat ∧ t.codeCount.toNat ≤ s.n ∧
      t.dictSize.toNat + 1 = s.alphabet + t.codeCount.toNat ∧
      t.codes.flatMap (t.stringOf t.dictSize.toNat) = s.samples ∧
      (∀ i c, t.codes[i]? = some c → c < s.alphabet + i) ∧
      (∀ k, k < s.alphabet → t.dictAt k = (0xFFFFFFFF, k)) ∧
      (∀ k, s.alphabet ≤ k → k < t.dictSize.toNat →
        (t.dictAt k).1 < k ∧ (t.dictAt k).2 ≤ s.amax) ∧
      (∀ o, 4 * t.codeCount.toNat ≤ o → t.byte .cb o = s.byte .cb o) ∧
      (∀ o, 8 * t.dictSize.toNat ≤ o → t.byte .dt o = s.byte .dt o)
    (∀ t, exec .lzwEnc s = .next t → t.status.err = false →
      coded t ∧ (s.alphabet ≤ s.params.dictCap → t.dictSize.toNat ≤ s.params.dictCap)) ∧
    (s.height ≠ 0 → s.width ≠ 0 → s.n ≤ s.params.maxSamples → (∀ x ∈ s.samples, x ≤ s.amax) →
      (s.alphabet + s.n ≤ s.params.dictCap + 1 → ∃ t, exec .lzwEnc s = .next t ∧ coded t) ∧
      (∀ codes es, spellsCodes s.alphabet codes es → es.flatten = s.samples →
        (phraseEntries es).Nodup → s.alphabet + codes.length ≤ s.params.dictCap + 1 →
        ∃ t, exec .lzwEnc s = .next t ∧ coded t ∧ t.codes = codes))

/-- R235: the emission is greedy: the string of a code followed by the first symbol of the next
code's string was not in the dictionary, and it is the entry inserted then. -/
def Obligations.LzwEncIsGreedy : Prop :=
  ∀ s t : State, exec .lzwEnc s = .next t → t.status.err = false →
    ∀ i c c', t.codes[i]? = some c → t.codes[i + 1]? = some c' →
      t.dictAt (s.alphabet + i) = (c, (t.stringOf t.dictSize.toNat c').headD 0) ∧
      ∀ j, j < s.alphabet + i →
        t.stringOf t.dictSize.toNat j ≠
          t.stringOf t.dictSize.toNat c ++ [(t.stringOf t.dictSize.toNat c').headD 0]

/-- R233: LZW_ENC fails at the first miss that finds the dictionary full, with that miss's sample
index: at sample k where the samples before it are the phrases codes spell, each followed by a new
symbol, sample k itself among them, and their entries fill the dictionary; at sample 1 where there
is no room but for the seeds. CB, CODE_COUNT, DT and DICT_SIZE are then unspecified and nothing else
changes. -/
def Obligations.LzwEncFailsOnAFullDictionary : Prop :=
  ∀ s : State, s.height ≠ 0 → s.width ≠ 0 → s.n ≤ s.params.maxSamples →
    (∀ x ∈ s.samples, x ≤ s.amax) → ∀ k : Nat,
    ((s.params.dictCap = s.alphabet ∧ 2 ≤ s.n ∧ k = 1) ∨
      (1 ≤ k ∧ k < s.n ∧ ∃ codes es, spellsCodes s.alphabet codes es ∧
        es.flatten = s.samples.take k ∧ (phraseEntries (es ++ [[s.sample k]])).Nodup ∧
        s.alphabet + codes.length = s.params.dictCap + 1)) →
    ∃ t, exec .lzwEnc s = .next t ∧
      t = { s with
        phase := .idle
        status := { s.status with done := true, err := true, errcode := 4 }
        errInfo := BitVec.ofNat 32 k
        cb := t.cb
        codeCount := t.codeCount
        dt := t.dt
        dictSize := t.dictSize
        draws := t.draws } ∧
      (∀ o, 4 * s.n ≤ o → t.byte .cb o = s.byte .cb o) ∧
      (∀ o, 8 * s.params.dictCap ≤ o → t.byte .dt o = s.byte .dt o)

/-- R240, R241: LZW_DEC, on codes that spell a grid of n samples and a dictionary with room for them,
stores that grid and rebuilds the dictionary; nothing else changes. -/
def Obligations.LzwDecSpellsItsCodes : Prop :=
  ∀ (s : State) (es : List (List Nat)), s.height ≠ 0 → s.width ≠ 0 → s.n ≤ s.params.maxSamples →
    s.codeCount ≠ 0 → s.codeCount.toNat ≤ s.params.maxSamples →
    spellsCodes s.alphabet s.codes es → es.flatten.length = s.n →
    s.alphabet + s.codeCount.toNat ≤ s.params.dictCap + 1 →
    ∃ t, exec .lzwDec s = .next t ∧
      t = { s with
        phase := .idle
        status := { s.status with done := true, err := false, errcode := 0 }
        errInfo := 0
        sb := t.sb
        dt := t.dt
        dictSize := t.dictSize } ∧
      t.samples = es.flatten ∧ t.dictSize.toNat + 1 = s.alphabet + s.codeCount.toNat ∧
      (∀ k, k < s.alphabet → t.dictAt k = (0xFFFFFFFF, k)) ∧
      (∀ j c y, s.codes[j]? = some c → es[j + 1]? = some y →
        t.dictAt (s.alphabet + j) = (c, y.headD 0)) ∧
      (∀ o, s.n ≤ o → t.byte .sb o = s.byte .sb o) ∧
      (∀ o, 8 * t.dictSize.toNat ≤ o → t.byte .dt o = s.byte .dt o)

/-- R240: LZW_DEC reports the first code that is not defined yet (the first code if it is no seed),
the first code whose string passes n samples, the first code that finds the dictionary full, and an
output that ends short; SB[0..n-1], DT and DICT_SIZE are then unspecified and nothing else
changes. -/
def Obligations.LzwDecReportsTheFirstFault : Prop :=
  ∀ (s : State) (es : List (List Nat)) (info : Nat) (code : BitVec 4), s.height ≠ 0 →
    s.width ≠ 0 → s.n ≤ s.params.maxSamples → s.codeCount ≠ 0 →
    s.codeCount.toNat ≤ s.params.maxSamples →
    ((code = 2 ∧ info = 0 ∧ ∃ c, s.codes[0]? = some c ∧ s.alphabet ≤ c) ∨
      (code = 2 ∧ ∃ c, 1 ≤ info ∧ s.codes[info]? = some c ∧ s.alphabet + info - 1 < c ∧
        spellsCodes s.alphabet (s.codes.take info) es ∧ es.flatten.length ≤ s.n ∧
        s.alphabet + info ≤ s.params.dictCap + 1) ∨
      (1 ≤ info ∧ info < s.codeCount.toNat ∧
        spellsCodes s.alphabet (s.codes.take (info + 1)) es ∧
        (es.take info).flatten.length ≤ s.n ∧ s.alphabet + info ≤ s.params.dictCap + 1 ∧
        ((s.n < es.flatten.length ∧ code = 2) ∨
          (es.flatten.length ≤ s.n ∧ s.alphabet + info = s.params.dictCap + 1 ∧ code = 4))) ∨
      (code = 2 ∧ info = s.codeCount.toNat ∧ spellsCodes s.alphabet s.codes es ∧
        es.flatten.length < s.n ∧ s.alphabet + info ≤ s.params.dictCap + 1)) →
    ∃ t, exec .lzwDec s = .next t ∧
      t = { s with
        phase := .idle
        status := { s.status with done := true, err := true, errcode := code }
        errInfo := BitVec.ofNat 32 info
        sb := t.sb
        dt := t.dt
        dictSize := t.dictSize
        draws := t.draws } ∧
      (∀ o, s.n ≤ o → t.byte .sb o = s.byte .sb o) ∧
      (∀ o, 8 * s.params.dictCap ≤ o → t.byte .dt o = s.byte .dt o)

/-- R242, R243: the lossless law of LZW, with the same dictionary on both sides. -/
def Obligations.LzwIsLossless : Prop :=
  ∀ s t u : State, Params.wellFormed s.params = true → exec .lzwEnc s = .next t →
    t.status.err = false → u.params = t.params → u.cfg.alpha = t.cfg.alpha →
    u.height = t.height → u.width = t.width → u.codeCount = t.codeCount → u.codes = t.codes →
    ∃ v, exec .lzwDec u = .next v ∧ v.status.err = false ∧ v.samples = s.samples ∧
      v.dictSize = t.dictSize ∧ ∀ k, k < t.dictSize.toNat → v.dictAt k = t.dictAt k

/-! ## Huffman table and tree -/

/-- R272, R273: HUF_FREQ tallies the grid; the table passes TableCheck under the same CFG, the valid
bits are cleared and nothing else changes. -/
def Obligations.HufFreqTalliesTheGrid : Prop :=
  ∀ s : State, s.height ≠ 0 → s.width ≠ 0 → s.n ≤ s.params.maxSamples →
    (∀ x ∈ s.samples, x ≤ s.amax) →
    ∃ t, exec .hufFreq s = .next t ∧
      t = { s with
        phase := .idle
        status := { s.status with
          done := true, err := false, errcode := 0, treeValid := false, codesValid := false }
        errInfo := 0
        ft := t.ft
        freqCount := t.freqCount } ∧
      (t.table.map (·.1)).Pairwise (· < ·) ∧
      (∀ v c, v ≤ s.amax → ((v, c) ∈ t.table ↔ c = s.samples.count v ∧ 0 < c)) ∧
      (∀ v c, s.amax < v → ((v, c) ∈ t.table ↔ s.cfg.eosEn = true ∧ v = 256 ∧ c = 1)) ∧
      (t.table.map (·.2)).sum = s.n + s.cfg.eosEn.toNat ∧
      t.treeCheck = none ∧
      (∀ o, 8 * t.freqCount.toNat ≤ o → t.byte .ft o = s.byte .ft o)

/-- R277: which tables pass TableCheck, and the info of each failure: 0 for an empty table or one of
too many entries; i for the first entry that is bad (an illegal symbol, a symbol that stands before
it, a zero count); N for a table without the end-of-stream symbol it needs or of too large a total.
Every failure is CorruptStream. -/
def Obligations.TableCheckAcceptsExactly : Prop :=
  ∀ (a : Nat) (eosEn : Bool) (ft : List (Nat × Nat)), 1 ≤ a →
    let fails : Nat → Prop := fun info =>
      tableCheck a eosEn ft = some { kind := .corruptStream, info := info }
    let good : Nat → Nat × Nat → Prop := fun i e =>
      (e.1 < a ∨ (eosEn = true ∧ e.1 = 256)) ∧ e.1 ∉ (ft.take i).map (·.1) ∧ 1 ≤ e.2
    (tableCheck a eosEn ft = none ↔
      ft ≠ [] ∧ ft.length ≤ a + eosEn.toNat ∧
      (∀ e ∈ ft, (e.1 < a ∨ (eosEn = true ∧ e.1 = 256)) ∧ 1 ≤ e.2) ∧
      (ft.map (·.1)).Nodup ∧ (eosEn = true → 256 ∈ ft.map (·.1)) ∧
      (ft.map (·.2)).sum ≤ 2 ^ 32 - 1) ∧
    ((ft = [] ∨ a + eosEn.toNat < ft.length) → fails 0) ∧
    (ft.length ≤ a + eosEn.toNat →
      (∀ i e, ft[i]? = some e → ¬ good i e → (∀ j d, j < i → ft[j]? = some d → good j d) →
        fails i) ∧
      (ft ≠ [] → (∀ i e, ft[i]? = some e → good i e) →
        ((eosEn = true ∧ 256 ∉ ft.map (·.1)) ∨ 2 ^ 32 - 1 < (ft.map (·.2)).sum) →
        fails ft.length))

/-- R277, R278: a table that fails the check fails HUF_TREE with CorruptStream; both valid bits are
cleared, and ND, NODE_COUNT and ROOT with everything else are unchanged. -/
def Obligations.HufTreeFailureKeepsTheArena : Prop :=
  ∀ (s : State) (e : Raise), s.treeCheck = some e →
    exec .hufTree s = .next
      { s with
        phase := .idle
        status := { s.status with
          done := true, err := true, errcode := 2, treeValid := false, codesValid := false }
        errInfo := BitVec.ofNat 32 e.info }

/-- R278, R279, R280: HUF_TREE on a table that passes the check: the node count, the root, the
leaves, the shape and the frequencies of the tree; nothing else changes. -/
def Obligations.HufTreeBuildsTheArena : Prop :=
  ∀ s : State, s.treeCheck = none →
    ∃ t, exec .hufTree s = .next t ∧
      t = { s with
        phase := .idle
        status := { s.status with
          done := true, err := false, errcode := 0, treeValid := true, codesValid := false }
        errInfo := 0
        nd := t.nd
        nodeCount := t.nodeCount
        root := t.root } ∧
      t.nodeCount.toNat =
        (if s.freqCount.toNat = 1 then 2 else 2 * s.freqCount.toNat - 1) ∧
      t.root.toNat + 1 = t.nodeCount.toNat ∧ t.nodeCount.toNat ≤ 513 ∧
      (∀ i e, s.table[i]? = some e →
        t.nodeAt i =
          { isLeaf := true, symbol := e.1, freq := e.2, left := noNode, right := noNode }) ∧
      (∀ j, s.freqCount.toNat ≤ j → j < t.nodeCount.toNat →
        (t.nodeAt j).isLeaf = false ∧ (t.nodeAt j).symbol = 0 ∧ (t.nodeAt j).left < j ∧
        (s.freqCount.toNat = 1 →
          (t.nodeAt j).right = noNode ∧ (t.nodeAt j).freq = (t.nodeAt 0).freq) ∧
        (2 ≤ s.freqCount.toNat →
          (t.nodeAt j).right < j ∧ (t.nodeAt j).left ≠ (t.nodeAt j).right ∧
          (t.nodeAt j).freq =
            (t.nodeAt (t.nodeAt j).left).freq + (t.nodeAt (t.nodeAt j).right).freq)) ∧
      (∀ k, k < t.nodeCount.toNat →
        (k ≠ t.root.toNat ↔ ∃ p, s.freqCount.toNat ≤ p ∧ p < t.nodeCount.toNat ∧
          ((t.nodeAt p).left = k ∨ (t.nodeAt p).right = k)) ∧
        ∀ p q, s.freqCount.toNat ≤ p → p < t.nodeCount.toNat → s.freqCount.toNat ≤ q →
          q < t.nodeCount.toNat → ((t.nodeAt p).left = k ∨ (t.nodeAt p).right = k) →
          ((t.nodeAt q).left = k ∨ (t.nodeAt q).right = k) → p = q) ∧
      (t.nodeAt t.root.toNat).freq = (s.table.map (·.2)).sum ∧
      (∀ o, 32 * t.nodeCount.toNat ≤ o → t.byte .nd o = s.byte .nd o)

/-- R276: each merge takes the two least keys (freq, index) of the nodes that are no child yet, the
least as LEFT and the next as RIGHT. -/
def Obligations.MergeTakesTheTwoLeastKeys : Prop :=
  ∀ s t : State, exec .hufTree s = .next t → t.status.err = false → 2 ≤ s.freqCount.toNat →
    ∀ j, s.freqCount.toNat ≤ j → j < t.nodeCount.toNat →
      let key := fun k => ((t.nodeAt k).freq, k)
      let l := (t.nodeAt j).left
      let r := (t.nodeAt j).right
      keyLess (key l) (key r) = true ∧
      ∀ k, k < j → k ≠ l → k ≠ r →
        (∀ p, s.freqCount.toNat ≤ p → p < j →
          (t.nodeAt p).left ≠ k ∧ (t.nodeAt p).right ≠ k) →
        keyLess (key r) (key k) = true

/-- R281: merge frequencies never decrease. -/
def Obligations.MergeFrequenciesNeverDecrease : Prop :=
  ∀ s t : State, exec .hufTree s = .next t → t.status.err = false → 2 ≤ s.freqCount.toNat →
    ∀ j, s.freqCount.toNat ≤ j → j + 1 < t.nodeCount.toNat →
      (t.nodeAt j).freq ≤ (t.nodeAt (j + 1)).freq

/-- R282, R360: equal CFG and equal tables give equal trees, on one block or on two, whatever else
the two states hold. -/
def Obligations.EqualTablesGiveEqualTrees : Prop :=
  ∀ s s' t t' : State, s.cfg = s'.cfg → s.table = s'.table →
    exec .hufTree s = .next t → exec .hufTree s' = .next t' → t.status.err = false →
      t'.status.err = false ∧ t'.nodeCount = t.nodeCount ∧ t'.root = t.root ∧
        ∀ j, j < t.nodeCount.toNat → t'.nodeAt j = t.nodeAt j

/-! ## Codes -/

/-- R310, R311, R312: HUF_CODES on a valid tree: a symbol has a code exactly when the table has it,
the code is the path of edges from the root to its leaf, and every other entry is cleared; nothing
else changes. -/
def Obligations.HufCodesStoresThePaths : Prop :=
  ∀ s : State, s.status.treeValid = true → s.treeOk →
    ∃ t, exec .hufCodes s = .next t ∧
      t = { s with
        phase := .idle
        status := { s.status with done := true, err := false, errcode := 0, codesValid := true }
        errInfo := 0
        ct := t.ct } ∧
      ∀ x, x < 257 →
        ((t.codeEntry x).valid = true ↔ x ∈ s.table.map (·.1)) ∧
        ((t.codeEntry x).valid = true →
          1 ≤ (t.codeEntry x).len ∧ (t.codeEntry x).len ≤ 256 ∧
          (t.codeEntry x).code < 2 ^ (t.codeEntry x).len ∧
          ∃ j, walkPath s.nodeAt s.root.toNat (codeBits (t.codeEntry x)) = some j ∧
            (s.nodeAt j).isLeaf = true ∧ (s.nodeAt j).symbol = x) ∧
        ((t.codeEntry x).valid = false → (t.codeEntry x).len = 0 ∧ (t.codeEntry x).code = 0)

/-- R313: no valid code is a prefix of another. -/
def Obligations.CodesArePrefixFree : Prop :=
  ∀ s t : State, s.treeOk → exec .hufCodes s = .next t → t.status.err = false →
    ∀ x y, x < 257 → y < 257 → x ≠ y → (t.codeEntry x).valid = true →
      (t.codeEntry y).valid = true →
      ¬ codeBits (t.codeEntry x) <+: codeBits (t.codeEntry y)

/-- R314: the Kraft sum is 1 for two leaves or more and 1/2 for one, scaled by 2^256; LEN is the depth
of the symbol's leaf, and for two leaves or more it is 1 to N - 1. -/
def Obligations.KraftSumIsExact : Prop :=
  ∀ s t : State, s.treeOk → exec .hufCodes s = .next t → t.status.err = false →
    (((List.range 257).filter fun x => (t.codeEntry x).valid).map fun x =>
        2 ^ (256 - (t.codeEntry x).len)).sum =
      (if s.freqCount.toNat = 1 then 2 ^ 255 else 2 ^ 256) ∧
    ∀ x, x < 257 → (t.codeEntry x).valid = true →
      (∃ path j, path.length = (t.codeEntry x).len ∧
        walkPath s.nodeAt s.root.toNat path = some j ∧ (s.nodeAt j).isLeaf = true ∧
        (s.nodeAt j).symbol = x) ∧
      (2 ≤ s.freqCount.toNat →
        1 ≤ (t.codeEntry x).len ∧ (t.codeEntry x).len ≤ s.freqCount.toNat - 1)

/-! ## Bitstream -/

/-- R332, R333: HUF_PACK, when every sample has a code and the stream fits BB: the payload is the
samples' codes in order and then the end-of-stream code, the padding is zero bits up to the byte
boundary, and the registers record both; nothing else changes. -/
def Obligations.HufPackStoresTheStream : Prop :=
  ∀ (s : State) (payload : List Bool), Params.wellFormed s.params = true →
    s.status.codesValid = true → s.height ≠ 0 → s.width ≠ 0 → s.n ≤ s.params.maxSamples →
    (∀ x ∈ s.samples, x ≤ s.amax ∧ (s.codeEntry x).valid = true) →
    payload = s.samples.flatMap (fun x => codeBits (s.codeEntry x)) ++
      (if s.cfg.eosEn then codeBits (s.codeEntry 256) else []) →
    payload.length ≤ 8 * s.params.bitCap →
    ∃ t, exec .hufPack s = .next t ∧
      t = { s with
        phase := .idle
        status := { s.status with done := true, err := false, errcode := 0 }
        errInfo := 0
        bb := t.bb
        bitLen := t.bitLen
        byteLen := t.byteLen
        pad := t.pad } ∧
      t.bitLen.toNat = payload.length ∧
      t.bitLen.toNat = (s.samples.map fun x => (s.codeEntry x).len).sum +
        (if s.cfg.eosEn then (s.codeEntry 256).len else 0) ∧
      t.pad.toNat = (8 - t.bitLen.toNat % 8) % 8 ∧
      8 * t.byteLen.toNat = t.bitLen.toNat + t.pad.toNat ∧
      (∀ i b, payload[i]? = some b → t.streamBit i = b) ∧
      (∀ i, t.bitLen.toNat ≤ i → i < 8 * t.byteLen.toNat → t.streamBit i = false) ∧
      (∀ o, t.byteLen.toNat ≤ o → t.byte .bb o = s.byte .bb o)

/-- R332: HUF_PACK reports the first sample that has no code, and the first sample (or the
end-of-stream code) that would pass BIT_CAP bytes; BB, BIT_LEN, PAD and BYTE_LEN are then
unspecified and nothing else changes. -/
def Obligations.HufPackReportsTheFirstFault : Prop :=
  ∀ (s : State) (k : Nat) (code : BitVec 4), s.status.codesValid = true → s.height ≠ 0 →
    s.width ≠ 0 → s.n ≤ s.params.maxSamples → (∀ x ∈ s.samples, x ≤ s.amax) →
    (∀ x ∈ s.samples.take k, (s.codeEntry x).valid = true) →
    ((s.samples.take k).map fun x => (s.codeEntry x).len).sum ≤ 8 * s.params.bitCap →
    ((∃ x, s.samples[k]? = some x ∧
        (((s.codeEntry x).valid = false ∧ code = 1) ∨
          ((s.codeEntry x).valid = true ∧ code = 4 ∧ 8 * s.params.bitCap <
            ((s.samples.take k).map fun x => (s.codeEntry x).len).sum + (s.codeEntry x).len))) ∨
      (k = s.n ∧ s.cfg.eosEn = true ∧ code = 4 ∧ 8 * s.params.bitCap <
        (s.samples.map fun x => (s.codeEntry x).len).sum + (s.codeEntry 256).len)) →
    ∃ t, exec .hufPack s = .next t ∧
      t = { s with
        phase := .idle
        status := { s.status with done := true, err := true, errcode := code }
        errInfo := BitVec.ofNat 32 k
        bb := t.bb
        bitLen := t.bitLen
        byteLen := t.byteLen
        pad := t.pad
        draws := t.draws } ∧
      (∀ o, s.params.bitCap ≤ o → t.byte .bb o = s.byte .bb o)

/-- R340, R361: HUF_UNPACK, on a stream whose first segments are the paths of n data symbols, each
path leading from the root to the symbol's leaf, and then, with EOS_EN = 1, the path of the
end-of-stream leaf: it stores those symbols, whatever bits follow; nothing else changes. -/
def Obligations.HufUnpackFollowsThePaths : Prop :=
  ∀ (s : State) (segs : List (Nat × List Bool)) (eos rest : List Bool),
    s.status.treeValid = true → s.height ≠ 0 → s.width ≠ 0 → s.n ≤ s.params.maxSamples →
    s.byteLen ≠ 0 → s.byteLen.toNat ≤ s.params.bitCap → segs.length = s.n →
    (∀ g ∈ segs, g.1 < 256 ∧ g.2 ≠ [] ∧
      ∃ j, walkPath s.nodeAt s.root.toNat g.2 = some j ∧ (s.nodeAt j).isLeaf = true ∧
        (s.nodeAt j).symbol = g.1) →
    (s.cfg.eosEn = true → eos ≠ [] ∧
      ∃ j, walkPath s.nodeAt s.root.toNat eos = some j ∧ (s.nodeAt j).isLeaf = true ∧
        (s.nodeAt j).symbol = 256) →
    (s.cfg.eosEn = false → eos = []) →
    s.streamBits = segs.flatMap (·.2) ++ eos ++ rest →
    ∃ t, exec .hufUnpack s = .next t ∧
      t = { s with
        phase := .idle
        status := { s.status with done := true, err := false, errcode := 0 }
        errInfo := 0
        sb := t.sb } ∧
      t.samples = segs.map (·.1) ∧
      (∀ o, s.n ≤ o → t.byte .sb o = s.byte .sb o)

/-- R341, R372: how HUF_UNPACK fails after the paths of k data symbols: the end-of-stream leaf before
n symbols, a data symbol past n of them, bits that run out before a leaf, a bit that selects a
missing child; each with its position. SB[0..n-1] is then unspecified and nothing else changes. -/
def Obligations.HufUnpackReportsItsPosition : Prop :=
  ∀ (s : State) (segs : List (Nat × List Bool)) (q rest : List Bool) (info : Nat),
    s.status.treeValid = true → s.height ≠ 0 → s.width ≠ 0 → s.n ≤ s.params.maxSamples →
    s.byteLen ≠ 0 → s.byteLen.toNat ≤ s.params.bitCap → segs.length ≤ s.n →
    (s.cfg.eosEn = true ∨ segs.length < s.n) →
    (∀ g ∈ segs, g.1 < 256 ∧ g.2 ≠ [] ∧
      ∃ j, walkPath s.nodeAt s.root.toNat g.2 = some j ∧ (s.nodeAt j).isLeaf = true ∧
        (s.nodeAt j).symbol = g.1) →
    s.streamBits = segs.flatMap (·.2) ++ q ++ rest →
    ((∃ j, q ≠ [] ∧ walkPath s.nodeAt s.root.toNat q = some j ∧ (s.nodeAt j).isLeaf = true ∧
        (((s.nodeAt j).symbol = 256 ∧ segs.length < s.n) ∨
          ((s.nodeAt j).symbol ≠ 256 ∧ segs.length = s.n)) ∧
        info = (segs.flatMap (·.2)).length + q.length) ∨
      (∃ j, walkPath s.nodeAt s.root.toNat q = some j ∧ (q ≠ [] → (s.nodeAt j).isLeaf = false) ∧
        ((rest = [] ∧ info = s.streamBits.length) ∨
          (∃ b bs, rest = b :: bs ∧
            (if b then (s.nodeAt j).right else (s.nodeAt j).left) = noNode ∧
            info = (segs.flatMap (·.2)).length + q.length)))) →
    ∃ t, exec .hufUnpack s = .next t ∧
      t = { s with
        phase := .idle
        status := { s.status with done := true, err := true, errcode := 2 }
        errInfo := BitVec.ofNat 32 info
        sb := t.sb
        draws := t.draws } ∧
      (∀ o, s.n ≤ o → t.byte .sb o = s.byte .sb o)

/-- R363: the lossless law of Huffman coding, with the end-of-stream symbol and without it, on one
block or on two: between the commands come acceptances, reads and writes of STATUS and INT_EN, and
the decoder needs the encoder's tree, BB, BYTE_LEN, PAD, CFG and DIM. -/
def Obligations.HuffmanIsLossless : Prop :=
  ∀ s s1 t1 s2 t2 s3 t3 s4 u : State, Params.wellFormed s.params = true →
    exec .hufFreq s = .next s1 → s1.handedOn t1 → exec .hufTree t1 = .next s2 →
    s2.handedOn t2 → exec .hufCodes t2 = .next s3 → s3.handedOn t3 →
    exec .hufPack t3 = .next s4 → s4.status.err = false →
    u.params = s4.params → u.status.treeValid = true → u.cfg = s4.cfg →
    u.height = s4.height → u.width = s4.width → u.byteLen = s4.byteLen → u.pad = s4.pad →
    u.root = s4.root → (∀ j, j < s4.nodeCount.toNat → u.nodeAt j = s4.nodeAt j) →
    (∀ o, o < s4.byteLen.toNat → u.byte .bb o = s4.byte .bb o) →
    ∃ v, exec .hufUnpack u = .next v ∧ v.status.err = false ∧ v.samples = s.samples

/-! ## The whole machine -/

/-- R144, R186, R187: no command writes outside its write range, whether it succeeds or fails; every
command also writes STATUS and ERR_INFO. -/
def Obligations.CommandsKeepToTheirWriteRange : Prop :=
  ∀ (i : Instr) (s t : State), Params.wellFormed s.params = true → exec i s = .next t →
    (∀ b o, s.writeExtent i b ≤ o → t.byte b o = s.byte b o) ∧
    (∀ r, Instr.writesReg i r = false → t.readReg r = s.readReg r)

/-- R49: exactly the events of the table write the valid bits. -/
def Obligations.ValidBitsFollowTheTable : Prop :=
  (∀ s : State, s.resetBlock.status.treeValid = false ∧ s.resetBlock.status.codesValid = false) ∧
  (∀ (s : State) (addr v : Word), s.busy = false → addr.toNat % 4 = 0 →
    (addr = 0x00000004 ∨ addr = 0x0000002C ∨
      (0x10000000 ≤ addr.toNat ∧ addr.toNat < 0x20000000)) →
    (s.access (writeWord addr v)).2.status.treeValid = false ∧
    (s.access (writeWord addr v)).2.status.codesValid = false) ∧
  (∀ (s : State) (t : Transaction),
    (t.kind = .read ∨ s.busy = true ∨ t.size ≠ .four ∨ t.addr.toNat % 4 ≠ 0 ∨
      (t.addr ≠ 0x00000004 ∧ t.addr ≠ 0x0000002C ∧
        ¬ (0x10000000 ≤ t.addr.toNat ∧ t.addr.toNat < 0x20000000))) →
    (s.access t).2.status.treeValid = s.status.treeValid ∧
    (s.access t).2.status.codesValid = s.status.codesValid) ∧
  (∀ (s : State) (w : Word) (e : DecodeError), s.phase = .busy w → decode w = .error e →
    ∃ t, engineTurn s = .next t ∧ t.status.treeValid = s.status.treeValid ∧
      t.status.codesValid = s.status.codesValid) ∧
  (∀ (i : Instr) (s t : State), exec i s = .next t →
    (i = .hufFreq → t.status.treeValid = false ∧ t.status.codesValid = false) ∧
    (i = .hufTree → t.status.treeValid = !t.status.err ∧ t.status.codesValid = false) ∧
    (i = .hufCodes → t.status.treeValid = s.status.treeValid ∧
      (t.status.err = false → t.status.codesValid = true) ∧
      (t.status.err = true → t.status.codesValid = s.status.codesValid)) ∧
    (i ≠ .hufFreq → i ≠ .hufTree → i ≠ .hufCodes →
      t.status.treeValid = s.status.treeValid ∧ t.status.codesValid = s.status.codesValid))

/-- The reset state meets the invariants that every step keeps: its memories are in canonical form,
its valid bits mean their tree, it shows no result, and its draws are fresh. -/
def Obligations.ResetMeetsTheInvariants : Prop :=
  State.reset.memoriesOk ∧ State.reset.treeOk ∧ State.reset.codesOk ∧ State.reset.busyOk ∧
    State.reset.resultOk ∧ State.reset.drawsOk

/-- Every step keeps the memories canonical and inside the storage that exists (R102, R208, R203,
R279). -/
def Obligations.StepsKeepMemoriesCanonical : Prop :=
  ∀ s t : State, Params.wellFormed s.params = true → s.memoriesOk → step s = .next t →
    t.memoriesOk

/-- R48: every step keeps the meaning of the valid bits: TREE_VALID = 1 says that ND, NODE_COUNT and
ROOT hold the tree of FT under CFG, and CODES_VALID = 1 that CT holds the codes of that tree. -/
def Obligations.StepsKeepTheMeaningOfValidBits : Prop :=
  ∀ s t : State, s.treeOk → s.codesOk → step s = .next t → t.treeOk ∧ t.codesOk

/-- R50: where the valid bits mean what they say, CODES_VALID implies TREE_VALID, the leaf symbols
are legal under CFG.ALPHA, and there is a leaf of symbol 256 exactly when EOS_EN = 1. -/
def Obligations.ValidTreesFitTheConfiguration : Prop :=
  ∀ s : State, s.treeOk → s.codesOk →
    (s.status.codesValid = true → s.status.treeValid = true) ∧
    (s.status.treeValid = true →
      (∀ j, j < s.nodeCount.toNat → (s.nodeAt j).isLeaf = true →
        (s.nodeAt j).symbol ≤ s.amax ∨ (s.cfg.eosEn = true ∧ (s.nodeAt j).symbol = 256)) ∧
      ((∃ j, j < s.nodeCount.toNat ∧ (s.nodeAt j).isLeaf = true ∧ (s.nodeAt j).symbol = 256) ↔
        s.cfg.eosEn = true))

/-- R37, R40, R44, R180, R370: every step keeps: while a command runs, CMD and LAST_OP name it and no
result is shown; ERRCODE is at most 6, ERR says whether it is an error, ERR_INFO is 0 without one. -/
def Obligations.StepsKeepTheResultFields : Prop :=
  ∀ s t : State, s.busyOk → s.resultOk → step s = .next t → t.busyOk ∧ t.resultOk

/-- The machine never stops and never changes its configuration (R47, R192; log 1, 16); the model's
count of draws never falls, and the memories' draw stays below it (log 2). -/
def Obligations.StepsNeverStop : Prop :=
  ∀ s : State, ∃ t, step s = .next t ∧ t.params = s.params ∧ s.draws ≤ t.draws ∧
    (s.drawsOk → t.drawsOk)

/-- R421, R182: between its acceptance and its completion a host turn changes nothing a running
command reads or writes. -/
def Obligations.HostTurnsLeaveARunningCommandAlone : Prop :=
  ∀ (s t : State) (rest : List Turn), s.busy = true → s.schedule = .host :: rest →
    step s = .next t →
      t = { s with
        status := { s.status with done := t.status.done, dropped := t.status.dropped }
        doneIe := t.doneIe
        draws := t.draws
        schedule := rest
        host := t.host }

/-- R191: a command's outcome is a function of the state at acceptance: DONE, DROPPED, the interrupt
enable, the draws, the schedule and the host's side of the port do not change it. -/
def Obligations.OutcomesAreDetermined : Prop :=
  ∀ (i : Instr) (s s' t t' : State),
    s' = { s with
      status := { s.status with done := s'.status.done, dropped := s'.status.dropped }
      doneIe := s'.doneIe
      draws := s'.draws
      schedule := s'.schedule
      host := s'.host } →
    exec i s = .next t → exec i s' = .next t' →
      t'.status.err = t.status.err ∧ t'.status.errcode = t.status.errcode ∧
      t'.errInfo = t.errInfo ∧
      (t.status.err = false →
        t' = { t with
          status := { t.status with dropped := s'.status.dropped }
          doneIe := s'.doneIe
          draws := s'.draws
          schedule := s'.schedule
          host := s'.host })

/-- R163, R431: a host that polls STATUS is done with it after at most as many steps as the schedule
is long, and two more. -/
def Obligations.PollingEnds : Prop :=
  ∀ (s : State) (name : Option String) (ops : List HostOp), s.host.program = .wait name :: ops →
    ∃ k t, k ≤ s.schedule.length + 2 ∧ Host.Core.run Sys2Proof.core k s = .next t ∧
      t.host.program = ops
end

