-- ==== Sys2Proof/Laws/Memory.lean ====
section
/-! SUPPORT. The laws of memories and of byte order: reading after writing, the canonical form,
and the round trips of words and numbers through bytes. -/

namespace Sys2Proof.Machine

open Sys2Proof

/-! ## Lookup in a list of cells -/

theorem lookup_filter_key (p : Nat → Bool) (m : List Host.Cell) (o : Nat) :
    (m.filter fun c => p c.1).lookup o = if p o then m.lookup o else none := by
  induction m with
  | nil => simp
  | cons c m ih =>
    obtain ⟨k, v⟩ := c
    rw [List.filter_cons]
    by_cases hk : o = k
    · subst hk
      cases h : p o
      · simpa [h] using ih
      · simp
    · have hbk : (o == k) = false := by simpa using hk
      split
      · simp [List.lookup_cons, hbk, ih]
      · simp [List.lookup_cons, hbk, ih]

theorem lookup_append_cells (xs ys : List Host.Cell) (o : Nat) :
    (xs ++ ys).lookup o = (xs.lookup o).or (ys.lookup o) := by
  induction xs with
  | nil => simp
  | cons c xs ih =>
    obtain ⟨k, v⟩ := c
    rw [List.cons_append, List.lookup_cons, List.lookup_cons, ih]
    cases o == k <;> rfl

theorem lookup_eq_none_of_forall_ne (xs : List Host.Cell) (o : Nat) (h : ∀ c ∈ xs, c.1 ≠ o) :
    xs.lookup o = none := by
  rw [List.lookup_eq_none_iff]
  intro c hc
  simpa using (h c hc).symm

/-! ## Splicing and writing -/

/-- Reading after a splice: the new cells inside the range, the old ones outside. -/
theorem get_splice (m : Memory) (lo hi : Nat) (cells : List Host.Cell) (hlh : lo ≤ hi)
    (hc : ∀ c ∈ cells, lo ≤ c.1 ∧ c.1 < hi) (o : Nat) :
    (m.splice lo hi cells).get o = if lo ≤ o ∧ o < hi then cells.lookup o else m.get o := by
  have hout : ¬ (lo ≤ o ∧ o < hi) → cells.lookup o = none := fun h =>
    lookup_eq_none_of_forall_ne _ _ fun c hcm he => h (he ▸ hc c hcm)
  have h1 := lookup_filter_key (fun k => decide (k < lo)) m o
  have h2 := lookup_filter_key (fun k => decide (hi ≤ k)) m o
  simp only [Memory.splice, Memory.get, lookup_append_cells, h1, h2]
  by_cases h : lo ≤ o ∧ o < hi
  · have e1 : ¬ o < lo := by omega
    have e2 : ¬ hi ≤ o := by omega
    simp [h, e1, e2]
  · rw [hout h, if_neg h]
    by_cases e : o < lo
    · have e2 : ¬ hi ≤ o := by omega
      simp [e, e2]
    · have e2 : hi ≤ o := by omega
      simp [e, e2]

@[simp] theorem length_wordBytes (w : Word) : (wordBytes w).length = 4 := rfl

theorem mem_cellsFrom {o : Nat} {bs : List Byte} {c : Host.Cell} (h : c ∈ cellsFrom o bs) :
    o ≤ c.1 ∧ c.1 < o + bs.length := by
  induction bs generalizing o with
  | nil => simp [cellsFrom] at h
  | cons b bs ih =>
    rcases List.mem_cons.1 h with rfl | h
    · simp
    · have := ih h
      simp only [List.length_cons]
      omega

theorem lookup_cellsFrom (o : Nat) (bs : List Byte) (k : Nat) :
    (cellsFrom o bs).lookup k = if o ≤ k then bs[k - o]? else none := by
  induction bs generalizing o with
  | nil => simp [cellsFrom]
  | cons b bs ih =>
    rw [cellsFrom, List.lookup_cons, ih]
    by_cases hk : k = o
    · subst hk; simp
    · have hb : (k == o) = false := by simpa using hk
      by_cases hle : o ≤ k
      · have h1 : o + 1 ≤ k := by omega
        have h2 : k - o = (k - (o + 1)) + 1 := by omega
        simp [hb, hle, h1, h2]
      · have h1 : ¬ o + 1 ≤ k := by omega
        simp [hb, hle, h1]

/-- Reading after writing consecutive bytes. -/
theorem get_write (m : Memory) (o : Nat) (bs : List Byte) (k : Nat) :
    (m.write o bs).get k =
      if o ≤ k ∧ k < o + bs.length then bs[k - o]? else m.get k := by
  rw [Memory.write, get_splice _ _ _ _ (by omega) (fun c hc => mem_cellsFrom hc)]
  by_cases h : o ≤ k ∧ k < o + bs.length
  · simp [h, lookup_cellsFrom]
  · simp [h]

/-- Reading in a slice: what the memory holds there. -/
theorem get_slice (m : Memory) (lo hi o : Nat) (h : lo ≤ o ∧ o < hi) :
    (m.slice lo hi).get o = m.get o := by
  have := lookup_filter_key (fun k => decide (lo ≤ k) && decide (k < hi)) m o
  simp only [Memory.slice, Memory.get, this]
  simp [h]

/-! ## The canonical form -/

theorem wf_cellsFrom (o : Nat) (bs : List Byte) : Memory.wf (cellsFrom o bs) := by
  induction bs generalizing o with
  | nil => exact List.Pairwise.nil
  | cons b bs ih =>
    refine List.Pairwise.cons (fun c hc => ?_) (ih _)
    have := (mem_cellsFrom hc).1
    simp only
    omega

/-- A splice keeps the canonical form. -/
theorem wf_splice {m : Memory} (hm : m.wf) {lo hi : Nat} {cells : List Host.Cell} (hlh : lo ≤ hi)
    (hw : Memory.wf cells) (hc : ∀ c ∈ cells, lo ≤ c.1 ∧ c.1 < hi) :
    (m.splice lo hi cells).wf := by
  unfold Memory.splice Memory.wf
  rw [List.pairwise_append, List.pairwise_append]
  refine ⟨⟨hm.filter _, hw, ?_⟩, hm.filter _, ?_⟩
  · intro x hx y hy
    have := (List.mem_filter.1 hx).2
    have := hc y hy
    simp only [decide_eq_true_eq] at *
    omega
  · intro x hx y hy
    have hy2 := (List.mem_filter.1 hy).2
    rcases List.mem_append.1 hx with hx | hx
    · have := (List.mem_filter.1 hx).2
      simp only [decide_eq_true_eq] at *
      omega
    · have := hc x hx
      simp only [decide_eq_true_eq] at *
      omega

/-- A write keeps the canonical form. -/
theorem wf_write {m : Memory} (hm : m.wf) (o : Nat) (bs : List Byte) : (m.write o bs).wf :=
  wf_splice hm (by omega) (wf_cellsFrom o bs) fun _ hc => mem_cellsFrom hc

/-- A cell of a spliced memory is an old one outside the range or a new one. -/
theorem mem_splice {m : Memory} {lo hi : Nat} {cells : List Host.Cell} {c : Host.Cell}
    (h : c ∈ m.splice lo hi cells) : c ∈ m ∨ c ∈ cells := by
  simp only [Memory.splice, List.mem_append, List.mem_filter] at h
  tauto

theorem mem_write {m : Memory} {o : Nat} {bs : List Byte} {c : Host.Cell} (h : c ∈ m.write o bs) :
    c ∈ m ∨ (o ≤ c.1 ∧ c.1 < o + bs.length) :=
  (mem_splice h).imp_right mem_cellsFrom

/-! ## Words and bytes -/

theorem wordOfBytes_toNat (b0 b1 b2 b3 : Byte) :
    (wordOfBytes b0 b1 b2 b3).toNat =
      b0.toNat + 256 * b1.toNat + 65536 * b2.toNat + 16777216 * b3.toNat := by
  have step : ∀ (x : Nat) (b : Byte), x <<< 8 ||| b.toNat = 2 ^ 8 * x + b.toNat := fun x b => by
    rw [Nat.shiftLeft_eq, Nat.mul_comm, Nat.two_pow_add_eq_or_of_lt b.isLt]
  unfold wordOfBytes
  rw [BitVec.toNat_append, BitVec.toNat_append, BitVec.toNat_append, step, step, step]
  omega

/-- A word's bytes put together again. -/
theorem wordOfBytes_extract (w : Word) :
    wordOfBytes (w.extractLsb' 0 8) (w.extractLsb' 8 8) (w.extractLsb' 16 8)
      (w.extractLsb' 24 8) = w := by
  apply BitVec.eq_of_toNat_eq
  rw [wordOfBytes_toNat]
  simp only [BitVec.extractLsb'_toNat, Nat.shiftRight_eq_div_pow]
  have := w.isLt
  omega

@[simp] theorem numBytes_nil : numBytes [] = [] := rfl

theorem numBytes_cons (x : Nat) (xs : List Nat) :
    numBytes (x :: xs) = wordBytes (BitVec.ofNat 32 x) ++ numBytes xs := rfl

@[simp] theorem length_numBytes (xs : List Nat) : (numBytes xs).length = 4 * xs.length := by
  induction xs with
  | nil => rfl
  | cons x xs ih =>
    rw [numBytes_cons, List.length_append, ih, length_wordBytes, List.length_cons]
    omega

/-- The bytes of the i-th number of a sequence. -/
theorem getElem?_numBytes (xs : List Nat) (i j : Nat) (hj : j < 4) :
    (numBytes xs)[4 * i + j]? = xs[i]?.bind fun x => (wordBytes (BitVec.ofNat 32 x))[j]? := by
  induction xs generalizing i with
  | nil => simp
  | cons x xs ih =>
    rw [numBytes_cons]
    cases i with
    | zero =>
      rw [List.getElem?_append_left (by simpa using hj)]
      simp
    | succ i =>
      rw [List.getElem?_append_right (by simp; omega)]
      have : 4 * (i + 1) + j - (wordBytes (BitVec.ofNat 32 x)).length = 4 * i + j := by simp; omega
      rw [this, ih]
      simp

@[simp] theorem length_natBytes (k x : Nat) : (natBytes k x).length = k := by
  induction k generalizing x with
  | zero => rfl
  | succ k ih => simp [natBytes, ih]

/-- A number that fits its bytes is read back. -/
theorem leNat_natBytes (k x : Nat) (h : x < 256 ^ k) : leNat (natBytes k x) = x := by
  induction k generalizing x with
  | zero => simp at h; simp [natBytes, leNat, h]
  | succ k ih =>
    have hx : x / 256 < 256 ^ k := by
      rw [Nat.div_lt_iff_lt_mul (by omega)]
      rwa [Nat.pow_succ] at h
    simp only [natBytes, leNat, ih _ hx, BitVec.toNat_ofNat]
    omega

end Sys2Proof.Machine
end

