-- ==== Sys2Proof/Laws/State.lean ====
section
/-! SUPPORT. What each update of the state does to each field, one lemma per field per update, so
that no later proof unfolds a record update. -/

namespace Sys2Proof.Machine

open Sys2Proof

/-! ## Clearing the valid bits -/

section
variable (s : State)

@[simp] theorem params_clearValid : (s.clearValid).params = s.params := rfl
@[simp] theorem phase_clearValid : (s.clearValid).phase = s.phase := rfl
@[simp] theorem cfg_clearValid : (s.clearValid).cfg = s.cfg := rfl
@[simp] theorem height_clearValid : (s.clearValid).height = s.height := rfl
@[simp] theorem width_clearValid : (s.clearValid).width = s.width := rfl
@[simp] theorem cmd_clearValid : (s.clearValid).cmd = s.cmd := rfl
@[simp] theorem status_clearValid : (s.clearValid).status = { s.status with treeValid := false, codesValid := false } := rfl
@[simp] theorem doneIe_clearValid : (s.clearValid).doneIe = s.doneIe := rfl
@[simp] theorem errInfo_clearValid : (s.clearValid).errInfo = s.errInfo := rfl
@[simp] theorem runCount_clearValid : (s.clearValid).runCount = s.runCount := rfl
@[simp] theorem codeCount_clearValid : (s.clearValid).codeCount = s.codeCount := rfl
@[simp] theorem dictSize_clearValid : (s.clearValid).dictSize = s.dictSize := rfl
@[simp] theorem freqCount_clearValid : (s.clearValid).freqCount = s.freqCount := rfl
@[simp] theorem nodeCount_clearValid : (s.clearValid).nodeCount = s.nodeCount := rfl
@[simp] theorem root_clearValid : (s.clearValid).root = s.root := rfl
@[simp] theorem bitLen_clearValid : (s.clearValid).bitLen = s.bitLen := rfl
@[simp] theorem byteLen_clearValid : (s.clearValid).byteLen = s.byteLen := rfl
@[simp] theorem pad_clearValid : (s.clearValid).pad = s.pad := rfl
@[simp] theorem ft_clearValid : (s.clearValid).ft = s.ft := rfl
@[simp] theorem nd_clearValid : (s.clearValid).nd = s.nd := rfl
@[simp] theorem ct_clearValid : (s.clearValid).ct = s.ct := rfl
@[simp] theorem dt_clearValid : (s.clearValid).dt = s.dt := rfl
@[simp] theorem sb_clearValid : (s.clearValid).sb = s.sb := rfl
@[simp] theorem rb_clearValid : (s.clearValid).rb = s.rb := rfl
@[simp] theorem cb_clearValid : (s.clearValid).cb = s.cb := rfl
@[simp] theorem bb_clearValid : (s.clearValid).bb = s.bb := rfl
@[simp] theorem memDraw_clearValid : (s.clearValid).memDraw = s.memDraw := rfl
@[simp] theorem draws_clearValid : (s.clearValid).draws = s.draws := rfl
@[simp] theorem schedule_clearValid : (s.clearValid).schedule = s.schedule := rfl
@[simp] theorem host_clearValid : (s.clearValid).host = s.host := rfl
@[simp] theorem mem_clearValid (b : Buf) : (s.clearValid).mem b = s.mem b := rfl
@[simp] theorem byte_clearValid (b : Buf) (o : Nat) : (s.clearValid).byte b o = s.byte b o := rfl
@[simp] theorem word_clearValid (b : Buf) (o : Nat) : (s.clearValid).word b o = s.word b o := rfl
@[simp] theorem n_clearValid : (s.clearValid).n = s.n := rfl
@[simp] theorem alphabet_clearValid : (s.clearValid).alphabet = s.alphabet := rfl
@[simp] theorem amax_clearValid : (s.clearValid).amax = s.amax := rfl
@[simp] theorem samples_clearValid : (s.clearValid).samples = s.samples := rfl
@[simp] theorem runs_clearValid : (s.clearValid).runs = s.runs := rfl
@[simp] theorem codes_clearValid : (s.clearValid).codes = s.codes := rfl
@[simp] theorem table_clearValid : (s.clearValid).table = s.table := rfl
@[simp] theorem nodes_clearValid : (s.clearValid).nodes = s.nodes := rfl
@[simp] theorem streamBits_clearValid : (s.clearValid).streamBits = s.streamBits := rfl
@[simp] theorem nodeAt_clearValid (j : Nat) : (s.clearValid).nodeAt j = s.nodeAt j := rfl
@[simp] theorem codeEntry_clearValid (x : Nat) : (s.clearValid).codeEntry x = s.codeEntry x := rfl
@[simp] theorem dictAt_clearValid (k : Nat) : (s.clearValid).dictAt k = s.dictAt k := rfl

end

/-! ## Marking the tree -/

section
variable (s : State)

@[simp] theorem params_markTree : (s.markTree).params = s.params := rfl
@[simp] theorem phase_markTree : (s.markTree).phase = s.phase := rfl
@[simp] theorem cfg_markTree : (s.markTree).cfg = s.cfg := rfl
@[simp] theorem height_markTree : (s.markTree).height = s.height := rfl
@[simp] theorem width_markTree : (s.markTree).width = s.width := rfl
@[simp] theorem cmd_markTree : (s.markTree).cmd = s.cmd := rfl
@[simp] theorem status_markTree : (s.markTree).status = { s.status with treeValid := true, codesValid := false } := rfl
@[simp] theorem doneIe_markTree : (s.markTree).doneIe = s.doneIe := rfl
@[simp] theorem errInfo_markTree : (s.markTree).errInfo = s.errInfo := rfl
@[simp] theorem runCount_markTree : (s.markTree).runCount = s.runCount := rfl
@[simp] theorem codeCount_markTree : (s.markTree).codeCount = s.codeCount := rfl
@[simp] theorem dictSize_markTree : (s.markTree).dictSize = s.dictSize := rfl
@[simp] theorem freqCount_markTree : (s.markTree).freqCount = s.freqCount := rfl
@[simp] theorem nodeCount_markTree : (s.markTree).nodeCount = s.nodeCount := rfl
@[simp] theorem root_markTree : (s.markTree).root = s.root := rfl
@[simp] theorem bitLen_markTree : (s.markTree).bitLen = s.bitLen := rfl
@[simp] theorem byteLen_markTree : (s.markTree).byteLen = s.byteLen := rfl
@[simp] theorem pad_markTree : (s.markTree).pad = s.pad := rfl
@[simp] theorem ft_markTree : (s.markTree).ft = s.ft := rfl
@[simp] theorem nd_markTree : (s.markTree).nd = s.nd := rfl
@[simp] theorem ct_markTree : (s.markTree).ct = s.ct := rfl
@[simp] theorem dt_markTree : (s.markTree).dt = s.dt := rfl
@[simp] theorem sb_markTree : (s.markTree).sb = s.sb := rfl
@[simp] theorem rb_markTree : (s.markTree).rb = s.rb := rfl
@[simp] theorem cb_markTree : (s.markTree).cb = s.cb := rfl
@[simp] theorem bb_markTree : (s.markTree).bb = s.bb := rfl
@[simp] theorem memDraw_markTree : (s.markTree).memDraw = s.memDraw := rfl
@[simp] theorem draws_markTree : (s.markTree).draws = s.draws := rfl
@[simp] theorem schedule_markTree : (s.markTree).schedule = s.schedule := rfl
@[simp] theorem host_markTree : (s.markTree).host = s.host := rfl
@[simp] theorem mem_markTree (b : Buf) : (s.markTree).mem b = s.mem b := rfl
@[simp] theorem byte_markTree (b : Buf) (o : Nat) : (s.markTree).byte b o = s.byte b o := rfl
@[simp] theorem word_markTree (b : Buf) (o : Nat) : (s.markTree).word b o = s.word b o := rfl
@[simp] theorem n_markTree : (s.markTree).n = s.n := rfl
@[simp] theorem alphabet_markTree : (s.markTree).alphabet = s.alphabet := rfl
@[simp] theorem amax_markTree : (s.markTree).amax = s.amax := rfl
@[simp] theorem samples_markTree : (s.markTree).samples = s.samples := rfl
@[simp] theorem runs_markTree : (s.markTree).runs = s.runs := rfl
@[simp] theorem codes_markTree : (s.markTree).codes = s.codes := rfl
@[simp] theorem table_markTree : (s.markTree).table = s.table := rfl
@[simp] theorem nodes_markTree : (s.markTree).nodes = s.nodes := rfl
@[simp] theorem streamBits_markTree : (s.markTree).streamBits = s.streamBits := rfl
@[simp] theorem nodeAt_markTree (j : Nat) : (s.markTree).nodeAt j = s.nodeAt j := rfl
@[simp] theorem codeEntry_markTree (x : Nat) : (s.markTree).codeEntry x = s.codeEntry x := rfl
@[simp] theorem dictAt_markTree (k : Nat) : (s.markTree).dictAt k = s.dictAt k := rfl

end

/-! ## Marking the codes -/

section
variable (s : State)

@[simp] theorem params_markCodes : (s.markCodes).params = s.params := rfl
@[simp] theorem phase_markCodes : (s.markCodes).phase = s.phase := rfl
@[simp] theorem cfg_markCodes : (s.markCodes).cfg = s.cfg := rfl
@[simp] theorem height_markCodes : (s.markCodes).height = s.height := rfl
@[simp] theorem width_markCodes : (s.markCodes).width = s.width := rfl
@[simp] theorem cmd_markCodes : (s.markCodes).cmd = s.cmd := rfl
@[simp] theorem status_markCodes : (s.markCodes).status = { s.status with codesValid := true } := rfl
@[simp] theorem doneIe_markCodes : (s.markCodes).doneIe = s.doneIe := rfl
@[simp] theorem errInfo_markCodes : (s.markCodes).errInfo = s.errInfo := rfl
@[simp] theorem runCount_markCodes : (s.markCodes).runCount = s.runCount := rfl
@[simp] theorem codeCount_markCodes : (s.markCodes).codeCount = s.codeCount := rfl
@[simp] theorem dictSize_markCodes : (s.markCodes).dictSize = s.dictSize := rfl
@[simp] theorem freqCount_markCodes : (s.markCodes).freqCount = s.freqCount := rfl
@[simp] theorem nodeCount_markCodes : (s.markCodes).nodeCount = s.nodeCount := rfl
@[simp] theorem root_markCodes : (s.markCodes).root = s.root := rfl
@[simp] theorem bitLen_markCodes : (s.markCodes).bitLen = s.bitLen := rfl
@[simp] theorem byteLen_markCodes : (s.markCodes).byteLen = s.byteLen := rfl
@[simp] theorem pad_markCodes : (s.markCodes).pad = s.pad := rfl
@[simp] theorem ft_markCodes : (s.markCodes).ft = s.ft := rfl
@[simp] theorem nd_markCodes : (s.markCodes).nd = s.nd := rfl
@[simp] theorem ct_markCodes : (s.markCodes).ct = s.ct := rfl
@[simp] theorem dt_markCodes : (s.markCodes).dt = s.dt := rfl
@[simp] theorem sb_markCodes : (s.markCodes).sb = s.sb := rfl
@[simp] theorem rb_markCodes : (s.markCodes).rb = s.rb := rfl
@[simp] theorem cb_markCodes : (s.markCodes).cb = s.cb := rfl
@[simp] theorem bb_markCodes : (s.markCodes).bb = s.bb := rfl
@[simp] theorem memDraw_markCodes : (s.markCodes).memDraw = s.memDraw := rfl
@[simp] theorem draws_markCodes : (s.markCodes).draws = s.draws := rfl
@[simp] theorem schedule_markCodes : (s.markCodes).schedule = s.schedule := rfl
@[simp] theorem host_markCodes : (s.markCodes).host = s.host := rfl
@[simp] theorem mem_markCodes (b : Buf) : (s.markCodes).mem b = s.mem b := rfl
@[simp] theorem byte_markCodes (b : Buf) (o : Nat) : (s.markCodes).byte b o = s.byte b o := rfl
@[simp] theorem word_markCodes (b : Buf) (o : Nat) : (s.markCodes).word b o = s.word b o := rfl
@[simp] theorem n_markCodes : (s.markCodes).n = s.n := rfl
@[simp] theorem alphabet_markCodes : (s.markCodes).alphabet = s.alphabet := rfl
@[simp] theorem amax_markCodes : (s.markCodes).amax = s.amax := rfl
@[simp] theorem samples_markCodes : (s.markCodes).samples = s.samples := rfl
@[simp] theorem runs_markCodes : (s.markCodes).runs = s.runs := rfl
@[simp] theorem codes_markCodes : (s.markCodes).codes = s.codes := rfl
@[simp] theorem table_markCodes : (s.markCodes).table = s.table := rfl
@[simp] theorem nodes_markCodes : (s.markCodes).nodes = s.nodes := rfl
@[simp] theorem streamBits_markCodes : (s.markCodes).streamBits = s.streamBits := rfl
@[simp] theorem nodeAt_markCodes (j : Nat) : (s.markCodes).nodeAt j = s.nodeAt j := rfl
@[simp] theorem codeEntry_markCodes (x : Nat) : (s.markCodes).codeEntry x = s.codeEntry x := rfl
@[simp] theorem dictAt_markCodes (k : Nat) : (s.markCodes).dictAt k = s.dictAt k := rfl

end

/-! ## Noting a dropped write -/

section
variable (s : State)

@[simp] theorem params_setDropped : (s.setDropped).params = s.params := rfl
@[simp] theorem phase_setDropped : (s.setDropped).phase = s.phase := rfl
@[simp] theorem cfg_setDropped : (s.setDropped).cfg = s.cfg := rfl
@[simp] theorem height_setDropped : (s.setDropped).height = s.height := rfl
@[simp] theorem width_setDropped : (s.setDropped).width = s.width := rfl
@[simp] theorem cmd_setDropped : (s.setDropped).cmd = s.cmd := rfl
@[simp] theorem status_setDropped : (s.setDropped).status = { s.status with dropped := true } := rfl
@[simp] theorem doneIe_setDropped : (s.setDropped).doneIe = s.doneIe := rfl
@[simp] theorem errInfo_setDropped : (s.setDropped).errInfo = s.errInfo := rfl
@[simp] theorem runCount_setDropped : (s.setDropped).runCount = s.runCount := rfl
@[simp] theorem codeCount_setDropped : (s.setDropped).codeCount = s.codeCount := rfl
@[simp] theorem dictSize_setDropped : (s.setDropped).dictSize = s.dictSize := rfl
@[simp] theorem freqCount_setDropped : (s.setDropped).freqCount = s.freqCount := rfl
@[simp] theorem nodeCount_setDropped : (s.setDropped).nodeCount = s.nodeCount := rfl
@[simp] theorem root_setDropped : (s.setDropped).root = s.root := rfl
@[simp] theorem bitLen_setDropped : (s.setDropped).bitLen = s.bitLen := rfl
@[simp] theorem byteLen_setDropped : (s.setDropped).byteLen = s.byteLen := rfl
@[simp] theorem pad_setDropped : (s.setDropped).pad = s.pad := rfl
@[simp] theorem ft_setDropped : (s.setDropped).ft = s.ft := rfl
@[simp] theorem nd_setDropped : (s.setDropped).nd = s.nd := rfl
@[simp] theorem ct_setDropped : (s.setDropped).ct = s.ct := rfl
@[simp] theorem dt_setDropped : (s.setDropped).dt = s.dt := rfl
@[simp] theorem sb_setDropped : (s.setDropped).sb = s.sb := rfl
@[simp] theorem rb_setDropped : (s.setDropped).rb = s.rb := rfl
@[simp] theorem cb_setDropped : (s.setDropped).cb = s.cb := rfl
@[simp] theorem bb_setDropped : (s.setDropped).bb = s.bb := rfl
@[simp] theorem memDraw_setDropped : (s.setDropped).memDraw = s.memDraw := rfl
@[simp] theorem draws_setDropped : (s.setDropped).draws = s.draws := rfl
@[simp] theorem schedule_setDropped : (s.setDropped).schedule = s.schedule := rfl
@[simp] theorem host_setDropped : (s.setDropped).host = s.host := rfl
@[simp] theorem mem_setDropped (b : Buf) : (s.setDropped).mem b = s.mem b := rfl
@[simp] theorem byte_setDropped (b : Buf) (o : Nat) : (s.setDropped).byte b o = s.byte b o := rfl
@[simp] theorem word_setDropped (b : Buf) (o : Nat) : (s.setDropped).word b o = s.word b o := rfl
@[simp] theorem n_setDropped : (s.setDropped).n = s.n := rfl
@[simp] theorem alphabet_setDropped : (s.setDropped).alphabet = s.alphabet := rfl
@[simp] theorem amax_setDropped : (s.setDropped).amax = s.amax := rfl
@[simp] theorem samples_setDropped : (s.setDropped).samples = s.samples := rfl
@[simp] theorem runs_setDropped : (s.setDropped).runs = s.runs := rfl
@[simp] theorem codes_setDropped : (s.setDropped).codes = s.codes := rfl
@[simp] theorem table_setDropped : (s.setDropped).table = s.table := rfl
@[simp] theorem nodes_setDropped : (s.setDropped).nodes = s.nodes := rfl
@[simp] theorem streamBits_setDropped : (s.setDropped).streamBits = s.streamBits := rfl
@[simp] theorem nodeAt_setDropped (j : Nat) : (s.setDropped).nodeAt j = s.nodeAt j := rfl
@[simp] theorem codeEntry_setDropped (x : Nat) : (s.setDropped).codeEntry x = s.codeEntry x := rfl
@[simp] theorem dictAt_setDropped (k : Nat) : (s.setDropped).dictAt k = s.dictAt k := rfl

end

/-! ## A write to STATUS -/

section
variable (s : State) (v : Word)

@[simp] theorem params_ackStatus : (s.ackStatus v).params = s.params := rfl
@[simp] theorem phase_ackStatus : (s.ackStatus v).phase = s.phase := rfl
@[simp] theorem cfg_ackStatus : (s.ackStatus v).cfg = s.cfg := rfl
@[simp] theorem height_ackStatus : (s.ackStatus v).height = s.height := rfl
@[simp] theorem width_ackStatus : (s.ackStatus v).width = s.width := rfl
@[simp] theorem cmd_ackStatus : (s.ackStatus v).cmd = s.cmd := rfl
@[simp] theorem status_ackStatus : (s.ackStatus v).status = { s.status with
    done := s.status.done && !v.getLsbD 1, dropped := s.status.dropped && !v.getLsbD 5 } := rfl
@[simp] theorem doneIe_ackStatus : (s.ackStatus v).doneIe = s.doneIe := rfl
@[simp] theorem errInfo_ackStatus : (s.ackStatus v).errInfo = s.errInfo := rfl
@[simp] theorem runCount_ackStatus : (s.ackStatus v).runCount = s.runCount := rfl
@[simp] theorem codeCount_ackStatus : (s.ackStatus v).codeCount = s.codeCount := rfl
@[simp] theorem dictSize_ackStatus : (s.ackStatus v).dictSize = s.dictSize := rfl
@[simp] theorem freqCount_ackStatus : (s.ackStatus v).freqCount = s.freqCount := rfl
@[simp] theorem nodeCount_ackStatus : (s.ackStatus v).nodeCount = s.nodeCount := rfl
@[simp] theorem root_ackStatus : (s.ackStatus v).root = s.root := rfl
@[simp] theorem bitLen_ackStatus : (s.ackStatus v).bitLen = s.bitLen := rfl
@[simp] theorem byteLen_ackStatus : (s.ackStatus v).byteLen = s.byteLen := rfl
@[simp] theorem pad_ackStatus : (s.ackStatus v).pad = s.pad := rfl
@[simp] theorem ft_ackStatus : (s.ackStatus v).ft = s.ft := rfl
@[simp] theorem nd_ackStatus : (s.ackStatus v).nd = s.nd := rfl
@[simp] theorem ct_ackStatus : (s.ackStatus v).ct = s.ct := rfl
@[simp] theorem dt_ackStatus : (s.ackStatus v).dt = s.dt := rfl
@[simp] theorem sb_ackStatus : (s.ackStatus v).sb = s.sb := rfl
@[simp] theorem rb_ackStatus : (s.ackStatus v).rb = s.rb := rfl
@[simp] theorem cb_ackStatus : (s.ackStatus v).cb = s.cb := rfl
@[simp] theorem bb_ackStatus : (s.ackStatus v).bb = s.bb := rfl
@[simp] theorem memDraw_ackStatus : (s.ackStatus v).memDraw = s.memDraw := rfl
@[simp] theorem draws_ackStatus : (s.ackStatus v).draws = s.draws := rfl
@[simp] theorem schedule_ackStatus : (s.ackStatus v).schedule = s.schedule := rfl
@[simp] theorem host_ackStatus : (s.ackStatus v).host = s.host := rfl
@[simp] theorem mem_ackStatus (b : Buf) : (s.ackStatus v).mem b = s.mem b := rfl
@[simp] theorem byte_ackStatus (b : Buf) (o : Nat) : (s.ackStatus v).byte b o = s.byte b o := rfl
@[simp] theorem word_ackStatus (b : Buf) (o : Nat) : (s.ackStatus v).word b o = s.word b o := rfl
@[simp] theorem n_ackStatus : (s.ackStatus v).n = s.n := rfl
@[simp] theorem alphabet_ackStatus : (s.ackStatus v).alphabet = s.alphabet := rfl
@[simp] theorem amax_ackStatus : (s.ackStatus v).amax = s.amax := rfl
@[simp] theorem samples_ackStatus : (s.ackStatus v).samples = s.samples := rfl
@[simp] theorem runs_ackStatus : (s.ackStatus v).runs = s.runs := rfl
@[simp] theorem codes_ackStatus : (s.ackStatus v).codes = s.codes := rfl
@[simp] theorem table_ackStatus : (s.ackStatus v).table = s.table := rfl
@[simp] theorem nodes_ackStatus : (s.ackStatus v).nodes = s.nodes := rfl
@[simp] theorem streamBits_ackStatus : (s.ackStatus v).streamBits = s.streamBits := rfl
@[simp] theorem nodeAt_ackStatus (j : Nat) : (s.ackStatus v).nodeAt j = s.nodeAt j := rfl
@[simp] theorem codeEntry_ackStatus (x : Nat) : (s.ackStatus v).codeEntry x = s.codeEntry x := rfl
@[simp] theorem dictAt_ackStatus (k : Nat) : (s.ackStatus v).dictAt k = s.dictAt k := rfl

end

/-! ## A draw used up -/

section
variable (s : State)

@[simp] theorem params_nextDraw : (s.nextDraw).params = s.params := rfl
@[simp] theorem phase_nextDraw : (s.nextDraw).phase = s.phase := rfl
@[simp] theorem cfg_nextDraw : (s.nextDraw).cfg = s.cfg := rfl
@[simp] theorem height_nextDraw : (s.nextDraw).height = s.height := rfl
@[simp] theorem width_nextDraw : (s.nextDraw).width = s.width := rfl
@[simp] theorem cmd_nextDraw : (s.nextDraw).cmd = s.cmd := rfl
@[simp] theorem status_nextDraw : (s.nextDraw).status = s.status := rfl
@[simp] theorem doneIe_nextDraw : (s.nextDraw).doneIe = s.doneIe := rfl
@[simp] theorem errInfo_nextDraw : (s.nextDraw).errInfo = s.errInfo := rfl
@[simp] theorem runCount_nextDraw : (s.nextDraw).runCount = s.runCount := rfl
@[simp] theorem codeCount_nextDraw : (s.nextDraw).codeCount = s.codeCount := rfl
@[simp] theorem dictSize_nextDraw : (s.nextDraw).dictSize = s.dictSize := rfl
@[simp] theorem freqCount_nextDraw : (s.nextDraw).freqCount = s.freqCount := rfl
@[simp] theorem nodeCount_nextDraw : (s.nextDraw).nodeCount = s.nodeCount := rfl
@[simp] theorem root_nextDraw : (s.nextDraw).root = s.root := rfl
@[simp] theorem bitLen_nextDraw : (s.nextDraw).bitLen = s.bitLen := rfl
@[simp] theorem byteLen_nextDraw : (s.nextDraw).byteLen = s.byteLen := rfl
@[simp] theorem pad_nextDraw : (s.nextDraw).pad = s.pad := rfl
@[simp] theorem ft_nextDraw : (s.nextDraw).ft = s.ft := rfl
@[simp] theorem nd_nextDraw : (s.nextDraw).nd = s.nd := rfl
@[simp] theorem ct_nextDraw : (s.nextDraw).ct = s.ct := rfl
@[simp] theorem dt_nextDraw : (s.nextDraw).dt = s.dt := rfl
@[simp] theorem sb_nextDraw : (s.nextDraw).sb = s.sb := rfl
@[simp] theorem rb_nextDraw : (s.nextDraw).rb = s.rb := rfl
@[simp] theorem cb_nextDraw : (s.nextDraw).cb = s.cb := rfl
@[simp] theorem bb_nextDraw : (s.nextDraw).bb = s.bb := rfl
@[simp] theorem memDraw_nextDraw : (s.nextDraw).memDraw = s.memDraw := rfl
@[simp] theorem draws_nextDraw : (s.nextDraw).draws = s.draws + 1 := rfl
@[simp] theorem schedule_nextDraw : (s.nextDraw).schedule = s.schedule := rfl
@[simp] theorem host_nextDraw : (s.nextDraw).host = s.host := rfl
@[simp] theorem mem_nextDraw (b : Buf) : (s.nextDraw).mem b = s.mem b := rfl
@[simp] theorem byte_nextDraw (b : Buf) (o : Nat) : (s.nextDraw).byte b o = s.byte b o := rfl
@[simp] theorem word_nextDraw (b : Buf) (o : Nat) : (s.nextDraw).word b o = s.word b o := rfl
@[simp] theorem n_nextDraw : (s.nextDraw).n = s.n := rfl
@[simp] theorem alphabet_nextDraw : (s.nextDraw).alphabet = s.alphabet := rfl
@[simp] theorem amax_nextDraw : (s.nextDraw).amax = s.amax := rfl
@[simp] theorem samples_nextDraw : (s.nextDraw).samples = s.samples := rfl
@[simp] theorem runs_nextDraw : (s.nextDraw).runs = s.runs := rfl
@[simp] theorem codes_nextDraw : (s.nextDraw).codes = s.codes := rfl
@[simp] theorem table_nextDraw : (s.nextDraw).table = s.table := rfl
@[simp] theorem nodes_nextDraw : (s.nextDraw).nodes = s.nodes := rfl
@[simp] theorem streamBits_nextDraw : (s.nextDraw).streamBits = s.streamBits := rfl
@[simp] theorem nodeAt_nextDraw (j : Nat) : (s.nextDraw).nodeAt j = s.nodeAt j := rfl
@[simp] theorem codeEntry_nextDraw (x : Nat) : (s.nextDraw).codeEntry x = s.codeEntry x := rfl
@[simp] theorem dictAt_nextDraw (k : Nat) : (s.nextDraw).dictAt k = s.dictAt k := rfl

end

/-! ## The success completion -/

section
variable (s : State)

@[simp] theorem params_succeed : (s.succeed).params = s.params := rfl
@[simp] theorem phase_succeed : (s.succeed).phase = .idle := rfl
@[simp] theorem cfg_succeed : (s.succeed).cfg = s.cfg := rfl
@[simp] theorem height_succeed : (s.succeed).height = s.height := rfl
@[simp] theorem width_succeed : (s.succeed).width = s.width := rfl
@[simp] theorem cmd_succeed : (s.succeed).cmd = s.cmd := rfl
@[simp] theorem status_succeed : (s.succeed).status = { s.status with done := true, err := false, errcode := 0 } := rfl
@[simp] theorem doneIe_succeed : (s.succeed).doneIe = s.doneIe := rfl
@[simp] theorem errInfo_succeed : (s.succeed).errInfo = 0 := rfl
@[simp] theorem runCount_succeed : (s.succeed).runCount = s.runCount := rfl
@[simp] theorem codeCount_succeed : (s.succeed).codeCount = s.codeCount := rfl
@[simp] theorem dictSize_succeed : (s.succeed).dictSize = s.dictSize := rfl
@[simp] theorem freqCount_succeed : (s.succeed).freqCount = s.freqCount := rfl
@[simp] theorem nodeCount_succeed : (s.succeed).nodeCount = s.nodeCount := rfl
@[simp] theorem root_succeed : (s.succeed).root = s.root := rfl
@[simp] theorem bitLen_succeed : (s.succeed).bitLen = s.bitLen := rfl
@[simp] theorem byteLen_succeed : (s.succeed).byteLen = s.byteLen := rfl
@[simp] theorem pad_succeed : (s.succeed).pad = s.pad := rfl
@[simp] theorem ft_succeed : (s.succeed).ft = s.ft := rfl
@[simp] theorem nd_succeed : (s.succeed).nd = s.nd := rfl
@[simp] theorem ct_succeed : (s.succeed).ct = s.ct := rfl
@[simp] theorem dt_succeed : (s.succeed).dt = s.dt := rfl
@[simp] theorem sb_succeed : (s.succeed).sb = s.sb := rfl
@[simp] theorem rb_succeed : (s.succeed).rb = s.rb := rfl
@[simp] theorem cb_succeed : (s.succeed).cb = s.cb := rfl
@[simp] theorem bb_succeed : (s.succeed).bb = s.bb := rfl
@[simp] theorem memDraw_succeed : (s.succeed).memDraw = s.memDraw := rfl
@[simp] theorem draws_succeed : (s.succeed).draws = s.draws := rfl
@[simp] theorem schedule_succeed : (s.succeed).schedule = s.schedule := rfl
@[simp] theorem host_succeed : (s.succeed).host = s.host := rfl
@[simp] theorem mem_succeed (b : Buf) : (s.succeed).mem b = s.mem b := rfl
@[simp] theorem byte_succeed (b : Buf) (o : Nat) : (s.succeed).byte b o = s.byte b o := rfl
@[simp] theorem word_succeed (b : Buf) (o : Nat) : (s.succeed).word b o = s.word b o := rfl
@[simp] theorem n_succeed : (s.succeed).n = s.n := rfl
@[simp] theorem alphabet_succeed : (s.succeed).alphabet = s.alphabet := rfl
@[simp] theorem amax_succeed : (s.succeed).amax = s.amax := rfl
@[simp] theorem samples_succeed : (s.succeed).samples = s.samples := rfl
@[simp] theorem runs_succeed : (s.succeed).runs = s.runs := rfl
@[simp] theorem codes_succeed : (s.succeed).codes = s.codes := rfl
@[simp] theorem table_succeed : (s.succeed).table = s.table := rfl
@[simp] theorem nodes_succeed : (s.succeed).nodes = s.nodes := rfl
@[simp] theorem streamBits_succeed : (s.succeed).streamBits = s.streamBits := rfl
@[simp] theorem nodeAt_succeed (j : Nat) : (s.succeed).nodeAt j = s.nodeAt j := rfl
@[simp] theorem codeEntry_succeed (x : Nat) : (s.succeed).codeEntry x = s.codeEntry x := rfl
@[simp] theorem dictAt_succeed (k : Nat) : (s.succeed).dictAt k = s.dictAt k := rfl

end

/-! ## The error completion -/

section
variable (s : State) (e : Raise)

@[simp] theorem params_fail : (s.fail e).params = s.params := rfl
@[simp] theorem phase_fail : (s.fail e).phase = .idle := rfl
@[simp] theorem cfg_fail : (s.fail e).cfg = s.cfg := rfl
@[simp] theorem height_fail : (s.fail e).height = s.height := rfl
@[simp] theorem width_fail : (s.fail e).width = s.width := rfl
@[simp] theorem cmd_fail : (s.fail e).cmd = s.cmd := rfl
@[simp] theorem status_fail : (s.fail e).status = { s.status with
    done := true, err := true, errcode := ErrorKind.code e.kind } := rfl
@[simp] theorem doneIe_fail : (s.fail e).doneIe = s.doneIe := rfl
@[simp] theorem errInfo_fail : (s.fail e).errInfo = BitVec.ofNat 32 e.info := rfl
@[simp] theorem runCount_fail : (s.fail e).runCount = s.runCount := rfl
@[simp] theorem codeCount_fail : (s.fail e).codeCount = s.codeCount := rfl
@[simp] theorem dictSize_fail : (s.fail e).dictSize = s.dictSize := rfl
@[simp] theorem freqCount_fail : (s.fail e).freqCount = s.freqCount := rfl
@[simp] theorem nodeCount_fail : (s.fail e).nodeCount = s.nodeCount := rfl
@[simp] theorem root_fail : (s.fail e).root = s.root := rfl
@[simp] theorem bitLen_fail : (s.fail e).bitLen = s.bitLen := rfl
@[simp] theorem byteLen_fail : (s.fail e).byteLen = s.byteLen := rfl
@[simp] theorem pad_fail : (s.fail e).pad = s.pad := rfl
@[simp] theorem ft_fail : (s.fail e).ft = s.ft := rfl
@[simp] theorem nd_fail : (s.fail e).nd = s.nd := rfl
@[simp] theorem ct_fail : (s.fail e).ct = s.ct := rfl
@[simp] theorem dt_fail : (s.fail e).dt = s.dt := rfl
@[simp] theorem sb_fail : (s.fail e).sb = s.sb := rfl
@[simp] theorem rb_fail : (s.fail e).rb = s.rb := rfl
@[simp] theorem cb_fail : (s.fail e).cb = s.cb := rfl
@[simp] theorem bb_fail : (s.fail e).bb = s.bb := rfl
@[simp] theorem memDraw_fail : (s.fail e).memDraw = s.memDraw := rfl
@[simp] theorem draws_fail : (s.fail e).draws = s.draws := rfl
@[simp] theorem schedule_fail : (s.fail e).schedule = s.schedule := rfl
@[simp] theorem host_fail : (s.fail e).host = s.host := rfl
@[simp] theorem mem_fail (b : Buf) : (s.fail e).mem b = s.mem b := rfl
@[simp] theorem byte_fail (b : Buf) (o : Nat) : (s.fail e).byte b o = s.byte b o := rfl
@[simp] theorem word_fail (b : Buf) (o : Nat) : (s.fail e).word b o = s.word b o := rfl
@[simp] theorem n_fail : (s.fail e).n = s.n := rfl
@[simp] theorem alphabet_fail : (s.fail e).alphabet = s.alphabet := rfl
@[simp] theorem amax_fail : (s.fail e).amax = s.amax := rfl
@[simp] theorem samples_fail : (s.fail e).samples = s.samples := rfl
@[simp] theorem runs_fail : (s.fail e).runs = s.runs := rfl
@[simp] theorem codes_fail : (s.fail e).codes = s.codes := rfl
@[simp] theorem table_fail : (s.fail e).table = s.table := rfl
@[simp] theorem nodes_fail : (s.fail e).nodes = s.nodes := rfl
@[simp] theorem streamBits_fail : (s.fail e).streamBits = s.streamBits := rfl
@[simp] theorem nodeAt_fail (j : Nat) : (s.fail e).nodeAt j = s.nodeAt j := rfl
@[simp] theorem codeEntry_fail (x : Nat) : (s.fail e).codeEntry x = s.codeEntry x := rfl
@[simp] theorem dictAt_fail (k : Nat) : (s.fail e).dictAt k = s.dictAt k := rfl

end

/-! ## Acceptance -/

section
variable (s : State) (w : Word)

@[simp] theorem params_accept : (s.accept w).params = s.params := rfl
@[simp] theorem phase_accept : (s.accept w).phase = .busy w := rfl
@[simp] theorem cfg_accept : (s.accept w).cfg = s.cfg := rfl
@[simp] theorem height_accept : (s.accept w).height = s.height := rfl
@[simp] theorem width_accept : (s.accept w).width = s.width := rfl
@[simp] theorem cmd_accept : (s.accept w).cmd = w := rfl
@[simp] theorem status_accept : (s.accept w).status = { s.status with
    done := false, err := false, errcode := 0, lastOp := w.extractLsb' 0 4 } := rfl
@[simp] theorem doneIe_accept : (s.accept w).doneIe = s.doneIe := rfl
@[simp] theorem errInfo_accept : (s.accept w).errInfo = 0 := rfl
@[simp] theorem runCount_accept : (s.accept w).runCount = s.runCount := rfl
@[simp] theorem codeCount_accept : (s.accept w).codeCount = s.codeCount := rfl
@[simp] theorem dictSize_accept : (s.accept w).dictSize = s.dictSize := rfl
@[simp] theorem freqCount_accept : (s.accept w).freqCount = s.freqCount := rfl
@[simp] theorem nodeCount_accept : (s.accept w).nodeCount = s.nodeCount := rfl
@[simp] theorem root_accept : (s.accept w).root = s.root := rfl
@[simp] theorem bitLen_accept : (s.accept w).bitLen = s.bitLen := rfl
@[simp] theorem byteLen_accept : (s.accept w).byteLen = s.byteLen := rfl
@[simp] theorem pad_accept : (s.accept w).pad = s.pad := rfl
@[simp] theorem ft_accept : (s.accept w).ft = s.ft := rfl
@[simp] theorem nd_accept : (s.accept w).nd = s.nd := rfl
@[simp] theorem ct_accept : (s.accept w).ct = s.ct := rfl
@[simp] theorem dt_accept : (s.accept w).dt = s.dt := rfl
@[simp] theorem sb_accept : (s.accept w).sb = s.sb := rfl
@[simp] theorem rb_accept : (s.accept w).rb = s.rb := rfl
@[simp] theorem cb_accept : (s.accept w).cb = s.cb := rfl
@[simp] theorem bb_accept : (s.accept w).bb = s.bb := rfl
@[simp] theorem memDraw_accept : (s.accept w).memDraw = s.memDraw := rfl
@[simp] theorem draws_accept : (s.accept w).draws = s.draws := rfl
@[simp] theorem schedule_accept : (s.accept w).schedule = s.schedule := rfl
@[simp] theorem host_accept : (s.accept w).host = s.host := rfl
@[simp] theorem mem_accept (b : Buf) : (s.accept w).mem b = s.mem b := rfl
@[simp] theorem byte_accept (b : Buf) (o : Nat) : (s.accept w).byte b o = s.byte b o := rfl
@[simp] theorem word_accept (b : Buf) (o : Nat) : (s.accept w).word b o = s.word b o := rfl
@[simp] theorem n_accept : (s.accept w).n = s.n := rfl
@[simp] theorem alphabet_accept : (s.accept w).alphabet = s.alphabet := rfl
@[simp] theorem amax_accept : (s.accept w).amax = s.amax := rfl
@[simp] theorem samples_accept : (s.accept w).samples = s.samples := rfl
@[simp] theorem runs_accept : (s.accept w).runs = s.runs := rfl
@[simp] theorem codes_accept : (s.accept w).codes = s.codes := rfl
@[simp] theorem table_accept : (s.accept w).table = s.table := rfl
@[simp] theorem nodes_accept : (s.accept w).nodes = s.nodes := rfl
@[simp] theorem streamBits_accept : (s.accept w).streamBits = s.streamBits := rfl
@[simp] theorem nodeAt_accept (j : Nat) : (s.accept w).nodeAt j = s.nodeAt j := rfl
@[simp] theorem codeEntry_accept (x : Nat) : (s.accept w).codeEntry x = s.codeEntry x := rfl
@[simp] theorem dictAt_accept (k : Nat) : (s.accept w).dictAt k = s.dictAt k := rfl

end

/-! ## An answer to the host -/

section
variable (s : State) (r : Reply) (name : Option String) (rest : List HostOp)

@[simp] theorem params_answered : (s.answered r name rest).params = s.params := rfl
@[simp] theorem phase_answered : (s.answered r name rest).phase = s.phase := rfl
@[simp] theorem cfg_answered : (s.answered r name rest).cfg = s.cfg := rfl
@[simp] theorem height_answered : (s.answered r name rest).height = s.height := rfl
@[simp] theorem width_answered : (s.answered r name rest).width = s.width := rfl
@[simp] theorem cmd_answered : (s.answered r name rest).cmd = s.cmd := rfl
@[simp] theorem status_answered : (s.answered r name rest).status = s.status := rfl
@[simp] theorem doneIe_answered : (s.answered r name rest).doneIe = s.doneIe := rfl
@[simp] theorem errInfo_answered : (s.answered r name rest).errInfo = s.errInfo := rfl
@[simp] theorem runCount_answered : (s.answered r name rest).runCount = s.runCount := rfl
@[simp] theorem codeCount_answered : (s.answered r name rest).codeCount = s.codeCount := rfl
@[simp] theorem dictSize_answered : (s.answered r name rest).dictSize = s.dictSize := rfl
@[simp] theorem freqCount_answered : (s.answered r name rest).freqCount = s.freqCount := rfl
@[simp] theorem nodeCount_answered : (s.answered r name rest).nodeCount = s.nodeCount := rfl
@[simp] theorem root_answered : (s.answered r name rest).root = s.root := rfl
@[simp] theorem bitLen_answered : (s.answered r name rest).bitLen = s.bitLen := rfl
@[simp] theorem byteLen_answered : (s.answered r name rest).byteLen = s.byteLen := rfl
@[simp] theorem pad_answered : (s.answered r name rest).pad = s.pad := rfl
@[simp] theorem ft_answered : (s.answered r name rest).ft = s.ft := rfl
@[simp] theorem nd_answered : (s.answered r name rest).nd = s.nd := rfl
@[simp] theorem ct_answered : (s.answered r name rest).ct = s.ct := rfl
@[simp] theorem dt_answered : (s.answered r name rest).dt = s.dt := rfl
@[simp] theorem sb_answered : (s.answered r name rest).sb = s.sb := rfl
@[simp] theorem rb_answered : (s.answered r name rest).rb = s.rb := rfl
@[simp] theorem cb_answered : (s.answered r name rest).cb = s.cb := rfl
@[simp] theorem bb_answered : (s.answered r name rest).bb = s.bb := rfl
@[simp] theorem memDraw_answered : (s.answered r name rest).memDraw = s.memDraw := rfl
@[simp] theorem draws_answered : (s.answered r name rest).draws = s.draws := rfl
@[simp] theorem schedule_answered : (s.answered r name rest).schedule = s.schedule := rfl
@[simp] theorem mem_answered (b : Buf) : (s.answered r name rest).mem b = s.mem b := rfl
@[simp] theorem byte_answered (b : Buf) (o : Nat) : (s.answered r name rest).byte b o = s.byte b o := rfl
@[simp] theorem word_answered (b : Buf) (o : Nat) : (s.answered r name rest).word b o = s.word b o := rfl
@[simp] theorem n_answered : (s.answered r name rest).n = s.n := rfl
@[simp] theorem alphabet_answered : (s.answered r name rest).alphabet = s.alphabet := rfl
@[simp] theorem amax_answered : (s.answered r name rest).amax = s.amax := rfl
@[simp] theorem samples_answered : (s.answered r name rest).samples = s.samples := rfl
@[simp] theorem runs_answered : (s.answered r name rest).runs = s.runs := rfl
@[simp] theorem codes_answered : (s.answered r name rest).codes = s.codes := rfl
@[simp] theorem table_answered : (s.answered r name rest).table = s.table := rfl
@[simp] theorem nodes_answered : (s.answered r name rest).nodes = s.nodes := rfl
@[simp] theorem streamBits_answered : (s.answered r name rest).streamBits = s.streamBits := rfl
@[simp] theorem nodeAt_answered (j : Nat) : (s.answered r name rest).nodeAt j = s.nodeAt j := rfl
@[simp] theorem codeEntry_answered (x : Nat) : (s.answered r name rest).codeEntry x = s.codeEntry x := rfl
@[simp] theorem dictAt_answered (k : Nat) : (s.answered r name rest).dictAt k = s.dictAt k := rfl

end

/-! ## Replacing a memory -/

section
variable (s : State) (b : Buf) (m : Memory)

@[simp] theorem params_setMem : (s.setMem b m).params = s.params := by cases b <;> rfl
@[simp] theorem phase_setMem : (s.setMem b m).phase = s.phase := by cases b <;> rfl
@[simp] theorem cfg_setMem : (s.setMem b m).cfg = s.cfg := by cases b <;> rfl
@[simp] theorem height_setMem : (s.setMem b m).height = s.height := by cases b <;> rfl
@[simp] theorem width_setMem : (s.setMem b m).width = s.width := by cases b <;> rfl
@[simp] theorem cmd_setMem : (s.setMem b m).cmd = s.cmd := by cases b <;> rfl
@[simp] theorem status_setMem : (s.setMem b m).status = s.status := by cases b <;> rfl
@[simp] theorem doneIe_setMem : (s.setMem b m).doneIe = s.doneIe := by cases b <;> rfl
@[simp] theorem errInfo_setMem : (s.setMem b m).errInfo = s.errInfo := by cases b <;> rfl
@[simp] theorem runCount_setMem : (s.setMem b m).runCount = s.runCount := by cases b <;> rfl
@[simp] theorem codeCount_setMem : (s.setMem b m).codeCount = s.codeCount := by cases b <;> rfl
@[simp] theorem dictSize_setMem : (s.setMem b m).dictSize = s.dictSize := by cases b <;> rfl
@[simp] theorem freqCount_setMem : (s.setMem b m).freqCount = s.freqCount := by cases b <;> rfl
@[simp] theorem nodeCount_setMem : (s.setMem b m).nodeCount = s.nodeCount := by cases b <;> rfl
@[simp] theorem root_setMem : (s.setMem b m).root = s.root := by cases b <;> rfl
@[simp] theorem bitLen_setMem : (s.setMem b m).bitLen = s.bitLen := by cases b <;> rfl
@[simp] theorem byteLen_setMem : (s.setMem b m).byteLen = s.byteLen := by cases b <;> rfl
@[simp] theorem pad_setMem : (s.setMem b m).pad = s.pad := by cases b <;> rfl
@[simp] theorem memDraw_setMem : (s.setMem b m).memDraw = s.memDraw := by cases b <;> rfl
@[simp] theorem draws_setMem : (s.setMem b m).draws = s.draws := by cases b <;> rfl
@[simp] theorem schedule_setMem : (s.setMem b m).schedule = s.schedule := by cases b <;> rfl
@[simp] theorem host_setMem : (s.setMem b m).host = s.host := by cases b <;> rfl
@[simp] theorem drawnByte_setMem (b' : Buf) (o : Nat) : (s.setMem b m).drawnByte b' o = s.drawnByte b' o := by
  simp [State.drawnByte]
@[simp] theorem n_setMem : (s.setMem b m).n = s.n := by simp [State.n]
@[simp] theorem alphabet_setMem : (s.setMem b m).alphabet = s.alphabet := by simp [State.alphabet]
@[simp] theorem amax_setMem : (s.setMem b m).amax = s.amax := by simp [State.amax]

theorem mem_setMem (b' : Buf) : (s.setMem b m).mem b' = if b' = b then m else s.mem b' := by
  cases b <;> cases b' <;> rfl

@[simp] theorem mem_setMem_same : (s.setMem b m).mem b = m := by simp [mem_setMem]

theorem mem_setMem_ne {b' : Buf} (h : b' ≠ b) : (s.setMem b m).mem b' = s.mem b' := by
  simp [mem_setMem, h]

@[simp] theorem ft_setMem_ft : (s.setMem .ft m).ft = m := rfl
@[simp] theorem ft_setMem_nd : (s.setMem .nd m).ft = s.ft := rfl
@[simp] theorem ft_setMem_ct : (s.setMem .ct m).ft = s.ft := rfl
@[simp] theorem ft_setMem_dt : (s.setMem .dt m).ft = s.ft := rfl
@[simp] theorem ft_setMem_sb : (s.setMem .sb m).ft = s.ft := rfl
@[simp] theorem ft_setMem_rb : (s.setMem .rb m).ft = s.ft := rfl
@[simp] theorem ft_setMem_cb : (s.setMem .cb m).ft = s.ft := rfl
@[simp] theorem ft_setMem_bb : (s.setMem .bb m).ft = s.ft := rfl
@[simp] theorem nd_setMem_ft : (s.setMem .ft m).nd = s.nd := rfl
@[simp] theorem nd_setMem_nd : (s.setMem .nd m).nd = m := rfl
@[simp] theorem nd_setMem_ct : (s.setMem .ct m).nd = s.nd := rfl
@[simp] theorem nd_setMem_dt : (s.setMem .dt m).nd = s.nd := rfl
@[simp] theorem nd_setMem_sb : (s.setMem .sb m).nd = s.nd := rfl
@[simp] theorem nd_setMem_rb : (s.setMem .rb m).nd = s.nd := rfl
@[simp] theorem nd_setMem_cb : (s.setMem .cb m).nd = s.nd := rfl
@[simp] theorem nd_setMem_bb : (s.setMem .bb m).nd = s.nd := rfl
@[simp] theorem ct_setMem_ft : (s.setMem .ft m).ct = s.ct := rfl
@[simp] theorem ct_setMem_nd : (s.setMem .nd m).ct = s.ct := rfl
@[simp] theorem ct_setMem_ct : (s.setMem .ct m).ct = m := rfl
@[simp] theorem ct_setMem_dt : (s.setMem .dt m).ct = s.ct := rfl
@[simp] theorem ct_setMem_sb : (s.setMem .sb m).ct = s.ct := rfl
@[simp] theorem ct_setMem_rb : (s.setMem .rb m).ct = s.ct := rfl
@[simp] theorem ct_setMem_cb : (s.setMem .cb m).ct = s.ct := rfl
@[simp] theorem ct_setMem_bb : (s.setMem .bb m).ct = s.ct := rfl
@[simp] theorem dt_setMem_ft : (s.setMem .ft m).dt = s.dt := rfl
@[simp] theorem dt_setMem_nd : (s.setMem .nd m).dt = s.dt := rfl
@[simp] theorem dt_setMem_ct : (s.setMem .ct m).dt = s.dt := rfl
@[simp] theorem dt_setMem_dt : (s.setMem .dt m).dt = m := rfl
@[simp] theorem dt_setMem_sb : (s.setMem .sb m).dt = s.dt := rfl
@[simp] theorem dt_setMem_rb : (s.setMem .rb m).dt = s.dt := rfl
@[simp] theorem dt_setMem_cb : (s.setMem .cb m).dt = s.dt := rfl
@[simp] theorem dt_setMem_bb : (s.setMem .bb m).dt = s.dt := rfl
@[simp] theorem sb_setMem_ft : (s.setMem .ft m).sb = s.sb := rfl
@[simp] theorem sb_setMem_nd : (s.setMem .nd m).sb = s.sb := rfl
@[simp] theorem sb_setMem_ct : (s.setMem .ct m).sb = s.sb := rfl
@[simp] theorem sb_setMem_dt : (s.setMem .dt m).sb = s.sb := rfl
@[simp] theorem sb_setMem_sb : (s.setMem .sb m).sb = m := rfl
@[simp] theorem sb_setMem_rb : (s.setMem .rb m).sb = s.sb := rfl
@[simp] theorem sb_setMem_cb : (s.setMem .cb m).sb = s.sb := rfl
@[simp] theorem sb_setMem_bb : (s.setMem .bb m).sb = s.sb := rfl
@[simp] theorem rb_setMem_ft : (s.setMem .ft m).rb = s.rb := rfl
@[simp] theorem rb_setMem_nd : (s.setMem .nd m).rb = s.rb := rfl
@[simp] theorem rb_setMem_ct : (s.setMem .ct m).rb = s.rb := rfl
@[simp] theorem rb_setMem_dt : (s.setMem .dt m).rb = s.rb := rfl
@[simp] theorem rb_setMem_sb : (s.setMem .sb m).rb = s.rb := rfl
@[simp] theorem rb_setMem_rb : (s.setMem .rb m).rb = m := rfl
@[simp] theorem rb_setMem_cb : (s.setMem .cb m).rb = s.rb := rfl
@[simp] theorem rb_setMem_bb : (s.setMem .bb m).rb = s.rb := rfl
@[simp] theorem cb_setMem_ft : (s.setMem .ft m).cb = s.cb := rfl
@[simp] theorem cb_setMem_nd : (s.setMem .nd m).cb = s.cb := rfl
@[simp] theorem cb_setMem_ct : (s.setMem .ct m).cb = s.cb := rfl
@[simp] theorem cb_setMem_dt : (s.setMem .dt m).cb = s.cb := rfl
@[simp] theorem cb_setMem_sb : (s.setMem .sb m).cb = s.cb := rfl
@[simp] theorem cb_setMem_rb : (s.setMem .rb m).cb = s.cb := rfl
@[simp] theorem cb_setMem_cb : (s.setMem .cb m).cb = m := rfl
@[simp] theorem cb_setMem_bb : (s.setMem .bb m).cb = s.cb := rfl
@[simp] theorem bb_setMem_ft : (s.setMem .ft m).bb = s.bb := rfl
@[simp] theorem bb_setMem_nd : (s.setMem .nd m).bb = s.bb := rfl
@[simp] theorem bb_setMem_ct : (s.setMem .ct m).bb = s.bb := rfl
@[simp] theorem bb_setMem_dt : (s.setMem .dt m).bb = s.bb := rfl
@[simp] theorem bb_setMem_sb : (s.setMem .sb m).bb = s.bb := rfl
@[simp] theorem bb_setMem_rb : (s.setMem .rb m).bb = s.bb := rfl
@[simp] theorem bb_setMem_cb : (s.setMem .cb m).bb = s.bb := rfl
@[simp] theorem bb_setMem_bb : (s.setMem .bb m).bb = m := rfl

end

/-! ## putBytes -/

section
variable (s : State) (b : Buf) (o : Nat) (bs : List Byte)

@[simp] theorem params_putBytes : (s.putBytes b o bs).params = s.params := by simp [State.putBytes]
@[simp] theorem phase_putBytes : (s.putBytes b o bs).phase = s.phase := by simp [State.putBytes]
@[simp] theorem cfg_putBytes : (s.putBytes b o bs).cfg = s.cfg := by simp [State.putBytes]
@[simp] theorem height_putBytes : (s.putBytes b o bs).height = s.height := by simp [State.putBytes]
@[simp] theorem width_putBytes : (s.putBytes b o bs).width = s.width := by simp [State.putBytes]
@[simp] theorem cmd_putBytes : (s.putBytes b o bs).cmd = s.cmd := by simp [State.putBytes]
@[simp] theorem status_putBytes : (s.putBytes b o bs).status = s.status := by simp [State.putBytes]
@[simp] theorem doneIe_putBytes : (s.putBytes b o bs).doneIe = s.doneIe := by simp [State.putBytes]
@[simp] theorem errInfo_putBytes : (s.putBytes b o bs).errInfo = s.errInfo := by simp [State.putBytes]
@[simp] theorem runCount_putBytes : (s.putBytes b o bs).runCount = s.runCount := by simp [State.putBytes]
@[simp] theorem codeCount_putBytes : (s.putBytes b o bs).codeCount = s.codeCount := by simp [State.putBytes]
@[simp] theorem dictSize_putBytes : (s.putBytes b o bs).dictSize = s.dictSize := by simp [State.putBytes]
@[simp] theorem freqCount_putBytes : (s.putBytes b o bs).freqCount = s.freqCount := by simp [State.putBytes]
@[simp] theorem nodeCount_putBytes : (s.putBytes b o bs).nodeCount = s.nodeCount := by simp [State.putBytes]
@[simp] theorem root_putBytes : (s.putBytes b o bs).root = s.root := by simp [State.putBytes]
@[simp] theorem bitLen_putBytes : (s.putBytes b o bs).bitLen = s.bitLen := by simp [State.putBytes]
@[simp] theorem byteLen_putBytes : (s.putBytes b o bs).byteLen = s.byteLen := by simp [State.putBytes]
@[simp] theorem pad_putBytes : (s.putBytes b o bs).pad = s.pad := by simp [State.putBytes]
@[simp] theorem memDraw_putBytes : (s.putBytes b o bs).memDraw = s.memDraw := by simp [State.putBytes]
@[simp] theorem draws_putBytes : (s.putBytes b o bs).draws = s.draws := by simp [State.putBytes]
@[simp] theorem schedule_putBytes : (s.putBytes b o bs).schedule = s.schedule := by simp [State.putBytes]
@[simp] theorem host_putBytes : (s.putBytes b o bs).host = s.host := by simp [State.putBytes]
@[simp] theorem n_putBytes : (s.putBytes b o bs).n = s.n := by simp [State.putBytes]
@[simp] theorem alphabet_putBytes : (s.putBytes b o bs).alphabet = s.alphabet := by simp [State.putBytes]
@[simp] theorem amax_putBytes : (s.putBytes b o bs).amax = s.amax := by simp [State.putBytes]
@[simp] theorem ft_putBytes (h : b ≠ .ft) : (s.putBytes b o bs).ft = s.ft := mem_setMem_ne s b _ h.symm
@[simp] theorem nd_putBytes (h : b ≠ .nd) : (s.putBytes b o bs).nd = s.nd := mem_setMem_ne s b _ h.symm
@[simp] theorem ct_putBytes (h : b ≠ .ct) : (s.putBytes b o bs).ct = s.ct := mem_setMem_ne s b _ h.symm
@[simp] theorem dt_putBytes (h : b ≠ .dt) : (s.putBytes b o bs).dt = s.dt := mem_setMem_ne s b _ h.symm
@[simp] theorem sb_putBytes (h : b ≠ .sb) : (s.putBytes b o bs).sb = s.sb := mem_setMem_ne s b _ h.symm
@[simp] theorem rb_putBytes (h : b ≠ .rb) : (s.putBytes b o bs).rb = s.rb := mem_setMem_ne s b _ h.symm
@[simp] theorem cb_putBytes (h : b ≠ .cb) : (s.putBytes b o bs).cb = s.cb := mem_setMem_ne s b _ h.symm
@[simp] theorem bb_putBytes (h : b ≠ .bb) : (s.putBytes b o bs).bb = s.bb := mem_setMem_ne s b _ h.symm

end

/-! ## drawBytes -/

section
variable (s : State) (b : Buf) (len : Nat)

@[simp] theorem params_drawBytes : (s.drawBytes b len).params = s.params := by simp [State.drawBytes]
@[simp] theorem phase_drawBytes : (s.drawBytes b len).phase = s.phase := by simp [State.drawBytes]
@[simp] theorem cfg_drawBytes : (s.drawBytes b len).cfg = s.cfg := by simp [State.drawBytes]
@[simp] theorem height_drawBytes : (s.drawBytes b len).height = s.height := by simp [State.drawBytes]
@[simp] theorem width_drawBytes : (s.drawBytes b len).width = s.width := by simp [State.drawBytes]
@[simp] theorem cmd_drawBytes : (s.drawBytes b len).cmd = s.cmd := by simp [State.drawBytes]
@[simp] theorem status_drawBytes : (s.drawBytes b len).status = s.status := by simp [State.drawBytes]
@[simp] theorem doneIe_drawBytes : (s.drawBytes b len).doneIe = s.doneIe := by simp [State.drawBytes]
@[simp] theorem errInfo_drawBytes : (s.drawBytes b len).errInfo = s.errInfo := by simp [State.drawBytes]
@[simp] theorem runCount_drawBytes : (s.drawBytes b len).runCount = s.runCount := by simp [State.drawBytes]
@[simp] theorem codeCount_drawBytes : (s.drawBytes b len).codeCount = s.codeCount := by simp [State.drawBytes]
@[simp] theorem dictSize_drawBytes : (s.drawBytes b len).dictSize = s.dictSize := by simp [State.drawBytes]
@[simp] theorem freqCount_drawBytes : (s.drawBytes b len).freqCount = s.freqCount := by simp [State.drawBytes]
@[simp] theorem nodeCount_drawBytes : (s.drawBytes b len).nodeCount = s.nodeCount := by simp [State.drawBytes]
@[simp] theorem root_drawBytes : (s.drawBytes b len).root = s.root := by simp [State.drawBytes]
@[simp] theorem bitLen_drawBytes : (s.drawBytes b len).bitLen = s.bitLen := by simp [State.drawBytes]
@[simp] theorem byteLen_drawBytes : (s.drawBytes b len).byteLen = s.byteLen := by simp [State.drawBytes]
@[simp] theorem pad_drawBytes : (s.drawBytes b len).pad = s.pad := by simp [State.drawBytes]
@[simp] theorem memDraw_drawBytes : (s.drawBytes b len).memDraw = s.memDraw := by simp [State.drawBytes]
@[simp] theorem draws_drawBytes : (s.drawBytes b len).draws = s.draws := by simp [State.drawBytes]
@[simp] theorem schedule_drawBytes : (s.drawBytes b len).schedule = s.schedule := by simp [State.drawBytes]
@[simp] theorem host_drawBytes : (s.drawBytes b len).host = s.host := by simp [State.drawBytes]
@[simp] theorem n_drawBytes : (s.drawBytes b len).n = s.n := by simp [State.drawBytes]
@[simp] theorem alphabet_drawBytes : (s.drawBytes b len).alphabet = s.alphabet := by simp [State.drawBytes]
@[simp] theorem amax_drawBytes : (s.drawBytes b len).amax = s.amax := by simp [State.drawBytes]
@[simp] theorem ft_drawBytes (h : b ≠ .ft) : (s.drawBytes b len).ft = s.ft := ft_putBytes s b _ _ h
@[simp] theorem nd_drawBytes (h : b ≠ .nd) : (s.drawBytes b len).nd = s.nd := nd_putBytes s b _ _ h
@[simp] theorem ct_drawBytes (h : b ≠ .ct) : (s.drawBytes b len).ct = s.ct := ct_putBytes s b _ _ h
@[simp] theorem dt_drawBytes (h : b ≠ .dt) : (s.drawBytes b len).dt = s.dt := dt_putBytes s b _ _ h
@[simp] theorem sb_drawBytes (h : b ≠ .sb) : (s.drawBytes b len).sb = s.sb := sb_putBytes s b _ _ h
@[simp] theorem rb_drawBytes (h : b ≠ .rb) : (s.drawBytes b len).rb = s.rb := rb_putBytes s b _ _ h
@[simp] theorem cb_drawBytes (h : b ≠ .cb) : (s.drawBytes b len).cb = s.cb := cb_putBytes s b _ _ h
@[simp] theorem bb_drawBytes (h : b ≠ .bb) : (s.drawBytes b len).bb = s.bb := bb_putBytes s b _ _ h

end

/-! ## putPairs -/

section
variable (s : State) (b : Buf) (ps : List (Nat × Nat))

@[simp] theorem params_putPairs : (s.putPairs b ps).params = s.params := by simp [State.putPairs]
@[simp] theorem phase_putPairs : (s.putPairs b ps).phase = s.phase := by simp [State.putPairs]
@[simp] theorem cfg_putPairs : (s.putPairs b ps).cfg = s.cfg := by simp [State.putPairs]
@[simp] theorem height_putPairs : (s.putPairs b ps).height = s.height := by simp [State.putPairs]
@[simp] theorem width_putPairs : (s.putPairs b ps).width = s.width := by simp [State.putPairs]
@[simp] theorem cmd_putPairs : (s.putPairs b ps).cmd = s.cmd := by simp [State.putPairs]
@[simp] theorem status_putPairs : (s.putPairs b ps).status = s.status := by simp [State.putPairs]
@[simp] theorem doneIe_putPairs : (s.putPairs b ps).doneIe = s.doneIe := by simp [State.putPairs]
@[simp] theorem errInfo_putPairs : (s.putPairs b ps).errInfo = s.errInfo := by simp [State.putPairs]
@[simp] theorem runCount_putPairs : (s.putPairs b ps).runCount = s.runCount := by simp [State.putPairs]
@[simp] theorem codeCount_putPairs : (s.putPairs b ps).codeCount = s.codeCount := by simp [State.putPairs]
@[simp] theorem dictSize_putPairs : (s.putPairs b ps).dictSize = s.dictSize := by simp [State.putPairs]
@[simp] theorem freqCount_putPairs : (s.putPairs b ps).freqCount = s.freqCount := by simp [State.putPairs]
@[simp] theorem nodeCount_putPairs : (s.putPairs b ps).nodeCount = s.nodeCount := by simp [State.putPairs]
@[simp] theorem root_putPairs : (s.putPairs b ps).root = s.root := by simp [State.putPairs]
@[simp] theorem bitLen_putPairs : (s.putPairs b ps).bitLen = s.bitLen := by simp [State.putPairs]
@[simp] theorem byteLen_putPairs : (s.putPairs b ps).byteLen = s.byteLen := by simp [State.putPairs]
@[simp] theorem pad_putPairs : (s.putPairs b ps).pad = s.pad := by simp [State.putPairs]
@[simp] theorem memDraw_putPairs : (s.putPairs b ps).memDraw = s.memDraw := by simp [State.putPairs]
@[simp] theorem draws_putPairs : (s.putPairs b ps).draws = s.draws := by simp [State.putPairs]
@[simp] theorem schedule_putPairs : (s.putPairs b ps).schedule = s.schedule := by simp [State.putPairs]
@[simp] theorem host_putPairs : (s.putPairs b ps).host = s.host := by simp [State.putPairs]
@[simp] theorem n_putPairs : (s.putPairs b ps).n = s.n := by simp [State.putPairs]
@[simp] theorem alphabet_putPairs : (s.putPairs b ps).alphabet = s.alphabet := by simp [State.putPairs]
@[simp] theorem amax_putPairs : (s.putPairs b ps).amax = s.amax := by simp [State.putPairs]
@[simp] theorem ft_putPairs (h : b ≠ .ft) : (s.putPairs b ps).ft = s.ft := ft_putBytes s b _ _ h
@[simp] theorem nd_putPairs (h : b ≠ .nd) : (s.putPairs b ps).nd = s.nd := nd_putBytes s b _ _ h
@[simp] theorem ct_putPairs (h : b ≠ .ct) : (s.putPairs b ps).ct = s.ct := ct_putBytes s b _ _ h
@[simp] theorem dt_putPairs (h : b ≠ .dt) : (s.putPairs b ps).dt = s.dt := dt_putBytes s b _ _ h
@[simp] theorem sb_putPairs (h : b ≠ .sb) : (s.putPairs b ps).sb = s.sb := sb_putBytes s b _ _ h
@[simp] theorem rb_putPairs (h : b ≠ .rb) : (s.putPairs b ps).rb = s.rb := rb_putBytes s b _ _ h
@[simp] theorem cb_putPairs (h : b ≠ .cb) : (s.putPairs b ps).cb = s.cb := cb_putBytes s b _ _ h
@[simp] theorem bb_putPairs (h : b ≠ .bb) : (s.putPairs b ps).bb = s.bb := bb_putBytes s b _ _ h

end

/-! ## putSamples -/

section
variable (s : State) (xs : List Nat)

@[simp] theorem params_putSamples : (s.putSamples xs).params = s.params := by simp [State.putSamples]
@[simp] theorem phase_putSamples : (s.putSamples xs).phase = s.phase := by simp [State.putSamples]
@[simp] theorem cfg_putSamples : (s.putSamples xs).cfg = s.cfg := by simp [State.putSamples]
@[simp] theorem height_putSamples : (s.putSamples xs).height = s.height := by simp [State.putSamples]
@[simp] theorem width_putSamples : (s.putSamples xs).width = s.width := by simp [State.putSamples]
@[simp] theorem cmd_putSamples : (s.putSamples xs).cmd = s.cmd := by simp [State.putSamples]
@[simp] theorem status_putSamples : (s.putSamples xs).status = s.status := by simp [State.putSamples]
@[simp] theorem doneIe_putSamples : (s.putSamples xs).doneIe = s.doneIe := by simp [State.putSamples]
@[simp] theorem errInfo_putSamples : (s.putSamples xs).errInfo = s.errInfo := by simp [State.putSamples]
@[simp] theorem runCount_putSamples : (s.putSamples xs).runCount = s.runCount := by simp [State.putSamples]
@[simp] theorem codeCount_putSamples : (s.putSamples xs).codeCount = s.codeCount := by simp [State.putSamples]
@[simp] theorem dictSize_putSamples : (s.putSamples xs).dictSize = s.dictSize := by simp [State.putSamples]
@[simp] theorem freqCount_putSamples : (s.putSamples xs).freqCount = s.freqCount := by simp [State.putSamples]
@[simp] theorem nodeCount_putSamples : (s.putSamples xs).nodeCount = s.nodeCount := by simp [State.putSamples]
@[simp] theorem root_putSamples : (s.putSamples xs).root = s.root := by simp [State.putSamples]
@[simp] theorem bitLen_putSamples : (s.putSamples xs).bitLen = s.bitLen := by simp [State.putSamples]
@[simp] theorem byteLen_putSamples : (s.putSamples xs).byteLen = s.byteLen := by simp [State.putSamples]
@[simp] theorem pad_putSamples : (s.putSamples xs).pad = s.pad := by simp [State.putSamples]
@[simp] theorem memDraw_putSamples : (s.putSamples xs).memDraw = s.memDraw := by simp [State.putSamples]
@[simp] theorem draws_putSamples : (s.putSamples xs).draws = s.draws := by simp [State.putSamples]
@[simp] theorem schedule_putSamples : (s.putSamples xs).schedule = s.schedule := by simp [State.putSamples]
@[simp] theorem host_putSamples : (s.putSamples xs).host = s.host := by simp [State.putSamples]
@[simp] theorem n_putSamples : (s.putSamples xs).n = s.n := by simp [State.putSamples]
@[simp] theorem alphabet_putSamples : (s.putSamples xs).alphabet = s.alphabet := by simp [State.putSamples]
@[simp] theorem amax_putSamples : (s.putSamples xs).amax = s.amax := by simp [State.putSamples]
@[simp] theorem ft_putSamples : (s.putSamples xs).ft = s.ft := by simp [State.putSamples]
@[simp] theorem nd_putSamples : (s.putSamples xs).nd = s.nd := by simp [State.putSamples]
@[simp] theorem ct_putSamples : (s.putSamples xs).ct = s.ct := by simp [State.putSamples]
@[simp] theorem dt_putSamples : (s.putSamples xs).dt = s.dt := by simp [State.putSamples]
@[simp] theorem rb_putSamples : (s.putSamples xs).rb = s.rb := by simp [State.putSamples]
@[simp] theorem cb_putSamples : (s.putSamples xs).cb = s.cb := by simp [State.putSamples]
@[simp] theorem bb_putSamples : (s.putSamples xs).bb = s.bb := by simp [State.putSamples]

end

/-! ## putNodes -/

section
variable (s : State) (nds : List Node)

@[simp] theorem params_putNodes : (s.putNodes nds).params = s.params := by simp [State.putNodes]
@[simp] theorem phase_putNodes : (s.putNodes nds).phase = s.phase := by simp [State.putNodes]
@[simp] theorem cfg_putNodes : (s.putNodes nds).cfg = s.cfg := by simp [State.putNodes]
@[simp] theorem height_putNodes : (s.putNodes nds).height = s.height := by simp [State.putNodes]
@[simp] theorem width_putNodes : (s.putNodes nds).width = s.width := by simp [State.putNodes]
@[simp] theorem cmd_putNodes : (s.putNodes nds).cmd = s.cmd := by simp [State.putNodes]
@[simp] theorem status_putNodes : (s.putNodes nds).status = s.status := by simp [State.putNodes]
@[simp] theorem doneIe_putNodes : (s.putNodes nds).doneIe = s.doneIe := by simp [State.putNodes]
@[simp] theorem errInfo_putNodes : (s.putNodes nds).errInfo = s.errInfo := by simp [State.putNodes]
@[simp] theorem runCount_putNodes : (s.putNodes nds).runCount = s.runCount := by simp [State.putNodes]
@[simp] theorem codeCount_putNodes : (s.putNodes nds).codeCount = s.codeCount := by simp [State.putNodes]
@[simp] theorem dictSize_putNodes : (s.putNodes nds).dictSize = s.dictSize := by simp [State.putNodes]
@[simp] theorem freqCount_putNodes : (s.putNodes nds).freqCount = s.freqCount := by simp [State.putNodes]
@[simp] theorem nodeCount_putNodes : (s.putNodes nds).nodeCount = s.nodeCount := by simp [State.putNodes]
@[simp] theorem root_putNodes : (s.putNodes nds).root = s.root := by simp [State.putNodes]
@[simp] theorem bitLen_putNodes : (s.putNodes nds).bitLen = s.bitLen := by simp [State.putNodes]
@[simp] theorem byteLen_putNodes : (s.putNodes nds).byteLen = s.byteLen := by simp [State.putNodes]
@[simp] theorem pad_putNodes : (s.putNodes nds).pad = s.pad := by simp [State.putNodes]
@[simp] theorem memDraw_putNodes : (s.putNodes nds).memDraw = s.memDraw := by simp [State.putNodes]
@[simp] theorem draws_putNodes : (s.putNodes nds).draws = s.draws := by simp [State.putNodes]
@[simp] theorem schedule_putNodes : (s.putNodes nds).schedule = s.schedule := by simp [State.putNodes]
@[simp] theorem host_putNodes : (s.putNodes nds).host = s.host := by simp [State.putNodes]
@[simp] theorem n_putNodes : (s.putNodes nds).n = s.n := by simp [State.putNodes]
@[simp] theorem alphabet_putNodes : (s.putNodes nds).alphabet = s.alphabet := by simp [State.putNodes]
@[simp] theorem amax_putNodes : (s.putNodes nds).amax = s.amax := by simp [State.putNodes]
@[simp] theorem ft_putNodes : (s.putNodes nds).ft = s.ft := by simp [State.putNodes]
@[simp] theorem ct_putNodes : (s.putNodes nds).ct = s.ct := by simp [State.putNodes]
@[simp] theorem dt_putNodes : (s.putNodes nds).dt = s.dt := by simp [State.putNodes]
@[simp] theorem sb_putNodes : (s.putNodes nds).sb = s.sb := by simp [State.putNodes]
@[simp] theorem rb_putNodes : (s.putNodes nds).rb = s.rb := by simp [State.putNodes]
@[simp] theorem cb_putNodes : (s.putNodes nds).cb = s.cb := by simp [State.putNodes]
@[simp] theorem bb_putNodes : (s.putNodes nds).bb = s.bb := by simp [State.putNodes]

end

/-! ## putCodes -/

section
variable (s : State) (cs : List Code)

@[simp] theorem params_putCodes : (s.putCodes cs).params = s.params := by simp [State.putCodes]
@[simp] theorem phase_putCodes : (s.putCodes cs).phase = s.phase := by simp [State.putCodes]
@[simp] theorem cfg_putCodes : (s.putCodes cs).cfg = s.cfg := by simp [State.putCodes]
@[simp] theorem height_putCodes : (s.putCodes cs).height = s.height := by simp [State.putCodes]
@[simp] theorem width_putCodes : (s.putCodes cs).width = s.width := by simp [State.putCodes]
@[simp] theorem cmd_putCodes : (s.putCodes cs).cmd = s.cmd := by simp [State.putCodes]
@[simp] theorem status_putCodes : (s.putCodes cs).status = s.status := by simp [State.putCodes]
@[simp] theorem doneIe_putCodes : (s.putCodes cs).doneIe = s.doneIe := by simp [State.putCodes]
@[simp] theorem errInfo_putCodes : (s.putCodes cs).errInfo = s.errInfo := by simp [State.putCodes]
@[simp] theorem runCount_putCodes : (s.putCodes cs).runCount = s.runCount := by simp [State.putCodes]
@[simp] theorem codeCount_putCodes : (s.putCodes cs).codeCount = s.codeCount := by simp [State.putCodes]
@[simp] theorem dictSize_putCodes : (s.putCodes cs).dictSize = s.dictSize := by simp [State.putCodes]
@[simp] theorem freqCount_putCodes : (s.putCodes cs).freqCount = s.freqCount := by simp [State.putCodes]
@[simp] theorem nodeCount_putCodes : (s.putCodes cs).nodeCount = s.nodeCount := by simp [State.putCodes]
@[simp] theorem root_putCodes : (s.putCodes cs).root = s.root := by simp [State.putCodes]
@[simp] theorem bitLen_putCodes : (s.putCodes cs).bitLen = s.bitLen := by simp [State.putCodes]
@[simp] theorem byteLen_putCodes : (s.putCodes cs).byteLen = s.byteLen := by simp [State.putCodes]
@[simp] theorem pad_putCodes : (s.putCodes cs).pad = s.pad := by simp [State.putCodes]
@[simp] theorem memDraw_putCodes : (s.putCodes cs).memDraw = s.memDraw := by simp [State.putCodes]
@[simp] theorem draws_putCodes : (s.putCodes cs).draws = s.draws := by simp [State.putCodes]
@[simp] theorem schedule_putCodes : (s.putCodes cs).schedule = s.schedule := by simp [State.putCodes]
@[simp] theorem host_putCodes : (s.putCodes cs).host = s.host := by simp [State.putCodes]
@[simp] theorem n_putCodes : (s.putCodes cs).n = s.n := by simp [State.putCodes]
@[simp] theorem alphabet_putCodes : (s.putCodes cs).alphabet = s.alphabet := by simp [State.putCodes]
@[simp] theorem amax_putCodes : (s.putCodes cs).amax = s.amax := by simp [State.putCodes]
@[simp] theorem ft_putCodes : (s.putCodes cs).ft = s.ft := by simp [State.putCodes]
@[simp] theorem nd_putCodes : (s.putCodes cs).nd = s.nd := by simp [State.putCodes]
@[simp] theorem dt_putCodes : (s.putCodes cs).dt = s.dt := by simp [State.putCodes]
@[simp] theorem sb_putCodes : (s.putCodes cs).sb = s.sb := by simp [State.putCodes]
@[simp] theorem rb_putCodes : (s.putCodes cs).rb = s.rb := by simp [State.putCodes]
@[simp] theorem cb_putCodes : (s.putCodes cs).cb = s.cb := by simp [State.putCodes]
@[simp] theorem bb_putCodes : (s.putCodes cs).bb = s.bb := by simp [State.putCodes]

end

/-! ## storeRuns -/

section
variable (s : State)

@[simp] theorem params_storeRuns : (s.storeRuns).params = s.params := by simp [State.storeRuns]
@[simp] theorem phase_storeRuns : (s.storeRuns).phase = s.phase := by simp [State.storeRuns]
@[simp] theorem cfg_storeRuns : (s.storeRuns).cfg = s.cfg := by simp [State.storeRuns]
@[simp] theorem height_storeRuns : (s.storeRuns).height = s.height := by simp [State.storeRuns]
@[simp] theorem width_storeRuns : (s.storeRuns).width = s.width := by simp [State.storeRuns]
@[simp] theorem cmd_storeRuns : (s.storeRuns).cmd = s.cmd := by simp [State.storeRuns]
@[simp] theorem status_storeRuns : (s.storeRuns).status = s.status := by simp [State.storeRuns]
@[simp] theorem doneIe_storeRuns : (s.storeRuns).doneIe = s.doneIe := by simp [State.storeRuns]
@[simp] theorem errInfo_storeRuns : (s.storeRuns).errInfo = s.errInfo := by simp [State.storeRuns]
@[simp] theorem codeCount_storeRuns : (s.storeRuns).codeCount = s.codeCount := by simp [State.storeRuns]
@[simp] theorem dictSize_storeRuns : (s.storeRuns).dictSize = s.dictSize := by simp [State.storeRuns]
@[simp] theorem freqCount_storeRuns : (s.storeRuns).freqCount = s.freqCount := by simp [State.storeRuns]
@[simp] theorem nodeCount_storeRuns : (s.storeRuns).nodeCount = s.nodeCount := by simp [State.storeRuns]
@[simp] theorem root_storeRuns : (s.storeRuns).root = s.root := by simp [State.storeRuns]
@[simp] theorem bitLen_storeRuns : (s.storeRuns).bitLen = s.bitLen := by simp [State.storeRuns]
@[simp] theorem byteLen_storeRuns : (s.storeRuns).byteLen = s.byteLen := by simp [State.storeRuns]
@[simp] theorem pad_storeRuns : (s.storeRuns).pad = s.pad := by simp [State.storeRuns]
@[simp] theorem memDraw_storeRuns : (s.storeRuns).memDraw = s.memDraw := by simp [State.storeRuns]
@[simp] theorem draws_storeRuns : (s.storeRuns).draws = s.draws := by simp [State.storeRuns]
@[simp] theorem schedule_storeRuns : (s.storeRuns).schedule = s.schedule := by simp [State.storeRuns]
@[simp] theorem host_storeRuns : (s.storeRuns).host = s.host := by simp [State.storeRuns]
@[simp] theorem n_storeRuns : (s.storeRuns).n = s.n := by simp [State.n]
@[simp] theorem alphabet_storeRuns : (s.storeRuns).alphabet = s.alphabet := by simp [State.alphabet]
@[simp] theorem amax_storeRuns : (s.storeRuns).amax = s.amax := by simp [State.amax]
@[simp] theorem ft_storeRuns : (s.storeRuns).ft = s.ft := by simp [State.storeRuns]
@[simp] theorem nd_storeRuns : (s.storeRuns).nd = s.nd := by simp [State.storeRuns]
@[simp] theorem ct_storeRuns : (s.storeRuns).ct = s.ct := by simp [State.storeRuns]
@[simp] theorem dt_storeRuns : (s.storeRuns).dt = s.dt := by simp [State.storeRuns]
@[simp] theorem sb_storeRuns : (s.storeRuns).sb = s.sb := by simp [State.storeRuns]
@[simp] theorem cb_storeRuns : (s.storeRuns).cb = s.cb := by simp [State.storeRuns]
@[simp] theorem bb_storeRuns : (s.storeRuns).bb = s.bb := by simp [State.storeRuns]

end

/-! ## putDict -/

section
variable (s : State) (ins : List (Nat × Nat))

@[simp] theorem params_putDict : (s.putDict ins).params = s.params := by simp [State.putDict]
@[simp] theorem phase_putDict : (s.putDict ins).phase = s.phase := by simp [State.putDict]
@[simp] theorem cfg_putDict : (s.putDict ins).cfg = s.cfg := by simp [State.putDict]
@[simp] theorem height_putDict : (s.putDict ins).height = s.height := by simp [State.putDict]
@[simp] theorem width_putDict : (s.putDict ins).width = s.width := by simp [State.putDict]
@[simp] theorem cmd_putDict : (s.putDict ins).cmd = s.cmd := by simp [State.putDict]
@[simp] theorem status_putDict : (s.putDict ins).status = s.status := by simp [State.putDict]
@[simp] theorem doneIe_putDict : (s.putDict ins).doneIe = s.doneIe := by simp [State.putDict]
@[simp] theorem errInfo_putDict : (s.putDict ins).errInfo = s.errInfo := by simp [State.putDict]
@[simp] theorem runCount_putDict : (s.putDict ins).runCount = s.runCount := by simp [State.putDict]
@[simp] theorem codeCount_putDict : (s.putDict ins).codeCount = s.codeCount := by simp [State.putDict]
@[simp] theorem freqCount_putDict : (s.putDict ins).freqCount = s.freqCount := by simp [State.putDict]
@[simp] theorem nodeCount_putDict : (s.putDict ins).nodeCount = s.nodeCount := by simp [State.putDict]
@[simp] theorem root_putDict : (s.putDict ins).root = s.root := by simp [State.putDict]
@[simp] theorem bitLen_putDict : (s.putDict ins).bitLen = s.bitLen := by simp [State.putDict]
@[simp] theorem byteLen_putDict : (s.putDict ins).byteLen = s.byteLen := by simp [State.putDict]
@[simp] theorem pad_putDict : (s.putDict ins).pad = s.pad := by simp [State.putDict]
@[simp] theorem memDraw_putDict : (s.putDict ins).memDraw = s.memDraw := by simp [State.putDict]
@[simp] theorem draws_putDict : (s.putDict ins).draws = s.draws := by simp [State.putDict]
@[simp] theorem schedule_putDict : (s.putDict ins).schedule = s.schedule := by simp [State.putDict]
@[simp] theorem host_putDict : (s.putDict ins).host = s.host := by simp [State.putDict]
@[simp] theorem n_putDict : (s.putDict ins).n = s.n := by simp [State.n]
@[simp] theorem alphabet_putDict : (s.putDict ins).alphabet = s.alphabet := by simp [State.alphabet]
@[simp] theorem amax_putDict : (s.putDict ins).amax = s.amax := by simp [State.amax]
@[simp] theorem ft_putDict : (s.putDict ins).ft = s.ft := by simp [State.putDict]
@[simp] theorem nd_putDict : (s.putDict ins).nd = s.nd := by simp [State.putDict]
@[simp] theorem ct_putDict : (s.putDict ins).ct = s.ct := by simp [State.putDict]
@[simp] theorem sb_putDict : (s.putDict ins).sb = s.sb := by simp [State.putDict]
@[simp] theorem rb_putDict : (s.putDict ins).rb = s.rb := by simp [State.putDict]
@[simp] theorem cb_putDict : (s.putDict ins).cb = s.cb := by simp [State.putDict]
@[simp] theorem bb_putDict : (s.putDict ins).bb = s.bb := by simp [State.putDict]

end

/-! ## storeCodes -/

section
variable (s : State) (codes : List Nat) (ins : List (Nat × Nat))

@[simp] theorem params_storeCodes : (s.storeCodes codes ins).params = s.params := by simp [State.storeCodes]
@[simp] theorem phase_storeCodes : (s.storeCodes codes ins).phase = s.phase := by simp [State.storeCodes]
@[simp] theorem cfg_storeCodes : (s.storeCodes codes ins).cfg = s.cfg := by simp [State.storeCodes]
@[simp] theorem height_storeCodes : (s.storeCodes codes ins).height = s.height := by simp [State.storeCodes]
@[simp] theorem width_storeCodes : (s.storeCodes codes ins).width = s.width := by simp [State.storeCodes]
@[simp] theorem cmd_storeCodes : (s.storeCodes codes ins).cmd = s.cmd := by simp [State.storeCodes]
@[simp] theorem status_storeCodes : (s.storeCodes codes ins).status = s.status := by simp [State.storeCodes]
@[simp] theorem doneIe_storeCodes : (s.storeCodes codes ins).doneIe = s.doneIe := by simp [State.storeCodes]
@[simp] theorem errInfo_storeCodes : (s.storeCodes codes ins).errInfo = s.errInfo := by simp [State.storeCodes]
@[simp] theorem runCount_storeCodes : (s.storeCodes codes ins).runCount = s.runCount := by simp [State.storeCodes]
@[simp] theorem freqCount_storeCodes : (s.storeCodes codes ins).freqCount = s.freqCount := by simp [State.storeCodes]
@[simp] theorem nodeCount_storeCodes : (s.storeCodes codes ins).nodeCount = s.nodeCount := by simp [State.storeCodes]
@[simp] theorem root_storeCodes : (s.storeCodes codes ins).root = s.root := by simp [State.storeCodes]
@[simp] theorem bitLen_storeCodes : (s.storeCodes codes ins).bitLen = s.bitLen := by simp [State.storeCodes]
@[simp] theorem byteLen_storeCodes : (s.storeCodes codes ins).byteLen = s.byteLen := by simp [State.storeCodes]
@[simp] theorem pad_storeCodes : (s.storeCodes codes ins).pad = s.pad := by simp [State.storeCodes]
@[simp] theorem memDraw_storeCodes : (s.storeCodes codes ins).memDraw = s.memDraw := by simp [State.storeCodes]
@[simp] theorem draws_storeCodes : (s.storeCodes codes ins).draws = s.draws := by simp [State.storeCodes]
@[simp] theorem schedule_storeCodes : (s.storeCodes codes ins).schedule = s.schedule := by simp [State.storeCodes]
@[simp] theorem host_storeCodes : (s.storeCodes codes ins).host = s.host := by simp [State.storeCodes]
@[simp] theorem n_storeCodes : (s.storeCodes codes ins).n = s.n := by simp [State.n]
@[simp] theorem alphabet_storeCodes : (s.storeCodes codes ins).alphabet = s.alphabet := by simp [State.alphabet]
@[simp] theorem amax_storeCodes : (s.storeCodes codes ins).amax = s.amax := by simp [State.amax]
@[simp] theorem ft_storeCodes : (s.storeCodes codes ins).ft = s.ft := by simp [State.storeCodes]
@[simp] theorem nd_storeCodes : (s.storeCodes codes ins).nd = s.nd := by simp [State.storeCodes]
@[simp] theorem ct_storeCodes : (s.storeCodes codes ins).ct = s.ct := by simp [State.storeCodes]
@[simp] theorem sb_storeCodes : (s.storeCodes codes ins).sb = s.sb := by simp [State.storeCodes]
@[simp] theorem rb_storeCodes : (s.storeCodes codes ins).rb = s.rb := by simp [State.storeCodes]
@[simp] theorem bb_storeCodes : (s.storeCodes codes ins).bb = s.bb := by simp [State.storeCodes]

end

/-! ## spoilLzwEnc -/

section
variable (s : State)

@[simp] theorem params_spoilLzwEnc : (s.spoilLzwEnc).params = s.params := by simp [State.spoilLzwEnc]
@[simp] theorem phase_spoilLzwEnc : (s.spoilLzwEnc).phase = s.phase := by simp [State.spoilLzwEnc]
@[simp] theorem cfg_spoilLzwEnc : (s.spoilLzwEnc).cfg = s.cfg := by simp [State.spoilLzwEnc]
@[simp] theorem height_spoilLzwEnc : (s.spoilLzwEnc).height = s.height := by simp [State.spoilLzwEnc]
@[simp] theorem width_spoilLzwEnc : (s.spoilLzwEnc).width = s.width := by simp [State.spoilLzwEnc]
@[simp] theorem cmd_spoilLzwEnc : (s.spoilLzwEnc).cmd = s.cmd := by simp [State.spoilLzwEnc]
@[simp] theorem status_spoilLzwEnc : (s.spoilLzwEnc).status = s.status := by simp [State.spoilLzwEnc]
@[simp] theorem doneIe_spoilLzwEnc : (s.spoilLzwEnc).doneIe = s.doneIe := by simp [State.spoilLzwEnc]
@[simp] theorem errInfo_spoilLzwEnc : (s.spoilLzwEnc).errInfo = s.errInfo := by simp [State.spoilLzwEnc]
@[simp] theorem runCount_spoilLzwEnc : (s.spoilLzwEnc).runCount = s.runCount := by simp [State.spoilLzwEnc]
@[simp] theorem freqCount_spoilLzwEnc : (s.spoilLzwEnc).freqCount = s.freqCount := by simp [State.spoilLzwEnc]
@[simp] theorem nodeCount_spoilLzwEnc : (s.spoilLzwEnc).nodeCount = s.nodeCount := by simp [State.spoilLzwEnc]
@[simp] theorem root_spoilLzwEnc : (s.spoilLzwEnc).root = s.root := by simp [State.spoilLzwEnc]
@[simp] theorem bitLen_spoilLzwEnc : (s.spoilLzwEnc).bitLen = s.bitLen := by simp [State.spoilLzwEnc]
@[simp] theorem byteLen_spoilLzwEnc : (s.spoilLzwEnc).byteLen = s.byteLen := by simp [State.spoilLzwEnc]
@[simp] theorem pad_spoilLzwEnc : (s.spoilLzwEnc).pad = s.pad := by simp [State.spoilLzwEnc]
@[simp] theorem memDraw_spoilLzwEnc : (s.spoilLzwEnc).memDraw = s.memDraw := by simp [State.spoilLzwEnc]
@[simp] theorem schedule_spoilLzwEnc : (s.spoilLzwEnc).schedule = s.schedule := by simp [State.spoilLzwEnc]
@[simp] theorem host_spoilLzwEnc : (s.spoilLzwEnc).host = s.host := by simp [State.spoilLzwEnc]
@[simp] theorem n_spoilLzwEnc : (s.spoilLzwEnc).n = s.n := by simp [State.n]
@[simp] theorem alphabet_spoilLzwEnc : (s.spoilLzwEnc).alphabet = s.alphabet := by simp [State.alphabet]
@[simp] theorem amax_spoilLzwEnc : (s.spoilLzwEnc).amax = s.amax := by simp [State.amax]
@[simp] theorem ft_spoilLzwEnc : (s.spoilLzwEnc).ft = s.ft := by simp [State.spoilLzwEnc]
@[simp] theorem nd_spoilLzwEnc : (s.spoilLzwEnc).nd = s.nd := by simp [State.spoilLzwEnc]
@[simp] theorem ct_spoilLzwEnc : (s.spoilLzwEnc).ct = s.ct := by simp [State.spoilLzwEnc]
@[simp] theorem sb_spoilLzwEnc : (s.spoilLzwEnc).sb = s.sb := by simp [State.spoilLzwEnc]
@[simp] theorem rb_spoilLzwEnc : (s.spoilLzwEnc).rb = s.rb := by simp [State.spoilLzwEnc]
@[simp] theorem bb_spoilLzwEnc : (s.spoilLzwEnc).bb = s.bb := by simp [State.spoilLzwEnc]

end

/-! ## spoilLzwDec -/

section
variable (s : State)

@[simp] theorem params_spoilLzwDec : (s.spoilLzwDec).params = s.params := by simp [State.spoilLzwDec]
@[simp] theorem phase_spoilLzwDec : (s.spoilLzwDec).phase = s.phase := by simp [State.spoilLzwDec]
@[simp] theorem cfg_spoilLzwDec : (s.spoilLzwDec).cfg = s.cfg := by simp [State.spoilLzwDec]
@[simp] theorem height_spoilLzwDec : (s.spoilLzwDec).height = s.height := by simp [State.spoilLzwDec]
@[simp] theorem width_spoilLzwDec : (s.spoilLzwDec).width = s.width := by simp [State.spoilLzwDec]
@[simp] theorem cmd_spoilLzwDec : (s.spoilLzwDec).cmd = s.cmd := by simp [State.spoilLzwDec]
@[simp] theorem status_spoilLzwDec : (s.spoilLzwDec).status = s.status := by simp [State.spoilLzwDec]
@[simp] theorem doneIe_spoilLzwDec : (s.spoilLzwDec).doneIe = s.doneIe := by simp [State.spoilLzwDec]
@[simp] theorem errInfo_spoilLzwDec : (s.spoilLzwDec).errInfo = s.errInfo := by simp [State.spoilLzwDec]
@[simp] theorem runCount_spoilLzwDec : (s.spoilLzwDec).runCount = s.runCount := by simp [State.spoilLzwDec]
@[simp] theorem codeCount_spoilLzwDec : (s.spoilLzwDec).codeCount = s.codeCount := by simp [State.spoilLzwDec]
@[simp] theorem freqCount_spoilLzwDec : (s.spoilLzwDec).freqCount = s.freqCount := by simp [State.spoilLzwDec]
@[simp] theorem nodeCount_spoilLzwDec : (s.spoilLzwDec).nodeCount = s.nodeCount := by simp [State.spoilLzwDec]
@[simp] theorem root_spoilLzwDec : (s.spoilLzwDec).root = s.root := by simp [State.spoilLzwDec]
@[simp] theorem bitLen_spoilLzwDec : (s.spoilLzwDec).bitLen = s.bitLen := by simp [State.spoilLzwDec]
@[simp] theorem byteLen_spoilLzwDec : (s.spoilLzwDec).byteLen = s.byteLen := by simp [State.spoilLzwDec]
@[simp] theorem pad_spoilLzwDec : (s.spoilLzwDec).pad = s.pad := by simp [State.spoilLzwDec]
@[simp] theorem memDraw_spoilLzwDec : (s.spoilLzwDec).memDraw = s.memDraw := by simp [State.spoilLzwDec]
@[simp] theorem schedule_spoilLzwDec : (s.spoilLzwDec).schedule = s.schedule := by simp [State.spoilLzwDec]
@[simp] theorem host_spoilLzwDec : (s.spoilLzwDec).host = s.host := by simp [State.spoilLzwDec]
@[simp] theorem n_spoilLzwDec : (s.spoilLzwDec).n = s.n := by simp [State.n]
@[simp] theorem alphabet_spoilLzwDec : (s.spoilLzwDec).alphabet = s.alphabet := by simp [State.alphabet]
@[simp] theorem amax_spoilLzwDec : (s.spoilLzwDec).amax = s.amax := by simp [State.amax]
@[simp] theorem ft_spoilLzwDec : (s.spoilLzwDec).ft = s.ft := by simp [State.spoilLzwDec]
@[simp] theorem nd_spoilLzwDec : (s.spoilLzwDec).nd = s.nd := by simp [State.spoilLzwDec]
@[simp] theorem ct_spoilLzwDec : (s.spoilLzwDec).ct = s.ct := by simp [State.spoilLzwDec]
@[simp] theorem rb_spoilLzwDec : (s.spoilLzwDec).rb = s.rb := by simp [State.spoilLzwDec]
@[simp] theorem cb_spoilLzwDec : (s.spoilLzwDec).cb = s.cb := by simp [State.spoilLzwDec]
@[simp] theorem bb_spoilLzwDec : (s.spoilLzwDec).bb = s.bb := by simp [State.spoilLzwDec]

end

/-! ## storeTable -/

section
variable (s : State)

@[simp] theorem params_storeTable : (s.storeTable).params = s.params := by simp [State.storeTable]
@[simp] theorem phase_storeTable : (s.storeTable).phase = s.phase := by simp [State.storeTable]
@[simp] theorem cfg_storeTable : (s.storeTable).cfg = s.cfg := by simp [State.storeTable]
@[simp] theorem height_storeTable : (s.storeTable).height = s.height := by simp [State.storeTable]
@[simp] theorem width_storeTable : (s.storeTable).width = s.width := by simp [State.storeTable]
@[simp] theorem cmd_storeTable : (s.storeTable).cmd = s.cmd := by simp [State.storeTable]
@[simp] theorem status_storeTable : (s.storeTable).status = s.status := by simp [State.storeTable]
@[simp] theorem doneIe_storeTable : (s.storeTable).doneIe = s.doneIe := by simp [State.storeTable]
@[simp] theorem errInfo_storeTable : (s.storeTable).errInfo = s.errInfo := by simp [State.storeTable]
@[simp] theorem runCount_storeTable : (s.storeTable).runCount = s.runCount := by simp [State.storeTable]
@[simp] theorem codeCount_storeTable : (s.storeTable).codeCount = s.codeCount := by simp [State.storeTable]
@[simp] theorem dictSize_storeTable : (s.storeTable).dictSize = s.dictSize := by simp [State.storeTable]
@[simp] theorem nodeCount_storeTable : (s.storeTable).nodeCount = s.nodeCount := by simp [State.storeTable]
@[simp] theorem root_storeTable : (s.storeTable).root = s.root := by simp [State.storeTable]
@[simp] theorem bitLen_storeTable : (s.storeTable).bitLen = s.bitLen := by simp [State.storeTable]
@[simp] theorem byteLen_storeTable : (s.storeTable).byteLen = s.byteLen := by simp [State.storeTable]
@[simp] theorem pad_storeTable : (s.storeTable).pad = s.pad := by simp [State.storeTable]
@[simp] theorem memDraw_storeTable : (s.storeTable).memDraw = s.memDraw := by simp [State.storeTable]
@[simp] theorem draws_storeTable : (s.storeTable).draws = s.draws := by simp [State.storeTable]
@[simp] theorem schedule_storeTable : (s.storeTable).schedule = s.schedule := by simp [State.storeTable]
@[simp] theorem host_storeTable : (s.storeTable).host = s.host := by simp [State.storeTable]
@[simp] theorem n_storeTable : (s.storeTable).n = s.n := by simp [State.n]
@[simp] theorem alphabet_storeTable : (s.storeTable).alphabet = s.alphabet := by simp [State.alphabet]
@[simp] theorem amax_storeTable : (s.storeTable).amax = s.amax := by simp [State.amax]
@[simp] theorem nd_storeTable : (s.storeTable).nd = s.nd := by simp [State.storeTable]
@[simp] theorem ct_storeTable : (s.storeTable).ct = s.ct := by simp [State.storeTable]
@[simp] theorem dt_storeTable : (s.storeTable).dt = s.dt := by simp [State.storeTable]
@[simp] theorem sb_storeTable : (s.storeTable).sb = s.sb := by simp [State.storeTable]
@[simp] theorem rb_storeTable : (s.storeTable).rb = s.rb := by simp [State.storeTable]
@[simp] theorem cb_storeTable : (s.storeTable).cb = s.cb := by simp [State.storeTable]
@[simp] theorem bb_storeTable : (s.storeTable).bb = s.bb := by simp [State.storeTable]

end

/-! ## storeTree -/

section
variable (s : State)

@[simp] theorem params_storeTree : (s.storeTree).params = s.params := by simp [State.storeTree]
@[simp] theorem phase_storeTree : (s.storeTree).phase = s.phase := by simp [State.storeTree]
@[simp] theorem cfg_storeTree : (s.storeTree).cfg = s.cfg := by simp [State.storeTree]
@[simp] theorem height_storeTree : (s.storeTree).height = s.height := by simp [State.storeTree]
@[simp] theorem width_storeTree : (s.storeTree).width = s.width := by simp [State.storeTree]
@[simp] theorem cmd_storeTree : (s.storeTree).cmd = s.cmd := by simp [State.storeTree]
@[simp] theorem doneIe_storeTree : (s.storeTree).doneIe = s.doneIe := by simp [State.storeTree]
@[simp] theorem errInfo_storeTree : (s.storeTree).errInfo = s.errInfo := by simp [State.storeTree]
@[simp] theorem runCount_storeTree : (s.storeTree).runCount = s.runCount := by simp [State.storeTree]
@[simp] theorem codeCount_storeTree : (s.storeTree).codeCount = s.codeCount := by simp [State.storeTree]
@[simp] theorem dictSize_storeTree : (s.storeTree).dictSize = s.dictSize := by simp [State.storeTree]
@[simp] theorem freqCount_storeTree : (s.storeTree).freqCount = s.freqCount := by simp [State.storeTree]
@[simp] theorem bitLen_storeTree : (s.storeTree).bitLen = s.bitLen := by simp [State.storeTree]
@[simp] theorem byteLen_storeTree : (s.storeTree).byteLen = s.byteLen := by simp [State.storeTree]
@[simp] theorem pad_storeTree : (s.storeTree).pad = s.pad := by simp [State.storeTree]
@[simp] theorem memDraw_storeTree : (s.storeTree).memDraw = s.memDraw := by simp [State.storeTree]
@[simp] theorem draws_storeTree : (s.storeTree).draws = s.draws := by simp [State.storeTree]
@[simp] theorem schedule_storeTree : (s.storeTree).schedule = s.schedule := by simp [State.storeTree]
@[simp] theorem host_storeTree : (s.storeTree).host = s.host := by simp [State.storeTree]
@[simp] theorem n_storeTree : (s.storeTree).n = s.n := by simp [State.n]
@[simp] theorem alphabet_storeTree : (s.storeTree).alphabet = s.alphabet := by simp [State.alphabet]
@[simp] theorem amax_storeTree : (s.storeTree).amax = s.amax := by simp [State.amax]
@[simp] theorem ft_storeTree : (s.storeTree).ft = s.ft := by simp [State.storeTree]
@[simp] theorem ct_storeTree : (s.storeTree).ct = s.ct := by simp [State.storeTree]
@[simp] theorem dt_storeTree : (s.storeTree).dt = s.dt := by simp [State.storeTree]
@[simp] theorem sb_storeTree : (s.storeTree).sb = s.sb := by simp [State.storeTree]
@[simp] theorem rb_storeTree : (s.storeTree).rb = s.rb := by simp [State.storeTree]
@[simp] theorem cb_storeTree : (s.storeTree).cb = s.cb := by simp [State.storeTree]
@[simp] theorem bb_storeTree : (s.storeTree).bb = s.bb := by simp [State.storeTree]

end

/-! ## storeCodeTable -/

section
variable (s : State)

@[simp] theorem params_storeCodeTable : (s.storeCodeTable).params = s.params := by simp [State.storeCodeTable]
@[simp] theorem phase_storeCodeTable : (s.storeCodeTable).phase = s.phase := by simp [State.storeCodeTable]
@[simp] theorem cfg_storeCodeTable : (s.storeCodeTable).cfg = s.cfg := by simp [State.storeCodeTable]
@[simp] theorem height_storeCodeTable : (s.storeCodeTable).height = s.height := by simp [State.storeCodeTable]
@[simp] theorem width_storeCodeTable : (s.storeCodeTable).width = s.width := by simp [State.storeCodeTable]
@[simp] theorem cmd_storeCodeTable : (s.storeCodeTable).cmd = s.cmd := by simp [State.storeCodeTable]
@[simp] theorem doneIe_storeCodeTable : (s.storeCodeTable).doneIe = s.doneIe := by simp [State.storeCodeTable]
@[simp] theorem errInfo_storeCodeTable : (s.storeCodeTable).errInfo = s.errInfo := by simp [State.storeCodeTable]
@[simp] theorem runCount_storeCodeTable : (s.storeCodeTable).runCount = s.runCount := by simp [State.storeCodeTable]
@[simp] theorem codeCount_storeCodeTable : (s.storeCodeTable).codeCount = s.codeCount := by simp [State.storeCodeTable]
@[simp] theorem dictSize_storeCodeTable : (s.storeCodeTable).dictSize = s.dictSize := by simp [State.storeCodeTable]
@[simp] theorem freqCount_storeCodeTable : (s.storeCodeTable).freqCount = s.freqCount := by simp [State.storeCodeTable]
@[simp] theorem nodeCount_storeCodeTable : (s.storeCodeTable).nodeCount = s.nodeCount := by simp [State.storeCodeTable]
@[simp] theorem root_storeCodeTable : (s.storeCodeTable).root = s.root := by simp [State.storeCodeTable]
@[simp] theorem bitLen_storeCodeTable : (s.storeCodeTable).bitLen = s.bitLen := by simp [State.storeCodeTable]
@[simp] theorem byteLen_storeCodeTable : (s.storeCodeTable).byteLen = s.byteLen := by simp [State.storeCodeTable]
@[simp] theorem pad_storeCodeTable : (s.storeCodeTable).pad = s.pad := by simp [State.storeCodeTable]
@[simp] theorem memDraw_storeCodeTable : (s.storeCodeTable).memDraw = s.memDraw := by simp [State.storeCodeTable]
@[simp] theorem draws_storeCodeTable : (s.storeCodeTable).draws = s.draws := by simp [State.storeCodeTable]
@[simp] theorem schedule_storeCodeTable : (s.storeCodeTable).schedule = s.schedule := by simp [State.storeCodeTable]
@[simp] theorem host_storeCodeTable : (s.storeCodeTable).host = s.host := by simp [State.storeCodeTable]
@[simp] theorem n_storeCodeTable : (s.storeCodeTable).n = s.n := by simp [State.n]
@[simp] theorem alphabet_storeCodeTable : (s.storeCodeTable).alphabet = s.alphabet := by simp [State.alphabet]
@[simp] theorem amax_storeCodeTable : (s.storeCodeTable).amax = s.amax := by simp [State.amax]
@[simp] theorem ft_storeCodeTable : (s.storeCodeTable).ft = s.ft := by simp [State.storeCodeTable]
@[simp] theorem nd_storeCodeTable : (s.storeCodeTable).nd = s.nd := by simp [State.storeCodeTable]
@[simp] theorem dt_storeCodeTable : (s.storeCodeTable).dt = s.dt := by simp [State.storeCodeTable]
@[simp] theorem sb_storeCodeTable : (s.storeCodeTable).sb = s.sb := by simp [State.storeCodeTable]
@[simp] theorem rb_storeCodeTable : (s.storeCodeTable).rb = s.rb := by simp [State.storeCodeTable]
@[simp] theorem cb_storeCodeTable : (s.storeCodeTable).cb = s.cb := by simp [State.storeCodeTable]
@[simp] theorem bb_storeCodeTable : (s.storeCodeTable).bb = s.bb := by simp [State.storeCodeTable]

end

/-! ## storeStream -/

section
variable (s : State) (bits : List Bool)

@[simp] theorem params_storeStream : (s.storeStream bits).params = s.params := by simp [State.storeStream]
@[simp] theorem phase_storeStream : (s.storeStream bits).phase = s.phase := by simp [State.storeStream]
@[simp] theorem cfg_storeStream : (s.storeStream bits).cfg = s.cfg := by simp [State.storeStream]
@[simp] theorem height_storeStream : (s.storeStream bits).height = s.height := by simp [State.storeStream]
@[simp] theorem width_storeStream : (s.storeStream bits).width = s.width := by simp [State.storeStream]
@[simp] theorem cmd_storeStream : (s.storeStream bits).cmd = s.cmd := by simp [State.storeStream]
@[simp] theorem status_storeStream : (s.storeStream bits).status = s.status := by simp [State.storeStream]
@[simp] theorem doneIe_storeStream : (s.storeStream bits).doneIe = s.doneIe := by simp [State.storeStream]
@[simp] theorem errInfo_storeStream : (s.storeStream bits).errInfo = s.errInfo := by simp [State.storeStream]
@[simp] theorem runCount_storeStream : (s.storeStream bits).runCount = s.runCount := by simp [State.storeStream]
@[simp] theorem codeCount_storeStream : (s.storeStream bits).codeCount = s.codeCount := by simp [State.storeStream]
@[simp] theorem dictSize_storeStream : (s.storeStream bits).dictSize = s.dictSize := by simp [State.storeStream]
@[simp] theorem freqCount_storeStream : (s.storeStream bits).freqCount = s.freqCount := by simp [State.storeStream]
@[simp] theorem nodeCount_storeStream : (s.storeStream bits).nodeCount = s.nodeCount := by simp [State.storeStream]
@[simp] theorem root_storeStream : (s.storeStream bits).root = s.root := by simp [State.storeStream]
@[simp] theorem memDraw_storeStream : (s.storeStream bits).memDraw = s.memDraw := by simp [State.storeStream]
@[simp] theorem draws_storeStream : (s.storeStream bits).draws = s.draws := by simp [State.storeStream]
@[simp] theorem schedule_storeStream : (s.storeStream bits).schedule = s.schedule := by simp [State.storeStream]
@[simp] theorem host_storeStream : (s.storeStream bits).host = s.host := by simp [State.storeStream]
@[simp] theorem n_storeStream : (s.storeStream bits).n = s.n := by simp [State.n]
@[simp] theorem alphabet_storeStream : (s.storeStream bits).alphabet = s.alphabet := by simp [State.alphabet]
@[simp] theorem amax_storeStream : (s.storeStream bits).amax = s.amax := by simp [State.amax]
@[simp] theorem ft_storeStream : (s.storeStream bits).ft = s.ft := by simp [State.storeStream]
@[simp] theorem nd_storeStream : (s.storeStream bits).nd = s.nd := by simp [State.storeStream]
@[simp] theorem ct_storeStream : (s.storeStream bits).ct = s.ct := by simp [State.storeStream]
@[simp] theorem dt_storeStream : (s.storeStream bits).dt = s.dt := by simp [State.storeStream]
@[simp] theorem sb_storeStream : (s.storeStream bits).sb = s.sb := by simp [State.storeStream]
@[simp] theorem rb_storeStream : (s.storeStream bits).rb = s.rb := by simp [State.storeStream]
@[simp] theorem cb_storeStream : (s.storeStream bits).cb = s.cb := by simp [State.storeStream]

end

/-! ## spoilPack -/

section
variable (s : State)

@[simp] theorem params_spoilPack : (s.spoilPack).params = s.params := by simp [State.spoilPack]
@[simp] theorem phase_spoilPack : (s.spoilPack).phase = s.phase := by simp [State.spoilPack]
@[simp] theorem cfg_spoilPack : (s.spoilPack).cfg = s.cfg := by simp [State.spoilPack]
@[simp] theorem height_spoilPack : (s.spoilPack).height = s.height := by simp [State.spoilPack]
@[simp] theorem width_spoilPack : (s.spoilPack).width = s.width := by simp [State.spoilPack]
@[simp] theorem cmd_spoilPack : (s.spoilPack).cmd = s.cmd := by simp [State.spoilPack]
@[simp] theorem status_spoilPack : (s.spoilPack).status = s.status := by simp [State.spoilPack]
@[simp] theorem doneIe_spoilPack : (s.spoilPack).doneIe = s.doneIe := by simp [State.spoilPack]
@[simp] theorem errInfo_spoilPack : (s.spoilPack).errInfo = s.errInfo := by simp [State.spoilPack]
@[simp] theorem runCount_spoilPack : (s.spoilPack).runCount = s.runCount := by simp [State.spoilPack]
@[simp] theorem codeCount_spoilPack : (s.spoilPack).codeCount = s.codeCount := by simp [State.spoilPack]
@[simp] theorem dictSize_spoilPack : (s.spoilPack).dictSize = s.dictSize := by simp [State.spoilPack]
@[simp] theorem freqCount_spoilPack : (s.spoilPack).freqCount = s.freqCount := by simp [State.spoilPack]
@[simp] theorem nodeCount_spoilPack : (s.spoilPack).nodeCount = s.nodeCount := by simp [State.spoilPack]
@[simp] theorem root_spoilPack : (s.spoilPack).root = s.root := by simp [State.spoilPack]
@[simp] theorem memDraw_spoilPack : (s.spoilPack).memDraw = s.memDraw := by simp [State.spoilPack]
@[simp] theorem schedule_spoilPack : (s.spoilPack).schedule = s.schedule := by simp [State.spoilPack]
@[simp] theorem host_spoilPack : (s.spoilPack).host = s.host := by simp [State.spoilPack]
@[simp] theorem n_spoilPack : (s.spoilPack).n = s.n := by simp [State.n]
@[simp] theorem alphabet_spoilPack : (s.spoilPack).alphabet = s.alphabet := by simp [State.alphabet]
@[simp] theorem amax_spoilPack : (s.spoilPack).amax = s.amax := by simp [State.amax]
@[simp] theorem ft_spoilPack : (s.spoilPack).ft = s.ft := by simp [State.spoilPack]
@[simp] theorem nd_spoilPack : (s.spoilPack).nd = s.nd := by simp [State.spoilPack]
@[simp] theorem ct_spoilPack : (s.spoilPack).ct = s.ct := by simp [State.spoilPack]
@[simp] theorem dt_spoilPack : (s.spoilPack).dt = s.dt := by simp [State.spoilPack]
@[simp] theorem sb_spoilPack : (s.spoilPack).sb = s.sb := by simp [State.spoilPack]
@[simp] theorem rb_spoilPack : (s.spoilPack).rb = s.rb := by simp [State.spoilPack]
@[simp] theorem cb_spoilPack : (s.spoilPack).cb = s.cb := by simp [State.spoilPack]

end

end Sys2Proof.Machine
end

