-- ==== Sys2Proof/Laws/Ops.lean ====
section
/-! SUPPORT. One spec lemma per shared operation: what bytes, words, samples, pairs, nodes and code
entries read as after a write, and how a command can complete. -/

namespace Sys2Proof.Machine

open Sys2Proof

/-! ## Bytes -/

/-- A byte after a write of consecutive bytes. -/
theorem byte_putBytes (s : State) (b : Buf) (o : Nat) (bs : List Byte) (b' : Buf) (k : Nat) :
    (s.putBytes b o bs).byte b' k =
      if b' = b ∧ o ≤ k ∧ k < o + bs.length then (bs[k - o]?).getD 0 else s.byte b' k := by
  unfold State.byte State.putBytes
  rw [mem_setMem, drawnByte_setMem]
  by_cases hb : b' = b
  · subst hb
    rw [if_pos rfl, get_write]
    by_cases hk : o ≤ k ∧ k < o + bs.length
    · have hlt : k - o < bs.length := by omega
      simp [hk, hlt]
    · simp [hk]
  · simp [hb]

/-- A byte outside the written ones is what it was. -/
theorem byte_putBytes_frame (s : State) (b : Buf) (o : Nat) (bs : List Byte) (b' : Buf) (k : Nat)
    (h : b' ≠ b ∨ k < o ∨ o + bs.length ≤ k) : (s.putBytes b o bs).byte b' k = s.byte b' k := by
  rw [byte_putBytes, if_neg]
  rintro ⟨h1, h2, h3⟩
  rcases h with h | h | h
  · exact h h1
  · omega
  · omega

theorem word_putBytes_frame (s : State) (b : Buf) (o : Nat) (bs : List Byte) (b' : Buf) (k : Nat)
    (h : b' ≠ b ∨ k + 4 ≤ o ∨ o + bs.length ≤ k) : (s.putBytes b o bs).word b' k = s.word b' k := by
  simp only [State.word]
  rw [byte_putBytes_frame, byte_putBytes_frame, byte_putBytes_frame, byte_putBytes_frame]
  all_goals
    rcases h with h | h | h
    · exact .inl h
    · exact .inr (.inl (by omega))
    · exact .inr (.inr (by omega))

/-- The i-th of the numbers written from an offset on is read back. -/
theorem word_putBytes_numBytes (s : State) (b : Buf) (o : Nat) (xs : List Nat) (i x : Nat)
    (hx : xs[i]? = some x) :
    (s.putBytes b o (numBytes xs)).word b (o + 4 * i) = BitVec.ofNat 32 x := by
  have hi : i < xs.length := (List.getElem?_eq_some_iff.1 hx).1
  have key : ∀ j, j < 4 → (s.putBytes b o (numBytes xs)).byte b (o + 4 * i + j) =
      ((wordBytes (BitVec.ofNat 32 x))[j]?).getD 0 := by
    intro j hj
    rw [byte_putBytes, if_pos ⟨rfl, by omega, by rw [length_numBytes]; omega⟩]
    rw [show o + 4 * i + j - o = 4 * i + j by omega, getElem?_numBytes _ _ _ hj, hx]
    rfl
  simp only [State.word]
  rw [show o + 4 * i = o + 4 * i + 0 by omega, key 0 (by omega), Nat.add_zero, key 1 (by omega),
    key 2 (by omega), key 3 (by omega)]
  exact wordOfBytes_extract _

/-- The memories but the written one are what they were. -/
theorem mem_putBytes_ne (s : State) (b : Buf) (o : Nat) (bs : List Byte) {b' : Buf} (h : b' ≠ b) :
    (s.putBytes b o bs).mem b' = s.mem b' := mem_setMem_ne _ _ _ h

/-! ## What a reading depends on -/

section
variable {s t : State} (hd : s.memDraw = t.memDraw)
include hd

/-- A byte depends on its memory and on the draw of never-written bytes alone. -/
theorem byte_congr {b : Buf} (hm : s.mem b = t.mem b) (o : Nat) : s.byte b o = t.byte b o := by
  simp only [State.byte, State.drawnByte, hm, hd]

theorem word_congr {b : Buf} (hm : s.mem b = t.mem b) (o : Nat) : s.word b o = t.word b o := by
  simp only [State.word, byte_congr hd hm]

theorem sample_congr (hm : s.sb = t.sb) (k : Nat) : s.sample k = t.sample k := by
  simp only [State.sample, byte_congr hd (b := .sb) hm]

theorem samples_congr (hm : s.sb = t.sb) (hn : s.n = t.n) : s.samples = t.samples := by
  simp only [State.samples, hn]
  exact List.map_congr_left fun k _ => sample_congr hd hm k

theorem runAt_congr (hm : s.rb = t.rb) (i : Nat) : s.runAt i = t.runAt i := by
  simp only [State.runAt, word_congr hd (b := .rb) hm]

theorem codeAt_congr (hm : s.cb = t.cb) (i : Nat) : s.codeAt i = t.codeAt i := by
  simp only [State.codeAt, word_congr hd (b := .cb) hm]

theorem codes_congr (hm : s.cb = t.cb) (hc : s.codeCount = t.codeCount) : s.codes = t.codes := by
  simp only [State.codes, hc]
  exact List.map_congr_left fun i _ => codeAt_congr hd hm i

theorem dictAt_congr (hm : s.dt = t.dt) (k : Nat) : s.dictAt k = t.dictAt k := by
  simp only [State.dictAt, word_congr hd (b := .dt) hm]

theorem freqAt_congr (hm : s.ft = t.ft) (i : Nat) : s.freqAt i = t.freqAt i := by
  simp only [State.freqAt, word_congr hd (b := .ft) hm]

theorem table_congr (hm : s.ft = t.ft) (hc : s.freqCount = t.freqCount) : s.table = t.table := by
  simp only [State.table, hc]
  exact List.map_congr_left fun i _ => freqAt_congr hd hm i

theorem nodeAt_congr (hm : s.nd = t.nd) (j : Nat) : s.nodeAt j = t.nodeAt j := by
  simp only [State.nodeAt, word_congr hd (b := .nd) hm, byte_congr hd (b := .nd) hm]

theorem nodes_congr (hm : s.nd = t.nd) (hc : s.nodeCount = t.nodeCount) : s.nodes = t.nodes := by
  simp only [State.nodes, hc]
  exact List.map_congr_left fun j _ => nodeAt_congr hd hm j

theorem codeEntry_congr (hm : s.ct = t.ct) (x : Nat) : s.codeEntry x = t.codeEntry x := by
  simp only [State.codeEntry, State.drawnByte, hm, hd]

theorem streamBit_congr (hm : s.bb = t.bb) (i : Nat) : s.streamBit i = t.streamBit i := by
  simp only [State.streamBit, byte_congr hd (b := .bb) hm]

end

/-! ## Unspecified bytes -/

/-- A byte after a range was left unspecified: the draw inside the range, the old byte outside. -/
theorem byte_drawBytes (s : State) (b : Buf) (len : Nat) (b' : Buf) (k : Nat) :
    (s.drawBytes b len).byte b' k =
      if b' = b ∧ k < len then Config.freeByte s.draws (Buf.base b + k) else s.byte b' k := by
  unfold State.drawBytes
  rw [byte_putBytes]
  by_cases h : b' = b ∧ k < len
  · simp [h]
  · have : ¬ (b' = b ∧ 0 ≤ k ∧ k < 0 + ((List.range len).map fun o =>
        Config.freeByte s.draws (Buf.base b + o)).length) := by simpa using h
    rw [if_neg this, if_neg h]

/-! ## Samples -/

/-- The samples after a grid was written. -/
theorem sample_putSamples (s : State) (xs : List Nat) (k x : Nat) (hx : xs[k]? = some x)
    (hb : x < 256) : (s.putSamples xs).sample k = x := by
  have hk : k < xs.length := (List.getElem?_eq_some_iff.1 hx).1
  unfold State.sample State.putSamples
  rw [byte_putBytes, if_pos ⟨rfl, by omega, by simpa using hk⟩]
  simp [hx]
  omega

theorem samples_putSamples (s : State) (xs : List Nat) (hl : xs.length = s.n)
    (hb : ∀ x ∈ xs, x < 256) : (s.putSamples xs).samples = xs := by
  unfold State.samples
  rw [n_putSamples, ← hl]
  apply List.ext_getElem?
  intro k
  by_cases hk : k < xs.length
  · have hx : xs[k]? = some xs[k] := List.getElem?_eq_getElem hk
    rw [List.getElem?_map, List.getElem?_range hk, hx]
    simp [sample_putSamples s xs k _ hx (hb _ (List.getElem_mem hk))]
  · simp [hk]

@[simp] theorem length_samples (s : State) : s.samples.length = s.n := by simp [State.samples]

theorem samples_lt (s : State) : ∀ x ∈ s.samples, x < 256 := by
  intro x hx
  simp only [State.samples, List.mem_map, State.sample] at hx
  obtain ⟨k, -, rfl⟩ := hx
  exact (s.byte .sb k).isLt

/-! ## Pairs -/

theorem getElem?_flatMap_pair (ps : List (Nat × Nat)) (i : Nat) :
    (ps.flatMap fun p => [p.1, p.2])[2 * i]? = ps[i]?.map (·.1) ∧
      (ps.flatMap fun p => [p.1, p.2])[2 * i + 1]? = ps[i]?.map (·.2) := by
  induction ps generalizing i with
  | nil => simp
  | cons p ps ih =>
    cases i with
    | zero => simp
    | succ i =>
      have := ih i
      rw [show 2 * (i + 1) = 2 * i + 1 + 1 by omega]
      simpa using this

@[simp] theorem length_flatMap_pair (ps : List (Nat × Nat)) :
    (ps.flatMap fun p => [p.1, p.2]).length = 2 * ps.length := by
  induction ps with
  | nil => rfl
  | cons p ps ih => simp [List.flatMap_cons, ih]; omega

/-- The i-th pair written is read back. -/
theorem word_putPairs (s : State) (b : Buf) (ps : List (Nat × Nat)) (i : Nat) (p : Nat × Nat)
    (hp : ps[i]? = some p) (h1 : p.1 < 2 ^ 32) (h2 : p.2 < 2 ^ 32) :
    ((s.putPairs b ps).word b (8 * i)).toNat = p.1 ∧
      ((s.putPairs b ps).word b (8 * i + 4)).toNat = p.2 := by
  have hpair := getElem?_flatMap_pair ps i
  rw [hp] at hpair
  unfold State.putPairs
  constructor
  · have := word_putBytes_numBytes s b 0 _ _ _ hpair.1
    rw [show 0 + 4 * (2 * i) = 8 * i by omega] at this
    rw [this, BitVec.toNat_ofNat, Nat.mod_eq_of_lt h1]
  · have := word_putBytes_numBytes s b 0 _ _ _ hpair.2
    rw [show 0 + 4 * (2 * i + 1) = 8 * i + 4 by omega] at this
    rw [this, BitVec.toNat_ofNat, Nat.mod_eq_of_lt h2]

/-- Bytes outside the written pairs are what they were. -/
theorem byte_putPairs_frame (s : State) (b : Buf) (ps : List (Nat × Nat)) (b' : Buf) (k : Nat)
    (h : b' ≠ b ∨ 8 * ps.length ≤ k) : (s.putPairs b ps).byte b' k = s.byte b' k := by
  apply byte_putBytes_frame
  rcases h with h | h
  · exact .inl h
  · right; right; rw [length_numBytes, length_flatMap_pair]; omega

/-- A list of words read by index equals the written list. -/
theorem map_range_eq {α : Type} (f : Nat → α) (xs : List α)
    (h : ∀ i x, xs[i]? = some x → f i = x) : (List.range xs.length).map f = xs := by
  apply List.ext_getElem?
  intro k
  by_cases hk : k < xs.length
  · have hx : xs[k]? = some xs[k] := List.getElem?_eq_getElem hk
    rw [List.getElem?_map, List.getElem?_range hk, hx]
    simp [h k _ hx]
  · simp [hk]

/-- The pairs written are read back as a list. -/
theorem map_word_putPairs (s : State) (b : Buf) (ps : List (Nat × Nat))
    (h : ∀ p ∈ ps, p.1 < 2 ^ 32 ∧ p.2 < 2 ^ 32) :
    (List.range ps.length).map (fun i =>
      (((s.putPairs b ps).word b (8 * i)).toNat, ((s.putPairs b ps).word b (8 * i + 4)).toNat)) =
      ps := by
  apply map_range_eq
  intro i x hx
  have hm := h x (List.mem_of_getElem? hx)
  have := word_putPairs s b ps i x hx hm.1 hm.2
  rw [this.1, this.2]

/-! ## Nodes -/

theorem mem_nodeCells {j : Nat} {nd : Node} {c : Host.Cell} (h : c ∈ nodeCells j nd) :
    32 * j ≤ c.1 ∧ c.1 < 32 * j + 20 ∧ (c.1 = 32 * j ∨ 32 * j + 4 ≤ c.1) := by
  rcases List.mem_cons.1 h with rfl | h
  · simp
  · have := mem_cellsFrom h
    simp only [length_numBytes, List.length_cons, List.length_nil] at this
    omega

theorem mem_nodesCells {j : Nat} {nds : List Node} {c : Host.Cell} (h : c ∈ nodesCells j nds) :
    32 * j ≤ c.1 ∧ c.1 < 32 * (j + nds.length) := by
  induction nds generalizing j with
  | nil => simp [nodesCells] at h
  | cons nd nds ih =>
    rw [List.length_cons]
    rcases List.mem_append.1 h with h | h
    · have := mem_nodeCells h
      omega
    · have := ih h
      omega

theorem wf_nodesCells (j : Nat) (nds : List Node) : Memory.wf (nodesCells j nds) := by
  induction nds generalizing j with
  | nil => exact List.Pairwise.nil
  | cons nd nds ih =>
    refine List.pairwise_append.2 ⟨?_, ih _, ?_⟩
    · refine List.Pairwise.cons (fun c hc => ?_) (wf_cellsFrom _ _)
      have := (mem_cellsFrom hc).1
      simp only
      omega
    · intro x hx y hy
      have := (mem_nodeCells hx).2.1
      have := (mem_nodesCells hy).1
      omega

/-- The cells of the i-th of consecutive nodes, at an offset inside its record. -/
theorem lookup_nodesCells (j : Nat) (nds : List Node) (i : Nat) (nd : Node)
    (h : nds[i]? = some nd) (o : Nat) (ho : o < 32) :
    (nodesCells j nds).lookup (32 * (j + i) + o) =
      (nodeCells (j + i) nd).lookup (32 * (j + i) + o) := by
  induction nds generalizing j i with
  | nil => simp at h
  | cons nd' nds ih =>
    rw [nodesCells, lookup_append_cells]
    cases i with
    | zero =>
      obtain rfl : nd' = nd := by simpa using h
      rw [Nat.add_zero, lookup_eq_none_of_forall_ne (nodesCells (j + 1) nds)]
      · exact Option.or_none
      · intro c hc
        have := (mem_nodesCells hc).1
        omega
    | succ i =>
      rw [lookup_eq_none_of_forall_ne (nodeCells j nd')]
      · rw [Option.none_or, show j + (i + 1) = j + 1 + i by omega]
        exact ih (j + 1) i (by simpa using h)
      · intro c hc
        have := (mem_nodeCells hc).2.1
        omega

/-- A node fits the fields of the arena (R55). -/
def Node.fits (nd : Node) : Prop :=
  nd.symbol < 2 ^ 32 ∧ nd.freq < 2 ^ 32 ∧ nd.left < 2 ^ 32 ∧ nd.right < 2 ^ 32

theorem byte_putNodes (s : State) (nds : List Node) (i : Nat) (nd : Node) (h : nds[i]? = some nd)
    (o : Nat) (ho : o < 32) :
    (s.putNodes nds).byte .nd (32 * i + o) =
      ((nodeCells i nd).lookup (32 * i + o)).getD (s.drawnByte .nd (32 * i + o)) := by
  have hi : i < nds.length := (List.getElem?_eq_some_iff.1 h).1
  unfold State.byte State.putNodes
  rw [mem_setMem_same, drawnByte_setMem, get_splice]
  · rw [if_pos ⟨by omega, by omega⟩]
    have := lookup_nodesCells 0 nds i nd h o ho
    rw [Nat.zero_add] at this
    rw [this]
  · omega
  · intro c hc
    have := mem_nodesCells hc
    omega

/-- The i-th node written is read back. -/
theorem nodeAt_putNodes (s : State) (nds : List Node) (i : Nat) (nd : Node)
    (h : nds[i]? = some nd) (hf : Node.fits nd) : (s.putNodes nds).nodeAt i = nd := by
  have key : ∀ f x, [nd.symbol, nd.freq, nd.left, nd.right][f]? = some x →
      (s.putNodes nds).word .nd (32 * i + 4 + 4 * f) = BitVec.ofNat 32 x := by
    intro f x hx
    have hf4 : f < 4 := (List.getElem?_eq_some_iff.1 hx).1
    have b : ∀ j, j < 4 → (s.putNodes nds).byte .nd (32 * i + 4 + 4 * f + j) =
        ((wordBytes (BitVec.ofNat 32 x))[j]?).getD 0 := by
      intro j hj
      rw [show 32 * i + 4 + 4 * f + j = 32 * i + (4 + 4 * f + j) by omega,
        byte_putNodes s nds i nd h _ (by omega), nodeCells, List.lookup_cons]
      have hb : (32 * i + (4 + 4 * f + j) == 32 * i) = false := by simp
      rw [hb]
      simp only
      rw [lookup_cellsFrom, if_pos (by omega),
        show 32 * i + (4 + 4 * f + j) - (32 * i + 4) = 4 * f + j by omega,
        getElem?_numBytes _ _ _ hj, hx]
      have : j < (wordBytes (BitVec.ofNat 32 x)).length := by simpa using hj
      simp [List.getElem?_eq_getElem this]
    simp only [State.word]
    rw [show 32 * i + 4 + 4 * f = 32 * i + 4 + 4 * f + 0 by omega, b 0 (by omega), Nat.add_zero,
      b 1 (by omega), b 2 (by omega), b 3 (by omega)]
    exact wordOfBytes_extract _
  have hflag : (s.putNodes nds).byte .nd (32 * i) = BitVec.ofNat 8 nd.isLeaf.toNat := by
    have := byte_putNodes s nds i nd h 0 (by omega)
    rw [Nat.add_zero] at this
    rw [this, nodeCells]
    simp
  obtain ⟨h1, h2, h3, h4⟩ := hf
  have k0 := key 0 _ rfl
  have k1 := key 1 _ rfl
  have k2 := key 2 _ rfl
  have k3 := key 3 _ rfl
  simp only [Nat.mul_zero, Nat.add_zero, Nat.mul_one] at k0 k1
  unfold State.nodeAt
  rw [hflag, k0, show 32 * i + 8 = 32 * i + 4 + 4 by omega, k1,
    show 32 * i + 12 = 32 * i + 4 + 4 * 2 by omega, k2,
    show 32 * i + 16 = 32 * i + 4 + 4 * 3 by omega, k3]
  obtain ⟨leaf, sym, fr, l, r⟩ := nd
  simp only [BitVec.toNat_ofNat] at *
  rw [Nat.mod_eq_of_lt h1, Nat.mod_eq_of_lt h2, Nat.mod_eq_of_lt h3, Nat.mod_eq_of_lt h4]
  cases leaf <;> rfl

/-- Bytes outside the written nodes are what they were. -/
theorem byte_putNodes_frame (s : State) (nds : List Node) (b : Buf) (k : Nat)
    (h : b ≠ .nd ∨ 32 * nds.length ≤ k) : (s.putNodes nds).byte b k = s.byte b k := by
  unfold State.byte State.putNodes
  rw [mem_setMem, drawnByte_setMem]
  by_cases hb : b = .nd
  · subst hb
    have hk : 32 * nds.length ≤ k := by simpa using h
    rw [if_pos rfl, get_splice]
    · rw [if_neg (by omega)]; rfl
    · exact Nat.zero_le _
    · intro c hc
      have := mem_nodesCells hc
      omega
  · simp [hb]

/-! ## Code entries -/

theorem mem_codeCells {x : Nat} {c : Code} {cell : Host.Cell} (h : cell ∈ codeCells x c) :
    64 * x ≤ cell.1 ∧ cell.1 < 64 * x + 64 ∧
      (cell.1 = 64 * x ∨ (64 * x + 4 ≤ cell.1 ∧ cell.1 < 64 * x + 8) ∨ 64 * x + 32 ≤ cell.1) := by
  rcases List.mem_cons.1 h with rfl | h
  · simp
  · rcases List.mem_append.1 h with h | h
    · have := mem_cellsFrom h
      rw [length_natBytes] at this
      omega
    · have := mem_cellsFrom h
      rw [length_natBytes] at this
      omega

theorem mem_codesCells {x : Nat} {cs : List Code} {cell : Host.Cell} (h : cell ∈ codesCells x cs) :
    64 * x ≤ cell.1 ∧ cell.1 < 64 * (x + cs.length) := by
  induction cs generalizing x with
  | nil => simp [codesCells] at h
  | cons c cs ih =>
    rw [List.length_cons]
    rcases List.mem_append.1 h with h | h
    · have := mem_codeCells h
      omega
    · have := ih h
      omega

theorem wf_codesCells (x : Nat) (cs : List Code) : Memory.wf (codesCells x cs) := by
  induction cs generalizing x with
  | nil => exact List.Pairwise.nil
  | cons c cs ih =>
    refine List.pairwise_append.2 ⟨?_, ih _, ?_⟩
    · refine List.Pairwise.cons (fun d hd => ?_)
        (List.pairwise_append.2 ⟨wf_cellsFrom _ _, wf_cellsFrom _ _, ?_⟩)
      · rcases List.mem_append.1 hd with hd | hd
        · have := (mem_cellsFrom hd).1
          simp only
          omega
        · have := (mem_cellsFrom hd).1
          simp only
          omega
      · intro y hy z hz
        have h1 := (mem_cellsFrom hy).2
        have h2 := (mem_cellsFrom hz).1
        rw [length_natBytes] at h1
        omega
    · intro y hy z hz
      have := (mem_codeCells hy).2.1
      have := (mem_codesCells hz).1
      omega

theorem lookup_codesCells (x : Nat) (cs : List Code) (i : Nat) (c : Code) (h : cs[i]? = some c)
    (o : Nat) (ho : o < 64) :
    (codesCells x cs).lookup (64 * (x + i) + o) =
      (codeCells (x + i) c).lookup (64 * (x + i) + o) := by
  induction cs generalizing x i with
  | nil => simp at h
  | cons c' cs ih =>
    rw [codesCells, lookup_append_cells]
    cases i with
    | zero =>
      obtain rfl : c' = c := by simpa using h
      rw [Nat.add_zero, lookup_eq_none_of_forall_ne (codesCells (x + 1) cs)]
      · exact Option.or_none
      · intro d hd
        have := (mem_codesCells hd).1
        omega
    | succ i =>
      rw [lookup_eq_none_of_forall_ne (codeCells x c')]
      · rw [Option.none_or, show x + (i + 1) = x + 1 + i by omega]
        exact ih (x + 1) i (by simpa using h)
      · intro d hd
        have := (mem_codeCells hd).2.1
        omega

/-- CT[x] in terms of the bytes of the memory. -/
theorem codeEntry_eq_bytes (s : State) (x : Nat) :
    s.codeEntry x =
      { valid := (s.byte .ct (64 * x)).getLsbD 0
        len := leNat ((List.range 4).map fun i => s.byte .ct (64 * x + (4 + i)))
        code := leNat ((List.range 32).map fun i => s.byte .ct (64 * x + (32 + i))) } := by
  have key : ∀ o, o < 64 → ((s.ct.slice (64 * x) (64 * x + 64)).get (64 * x + o)).getD
      (s.drawnByte .ct (64 * x + o)) = s.byte .ct (64 * x + o) := by
    intro o ho
    rw [get_slice _ _ _ _ (by omega)]
    rfl
  unfold State.codeEntry
  simp only [Code.mk.injEq]
  refine ⟨?_, congrArg leNat (List.map_congr_left fun i hi => ?_),
    congrArg leNat (List.map_congr_left fun i hi => ?_)⟩
  · rw [key 0 (by omega), Nat.add_zero]
  · exact key _ (by have := List.mem_range.1 hi; omega)
  · exact key _ (by have := List.mem_range.1 hi; omega)

theorem byte_putCodes (s : State) (cs : List Code) (i : Nat) (c : Code) (h : cs[i]? = some c)
    (o : Nat) (ho : o < 64) :
    (s.putCodes cs).byte .ct (64 * i + o) =
      ((codeCells i c).lookup (64 * i + o)).getD (s.drawnByte .ct (64 * i + o)) := by
  have hi : i < cs.length := (List.getElem?_eq_some_iff.1 h).1
  unfold State.byte State.putCodes
  rw [mem_setMem_same, drawnByte_setMem, get_splice]
  · rw [if_pos ⟨by omega, by omega⟩]
    have := lookup_codesCells 0 cs i c h o ho
    rw [Nat.zero_add] at this
    rw [this]
  · omega
  · intro d hd
    have := mem_codesCells hd
    omega

theorem map_range_getD (bs : List Byte) (d : Nat → Byte) :
    ((List.range bs.length).map fun i => (bs[i]?).getD (d i)) = bs :=
  map_range_eq _ _ fun i x hx => by simp [hx]

/-- The i-th code entry written is read back. -/
theorem codeEntry_putCodes (s : State) (cs : List Code) (i : Nat) (c : Code)
    (h : cs[i]? = some c) (hl : c.len < 2 ^ 32) (hc : c.code < 2 ^ 256) :
    (s.putCodes cs).codeEntry i = c := by
  rw [codeEntry_eq_bytes]
  have hflag : (s.putCodes cs).byte .ct (64 * i) = BitVec.ofNat 8 c.valid.toNat := by
    have := byte_putCodes s cs i c h 0 (by omega)
    rw [Nat.add_zero] at this
    rw [this, codeCells]
    simp
  have hlen : ((List.range 4).map fun k => (s.putCodes cs).byte .ct (64 * i + (4 + k))) =
      natBytes 4 c.len := by
    have := map_range_getD (natBytes 4 c.len) fun k => s.drawnByte .ct (64 * i + (4 + k))
    rw [length_natBytes] at this
    rw [← this]
    apply List.map_congr_left
    intro k hk
    have hk : k < 4 := List.mem_range.1 hk
    rw [byte_putCodes s cs i c h _ (by omega), codeCells, List.lookup_cons,
      show (64 * i + (4 + k) == 64 * i) = false by simp, lookup_append_cells, lookup_cellsFrom,
      lookup_cellsFrom, if_pos (by omega), if_neg (by omega),
      show 64 * i + (4 + k) - (64 * i + 4) = k by omega]
    simp
  have hcode : ((List.range 32).map fun k => (s.putCodes cs).byte .ct (64 * i + (32 + k))) =
      natBytes 32 c.code := by
    have := map_range_getD (natBytes 32 c.code) fun k => s.drawnByte .ct (64 * i + (32 + k))
    rw [length_natBytes] at this
    rw [← this]
    apply List.map_congr_left
    intro k hk
    have hk : k < 32 := List.mem_range.1 hk
    have hnone : (natBytes 4 c.len)[64 * i + (32 + k) - (64 * i + 4)]? = none := by
      rw [List.getElem?_eq_none_iff, length_natBytes]
      omega
    rw [byte_putCodes s cs i c h _ (by omega), codeCells, List.lookup_cons,
      show (64 * i + (32 + k) == 64 * i) = false by simp, lookup_append_cells, lookup_cellsFrom,
      lookup_cellsFrom, if_pos (by omega), if_pos (by omega), hnone,
      show 64 * i + (32 + k) - (64 * i + 32) = k by omega]
    simp
  rw [hflag, hlen, hcode, leNat_natBytes _ _ (by simpa using hl),
    leNat_natBytes _ _ (by simpa using hc)]
  obtain ⟨v, l, d⟩ := c
  cases v <;> simp

/-- Bytes outside the written entries are what they were. -/
theorem byte_putCodes_frame (s : State) (cs : List Code) (b : Buf) (k : Nat)
    (h : b ≠ .ct ∨ 64 * cs.length ≤ k) : (s.putCodes cs).byte b k = s.byte b k := by
  unfold State.byte State.putCodes
  rw [mem_setMem, drawnByte_setMem]
  by_cases hb : b = .ct
  · subst hb
    have hk : 64 * cs.length ≤ k := by simpa using h
    rw [if_pos rfl, get_splice]
    · rw [if_neg (by omega)]; rfl
    · omega
    · intro c hc
      have := mem_codesCells hc
      omega
  · simp [hb]

/-! ## Completions -/

/-- How a command completes (R182, R185-R187): a raise of its pre-check, a success, or a raise of
its data phase. -/
theorem runCommand_cases (s : State) (pre : Option Raise) (data : Unit → Except Raise State)
    (spoiled : Unit → State) :
    (∃ e, pre = some e ∧ runCommand s pre data spoiled = .next (s.fail e)) ∨
    (∃ t, pre = none ∧ data () = .ok t ∧ runCommand s pre data spoiled = .next t.succeed) ∨
    (∃ e, pre = none ∧ data () = .error e ∧
      runCommand s pre data spoiled = .next ((spoiled ()).fail e)) := by
  unfold runCommand
  cases pre with
  | some e => exact .inl ⟨e, rfl, rfl⟩
  | none =>
    cases hd : data () with
    | ok t => exact .inr (.inl ⟨t, rfl, rfl, rfl⟩)
    | error e => exact .inr (.inr ⟨e, rfl, rfl, rfl⟩)

theorem runCommand_pre {s : State} {pre : Option Raise} {e : Raise} (h : pre = some e)
    (data : Unit → Except Raise State) (spoiled : Unit → State) :
    runCommand s pre data spoiled = .next (s.fail e) := by
  subst h; rfl

theorem runCommand_ok {s : State} {pre : Option Raise} {data : Unit → Except Raise State}
    {t : State} (h : pre = none) (hd : data () = .ok t) (spoiled : Unit → State) :
    runCommand s pre data spoiled = .next t.succeed := by
  subst h; simp [runCommand, hd]

theorem runCommand_error {s : State} {pre : Option Raise} {data : Unit → Except Raise State}
    {e : Raise} (h : pre = none) (hd : data () = .error e) (spoiled : Unit → State) :
    runCommand s pre data spoiled = .next ((spoiled ()).fail e) := by
  subst h; simp [runCommand, hd]

/-! ## The shared checks -/

/-- DimCheck passes exactly for a grid that is not empty and fits SB (R183). -/
theorem dimCheck_eq_none (s : State) :
    s.dimCheck = none ↔ 0 < s.height.toNat ∧ 0 < s.width.toNat ∧ s.n ≤ s.params.maxSamples := by
  unfold State.dimCheck raiseIf
  by_cases h : s.height.toNat = 0 ∨ s.width.toNat = 0
  · have : (decide (s.height.toNat = 0) || decide (s.width.toNat = 0)) = true := by simpa using h
    simp only [this, if_true, Option.some_or]
    constructor
    · simp
    · omega
  · have : (decide (s.height.toNat = 0) || decide (s.width.toNat = 0)) = false := by
      simpa using h
    simp only [this, Bool.false_eq_true, if_false, Option.none_or, decide_eq_true_eq]
    split
    · simp; omega
    · simp; omega

theorem toNat_pos_of_ne_zero {w : Nat} {x : BitVec w} (h : x ≠ 0) : 0 < x.toNat := by
  rcases Nat.eq_zero_or_pos x.toNat with h1 | h1
  · exact absurd (BitVec.eq_of_toNat_eq (by simpa using h1)) h
  · exact h1

theorem dimCheck_ok {s : State} (h1 : s.height ≠ 0) (h2 : s.width ≠ 0)
    (h3 : s.n ≤ s.params.maxSamples) : s.dimCheck = none :=
  (dimCheck_eq_none s).2 ⟨toNat_pos_of_ne_zero h1, toNat_pos_of_ne_zero h2, h3⟩

/-- The number of samples fits 32 bits (R35). -/
theorem n_lt (s : State) : s.n < 2 ^ 32 := by
  have h1 := s.height.isLt
  have h2 := s.width.isLt
  have : s.height.toNat * s.width.toNat ≤ (2 ^ 16 - 1) * (2 ^ 16 - 1) :=
    Nat.mul_le_mul (by omega) (by omega)
  unfold State.n
  omega

theorem n_pos_of_dimCheck {s : State} (h : s.dimCheck = none) : 0 < s.n := by
  have := (dimCheck_eq_none s).1 h
  exact Nat.mul_pos this.1 this.2.1

/-- The pre-scan passes exactly when every sample is in the alphabet (R190). -/
theorem validateSamples_eq_none (s : State) :
    s.validateSamples = none ↔ ∀ x ∈ s.samples, x ≤ s.amax := by
  unfold State.validateSamples
  rw [Option.map_eq_none_iff, List.findIdx?_eq_none_iff]
  simp

theorem encoderCheck_eq_none (s : State) :
    s.encoderCheck = none ↔
      (0 < s.height.toNat ∧ 0 < s.width.toNat ∧ s.n ≤ s.params.maxSamples) ∧
        ∀ x ∈ s.samples, x ≤ s.amax := by
  rw [State.encoderCheck, Option.or_eq_none_iff, dimCheck_eq_none, validateSamples_eq_none]

theorem encoderCheck_ok {s : State} (h1 : s.height ≠ 0) (h2 : s.width ≠ 0)
    (h3 : s.n ≤ s.params.maxSamples) (h4 : ∀ x ∈ s.samples, x ≤ s.amax) :
    s.encoderCheck = none :=
  (encoderCheck_eq_none s).2 ⟨⟨toNat_pos_of_ne_zero h1, toNat_pos_of_ne_zero h2, h3⟩, h4⟩

theorem amax_lt (s : State) : s.amax < 256 := by
  unfold State.amax State.alphabet
  split <;> omega

end Sys2Proof.Machine
end

