-- ==== Sys2Proof/Laws/Commands.lean ====
section
/-! SUPPORT. How each command completes, one lemma per command: a raise of its pre-check, a success,
or a raise of its data phase, with the state each of them leaves; and which errors its phases can
raise. Provers cite these instead of unfolding a meaning. -/

namespace Sys2Proof.Machine

open Sys2Proof

theorem execNop_eq (s : State) : execNop s = .next s.succeed := rfl

theorem execRleEnc_cases (s : State) :
    (∃ e, s.encoderCheck = some e ∧ execRleEnc s = .next (s.fail e)) ∨
    (s.encoderCheck = none ∧ execRleEnc s = .next s.storeRuns.succeed) := by
  rcases runCommand_cases s s.encoderCheck (fun _ => .ok s.storeRuns) (fun _ => s) with
    ⟨e, h, hr⟩ | ⟨t, h, hd, hr⟩ | ⟨e, -, hd, -⟩
  · exact .inl ⟨e, h, hr⟩
  · cases hd; exact .inr ⟨h, hr⟩
  · cases hd

/-- A mapped data phase that ends well. -/
theorem map_eq_ok {ε α β : Type} {x : Except ε α} {f : α → β} {b : β} (h : x.map f = .ok b) :
    ∃ a, x = .ok a ∧ f a = b := by
  cases x with
  | error e => cases h
  | ok a => cases h; exact ⟨a, rfl, rfl⟩

theorem map_eq_error {ε α β : Type} {x : Except ε α} {f : α → β} {e : ε}
    (h : x.map f = .error e) : x = .error e := by
  cases x with
  | error e' => cases h; rfl
  | ok a => cases h

theorem execRleDec_cases (s : State) :
    (∃ e, s.rleDecCheck = some e ∧ execRleDec s = .next (s.fail e)) ∨
    (∃ xs, s.rleDecCheck = none ∧ rleReplay s.amax s.n 0 0 s.runs = .ok xs ∧
      execRleDec s = .next (s.putSamples xs).succeed) ∨
    (∃ e, s.rleDecCheck = none ∧ rleReplay s.amax s.n 0 0 s.runs = .error e ∧
      execRleDec s = .next ((s.drawBytes .sb s.n).nextDraw.fail e)) := by
  rcases runCommand_cases s s.rleDecCheck
      (fun _ => (rleReplay s.amax s.n 0 0 s.runs).map s.putSamples)
      (fun _ => (s.drawBytes .sb s.n).nextDraw) with ⟨e, h, hr⟩ | ⟨t, h, hd, hr⟩ | ⟨e, h, hd, hr⟩
  · exact .inl ⟨e, h, hr⟩
  · obtain ⟨xs, hx, rfl⟩ := map_eq_ok hd
    exact .inr (.inl ⟨xs, h, hx, hr⟩)
  · exact .inr (.inr ⟨e, h, map_eq_error hd, hr⟩)

theorem execLzwEnc_cases (s : State) :
    (∃ e, s.encoderCheck = some e ∧ execLzwEnc s = .next (s.fail e)) ∨
    (∃ codes ins, s.encoderCheck = none ∧
      lzwEncode s.alphabet s.params.dictCap s.samples = .ok (codes, ins) ∧
      execLzwEnc s = .next (s.storeCodes codes ins).succeed) ∨
    (∃ e, s.encoderCheck = none ∧
      lzwEncode s.alphabet s.params.dictCap s.samples = .error e ∧
      execLzwEnc s = .next (s.spoilLzwEnc.fail e)) := by
  rcases runCommand_cases s s.encoderCheck
      (fun _ => (lzwEncode s.alphabet s.params.dictCap s.samples).map fun r =>
        s.storeCodes r.1 r.2)
      (fun _ => s.spoilLzwEnc) with ⟨e, h, hr⟩ | ⟨t, h, hd, hr⟩ | ⟨e, h, hd, hr⟩
  · exact .inl ⟨e, h, hr⟩
  · obtain ⟨⟨codes, ins⟩, hx, rfl⟩ := map_eq_ok hd
    exact .inr (.inl ⟨codes, ins, h, hx, hr⟩)
  · exact .inr (.inr ⟨e, h, map_eq_error hd, hr⟩)

theorem execLzwDec_cases (s : State) :
    (∃ e, s.lzwDecCheck = some e ∧ execLzwDec s = .next (s.fail e)) ∨
    (∃ xs ins, s.lzwDecCheck = none ∧
      lzwDecode s.alphabet s.params.dictCap s.n s.codes = .ok (xs, ins) ∧
      execLzwDec s = .next ((s.putSamples xs).putDict ins).succeed) ∨
    (∃ e, s.lzwDecCheck = none ∧
      lzwDecode s.alphabet s.params.dictCap s.n s.codes = .error e ∧
      execLzwDec s = .next (s.spoilLzwDec.fail e)) := by
  rcases runCommand_cases s s.lzwDecCheck
      (fun _ => (lzwDecode s.alphabet s.params.dictCap s.n s.codes).map fun r =>
        (s.putSamples r.1).putDict r.2)
      (fun _ => s.spoilLzwDec) with ⟨e, h, hr⟩ | ⟨t, h, hd, hr⟩ | ⟨e, h, hd, hr⟩
  · exact .inl ⟨e, h, hr⟩
  · obtain ⟨⟨xs, ins⟩, hx, rfl⟩ := map_eq_ok hd
    exact .inr (.inl ⟨xs, ins, h, hx, hr⟩)
  · exact .inr (.inr ⟨e, h, map_eq_error hd, hr⟩)

theorem execHufFreq_cases (s : State) :
    (∃ e, s.encoderCheck = some e ∧ execHufFreq s = .next (s.clearValid.fail e)) ∨
    (s.encoderCheck = none ∧ execHufFreq s = .next s.clearValid.storeTable.succeed) := by
  rcases runCommand_cases s.clearValid s.encoderCheck (fun _ => .ok s.clearValid.storeTable)
      (fun _ => s.clearValid) with ⟨e, h, hr⟩ | ⟨t, h, hd, hr⟩ | ⟨e, -, hd, -⟩
  · exact .inl ⟨e, h, hr⟩
  · cases hd; exact .inr ⟨h, hr⟩
  · cases hd

theorem execHufTree_cases (s : State) :
    (∃ e, s.treeCheck = some e ∧ execHufTree s = .next (s.clearValid.fail e)) ∨
    (s.treeCheck = none ∧ execHufTree s = .next s.clearValid.storeTree.succeed) := by
  rcases runCommand_cases s.clearValid s.treeCheck (fun _ => .ok s.clearValid.storeTree)
      (fun _ => s.clearValid) with ⟨e, h, hr⟩ | ⟨t, h, hd, hr⟩ | ⟨e, -, hd, -⟩
  · exact .inl ⟨e, h, hr⟩
  · cases hd; exact .inr ⟨h, hr⟩
  · cases hd

theorem execHufCodes_cases (s : State) :
    (s.status.treeValid = false ∧
      execHufCodes s = .next (s.fail { kind := .sequenceError, info := 0 })) ∨
    (s.status.treeValid = true ∧ execHufCodes s = .next s.storeCodeTable.succeed) := by
  unfold execHufCodes State.needTree raiseIf
  cases s.status.treeValid
  · exact .inl ⟨rfl, rfl⟩
  · exact .inr ⟨rfl, rfl⟩

theorem execHufPack_cases (s : State) :
    (∃ e, s.packCheck = some e ∧ execHufPack s = .next (s.fail e)) ∨
    (∃ bits, s.packCheck = none ∧
      packPayload s.codeEntry s.params.bitCap s.cfg.eosEn s.samples = .ok bits ∧
      execHufPack s = .next (s.storeStream bits).succeed) ∨
    (∃ e, s.packCheck = none ∧
      packPayload s.codeEntry s.params.bitCap s.cfg.eosEn s.samples = .error e ∧
      execHufPack s = .next (s.spoilPack.fail e)) := by
  rcases runCommand_cases s s.packCheck
      (fun _ => (packPayload s.codeEntry s.params.bitCap s.cfg.eosEn s.samples).map s.storeStream)
      (fun _ => s.spoilPack) with ⟨e, h, hr⟩ | ⟨t, h, hd, hr⟩ | ⟨e, h, hd, hr⟩
  · exact .inl ⟨e, h, hr⟩
  · obtain ⟨bits, hx, rfl⟩ := map_eq_ok hd
    exact .inr (.inl ⟨bits, h, hx, hr⟩)
  · exact .inr (.inr ⟨e, h, map_eq_error hd, hr⟩)

/-- The walk of HUF_UNPACK over the whole stream (R340). -/
theorem execHufUnpack_cases (s : State) :
    (∃ e, s.unpackCheck = some e ∧ execHufUnpack s = .next (s.fail e)) ∨
    (∃ xs, s.unpackCheck = none ∧
      unpackWalk s.nodeAt s.root.toNat s.n s.cfg.eosEn 0 0 s.root.toNat s.streamBits = .ok xs ∧
      execHufUnpack s = .next (s.putSamples xs).succeed) ∨
    (∃ e, s.unpackCheck = none ∧
      unpackWalk s.nodeAt s.root.toNat s.n s.cfg.eosEn 0 0 s.root.toNat s.streamBits = .error e ∧
      execHufUnpack s = .next ((s.drawBytes .sb s.n).nextDraw.fail e)) := by
  rcases runCommand_cases s s.unpackCheck
      (fun _ => (unpackWalk s.nodeAt s.root.toNat s.n s.cfg.eosEn 0 0 s.root.toNat
        s.streamBits).map s.putSamples)
      (fun _ => (s.drawBytes .sb s.n).nextDraw) with ⟨e, h, hr⟩ | ⟨t, h, hd, hr⟩ | ⟨e, h, hd, hr⟩
  · exact .inl ⟨e, h, hr⟩
  · obtain ⟨xs, hx, rfl⟩ := map_eq_ok hd
    exact .inr (.inl ⟨xs, h, hx, hr⟩)
  · exact .inr (.inr ⟨e, h, map_eq_error hd, hr⟩)

/-! ## Which errors -/

theorem raiseIf_eq_some {c : Bool} {k : ErrorKind} {n : Nat} {e : Raise}
    (h : raiseIf c k n = some e) : c = true ∧ e = { kind := k, info := n } := by
  unfold raiseIf at h
  cases c
  · cases h
  · cases h; exact ⟨rfl, rfl⟩

theorem raiseIf_eq_none {c : Bool} {k : ErrorKind} {n : Nat} :
    raiseIf c k n = none ↔ c = false := by
  cases c <;> simp [raiseIf]

theorem or_eq_some {α : Type} {x y : Option α} {a : α} (h : x.or y = some a) :
    x = some a ∨ (x = none ∧ y = some a) := by
  cases x with
  | none => exact .inr ⟨rfl, h⟩
  | some b => exact .inl h

/-- The dimension check raises InvalidInput(0) or CapacityExceeded(0) (R183). -/
theorem dimCheck_raises {s : State} {e : Raise} (h : s.dimCheck = some e) :
    e = { kind := .invalidInput, info := 0 } ∨ e = { kind := .capacityExceeded, info := 0 } := by
  rcases or_eq_some h with h | ⟨-, h⟩
  · exact .inl (raiseIf_eq_some h).2
  · exact .inr (raiseIf_eq_some h).2

/-- The check of the grid encoders raises no SequenceError and no IllegalCommand (R183, R190). -/
theorem encoderCheck_raises {s : State} {e : Raise} (h : s.encoderCheck = some e) :
    e.kind = .invalidInput ∨ e.kind = .capacityExceeded ∨ e.kind = .unsupportedAlphabet := by
  rcases or_eq_some h with h | ⟨-, h⟩
  · rcases dimCheck_raises h with rfl | rfl
    · exact .inl rfl
    · exact .inr (.inl rfl)
  · obtain ⟨k, -, rfl⟩ := Option.map_eq_some_iff.1 h
    exact .inr (.inr rfl)

/-- A table that fails the check raises CorruptStream (R277). -/
theorem tableCheck_raises {a : Nat} {eosEn : Bool} {ft : List (Nat × Nat)} {e : Raise}
    (h : tableCheck a eosEn ft = some e) : e.kind = .corruptStream := by
  rcases or_eq_some h with h | ⟨-, h⟩
  · rw [(raiseIf_eq_some h).2]
  · rcases or_eq_some h with h | ⟨-, h⟩
    · obtain ⟨k, -, rfl⟩ := Option.map_eq_some_iff.1 h
      rfl
    · rcases or_eq_some h with h | ⟨-, h⟩ <;> rw [(raiseIf_eq_some h).2]

theorem rleDecCheck_raises {s : State} {e : Raise} (h : s.rleDecCheck = some e) :
    e = { kind := .invalidInput, info := 0 } ∨ e = { kind := .capacityExceeded, info := 0 } := by
  rcases or_eq_some h with h | ⟨-, h⟩
  · exact dimCheck_raises h
  · rcases or_eq_some h with h | ⟨-, h⟩
    · exact .inl (raiseIf_eq_some h).2
    · exact .inr (raiseIf_eq_some h).2

theorem lzwDecCheck_raises {s : State} {e : Raise} (h : s.lzwDecCheck = some e) :
    e = { kind := .invalidInput, info := 0 } ∨ e = { kind := .capacityExceeded, info := 0 } := by
  rcases or_eq_some h with h | ⟨-, h⟩
  · exact dimCheck_raises h
  · rcases or_eq_some h with h | ⟨-, h⟩
    · exact .inl (raiseIf_eq_some h).2
    · exact .inr (raiseIf_eq_some h).2

theorem packCheck_raises {s : State} {e : Raise} (h : s.packCheck = some e) :
    e.kind ≠ .illegalCommand := by
  rcases or_eq_some h with h | ⟨-, h⟩
  · rw [(raiseIf_eq_some h).2]
    decide
  · rcases encoderCheck_raises h with h | h | h <;> rw [h] <;> decide

theorem unpackCheck_raises {s : State} {e : Raise} (h : s.unpackCheck = some e) :
    e.kind ≠ .illegalCommand := by
  rcases or_eq_some h with h | ⟨-, h⟩
  · rw [(raiseIf_eq_some h).2]
    decide
  · rcases or_eq_some h with h | ⟨-, h⟩
    · rcases dimCheck_raises h with rfl | rfl <;> decide
    · rcases or_eq_some h with h | ⟨-, h⟩ <;> rw [(raiseIf_eq_some h).2] <;> decide

theorem rleReplay_raises {amax n i k : Nat} {rs : List (Nat × Nat)} {e : Raise}
    (h : rleReplay amax n i k rs = .error e) :
    e.kind = .corruptStream ∨ e.kind = .unsupportedAlphabet := by
  induction rs generalizing i k with
  | nil =>
    simp only [rleReplay] at h
    split at h
    · cases h
    · cases h; exact .inl rfl
  | cons r rs ih =>
    simp only [rleReplay] at h
    split at h
    · cases h; exact .inr rfl
    · split at h
      · cases h; exact .inl rfl
      · exact ih (map_eq_error h)

theorem lzwScan_raises {a cap k w : Nat} {ins : List (Nat × Nat)} {xs : List Nat} {e : Raise}
    (h : lzwScan a cap k w ins xs = .error e) : e.kind = .capacityExceeded := by
  induction xs generalizing k w ins with
  | nil => cases h
  | cons x xs ih =>
    simp only [lzwScan] at h
    split at h
    · exact ih h
    · split at h
      · cases h; rfl
      · exact ih (map_eq_error h)

theorem lzwEncode_raises {a cap : Nat} {xs : List Nat} {e : Raise}
    (h : lzwEncode a cap xs = .error e) : e.kind = .capacityExceeded := by
  cases xs with
  | nil => cases h
  | cons x xs => exact lzwScan_raises h

theorem lzwReplay_raises {a cap n i k prevc : Nat} {prev : List Nat} {ins : List (Nat × Nat)}
    {cs : List Nat} {e : Raise} (h : lzwReplay a cap n i k prev prevc ins cs = .error e) :
    e.kind = .corruptStream ∨ e.kind = .capacityExceeded := by
  induction cs generalizing i k prev prevc ins with
  | nil =>
    simp only [lzwReplay] at h
    split at h
    · cases h
    · cases h; exact .inl rfl
  | cons c cs ih =>
    simp only [lzwReplay] at h
    split at h
    · cases h; exact .inl rfl
    · split at h
      · cases h; exact .inl rfl
      · split at h
        · cases h; exact .inr rfl
        · exact ih (map_eq_error h)

theorem lzwDecode_raises {a cap n : Nat} {cs : List Nat} {e : Raise}
    (h : lzwDecode a cap n cs = .error e) :
    e.kind = .corruptStream ∨ e.kind = .capacityExceeded := by
  cases cs with
  | nil => cases h; exact .inl rfl
  | cons c cs =>
    simp only [lzwDecode] at h
    split at h
    · cases h; exact .inl rfl
    · exact lzwReplay_raises (map_eq_error h)

theorem packSamples_raises {entry : Nat → Code} {cap k l : Nat} {xs : List Nat} {e : Raise}
    (h : packSamples entry cap k l xs = .error e) :
    e.kind = .invalidInput ∨ e.kind = .capacityExceeded := by
  induction xs generalizing k l with
  | nil => cases h
  | cons x xs ih =>
    simp only [packSamples] at h
    split at h
    · cases h; exact .inl rfl
    · split at h
      · cases h; exact .inr rfl
      · exact ih (map_eq_error h)

theorem packPayload_raises {entry : Nat → Code} {cap : Nat} {eosEn : Bool} {xs : List Nat}
    {e : Raise} (h : packPayload entry cap eosEn xs = .error e) :
    e.kind = .invalidInput ∨ e.kind = .capacityExceeded := by
  unfold packPayload at h
  split at h
  · rename_i e' hs
    cases h
    exact packSamples_raises hs
  · split at h
    · cases h
    · split at h
      · cases h; exact .inr rfl
      · cases h

theorem unpackWalk_raises {node : Nat → Node} {root n pos k j : Nat} {eosEn : Bool}
    {bs : List Bool} {e : Raise} (h : unpackWalk node root n eosEn pos k j bs = .error e) :
    e.kind = .corruptStream := by
  induction bs generalizing pos k j with
  | nil => cases h; rfl
  | cons b bs ih =>
    simp only [unpackWalk] at h
    generalize (if b then (node j).right else (node j).left) = next at h
    split at h
    · cases h; rfl
    · split at h
      · split at h
        · split at h
          · cases h
          · cases h; rfl
        · split at h
          · cases h; rfl
          · split at h
            · cases h
            · exact ih (map_eq_error h)
      · exact ih h

/-! ## Every command -/

/-- Every command ends in a completion: there is a state, with the command's name, the inputs, the
interrupt enable and the model's own fields but the draws unchanged, which the completion then
records as a success, or as an error that is not IllegalCommand (R182). -/
theorem exec_completes (i : Instr) (s : State) :
    ∃ u : State, (exec i s = .next u.succeed ∨
        ∃ e, e.kind ≠ .illegalCommand ∧ exec i s = .next (u.fail e)) ∧
      u.cmd = s.cmd ∧ u.status.lastOp = s.status.lastOp ∧ u.status.dropped = s.status.dropped ∧
      u.doneIe = s.doneIe ∧ u.cfg = s.cfg ∧ u.height = s.height ∧ u.width = s.width ∧
      u.params = s.params ∧ u.memDraw = s.memDraw ∧ s.draws ≤ u.draws ∧
      u.schedule = s.schedule ∧ u.host = s.host := by
  cases i with
  | nop => exact ⟨s, .inl rfl, by simp⟩
  | rleEnc =>
    rcases execRleEnc_cases s with ⟨e, h, hr⟩ | ⟨-, hr⟩
    · refine ⟨s, .inr ⟨e, ?_, hr⟩, by simp⟩
      rcases encoderCheck_raises h with h | h | h <;> rw [h] <;> decide
    · exact ⟨_, .inl hr, by simp [State.storeRuns]⟩
  | rleDec =>
    rcases execRleDec_cases s with ⟨e, h, hr⟩ | ⟨xs, -, -, hr⟩ | ⟨e, -, hd, hr⟩
    · refine ⟨s, .inr ⟨e, ?_, hr⟩, by simp⟩
      rcases rleDecCheck_raises h with rfl | rfl <;> decide
    · exact ⟨_, .inl hr, by simp⟩
    · refine ⟨_, .inr ⟨e, ?_, hr⟩, by simp⟩
      rcases rleReplay_raises hd with h | h <;> rw [h] <;> decide
  | lzwEnc =>
    rcases execLzwEnc_cases s with ⟨e, h, hr⟩ | ⟨c, d, -, -, hr⟩ | ⟨e, -, hd, hr⟩
    · refine ⟨s, .inr ⟨e, ?_, hr⟩, by simp⟩
      rcases encoderCheck_raises h with h | h | h <;> rw [h] <;> decide
    · exact ⟨_, .inl hr, by simp [State.storeCodes, State.putDict]⟩
    · refine ⟨_, .inr ⟨e, ?_, hr⟩, by simp [State.spoilLzwEnc]⟩
      rw [lzwEncode_raises hd]
      decide
  | lzwDec =>
    rcases execLzwDec_cases s with ⟨e, h, hr⟩ | ⟨c, d, -, -, hr⟩ | ⟨e, -, hd, hr⟩
    · refine ⟨s, .inr ⟨e, ?_, hr⟩, by simp⟩
      rcases lzwDecCheck_raises h with rfl | rfl <;> decide
    · exact ⟨_, .inl hr, by simp [State.putDict]⟩
    · refine ⟨_, .inr ⟨e, ?_, hr⟩, by simp [State.spoilLzwDec]⟩
      rcases lzwDecode_raises hd with h | h <;> rw [h] <;> decide
  | hufFreq =>
    rcases execHufFreq_cases s with ⟨e, h, hr⟩ | ⟨-, hr⟩
    · refine ⟨_, .inr ⟨e, ?_, hr⟩, by simp⟩
      rcases encoderCheck_raises h with h | h | h <;> rw [h] <;> decide
    · exact ⟨_, .inl hr, by simp [State.storeTable]⟩
  | hufTree =>
    rcases execHufTree_cases s with ⟨e, h, hr⟩ | ⟨-, hr⟩
    · refine ⟨_, .inr ⟨e, ?_, hr⟩, by simp⟩
      rw [tableCheck_raises h]
      decide
    · exact ⟨_, .inl hr, by simp [State.storeTree]⟩
  | hufCodes =>
    rcases execHufCodes_cases s with ⟨-, hr⟩ | ⟨-, hr⟩
    · exact ⟨s, .inr ⟨_, by decide, hr⟩, by simp⟩
    · exact ⟨_, .inl hr, by simp [State.storeCodeTable]⟩
  | hufPack =>
    rcases execHufPack_cases s with ⟨e, h, hr⟩ | ⟨bits, -, -, hr⟩ | ⟨e, -, hd, hr⟩
    · exact ⟨s, .inr ⟨e, packCheck_raises h, hr⟩, by simp⟩
    · exact ⟨_, .inl hr, by simp [State.storeStream]⟩
    · refine ⟨_, .inr ⟨e, ?_, hr⟩, by simp [State.spoilPack]⟩
      rcases packPayload_raises hd with h | h <;> rw [h] <;> decide
  | hufUnpack =>
    rcases execHufUnpack_cases s with ⟨e, h, hr⟩ | ⟨xs, -, -, hr⟩ | ⟨e, -, hd, hr⟩
    · exact ⟨s, .inr ⟨e, unpackCheck_raises h, hr⟩, by simp⟩
    · exact ⟨_, .inl hr, by simp⟩
    · refine ⟨_, .inr ⟨e, ?_, hr⟩, by simp⟩
      rw [unpackWalk_raises hd]
      decide

end Sys2Proof.Machine
end

