-- ==== Sys2Proof/Laws/Tree.lean ====
section
/-! SUPPORT. The laws of the merge tree: which tables pass TableCheck (R277), and what the merge loop
of R278 builds from the queue of its keys. -/

namespace Sys2Proof.Machine

open Sys2Proof

/-! ## TableCheck -/

/-- When an entry is not bad (R277). -/
theorem entryBad_eq_false (amax : Nat) (eosEn : Bool) (seen : List Nat) (e : Nat × Nat) :
    entryBad amax eosEn seen e = false ↔
      ((e.1 ≤ amax ∨ (eosEn = true ∧ e.1 = 256)) ∧ 1 ≤ e.2) ∧ e.1 ∉ seen := by
  unfold entryBad
  cases eosEn
  · simp only [Bool.false_and, Bool.or_false, Bool.or_eq_false_iff, Bool.not_eq_false',
      decide_eq_true_eq, beq_eq_false_iff_ne, Bool.false_eq_true, false_and, or_false,
      List.contains_eq_mem, decide_eq_false_iff_not]
    constructor
    · rintro ⟨⟨h1, h2⟩, h3⟩; exact ⟨⟨h1, by omega⟩, h2⟩
    · rintro ⟨⟨h1, h3⟩, h2⟩; exact ⟨⟨h1, h2⟩, by omega⟩
  · simp only [Bool.true_and, Bool.or_eq_false_iff, Bool.not_eq_false', Bool.or_eq_true,
      decide_eq_true_eq, beq_eq_false_iff_ne, beq_iff_eq, true_and,
      List.contains_eq_mem, decide_eq_false_iff_not]
    constructor
    · rintro ⟨⟨h1, h2⟩, h3⟩; exact ⟨⟨h1, by omega⟩, h2⟩
    · rintro ⟨⟨h1, h3⟩, h2⟩; exact ⟨⟨h1, h2⟩, by omega⟩

/-- No entry is bad exactly when the symbols are legal, different from each other and from those
seen before, and the counts are not zero (R277). -/
theorem firstBadEntry_eq_none (amax : Nat) (eosEn : Bool) (seen : List Nat)
    (ft : List (Nat × Nat)) :
    firstBadEntry amax eosEn seen ft = none ↔
      (∀ e ∈ ft, (e.1 ≤ amax ∨ (eosEn = true ∧ e.1 = 256)) ∧ 1 ≤ e.2) ∧
      (ft.map (·.1)).Nodup ∧ ∀ e ∈ ft, e.1 ∉ seen := by
  induction ft generalizing seen with
  | nil => simp [firstBadEntry]
  | cons e es ih =>
    have hbad := entryBad_eq_false amax eosEn seen e
    rw [firstBadEntry]
    by_cases hb : entryBad amax eosEn seen e = true
    · rw [if_pos hb]
      constructor
      · intro h; cases h
      · rintro ⟨h1, -, h3⟩
        have := hbad.2 ⟨h1 e List.mem_cons_self, h3 e List.mem_cons_self⟩
        rw [hb] at this
        cases this
    · rw [if_neg hb, ih]
      have hb' := hbad.1 (by simpa using hb)
      simp only [List.map_cons, List.nodup_cons, List.mem_cons, forall_eq_or_imp,
        List.mem_append, List.mem_map, not_or, List.not_mem_nil, or_false]
      constructor
      · rintro ⟨h1, h2, h3⟩
        exact ⟨⟨hb'.1, h1⟩, ⟨fun ⟨x, hx, he⟩ => (h3 x hx).2 he, h2⟩, hb'.2, fun x hx => (h3 x hx).1⟩
      · rintro ⟨⟨-, h1⟩, ⟨h2, h3⟩, -, h4⟩
        exact ⟨h1, h3, fun x hx => ⟨h4 x hx, fun he => h2 ⟨x, hx, he⟩⟩⟩

/-- The first entry that is bad is reported by its index (R277). -/
theorem firstBadEntry_eq_some {amax : Nat} {eosEn : Bool} {seen : List Nat}
    {ft : List (Nat × Nat)} {i : Nat} {e : Nat × Nat} (hi : ft[i]? = some e)
    (hbad : entryBad amax eosEn (seen ++ (ft.take i).map (·.1)) e = true)
    (hgood : ∀ j d, j < i → ft[j]? = some d →
      entryBad amax eosEn (seen ++ (ft.take j).map (·.1)) d = false) :
    firstBadEntry amax eosEn seen ft = some (seen.length + i) := by
  induction ft generalizing seen i with
  | nil => simp at hi
  | cons d es ih =>
    rw [firstBadEntry]
    cases i with
    | zero =>
      obtain rfl : d = e := by simpa using hi
      rw [if_pos (by simpa using hbad)]
      rfl
    | succ i =>
      have h0 := hgood 0 d (by omega) rfl
      rw [List.take_zero, List.map_nil, List.append_nil] at h0
      rw [if_neg (by simp [h0]),
        ih (seen := seen ++ [d.1]) (i := i) (by simpa using hi) (by simpa using hbad)
          fun j d' hj hd => by simpa using hgood (j + 1) d' (by omega) (by simpa using hd)]
      simp only [List.length_append, List.length_singleton, Nat.add_assoc, Nat.add_comm 1 i]

/-! ## Keys -/

theorem keyLess_iff (x y : Key) :
    keyLess x y = true ↔ x.1 < y.1 ∨ (x.1 = y.1 ∧ x.2 < y.2) := by
  simp [keyLess]

theorem keyLess_trans {x y z : Key} (h1 : keyLess x y = true) (h2 : keyLess y z = true) :
    keyLess x z = true := by
  rw [keyLess_iff] at *
  omega

theorem keyLess_total {x y : Key} (hne : x ≠ y) (h : keyLess x y = false) :
    keyLess y x = true := by
  rw [keyLess_iff]
  have h' : ¬ (x.1 < y.1 ∨ (x.1 = y.1 ∧ x.2 < y.2)) := by
    rw [← keyLess_iff, h]
    decide
  have : ¬ (x.1 = y.1 ∧ x.2 = y.2) := fun hh => hne (Prod.ext hh.1 hh.2)
  omega

/-- The queue is in order, least key first. -/
abbrev sortedKeys (q : List Key) : Prop := q.Pairwise fun x y => keyLess x y = true

theorem insertKey_perm (k : Key) (q : List Key) : (insertKey k q).Perm (k :: q) := by
  induction q with
  | nil => exact List.Perm.refl _
  | cons x xs ih =>
    rw [insertKey]
    split
    · exact List.Perm.refl _
    · exact (ih.cons x).trans (List.Perm.swap k x xs)

theorem mem_insertKey {k y : Key} {q : List Key} : y ∈ insertKey k q ↔ y = k ∨ y ∈ q := by
  rw [(insertKey_perm k q).mem_iff, List.mem_cons]

@[simp] theorem length_insertKey (k : Key) (q : List Key) :
    (insertKey k q).length = q.length + 1 := by
  rw [(insertKey_perm k q).length_eq, List.length_cons]

/-- A key that is not in the queue is added in its place. -/
theorem sorted_insertKey {k : Key} {q : List Key} (hs : sortedKeys q) (hk : k ∉ q) :
    sortedKeys (insertKey k q) := by
  induction q with
  | nil => exact List.pairwise_singleton _ _
  | cons x xs ih =>
    rw [sortedKeys, List.pairwise_cons] at hs
    rw [List.mem_cons, not_or] at hk
    rw [insertKey]
    split
    · rename_i h
      refine List.pairwise_cons.2 ⟨?_, List.pairwise_cons.2 hs⟩
      intro y hy
      rcases List.mem_cons.1 hy with rfl | hy
      · exact h
      · exact keyLess_trans h (hs.1 y hy)
    · rename_i h
      refine List.pairwise_cons.2 ⟨?_, ih hs.2 hk.2⟩
      intro y hy
      rcases mem_insertKey.1 hy with rfl | hy
      · exact keyLess_total hk.1 (by simpa using h)
      · exact hs.1 y hy

/-! ## The merge loop -/

/-- Node `k` is no child of an internal node of `pre`, whose first `n` nodes are leaves. -/
def orphan (n : Nat) (pre : List Node) (k : Nat) : Prop :=
  ∀ p nd, n ≤ p → pre[p]? = some nd → nd.left ≠ k ∧ nd.right ≠ k

/-- The key of a node of an arena. -/
def keyAt (pre : List Node) (k : Nat) : Key := ((pre[k]?.map (·.freq)).getD 0, k)

/-- What is true of internal node `p` when it has been created: it merges the two least of the
orphans before it (R276, R278). -/
structure MergedAt (n : Nat) (pre : List Node) (p : Nat) (nd : Node) : Prop where
  leaf : nd.isLeaf = false
  symbol : nd.symbol = 0
  left : nd.left < p
  right : nd.right < p
  freq : nd.freq = (keyAt pre nd.left).1 + (keyAt pre nd.right).1
  order : keyLess (keyAt pre nd.left) (keyAt pre nd.right) = true
  orphanLeft : orphan n (pre.take p) nd.left
  orphanRight : orphan n (pre.take p) nd.right
  least : ∀ k, k < p → k ≠ nd.left → k ≠ nd.right → orphan n (pre.take p) k →
    keyLess (keyAt pre nd.right) (keyAt pre k) = true

/-- The invariant of the merge loop with arena `pre`, of which the first `n` nodes are leaves, and
queue `q`. -/
structure MergeInv (n : Nat) (pre : List Node) (q : List Key) : Prop where
  le : n ≤ pre.length
  sorted : sortedKeys q
  keys : ∀ x ∈ q, x.2 < pre.length ∧ x = keyAt pre x.2
  orphans : ∀ k, k < pre.length → (keyAt pre k ∈ q ↔ orphan n pre k)
  merged : ∀ p nd, n ≤ p → pre[p]? = some nd → MergedAt n pre p nd
  count : pre.length + q.length = 2 * n
  grows : ∀ p nd x y, n ≤ p → pre[p]? = some nd → x ∈ q → y ∈ q → x ≠ y → nd.freq ≤ x.1 + y.1

theorem keyAt_append {pre ext : List Node} {k : Nat} (h : k < pre.length) :
    keyAt (pre ++ ext) k = keyAt pre k := by
  simp only [keyAt, List.getElem?_append_left h]

theorem orphan_snoc {n : Nat} {pre : List Node} {nd : Node} {k : Nat} (hn : n ≤ pre.length) :
    orphan n (pre ++ [nd]) k ↔ orphan n pre k ∧ nd.left ≠ k ∧ nd.right ≠ k := by
  constructor
  · intro h
    refine ⟨fun p nd' hp hg => h p nd' hp ?_, h pre.length nd hn (by simp)⟩
    rw [List.getElem?_append_left (List.getElem?_eq_some_iff.1 hg).1, hg]
  · rintro ⟨h1, h2⟩ p nd' hp hg
    by_cases hlt : p < pre.length
    · rw [List.getElem?_append_left hlt] at hg
      exact h1 p nd' hp hg
    · have hl := (List.getElem?_eq_some_iff.1 hg).1
      obtain rfl : p = pre.length := by simp at hl; omega
      obtain rfl : nd = nd' := by simpa using hg
      exact h2

theorem MergedAt.append {n : Nat} {pre ext : List Node} {p : Nat} {nd : Node}
    (hp : p < pre.length) (h : MergedAt n pre p nd) : MergedAt n (pre ++ ext) p nd := by
  have e : ∀ k, k < p → keyAt (pre ++ ext) k = keyAt pre k := fun k hk =>
    keyAt_append (by omega)
  have et : (pre ++ ext).take p = pre.take p := List.take_append_of_le_length (by omega)
  refine ⟨h.leaf, h.symbol, h.left, h.right, ?_, ?_, ?_, ?_, ?_⟩
  · rw [e _ h.left, e _ h.right]; exact h.freq
  · rw [e _ h.left, e _ h.right]; exact h.order
  · rw [et]; exact h.orphanLeft
  · rw [et]; exact h.orphanRight
  · intro k hk h1 h2 h3
    rw [et] at h3
    rw [e _ h.right, e _ hk]
    exact h.least k hk h1 h2 h3

/-- One round of the merge keeps the invariant. -/
theorem MergeInv.round {n : Nat} {pre : List Node} {x y : Key} {q : List Key}
    (h : MergeInv n pre (x :: y :: q)) :
    MergeInv n (pre ++ [mergeNode (x.1 + y.1) x.2 y.2])
      (insertKey (x.1 + y.1, pre.length) q) := by
  have hx := h.keys x (by simp)
  have hy := h.keys y (by simp)
  have hs := h.sorted
  rw [sortedKeys, List.pairwise_cons, List.pairwise_cons] at hs
  have hxy : keyLess x y = true := hs.1 y (by simp)
  have hne : x.2 ≠ y.2 := by
    intro he
    have hxx : x = y := by rw [hx.2, hy.2, he]
    rw [hxx, keyLess_iff] at hxy
    omega
  have hnew : ∀ z ∈ q, z.2 ≠ pre.length := fun z hz => by
    have := (h.keys z (by simp [hz])).1
    omega
  have hlast : keyAt (pre ++ [mergeNode (x.1 + y.1) x.2 y.2]) pre.length =
      (x.1 + y.1, pre.length) := by simp [keyAt, mergeNode]
  have hlen : (pre ++ [mergeNode (x.1 + y.1) x.2 y.2]).length = pre.length + 1 := by simp
  have hold : ∀ k, k < pre.length →
      keyAt (pre ++ [mergeNode (x.1 + y.1) x.2 y.2]) k = keyAt pre k := fun k hk =>
    keyAt_append hk
  have hox : orphan n pre x.2 := (h.orphans x.2 hx.1).1 (by rw [← hx.2]; simp)
  have hoy : orphan n pre y.2 := (h.orphans y.2 hy.1).1 (by rw [← hy.2]; simp)
  refine ⟨by rw [hlen]; have := h.le; omega, ?_, ?_, ?_, ?_, ?_, ?_⟩
  · exact sorted_insertKey hs.2.2 fun hm => hnew _ hm rfl
  · intro z hz
    rcases mem_insertKey.1 hz with rfl | hz
    · exact ⟨by rw [hlen]; exact Nat.lt_succ_self _, hlast.symm⟩
    · have := h.keys z (by simp [hz])
      exact ⟨by rw [hlen]; omega, by rw [hold _ this.1]; exact this.2⟩
  · intro k hk
    rw [hlen] at hk
    rw [orphan_snoc h.le, mem_insertKey]
    by_cases hlt : k < pre.length
    · rw [hold k hlt, ← h.orphans k hlt, List.mem_cons, List.mem_cons]
      have e1 : keyAt pre k ≠ (x.1 + y.1, pre.length) := fun he => by
        have := congrArg Prod.snd he
        simp only [keyAt] at this
        omega
      constructor
      · rintro (he | hm)
        · exact absurd he e1
        · refine ⟨.inr (.inr hm), fun he => ?_, fun he => ?_⟩
          · have := hs.1 _ (List.mem_cons_of_mem _ hm)
            rw [← show x.2 = k from he, ← hx.2, keyLess_iff] at this
            omega
          · have := hs.2.1 _ hm
            rw [← show y.2 = k from he, ← hy.2, keyLess_iff] at this
            omega
      · rintro ⟨h1 | h1 | h1, h2, h3⟩
        · exact absurd (by rw [← h1]; rfl) h2
        · exact absurd (by rw [← h1]; rfl) h3
        · exact .inr h1
    · obtain rfl : k = pre.length := by omega
      rw [hlast]
      refine ⟨fun _ => ⟨fun p nd hp hg => ?_, ?_, ?_⟩, fun _ => .inl rfl⟩
      · have hm := h.merged p nd hp hg
        have hpl := (List.getElem?_eq_some_iff.1 hg).1
        have h1 := hm.left
        have h2 := hm.right
        omega
      · simp only [mergeNode]; omega
      · simp only [mergeNode]; omega
  · intro p nd hp hg
    by_cases hlt : p < pre.length
    · rw [List.getElem?_append_left hlt] at hg
      exact (h.merged p nd hp hg).append hlt
    · have hl := (List.getElem?_eq_some_iff.1 hg).1
      obtain rfl : p = pre.length := by rw [hlen] at hl; omega
      obtain rfl : mergeNode (x.1 + y.1) x.2 y.2 = nd := by simpa using hg
      have et : (pre ++ [mergeNode (x.1 + y.1) x.2 y.2]).take pre.length = pre := by simp
      refine ⟨rfl, rfl, hx.1, hy.1, ?_, ?_, ?_, ?_, ?_⟩
      · show x.1 + y.1 = (keyAt (pre ++ [mergeNode (x.1 + y.1) x.2 y.2]) x.2).1 +
          (keyAt (pre ++ [mergeNode (x.1 + y.1) x.2 y.2]) y.2).1
        rw [hold _ hx.1, hold _ hy.1, ← hx.2, ← hy.2]
      · show keyLess (keyAt (pre ++ [mergeNode (x.1 + y.1) x.2 y.2]) x.2)
          (keyAt (pre ++ [mergeNode (x.1 + y.1) x.2 y.2]) y.2) = true
        rw [hold _ hx.1, hold _ hy.1, ← hx.2, ← hy.2]
        exact hxy
      · rw [et]; exact hox
      · rw [et]; exact hoy
      · intro k hk h1 h2 h3
        rw [et] at h3
        have hm := (h.orphans k hk).2 h3
        rw [hold k hk]
        show keyLess (keyAt (pre ++ [mergeNode (x.1 + y.1) x.2 y.2]) y.2) (keyAt pre k) = true
        rw [hold _ hy.1, ← hy.2]
        rcases List.mem_cons.1 hm with he | hm
        · exact absurd (by rw [← he]; rfl) h1
        · rcases List.mem_cons.1 hm with he | hm
          · exact absurd (by rw [← he]; rfl) h2
          · exact hs.2.1 _ hm
  · have := h.count
    rw [hlen, length_insertKey]
    simp only [List.length_cons] at this
    omega
  · intro p nd z w hp hg hz hw hzw
    have hge : ∀ z ∈ q, y.1 ≤ z.1 := fun z hz => by
      have := hs.2.1 z hz
      rw [keyLess_iff] at this
      omega
    have hxy1 : x.1 ≤ y.1 := by
      rw [keyLess_iff] at hxy
      omega
    have hbase : nd.freq ≤ x.1 + y.1 := by
      by_cases hlt : p < pre.length
      · rw [List.getElem?_append_left hlt] at hg
        exact h.grows p nd x y hp hg (by simp) (by simp) fun he => hne (by rw [he])
      · have hl := (List.getElem?_eq_some_iff.1 hg).1
        obtain rfl : p = pre.length := by rw [hlen] at hl; omega
        obtain rfl : mergeNode (x.1 + y.1) x.2 y.2 = nd := by simpa using hg
        exact Nat.le_refl _
    rcases mem_insertKey.1 hz with rfl | hz
    · simp only; omega
    · rcases mem_insertKey.1 hw with rfl | hw
      · simp only; omega
      · have h1 := hge z hz
        have h2 := hge w hw
        omega

/-- The merge loop runs until one key is left, and keeps the invariant. -/
theorem MergeInv.loop {n : Nat} {pre : List Node} {q : List Key} (fuel : Nat)
    (h : MergeInv n pre q) (hq : q ≠ []) (hf : q.length ≤ fuel + 1) :
    ∃ r, MergeInv n (pre ++ mergeNodes fuel pre.length q) [r] ∧
      r.1 = (q.map (·.1)).sum := by
  induction fuel generalizing pre q with
  | zero =>
    match q, hq, hf with
    | [x], _, _ => exact ⟨x, by simpa [mergeNodes] using h, by simp⟩
    | _ :: _ :: _, _, hf => simp at hf
  | succ fuel ih =>
    match q, hq, hf, h with
    | [x], _, _, h => exact ⟨x, by simpa [mergeNodes] using h, by simp⟩
    | x :: y :: q, _, hf, h =>
      have hround := h.round
      obtain ⟨r, hr, hsum⟩ := ih hround
        (fun he => by have := congrArg List.length he; simp at this)
        (by rw [length_insertKey]; simp only [List.length_cons] at hf; omega)
      refine ⟨r, ?_, ?_⟩
      · rw [mergeNodes, show pre ++ mergeNode (x.1 + y.1) x.2 y.2 ::
          mergeNodes fuel (pre.length + 1) (insertKey (x.1 + y.1, pre.length) q) =
          (pre ++ [mergeNode (x.1 + y.1) x.2 y.2]) ++
            mergeNodes fuel (pre.length + 1) (insertKey (x.1 + y.1, pre.length) q) by simp]
        rwa [List.length_append, List.length_singleton] at hr
      · rw [hsum, ((insertKey_perm (x.1 + y.1, pre.length) q).map (·.1)).sum_eq]
        simp only [List.map_cons, List.sum_cons]
        omega

/-! ## The tree of a table -/

@[simp] theorem length_leafNodes (ft : List (Nat × Nat)) : (leafNodes ft).length = ft.length := by
  simp [leafNodes]

theorem getElem?_leafNodes (ft : List (Nat × Nat)) (i : Nat) :
    (leafNodes ft)[i]? = ft[i]?.map fun e =>
      { isLeaf := true, symbol := e.1, freq := e.2, left := noNode, right := noNode } := by
  simp [leafNodes]

/-- The queue of the leaves is in order and holds every leaf's key. -/
theorem leafQueue_spec (ft : List (Nat × Nat)) :
    sortedKeys (leafQueue ft) ∧
      (leafQueue ft).Perm (ft.zipIdx.map fun e => (e.1.2, e.2)) := by
  have gen : ∀ (ks : List Key) (q : List Key), sortedKeys q → (ks.map (·.2)).Nodup →
      (∀ k ∈ ks, ∀ x ∈ q, k.2 ≠ x.2) →
      sortedKeys (ks.foldl (fun q k => insertKey k q) q) ∧
        (ks.foldl (fun q k => insertKey k q) q).Perm (ks ++ q) := by
    intro ks
    induction ks with
    | nil => exact fun q hs _ _ => ⟨hs, List.Perm.refl _⟩
    | cons k ks ih =>
      intro q hs hnd hne
      rw [List.map_cons, List.nodup_cons] at hnd
      have := ih (insertKey k q)
        (sorted_insertKey hs fun hm => hne k (by simp) k hm rfl) hnd.2
        (fun k' hk' x hx he => by
          rcases mem_insertKey.1 hx with rfl | hx
          · exact hnd.1 (by rw [← he]; exact List.mem_map_of_mem hk')
          · exact hne k' (by simp [hk']) x hx he)
      refine ⟨this.1, this.2.trans ?_⟩
      exact ((insertKey_perm k q).append_left ks).trans List.perm_middle
  have hnd : ((ft.zipIdx.map fun e => ((e.1.2, e.2) : Key)).map (·.2)).Nodup := by
    rw [List.map_map]
    have : ((fun x : Key => x.2) ∘ fun e : (Nat × Nat) × Nat => ((e.1.2, e.2) : Key)) =
        Prod.snd := rfl
    rw [this, List.zipIdx_map_snd]
    exact List.nodup_range'
  have := gen _ [] List.Pairwise.nil hnd (by simp)
  rwa [List.append_nil] at this

theorem mem_leafQueue {ft : List (Nat × Nat)} {k : Key} :
    k ∈ leafQueue ft ↔ ∃ e, ft[k.2]? = some e ∧ k.1 = e.2 := by
  rw [(leafQueue_spec ft).2.mem_iff, List.mem_map]
  constructor
  · rintro ⟨⟨e, i⟩, he, rfl⟩
    exact ⟨e, List.mem_zipIdx_iff_getElem?.1 he, rfl⟩
  · rintro ⟨e, he, h1⟩
    exact ⟨(e, k.2), List.mem_zipIdx_iff_getElem?.2 he, by rw [← h1]⟩

theorem length_leafQueue (ft : List (Nat × Nat)) : (leafQueue ft).length = ft.length := by
  rw [(leafQueue_spec ft).2.length_eq]
  simp

theorem keyAt_leafNodes {ft : List (Nat × Nat)} {i : Nat} {e : Nat × Nat} (h : ft[i]? = some e) :
    keyAt (leafNodes ft) i = (e.2, i) := by
  simp [keyAt, getElem?_leafNodes, h]

/-- The invariant holds when the loop starts. -/
theorem mergeInv_start (ft : List (Nat × Nat)) :
    MergeInv ft.length (leafNodes ft) (leafQueue ft) := by
  have none_past : ∀ p, ft.length ≤ p → (leafNodes ft)[p]? = none := fun p hp =>
    List.getElem?_eq_none (by simpa using hp)
  refine ⟨by simp, (leafQueue_spec ft).1, ?_, ?_, ?_, ?_, ?_⟩
  · intro x hx
    obtain ⟨e, he, h1⟩ := mem_leafQueue.1 hx
    refine ⟨by simpa using (List.getElem?_eq_some_iff.1 he).1, ?_⟩
    rw [keyAt_leafNodes he, ← h1]
  · intro k hk
    rw [length_leafNodes] at hk
    have he : ft[k]? = some ft[k] := List.getElem?_eq_getElem hk
    refine ⟨fun _ p nd hp hg => ?_, fun _ => ?_⟩
    · rw [none_past p hp] at hg
      cases hg
    · rw [keyAt_leafNodes he]
      exact mem_leafQueue.2 ⟨_, he, rfl⟩
  · intro p nd hp hg
    rw [none_past p hp] at hg
    cases hg
  · rw [length_leafNodes, length_leafQueue]
    omega
  · intro p nd x y hp hg
    rw [none_past p hp] at hg
    cases hg

theorem sum_leafQueue (ft : List (Nat × Nat)) :
    ((leafQueue ft).map (·.1)).sum = (ft.map (·.2)).sum := by
  rw [((leafQueue_spec ft).2.map (·.1)).sum_eq, List.map_map]
  have : ((fun x : Key => x.1) ∘ fun e : (Nat × Nat) × Nat => ((e.1.2, e.2) : Key)) =
      (fun e : Nat × Nat => e.2) ∘ Prod.fst := rfl
  rw [this, ← List.map_map, List.zipIdx_map_fst]

theorem buildTree_eq {ft : List (Nat × Nat)} (h : ft.length ≠ 1) :
    buildTree ft = leafNodes ft ++ mergeNodes ft.length ft.length (leafQueue ft) := by
  match ft, h with
  | [], _ => rfl
  | [e], h => exact absurd rfl h
  | _ :: _ :: _, _ => rfl

/-- What R278 builds from two leaves or more: the merge invariant holds of the whole arena, whose
last node is the one orphan, with the sum of the counts as its frequency. -/
theorem buildTree_inv {ft : List (Nat × Nat)} (h : 2 ≤ ft.length) :
    (buildTree ft).length = 2 * ft.length - 1 ∧
      MergeInv ft.length (buildTree ft) [((ft.map (·.2)).sum, 2 * ft.length - 2)] := by
  have hq : leafQueue ft ≠ [] := fun he => by
    have := length_leafQueue ft
    rw [he] at this
    simp at this
    omega
  obtain ⟨r, hr, hsum⟩ := (mergeInv_start ft).loop ft.length hq (by rw [length_leafQueue]; omega)
  rw [length_leafNodes, ← buildTree_eq (by omega)] at hr
  rw [sum_leafQueue] at hsum
  have hlen : (buildTree ft).length = 2 * ft.length - 1 := by
    have := hr.count
    simp at this
    omega
  refine ⟨hlen, ?_⟩
  have hr2 : r.2 = 2 * ft.length - 2 := by
    have hk := hr.keys r (by simp)
    by_contra hne
    have hlast : (2 * ft.length - 2) < (buildTree ft).length := by omega
    have horph : orphan ft.length (buildTree ft) (2 * ft.length - 2) := by
      intro p nd hp hg
      have hm := hr.merged p nd hp hg
      have hpl := (List.getElem?_eq_some_iff.1 hg).1
      have h1 := hm.left
      have h2 := hm.right
      omega
    have := (hr.orphans _ hlast).2 horph
    rw [List.mem_singleton] at this
    exact hne (by rw [← this]; rfl)
  have : r = ((ft.map (·.2)).sum, 2 * ft.length - 2) := Prod.ext hsum hr2
  rwa [← this]

/-- The leaves come first. -/
theorem getElem?_buildTree_leaf {ft : List (Nat × Nat)} {i : Nat} {e : Nat × Nat}
    (h : ft[i]? = some e) :
    (buildTree ft)[i]? = some
      { isLeaf := true, symbol := e.1, freq := e.2, left := noNode, right := noNode } := by
  have hi : i < (leafNodes ft).length := by
    rw [length_leafNodes]; exact (List.getElem?_eq_some_iff.1 h).1
  have hl : (leafNodes ft)[i]? = some
      { isLeaf := true, symbol := e.1, freq := e.2, left := noNode, right := noNode } := by
    rw [getElem?_leafNodes, h]; rfl
  by_cases h1 : ft.length = 1
  · match ft, h1 with
    | [d], _ =>
      rw [buildTree, List.getElem?_append_left hi, hl]
  · rw [buildTree_eq h1, List.getElem?_append_left hi, hl]

/-- How many nodes the tree has. -/
theorem length_buildTree {ft : List (Nat × Nat)} (h : ft ≠ []) :
    (buildTree ft).length = if ft.length = 1 then 2 else 2 * ft.length - 1 := by
  by_cases h1 : ft.length = 1
  · match ft, h1 with
    | [d], _ => rfl
  · rw [if_neg h1]
    have : ft.length ≠ 0 := fun h0 => h (List.length_eq_zero_iff.1 h0)
    exact (buildTree_inv (by omega)).1

end Sys2Proof.Machine
end

