-- ==== Sys2Proof/Laws/Codes.lean ====
section
/-! SUPPORT. The laws of paths and codes: what the visit of R311 collects, that a path of a tree is
the only one to its node and how long it can be, the Kraft sum of a full tree, and that the bits of a
code entry are the path it was derived from. -/

namespace Sys2Proof.Machine

open Sys2Proof

/-! ## Numbers of paths -/

theorem pathNumber_append (p q : List Bool) :
    pathNumber (p ++ q) = q.foldl (fun acc b => 2 * acc + b.toNat) (pathNumber p) := by
  simp [pathNumber, List.foldl_append]

theorem pathNumber_snoc (p : List Bool) (b : Bool) :
    pathNumber (p ++ [b]) = 2 * pathNumber p + b.toNat := pathNumber_append p [b]

theorem pathNumber_lt (p : List Bool) : pathNumber p < 2 ^ p.length := by
  induction p using List.reverseRecOn with
  | nil => simp [pathNumber]
  | append_singleton p b ih =>
    rw [pathNumber_snoc, List.length_append, List.length_singleton, Nat.pow_succ]
    have := b.toNat_le
    omega

/-- The bits of a path's number are the path, its first edge most significant (R151, R312). -/
theorem testBit_pathNumber (p : List Bool) (i : Nat) (h : i < p.length) :
    (pathNumber p).testBit (p.length - 1 - i) = p[i] := by
  induction p using List.reverseRecOn with
  | nil => simp at h
  | append_singleton p b ih =>
    rw [pathNumber_snoc, List.length_append, List.length_singleton, Nat.add_sub_cancel]
    by_cases hi : i < p.length
    · rw [show p.length - i = (p.length - 1 - i) + 1 by omega, Nat.testBit_succ,
        show (2 * pathNumber p + b.toNat) / 2 = pathNumber p by have := b.toNat_le; omega,
        ih hi, List.getElem_append_left hi]
    · simp only [List.length_append, List.length_singleton] at h
      obtain rfl : i = p.length := by omega
      rw [Nat.sub_self, Nat.testBit_zero]
      cases b <;> simp

/-- The code bits of a path's entry are the path. -/
theorem codeBits_path (p : List Bool) (v : Bool) :
    codeBits { valid := v, len := p.length, code := pathNumber p } = p := by
  unfold codeBits
  apply List.ext_getElem?
  intro i
  by_cases h : i < p.length
  · rw [List.getElem?_map, List.getElem?_range h, List.getElem?_eq_getElem h]
    simp [testBit_pathNumber p i h]
  · simp [h]

@[simp] theorem length_codeBits (c : Code) : (codeBits c).length = c.len := by simp [codeBits]

/-! ## Walking -/

/-- The child of a node, LEFT at a 0 and RIGHT at a 1, if there is one (R310). -/
def childOf (node : Nat → Node) (j : Nat) (b : Bool) : Option Nat :=
  if (if b then (node j).right else (node j).left) = noNode then none
  else some (if b then (node j).right else (node j).left)

theorem childOf_eq_some {node : Nat → Node} {j k : Nat} {b : Bool} :
    childOf node j b = some k ↔
      (if b then (node j).right else (node j).left) = k ∧ k ≠ noNode := by
  unfold childOf
  generalize (if b then (node j).right else (node j).left) = c
  by_cases h : c = noNode
  · rw [if_pos h]
    constructor
    · intro he; cases he
    · rintro ⟨rfl, hk⟩; exact absurd h hk
  · rw [if_neg h]
    constructor
    · intro he; cases he; exact ⟨rfl, h⟩
    · rintro ⟨rfl, -⟩; rfl

theorem walkPath_cons (node : Nat → Node) (j : Nat) (b : Bool) (bs : List Bool) :
    walkPath node j (b :: bs) =
      if (node j).isLeaf then none else (childOf node j b).bind fun k => walkPath node k bs := by
  rw [walkPath, childOf]
  split
  · rfl
  · simp only
    generalize (if b then (node j).right else (node j).left) = c
    split <;> rfl

theorem walkPath_append (node : Nat → Node) (j : Nat) (p q : List Bool) :
    walkPath node j (p ++ q) = (walkPath node j p).bind fun k => walkPath node k q := by
  induction p generalizing j with
  | nil => rfl
  | cons b bs ih =>
    rw [List.cons_append, walkPath_cons, walkPath_cons]
    split
    · rfl
    · cases childOf node j b with
      | none => rfl
      | some k => exact ih k

/-- A path stops at a leaf: no longer path starts with it. -/
theorem walkPath_leaf_prefix {node : Nat → Node} {j k k' : Nat} {p q : List Bool}
    (hp : walkPath node j p = some k) (hk : (node k).isLeaf = true)
    (hq : walkPath node j q = some k') (hpre : p <+: q) : q = p := by
  obtain ⟨r, rfl⟩ := hpre
  rw [walkPath_append, hp] at hq
  cases r with
  | nil => simp
  | cons b bs =>
    simp only [Option.bind_some, walkPath_cons, hk, if_true] at hq
    cases hq

/-! ## The visit -/

/-- What the visit of R311 collects: the leaves on paths shorter than its depth, each with its
symbol and path. -/
theorem mem_visitTree (node : Nat → Node) (depth j : Nat) (path : List Bool) (x : Nat)
    (p : List Bool) :
    (x, p) ∈ visitTree node depth j path ↔
      ∃ s k, p = path ++ s ∧ s.length < depth ∧ walkPath node j s = some k ∧
        (node k).isLeaf = true ∧ (node k).symbol = x := by
  induction depth generalizing j path with
  | zero => simp [visitTree]
  | succ depth ih =>
    rw [visitTree]
    by_cases hl : (node j).isLeaf = true
    · rw [if_pos hl, List.mem_singleton]
      constructor
      · intro he
        cases he
        exact ⟨[], j, by simp, by simp, rfl, hl, rfl⟩
      · rintro ⟨s, k, rfl, -, hw, -, rfl⟩
        cases s with
        | nil => cases hw; simp
        | cons b bs =>
          rw [walkPath_cons, if_pos hl] at hw
          cases hw
    · rw [if_neg hl, List.mem_append]
      have side : ∀ b : Bool,
          ((x, p) ∈ (if (if b then (node j).right else (node j).left) = noNode then []
            else visitTree node depth (if b then (node j).right else (node j).left)
              (path ++ [b]))) ↔
          ∃ s k, p = path ++ b :: s ∧ s.length < depth ∧ walkPath node j (b :: s) = some k ∧
            (node k).isLeaf = true ∧ (node k).symbol = x := by
        intro b
        simp only [walkPath_cons, if_neg hl, childOf]
        generalize (if b then (node j).right else (node j).left) = c
        by_cases hc : c = noNode
        · simp [hc]
        · rw [if_neg hc, if_neg hc, ih]
          simp only [List.append_assoc, List.singleton_append, Option.bind_some]
      have h0 := side false
      have h1 := side true
      simp only [Bool.false_eq_true, if_false, if_true] at h0 h1
      rw [h0, h1]
      constructor
      · rintro (⟨s, k, rfl, hs, hw, hk⟩ | ⟨s, k, rfl, hs, hw, hk⟩)
        · exact ⟨false :: s, k, rfl, by simpa using hs, hw, hk⟩
        · exact ⟨true :: s, k, rfl, by simpa using hs, hw, hk⟩
      · rintro ⟨s, k, rfl, hs, hw, hk⟩
        cases s with
        | nil =>
          cases hw
          exact absurd hk.1 hl
        | cons b s =>
          cases b
          · exact .inl ⟨s, k, rfl, by simpa using hs, hw, hk⟩
          · exact .inr ⟨s, k, rfl, by simpa using hs, hw, hk⟩

/-- No path is collected twice. -/
theorem visitTree_nodup (node : Nat → Node) (depth j : Nat) (path : List Bool) :
    ((visitTree node depth j path).map (·.2)).Nodup := by
  induction depth generalizing j path with
  | zero => exact List.nodup_nil
  | succ depth ih =>
    rw [visitTree]
    split
    · simp
    · rw [List.map_append, List.nodup_append]
      refine ⟨?_, ?_, ?_⟩
      · split
        · exact List.nodup_nil
        · exact ih _ _
      · split
        · exact List.nodup_nil
        · exact ih _ _
      · intro p hp q hq
        split at hp
        · simp at hp
        · split at hq
          · simp at hq
          · obtain ⟨⟨x, p'⟩, hm, rfl⟩ := List.mem_map.1 hp
            obtain ⟨⟨y, q'⟩, hm', rfl⟩ := List.mem_map.1 hq
            obtain ⟨s, -, rfl, -⟩ := (mem_visitTree _ _ _ _ _ _).1 hm
            obtain ⟨s', -, rfl, -⟩ := (mem_visitTree _ _ _ _ _ _).1 hm'
            intro he
            simp at he

/-- The entry of a symbol that a leaf has: valid, with the path of such a leaf. -/
theorem codeOf_valid {leaves : List (Nat × List Bool)} {x : Nat}
    (h : (codeOf leaves x).valid = true) :
    ∃ p, (x, p) ∈ leaves ∧ codeOf leaves x =
      { valid := true, len := p.length, code := pathNumber p } := by
  unfold codeOf at h ⊢
  cases hl : leaves.reverse.lookup x with
  | none => rw [hl] at h; cases h
  | some p =>
    refine ⟨p, ?_, rfl⟩
    have hm : (x, p) ∈ leaves.reverse := by
      obtain ⟨l1, l2, he, -⟩ := List.lookup_eq_some_iff.1 hl
      rw [he]
      simp
    exact List.mem_reverse.1 hm

theorem codeOf_invalid {leaves : List (Nat × List Bool)} {x : Nat}
    (h : (codeOf leaves x).valid = false) :
    codeOf leaves x = { valid := false, len := 0, code := 0 } ∧ ∀ p, (x, p) ∉ leaves := by
  unfold codeOf at h ⊢
  cases hl : leaves.reverse.lookup x with
  | some p => rw [hl] at h; cases h
  | none =>
    refine ⟨rfl, fun p hm => ?_⟩
    rw [List.lookup_eq_none_iff] at hl
    have := hl (x, p) (List.mem_reverse.2 hm)
    simp at this

/-! ## Trees -/

/-- An arena that is a tree under its last node: the first `n` nodes are leaves, every other node
but the root `root` is the child of one node with a larger index (R279). -/
structure IsTree (node : Nat → Node) (n root : Nat) : Prop where
  leaf : ∀ k, k < n → (node k).isLeaf = true
  inner : ∀ j, n ≤ j → j ≤ root → (node j).isLeaf = false
  child : ∀ j b k, n ≤ j → j ≤ root → childOf node j b = some k → k < j
  parent : ∀ k, k < root → ∃ j b, n ≤ j ∧ j ≤ root ∧ childOf node j b = some k
  unique : ∀ j j' b b' k, n ≤ j → j ≤ root → n ≤ j' → j' ≤ root → childOf node j b = some k →
    childOf node j' b' = some k → j = j' ∧ b = b'
  pos : 1 ≤ n
  le : n ≤ root
  small : root + 1 < n + maxLevels

namespace IsTree

variable {node : Nat → Node} {n root : Nat}

/-- A path goes to smaller indices, and each internal node it passes costs it one. -/
theorem walk_bounds (h : IsTree node n root) {j k : Nat} {p : List Bool} (hj : j ≤ root)
    (hw : walkPath node j p = some k) : k ≤ j ∧ p.length ≤ j + 1 - n := by
  induction p generalizing j with
  | nil =>
    cases hw
    exact ⟨Nat.le_refl _, Nat.zero_le _⟩
  | cons b bs ih =>
    rw [walkPath_cons] at hw
    by_cases hn : j < n
    · rw [if_pos (h.leaf j hn)] at hw
      cases hw
    · have hin := h.inner j (by omega) hj
      rw [if_neg (by rw [hin]; decide)] at hw
      cases hc : childOf node j b with
      | none => rw [hc] at hw; cases hw
      | some m =>
        rw [hc] at hw
        have hm := h.child j b m (by omega) hj hc
        have := ih (by omega) hw
        rw [List.length_cons]
        omega

/-- A path's last edge. -/
theorem walk_snoc (h : IsTree node n root) {k : Nat} {p : List Bool} {b : Bool}
    (hw : walkPath node root (p ++ [b]) = some k) :
    ∃ m, walkPath node root p = some m ∧ n ≤ m ∧ m ≤ root ∧ childOf node m b = some k := by
  rw [walkPath_append] at hw
  cases hp : walkPath node root p with
  | none => rw [hp] at hw; cases hw
  | some m =>
    rw [hp, Option.bind_some, walkPath_cons] at hw
    have hb := h.walk_bounds (Nat.le_refl _) hp
    by_cases hn : m < n
    · rw [if_pos (h.leaf m hn)] at hw
      cases hw
    · rw [if_neg (by rw [h.inner m (by omega) hb.1]; decide)] at hw
      cases hc : childOf node m b with
      | none => rw [hc] at hw; cases hw
      | some k' =>
        rw [hc] at hw
        cases hw
        exact ⟨m, rfl, by omega, hb.1, hc⟩

/-- Every node hangs on a path from the root. -/
theorem reach (h : IsTree node n root) (k : Nat) (hk : k ≤ root) :
    ∃ p, walkPath node root p = some k := by
  obtain ⟨d, hd⟩ : ∃ d, root = k + d := ⟨root - k, by omega⟩
  induction d using Nat.strongRecOn generalizing k with
  | ind d ih =>
    by_cases hz : k = root
    · exact ⟨[], by rw [hz]; rfl⟩
    · obtain ⟨j, b, hj, hj', hc⟩ := h.parent k (by omega)
      have hlt := h.child j b k hj hj' hc
      obtain ⟨p, hp⟩ := ih (root - j) (by omega) j hj' (by omega)
      refine ⟨p ++ [b], ?_⟩
      rw [walkPath_append, hp, Option.bind_some, walkPath_cons,
        if_neg (by rw [h.inner j hj hj']; decide), hc]
      rfl

/-- There is one path to each node (R280). -/
theorem path_unique (h : IsTree node n root) {k : Nat} {p q : List Bool}
    (hp : walkPath node root p = some k) (hq : walkPath node root q = some k) : p = q := by
  have no_loop : ∀ (p : List Bool) (b : Bool), walkPath node root (p ++ [b]) ≠ some root := by
    intro p b hw
    obtain ⟨m, -, hn, hm, hc⟩ := h.walk_snoc hw
    have := h.child m b root hn hm hc
    omega
  induction p using List.reverseRecOn generalizing k q with
  | nil =>
    cases hp
    rcases List.eq_nil_or_concat q with rfl | ⟨q', b, rfl⟩
    · rfl
    · exact absurd (by simpa using hq) (no_loop q' b)
  | append_singleton p b ih =>
    rcases List.eq_nil_or_concat q with rfl | ⟨q', b', rfl⟩
    · cases hq
      exact absurd hp (no_loop p b)
    · rw [List.concat_eq_append] at hq ⊢
      obtain ⟨m, hw, hn, hm, hc⟩ := h.walk_snoc hp
      obtain ⟨m', hw', hn', hm', hc'⟩ := h.walk_snoc hq
      obtain ⟨rfl, rfl⟩ := h.unique m m' b b' k hn hm hn' hm' hc hc'
      rw [ih hw hw']

/-- The visit reaches every leaf. -/
theorem visit_complete (h : IsTree node n root) (k : Nat) (hk : k < n) :
    ∃ p, ((node k).symbol, p) ∈ visitTree node maxLevels root [] ∧
      walkPath node root p = some k := by
  obtain ⟨p, hp⟩ := h.reach k (by have := h.le; omega)
  refine ⟨p, (mem_visitTree _ _ _ _ _ _).2 ⟨p, k, rfl, ?_, hp, h.leaf k hk, rfl⟩, hp⟩
  have h1 := (h.walk_bounds (Nat.le_refl _) hp).2
  have h2 := h.small
  have h3 := h.le
  omega

/-- What the visit collects is a leaf of the table. -/
theorem visit_sound (h : IsTree node n root) {x : Nat} {p : List Bool}
    (hm : (x, p) ∈ visitTree node maxLevels root []) :
    ∃ k, k < n ∧ walkPath node root p = some k ∧ (node k).symbol = x ∧
      p.length ≤ root + 1 - n := by
  obtain ⟨s, k, rfl, -, hw, hl, hx⟩ := (mem_visitTree _ _ _ _ _ _).1 hm
  have hb := h.walk_bounds (Nat.le_refl _) hw
  refine ⟨k, ?_, hw, hx, hb.2⟩
  by_contra hn
  rw [h.inner k (by omega) hb.1] at hl
  cases hl

/-- The paths of a full tree fill their share of the code space exactly (R314). -/
theorem kraft (h : IsTree node n root)
    (hfull : ∀ j b, n ≤ j → j ≤ root → childOf node j b ≠ none) (d depth j : Nat)
    (path : List Bool) (hj : j ≤ root) (hdepth : j + 1 < n + depth) (hpos : 0 < depth)
    (hd : path.length + (j + 1 - n) ≤ d) :
    ((visitTree node depth j path).map fun e => 2 ^ (d - e.2.length)).sum =
      2 ^ (d - path.length) := by
  induction depth generalizing j path with
  | zero => omega
  | succ depth ih =>
    rw [visitTree]
    by_cases hn : j < n
    · rw [if_pos (h.leaf j hn)]
      simp
    · rw [if_neg (by rw [h.inner j (by omega) hj]; decide)]
      have side : ∀ b : Bool,
          (((if (if b then (node j).right else (node j).left) = noNode then []
            else visitTree node depth (if b then (node j).right else (node j).left)
              (path ++ [b])).map fun e => 2 ^ (d - e.2.length)).sum) =
          2 ^ (d - (path.length + 1)) := by
        intro b
        have hc := hfull j b (by omega) hj
        have hlt : ∀ k, childOf node j b = some k → k < j := fun k =>
          h.child j b k (by omega) hj
        unfold childOf at hc hlt
        revert hc hlt
        generalize (if b then (node j).right else (node j).left) = c
        intro hc hlt
        by_cases hcn : c = noNode
        · exact absurd (by rw [if_pos hcn]) hc
        · rw [if_neg hcn] at hlt ⊢
          have hcj := hlt c rfl
          have := ih c (path ++ [b]) (by omega) (by omega) (by omega)
            (by rw [List.length_append, List.length_singleton]; omega)
          rwa [List.length_append, List.length_singleton] at this
      have h0 := side false
      have h1 := side true
      simp only [Bool.false_eq_true, if_false, if_true] at h0 h1
      rw [List.map_append, List.sum_append, h0, h1,
        show d - path.length = (d - (path.length + 1)) + 1 by omega, Nat.pow_succ]
      omega

end IsTree

/-! ## The arena of a table is a tree -/

theorem childOf_mergeNode {node : Nat → Node} {j : Nat} {nd : Node} (h : node j = nd)
    (hl : nd.left < noNode) (hr : nd.right < noNode) (b : Bool) :
    childOf node j b = some (if b then nd.right else nd.left) := by
  unfold childOf
  rw [h]
  cases b
  · simp only [Bool.false_eq_true, if_false]
    rw [if_neg (by omega)]
  · simp only [if_true]
    rw [if_neg (by omega)]

/-- The arena HUF_TREE builds from a table of at most 257 entries is a tree (R279); with two leaves
or more every internal node has two children. -/
theorem isTree_buildTree {ft : List (Nat × Nat)} (h1 : 1 ≤ ft.length) (h2 : ft.length ≤ 257)
    {node : Nat → Node} (hnode : ∀ j nd, (buildTree ft)[j]? = some nd → node j = nd) :
    IsTree node ft.length ((buildTree ft).length - 1) ∧
      (2 ≤ ft.length → ∀ j b, ft.length ≤ j → j ≤ (buildTree ft).length - 1 →
        childOf node j b ≠ none) := by
  have hleaf : ∀ k, k < ft.length → (node k).isLeaf = true := fun k hk => by
    rw [hnode k _ (getElem?_buildTree_leaf (List.getElem?_eq_getElem hk))]
  by_cases hone : ft.length = 1
  · match ft, hone with
    | [e], _ =>
      have hn : node 1 = mergeNode e.2 0 noNode := hnode 1 _ rfl
      have hc0 : childOf node 1 false = some 0 := by simp [childOf, hn, mergeNode, noNode]
      have hc1 : childOf node 1 true = none := by simp [childOf, hn, mergeNode, noNode]
      refine ⟨⟨hleaf, ?_, ?_, ?_, ?_, by simp, by simp [buildTree], by
        simp [buildTree, maxLevels]⟩, fun h => by simp at h⟩
      · intro j hj hj'
        obtain rfl : j = 1 := by simp [buildTree] at hj hj'; omega
        rw [hn]
        rfl
      · intro j b k hj hj' hc
        obtain rfl : j = 1 := by simp [buildTree] at hj hj'; omega
        cases b
        · rw [hc0] at hc; cases hc; exact Nat.one_pos
        · rw [hc1] at hc; cases hc
      · intro k hk
        obtain rfl : k = 0 := by simp [buildTree] at hk; omega
        exact ⟨1, false, by simp, by simp [buildTree], hc0⟩
      · intro j j' b b' k hj hj' hk hk' hc hc'
        obtain rfl : j = 1 := by simp [buildTree] at hj hj'; omega
        obtain rfl : j' = 1 := by simp [buildTree] at hk hk'; omega
        refine ⟨rfl, ?_⟩
        cases b <;> cases b' <;> first | rfl | (rw [hc1] at hc; cases hc) | (rw [hc1] at hc'; cases hc')
  · obtain ⟨hlen, hinv⟩ := buildTree_inv (show 2 ≤ ft.length by omega)
    have hget : ∀ j, ft.length ≤ j → j ≤ (buildTree ft).length - 1 →
        ∃ nd, (buildTree ft)[j]? = some nd ∧ node j = nd ∧
          MergedAt ft.length (buildTree ft) j nd := fun j hj hj' => by
      have hg : (buildTree ft)[j]? = some ((buildTree ft)[j]'(by omega)) :=
        List.getElem?_eq_getElem (by omega)
      exact ⟨_, hg, hnode j _ hg, hinv.merged j _ hj hg⟩
    have hchild : ∀ j, ft.length ≤ j → j ≤ (buildTree ft).length - 1 → ∃ nd,
        (buildTree ft)[j]? = some nd ∧ MergedAt ft.length (buildTree ft) j nd ∧
          ∀ b, childOf node j b = some (if b then nd.right else nd.left) := fun j hj hj' => by
      obtain ⟨nd, hg, hn, hm⟩ := hget j hj hj'
      have hl := hm.left
      have hr := hm.right
      exact ⟨nd, hg, hm, childOf_mergeNode hn (by unfold noNode; omega) (by unfold noNode; omega)⟩
    refine ⟨⟨hleaf, ?_, ?_, ?_, ?_, h1, by omega, by unfold maxLevels; omega⟩, ?_⟩
    · intro j hj hj'
      obtain ⟨nd, -, hn, hm⟩ := hget j hj hj'
      rw [hn, hm.leaf]
    · intro j b k hj hj' hc
      obtain ⟨nd, -, hm, hch⟩ := hchild j hj hj'
      rw [hch b] at hc
      cases hc
      have hl := hm.left
      have hr := hm.right
      cases b <;> simpa
    · intro k hk
      have hno : ¬ orphan ft.length (buildTree ft) k := fun ho => by
        have := (hinv.orphans k (by omega)).2 ho
        rw [List.mem_singleton] at this
        have := congrArg Prod.snd this
        simp only [keyAt] at this
        omega
      unfold orphan at hno
      push Not at hno
      obtain ⟨p, nd, hp, hg, hch⟩ := hno
      have hpl := (List.getElem?_eq_some_iff.1 hg).1
      obtain ⟨nd', hg', hm, hc⟩ := hchild p hp (by omega)
      obtain rfl : nd = nd' := by rw [hg] at hg'; exact Option.some.inj hg'
      by_cases hl : nd.left = k
      · exact ⟨p, false, hp, by omega, by rw [hc false, ← hl]; rfl⟩
      · exact ⟨p, true, hp, by omega, by rw [hc true, ← hch hl]; rfl⟩
    · intro j j' b b' k hj hj' hk hk' hc hc'
      obtain ⟨nd, hg, hm, hch⟩ := hchild j hj hj'
      obtain ⟨nd', hg', hm', hch'⟩ := hchild j' hk hk'
      rw [hch b] at hc
      rw [hch' b'] at hc'
      have hc := Option.some.inj hc
      have hc' := Option.some.inj hc'
      have earlier : ∀ {p p' : Nat} {a a' : Node}, ft.length ≤ p →
          (buildTree ft)[p]? = some a → MergedAt ft.length (buildTree ft) p' a' →
          (a.left = k ∨ a.right = k) → (a'.left = k ∨ a'.right = k) → p < p' → False := by
        intro p p' a a' hp hga hma' hak hak' hlt
        have ho : orphan ft.length ((buildTree ft).take p') k := by
          rcases hak' with rfl | rfl
          · exact hma'.orphanLeft
          · exact hma'.orphanRight
        have := ho p a hp (by rw [List.getElem?_take, if_pos hlt]; exact hga)
        tauto
      have hak : nd.left = k ∨ nd.right = k := by
        cases b
        · exact .inl hc
        · exact .inr hc
      have hak' : nd'.left = k ∨ nd'.right = k := by
        cases b'
        · exact .inl hc'
        · exact .inr hc'
      have hjj : j = j' := by
        rcases Nat.lt_trichotomy j j' with hlt | he | hlt
        · exact (earlier hj hg hm' hak hak' hlt).elim
        · exact he
        · exact (earlier hk hg' hm hak' hak hlt).elim
      subst hjj
      obtain rfl : nd = nd' := by rw [hg] at hg'; exact Option.some.inj hg'
      refine ⟨rfl, ?_⟩
      have hne : nd.left ≠ nd.right := fun he => by
        have := hm.order
        rw [he, keyLess_iff] at this
        omega
      cases b <;> cases b' <;> simp_all
    · intro _ j b hj hj' hc
      obtain ⟨nd, -, -, hch⟩ := hchild j hj hj'
      rw [hch b] at hc
      cases hc

end Sys2Proof.Machine
end

