-- ==== Sys2Proof/Laws/Lzw.lean ====
section
/-! SUPPORT. The laws of the LZW dictionary: the strings of its entries, what the scan of R233 emits
and inserts, and what the replay of R240 rebuilds. -/

namespace Sys2Proof.Machine

open Sys2Proof

/-! ## Strings of a dictionary -/

/-- Every prefix is an older entry or a seed (R234). -/
def dictWf (a : Nat) (ins : List (Nat × Nat)) : Prop :=
  ∀ j p, ins[j]? = some p → p.1 < a + j

/-- The string of code `k` when the dictionary holds `ins` (R58). -/
abbrev dstr (a : Nat) (ins : List (Nat × Nat)) (k : Nat) : List Nat :=
  dictString a ins ins.length k

theorem dictString_seed {a k : Nat} (ins : List (Nat × Nat)) (f : Nat) (h : k < a) :
    dictString a ins f k = [k] := by
  cases f with
  | zero => rfl
  | succ f => rw [dictString, if_pos h]

theorem dictString_stable {a : Nat} {ins : List (Nat × Nat)} (hwf : dictWf a ins) (f f' k : Nat)
    (h : k < a + f) (h' : k < a + f') (hk : k < a + ins.length) :
    dictString a ins f k = dictString a ins f' k := by
  induction f generalizing f' k with
  | zero => rw [dictString_seed _ _ (by omega), dictString_seed _ _ (by omega)]
  | succ f ih =>
    by_cases hs : k < a
    · rw [dictString_seed _ _ hs, dictString_seed _ _ hs]
    · cases f' with
      | zero => omega
      | succ f' =>
        have hlt : k - a < ins.length := by omega
        have hg : ins[k - a]? = some ins[k - a] := List.getElem?_eq_getElem hlt
        have hp := hwf _ _ hg
        rw [dictString, dictString, if_neg hs, if_neg hs, hg]
        simp only
        rw [ih f' _ (by omega) (by omega) (by omega)]

theorem dstr_seed {a k : Nat} (ins : List (Nat × Nat)) (h : k < a) : dstr a ins k = [k] :=
  dictString_seed ins _ h

theorem dstr_entry {a j p x : Nat} {ins : List (Nat × Nat)} (hwf : dictWf a ins)
    (h : ins[j]? = some (p, x)) : dstr a ins (a + j) = dstr a ins p ++ [x] := by
  have hj : j < ins.length := (List.getElem?_eq_some_iff.1 h).1
  have hp : p < a + j := hwf _ _ h
  obtain ⟨m, hm⟩ : ∃ m, ins.length = m + 1 := ⟨ins.length - 1, by omega⟩
  unfold dstr
  rw [hm, dictString, if_neg (by omega), Nat.add_sub_cancel_left, h]
  simp only
  rw [dictString_stable hwf m (m + 1) p (by omega) (by omega) (by omega)]

theorem dictString_ne_nil (a : Nat) (ins : List (Nat × Nat)) (f k : Nat) :
    dictString a ins f k ≠ [] := by
  cases f with
  | zero => simp [dictString]
  | succ f =>
    rw [dictString]
    split
    · simp
    · split <;> simp

/-- A code below the size is a seed or an inserted entry. -/
theorem code_cases {a k : Nat} {ins : List (Nat × Nat)} (h : k < a + ins.length) :
    k < a ∨ ∃ j p x, k = a + j ∧ ins[j]? = some (p, x) := by
  by_cases hs : k < a
  · exact .inl hs
  · have hlt : k - a < ins.length := by omega
    exact .inr ⟨k - a, ins[k - a].1, ins[k - a].2, by omega, List.getElem?_eq_getElem hlt⟩

/-- Entries inserted later do not change the strings of the older ones (R234). -/
theorem dstr_append {a : Nat} {ins ext : List (Nat × Nat)} (hwf : dictWf a (ins ++ ext)) (k : Nat)
    (hk : k < a + ins.length) : dstr a (ins ++ ext) k = dstr a ins k := by
  have hwf' : dictWf a ins := fun j p h => hwf j p <| by
    rw [List.getElem?_append_left (List.getElem?_eq_some_iff.1 h).1, h]
  induction k using Nat.strongRecOn with
  | ind k ih =>
    rcases code_cases hk with hs | ⟨j, p, x, rfl, h⟩
    · rw [dstr_seed _ hs, dstr_seed _ hs]
    · have h2 : (ins ++ ext)[j]? = some (p, x) := by
        rw [List.getElem?_append_left (List.getElem?_eq_some_iff.1 h).1, h]
      have hp : p < a + j := hwf' _ _ h
      rw [dstr_entry hwf h2, dstr_entry hwf' h, ih p hp (by omega)]

theorem dstr_entry_ne_seed {a j p x k : Nat} {ins : List (Nat × Nat)} (hwf : dictWf a ins)
    (h : ins[j]? = some (p, x)) (hk : k < a) : dstr a ins (a + j) ≠ dstr a ins k := by
  rw [dstr_entry hwf h, dstr_seed _ hk]
  intro he
  have hl := congrArg List.length he
  have : (dstr a ins p).length ≠ 0 := by
    rw [Ne, List.length_eq_zero_iff]
    exact dictString_ne_nil _ _ _ _
  simp only [List.length_append, List.length_cons, List.length_nil] at hl
  omega

/-- Two codes never have the same string where no entry stands twice (R235). -/
theorem dstr_injective {a : Nat} {ins : List (Nat × Nat)} (hwf : dictWf a ins) (hnd : ins.Nodup)
    (k k' : Nat) (hk : k < a + ins.length) (hk' : k' < a + ins.length)
    (h : dstr a ins k = dstr a ins k') : k = k' := by
  induction k using Nat.strongRecOn generalizing k' with
  | ind k ih =>
    rcases code_cases hk with hs | ⟨j, p, x, rfl, hj⟩
    · rcases code_cases hk' with hs' | ⟨j', p', x', rfl, hj'⟩
      · rw [dstr_seed _ hs, dstr_seed _ hs'] at h
        exact List.head_eq_of_cons_eq h
      · exact absurd h.symm (dstr_entry_ne_seed hwf hj' hs)
    · rcases code_cases hk' with hs' | ⟨j', p', x', rfl, hj'⟩
      · exact absurd h (dstr_entry_ne_seed hwf hj hs')
      · rw [dstr_entry hwf hj, dstr_entry hwf hj'] at h
        have hx := List.append_inj' h rfl
        have hp : p < a + j := hwf _ _ hj
        have hp' : p' < a + j' := hwf _ _ hj'
        obtain rfl : p = p' := ih p hp p' (by omega) (by omega) hx.1
        obtain rfl : x = x' := List.head_eq_of_cons_eq hx.2
        have h1 := List.getElem?_eq_some_iff.1 hj
        have h2 := List.getElem?_eq_some_iff.1 hj'
        have := (List.Nodup.getElem_inj_iff hnd (hi := h1.1) (hj := h2.1)).1 (h1.2.trans h2.2.symm)
        omega

/-! ## The scan -/

theorem dictFind_some {a w x j : Nat} {ins : List (Nat × Nat)} (h : dictFind a ins w x = some j) :
    ∃ i, j = a + i ∧ ins[i]? = some (w, x) := by
  obtain ⟨i, hi, rfl⟩ := Option.map_eq_some_iff.1 h
  obtain ⟨hlt, hp, -⟩ := List.findIdx?_eq_some_iff_getElem.1 hi
  exact ⟨i, rfl, List.getElem?_eq_some_iff.2 ⟨hlt, by simpa using hp⟩⟩

theorem dictFind_none {a w x : Nat} {ins : List (Nat × Nat)} (h : dictFind a ins w x = none) :
    (w, x) ∉ ins := by
  rw [dictFind, Option.map_eq_none_iff, List.findIdx?_eq_none_iff] at h
  intro hm
  simpa using h _ hm

theorem headD_append {α : Type} {xs : List α} (h : xs ≠ []) (ys : List α) (d : α) :
    (xs ++ ys).headD d = xs.headD d := by
  cases xs with
  | nil => exact absurd rfl h
  | cons x xs => rfl

theorem dictWf_snoc {a w x : Nat} {ins : List (Nat × Nat)} (hwf : dictWf a ins)
    (hw : w < a + ins.length) : dictWf a (ins ++ [(w, x)]) := by
  intro j p h
  by_cases hj : j < ins.length
  · rw [List.getElem?_append_left hj] at h
    exact hwf j p h
  · have hl : j < (ins ++ [(w, x)]).length := (List.getElem?_eq_some_iff.1 h).1
    have he : j = ins.length := by simp at hl; omega
    subst he
    obtain rfl : (w, x) = p := by simpa using h
    exact hw

/-- What the scan of R233 emits and inserts when it ends well: the codes' strings are the candidate's
string and the rest of the grid; every code is known when it is emitted; the entry inserted at a
code is that code with the first symbol of the next code's string; no entry stands twice. -/
theorem lzwScan_ok {a cap k w : Nat} {ins ins' : List (Nat × Nat)} {xs codes : List Nat}
    (hw : w < a + ins.length) (hwf : dictWf a ins) (hnd : ins.Nodup) (hxs : ∀ x ∈ xs, x < a)
    (h : lzwScan a cap k w ins xs = .ok (codes, ins')) :
    ∃ ext c cs, ins' = ins ++ ext ∧ codes = c :: cs ∧ cs.length = ext.length ∧
      ext.length ≤ xs.length ∧ dictWf a ins' ∧ ins'.Nodup ∧
      (a + ins.length ≤ cap → a + ins'.length ≤ cap) ∧
      codes.flatMap (dstr a ins') = dstr a ins' w ++ xs ∧
      (∀ i c, codes[i]? = some c → c < a + ins.length + i) ∧
      (∀ i c c', codes[i]? = some c → codes[i + 1]? = some c' →
        ext[i]? = some (c, (dstr a ins' c').headD 0)) ∧
      (∀ p ∈ ext, p.2 < a) ∧ (dstr a ins' c).headD 0 = (dstr a ins' w).headD 0 := by
  induction xs generalizing k w ins codes with
  | nil =>
    cases h
    refine ⟨[], w, [], by simp, rfl, rfl, Nat.le_refl _, hwf, hnd, id, by simp, ?_, ?_, by simp,
      rfl⟩
    · intro i c hc
      cases i with
      | zero =>
        obtain rfl : w = c := by simpa using hc
        exact hw
      | succ i => simp at hc
    · intro i c c' _ hc
      simp at hc
  | cons x xs ih =>
    have hx : x < a := hxs x List.mem_cons_self
    have hxs' : ∀ y ∈ xs, y < a := fun y hy => hxs y (List.mem_cons_of_mem _ hy)
    simp only [lzwScan] at h
    split at h
    · rename_i j hj
      obtain ⟨i, rfl, hi⟩ := dictFind_some hj
      have hil : i < ins.length := (List.getElem?_eq_some_iff.1 hi).1
      obtain ⟨ext, c, cs, rfl, h2, h3, h3', h4, h5, h6, h7, h8, h9, h10, h11⟩ :=
        ih (by omega) hwf hnd hxs' h
      have hs : dstr a (ins ++ ext) (a + i) = dstr a (ins ++ ext) w ++ [x] :=
        dstr_entry h4 (by rw [List.getElem?_append_left hil]; exact hi)
      refine ⟨ext, c, cs, rfl, h2, h3, by simp; omega, h4, h5, h6, ?_, h8, h9, h10, ?_⟩
      · rw [h7, hs]
        simp
      · rw [h11, hs, headD_append (dictString_ne_nil _ _ _ _)]
    · rename_i hj
      split at h
      · cases h
      · obtain ⟨⟨codes2, ins2⟩, hr, he⟩ := map_eq_ok h
        cases he
        have hnd' : (ins ++ [(w, x)]).Nodup := by
          rw [List.nodup_append]
          refine ⟨hnd, by simp, ?_⟩
          intro p hp q hq
          obtain rfl : q = (w, x) := by simpa using hq
          rintro rfl
          exact dictFind_none hj hp
        obtain ⟨ext, c, cs, rfl, rfl, h3, h3', h4, h5, h6, h7, h8, h9, h10, h11⟩ :=
          ih (by omega) (dictWf_snoc hwf hw) hnd' hxs' hr
        rw [List.append_assoc] at h4 h5 h6 h7 h9 h11 ⊢
        rw [dstr_seed _ hx] at h7 h11
        refine ⟨(w, x) :: ext, w, c :: cs, rfl, rfl, by simp [h3], by simp; omega, h4, h5, ?_, ?_,
          ?_, ?_, ?_, rfl⟩
        · intro hle
          exact h6 (by simp; omega)
        · rw [List.flatMap_cons]
          exact congrArg (dstr a (ins ++ ([(w, x)] ++ ext)) w ++ ·) h7
        · intro i d hd
          cases i with
          | zero =>
            obtain rfl : w = d := by simpa using hd
            exact hw
          | succ i =>
            have := h8 i d (by simpa using hd)
            simp only [List.length_append, List.length_cons, List.length_nil] at this
            omega
        · intro i d d' hd hd'
          cases i with
          | zero =>
            obtain rfl : w = d := by simpa using hd
            obtain rfl : c = d' := by simpa using hd'
            simp only [List.getElem?_cons_zero]
            have : (dstr a (ins ++ ([(w, x)] ++ ext)) c).headD 0 = x := h11
            rw [this]
          | succ i => exact h9 i d d' (by simpa using hd) (by simpa using hd')
        · intro p hp
          rcases List.mem_cons.1 hp with rfl | hp
          · exact hx
          · exact h10 p hp

/-- A dictionary with room for one entry per sample never fills up (R233). -/
theorem lzwScan_complete {a cap k w : Nat} {ins : List (Nat × Nat)} {xs : List Nat}
    (h : a + ins.length + xs.length ≤ cap) : ∃ r, lzwScan a cap k w ins xs = .ok r := by
  induction xs generalizing k w ins with
  | nil => exact ⟨_, rfl⟩
  | cons x xs ih =>
    rw [List.length_cons] at h
    simp only [lzwScan]
    split
    · exact ih (by omega)
    · rw [if_neg (by omega)]
      obtain ⟨r, hr⟩ := ih (k := k + 1) (w := x) (ins := ins ++ [(w, x)]) (by simp; omega)
      exact ⟨(w :: r.1, r.2), by rw [hr]; rfl⟩

/-! ## Codes that spell -/

/-- The entries a list of codes inserts: each code with the first symbol of the next string. -/
def insOf : List Nat → List (List Nat) → List (Nat × Nat)
  | c :: cs, _ :: e :: es => (c, e.headD 0) :: insOf cs (e :: es)
  | _, _ => []

theorem getElem?_insOf (codes : List Nat) (es : List (List Nat)) (j : Nat) (c : Nat) (y : List Nat)
    (hc : codes[j]? = some c) (hy : es[j + 1]? = some y) :
    (insOf codes es)[j]? = some (c, y.headD 0) := by
  induction codes generalizing es j with
  | nil => simp at hc
  | cons d codes ih =>
    match es with
    | [] => simp at hy
    | [e] => simp at hy
    | e :: e' :: es =>
      cases j with
      | zero =>
        obtain rfl : d = c := by simpa using hc
        obtain rfl : e' = y := by simpa using hy
        rfl
      | succ j => exact ih (e' :: es) j (by simpa using hc) (by simpa using hy)

theorem length_insOf (codes : List Nat) (es : List (List Nat)) (h : es.length = codes.length) :
    (insOf codes es).length = codes.length - 1 := by
  induction codes generalizing es with
  | nil =>
    obtain rfl := List.length_eq_zero_iff.1 h
    rfl
  | cons d codes ih =>
    match es, h with
    | [e], h =>
      obtain rfl : codes = [] := List.length_eq_zero_iff.1 (by simpa using h.symm)
      rfl
    | e :: e' :: es, h =>
      have hl : (e' :: es).length = codes.length := by simpa using h
      have := ih (e' :: es) hl
      rw [List.length_cons] at hl
      rw [insOf, List.length_cons, List.length_cons, this]
      omega

theorem insOf_snoc (codes : List Nat) (es : List (List Nat)) (h : es.length = codes.length + 1)
    (prevc c : Nat) (e : List Nat) :
    insOf (codes ++ [prevc] ++ [c]) (es ++ [e]) =
      insOf (codes ++ [prevc]) es ++ [(prevc, e.headD 0)] := by
  induction codes generalizing es with
  | nil =>
    match es, h with
    | [d], _ => rfl
  | cons d codes ih =>
    match es, h with
    | d' :: e' :: es, h =>
      have := ih (e' :: es) (by simpa using h)
      simp only [List.cons_append] at this ⊢
      rw [insOf, this]
      rfl

theorem spellsCodes_take {a : Nat} {codes : List Nat} {es : List (List Nat)} (m : Nat)
    (h : spellsCodes a codes es) : spellsCodes a (codes.take m) (es.take m) := by
  refine ⟨by simp [h.1], ?_⟩
  intro i c hc
  rw [List.getElem?_take] at hc
  split at hc
  · rename_i hi
    obtain ⟨h1, h2⟩ := h.2 i c hc
    refine ⟨fun hlt => ?_, fun hle => ?_⟩
    · rw [List.getElem?_take, if_pos hi]
      exact h1 hlt
    · obtain ⟨j, x, y, hj, he, hx, hy, hs⟩ := h2 hle
      refine ⟨j, x, y, hj, he, ?_, ?_, ?_⟩
      · rw [List.getElem?_take, if_pos (by omega)]
        exact hx
      · rw [List.getElem?_take, if_pos (by omega)]
        exact hy
      · rw [List.getElem?_take, if_pos hi]
        exact hs
  · cases hc

/-- The strings of spelled codes are not empty. -/
theorem spellsCodes_ne_nil {a : Nat} {codes : List Nat} {es : List (List Nat)}
    (h : spellsCodes a codes es) (i : Nat) (e : List Nat) (he : es[i]? = some e) : e ≠ [] := by
  have hi : i < codes.length := by rw [← h.1]; exact (List.getElem?_eq_some_iff.1 he).1
  obtain ⟨h1, h2⟩ := h.2 i codes[i] (List.getElem?_eq_getElem hi)
  by_cases hlt : codes[i] < a
  · rw [h1 hlt] at he
    cases he
    simp
  · obtain ⟨j, x, y, -, -, -, -, hs⟩ := h2 (by omega)
    rw [hs] at he
    cases he
    simp

theorem dictWf_insOf {a : Nat} {codes : List Nat} {es : List (List Nat)}
    (h : spellsCodes a codes es) : dictWf a (insOf codes es) := by
  intro j p hp
  have hj : j < (insOf codes es).length := (List.getElem?_eq_some_iff.1 hp).1
  rw [length_insOf _ _ h.1] at hj
  have hc : codes[j]? = some codes[j] := List.getElem?_eq_getElem (by omega)
  have hy : es[j + 1]? = some (es[j + 1]'(by rw [h.1]; omega)) :=
    List.getElem?_eq_getElem (by rw [h.1]; omega)
  rw [getElem?_insOf codes es j _ _ hc hy] at hp
  cases hp
  obtain ⟨-, h2⟩ := h.2 j _ hc
  by_cases hlt : codes[j] < a
  · simp only; omega
  · obtain ⟨j', -, -, hj', he, -⟩ := h2 (by omega)
    simp only
    omega

/-- The string of each spelled code, in the dictionary the codes build. -/
theorem dstr_insOf {a : Nat} {codes : List Nat} {es : List (List Nat)}
    (h : spellsCodes a codes es) (j : Nat) (c : Nat) (e : List Nat) (hc : codes[j]? = some c)
    (he : es[j]? = some e) : dstr a (insOf codes es) c = e := by
  induction j using Nat.strongRecOn generalizing c e with
  | ind j ih =>
    obtain ⟨h1, h2⟩ := h.2 j c hc
    by_cases hlt : c < a
    · rw [dstr_seed _ hlt]
      have := h1 hlt
      rw [he] at this
      exact (Option.some.inj this).symm
    · obtain ⟨i, x, y, hi, rfl, hx, hy, hs⟩ := h2 (by omega)
      have hil : i < codes.length := by
        have := (List.getElem?_eq_some_iff.1 hc).1
        omega
      have hci : codes[i]? = some codes[i] := List.getElem?_eq_getElem hil
      rw [dstr_entry (dictWf_insOf h) (getElem?_insOf codes es i _ _ hci hy),
        ih i hi _ _ hci hx]
      rw [hs] at he
      exact Option.some.inj he

/-- The replay finds the string of the next spelled code, the KwKwK case among them (R240). -/
theorem lzwEntry_spelled {a : Nat} {codes : List Nat} {es : List (List Nat)} {prev e : List Nat}
    {c : Nat} (h : spellsCodes a (codes ++ [c]) (es ++ [e])) (hprev : es.getLast? = some prev) :
    lzwEntry a (insOf codes es) prev c = some e := by
  have hlen : es.length = codes.length := by simpa using h.1
  have hpre : spellsCodes a codes es := by
    have := spellsCodes_take codes.length h
    rw [List.take_left'] at this
    · rwa [← hlen, List.take_left'] at this
      rfl
    · rfl
  have hpos : 1 ≤ codes.length := by
    rw [← hlen]
    cases es with
    | nil => simp at hprev
    | cons x xs => simp
  have hli := length_insOf codes es hlen
  have hc : (codes ++ [c])[codes.length]? = some c := by simp
  have he : (es ++ [e])[codes.length]? = some e := by rw [← hlen]; simp
  obtain ⟨h1, h2⟩ := h.2 codes.length c hc
  unfold lzwEntry
  by_cases hlt : c < a
  · have := h1 hlt
    rw [he] at this
    rw [if_pos (by omega)]
    rw [show dictString a (insOf codes es) (insOf codes es).length c = _ from dstr_seed _ hlt]
    exact this.symm
  · obtain ⟨j, x, y, hj, rfl, hx, hy, hs⟩ := h2 (by omega)
    rw [List.getElem?_append_left (by omega)] at hx
    rw [he] at hs
    by_cases hk : j + 1 < codes.length
    · rw [List.getElem?_append_left (by omega)] at hy
      have hcj : codes[j]? = some codes[j] := List.getElem?_eq_getElem (by omega)
      have hsize : a + j < a + (insOf codes es).length := by omega
      rw [if_pos hsize]
      have := dstr_entry (dictWf_insOf hpre) (getElem?_insOf codes es j _ _ hcj hy)
      rw [dstr_insOf hpre j _ _ hcj hx] at this
      rw [show dictString a (insOf codes es) (insOf codes es).length (a + j) = _ from this]
      exact hs.symm
    · have hj' : j + 1 = codes.length := by omega
      rw [hj', he] at hy
      have hye : e = y := Option.some.inj hy
      subst hye
      have hxp : x = prev := by
        rw [List.getLast?_eq_getElem?] at hprev
        rw [show es.length - 1 = j by omega, hx] at hprev
        exact Option.some.inj hprev
      subst hxp
      have hn : ¬ a + j < a + (insOf codes es).length := by omega
      have hk' : a + j = a + (insOf codes es).length := by omega
      rw [if_neg hn, if_pos hk']
      have hne := spellsCodes_ne_nil hpre j x hx
      have hse : e = x ++ [e.headD 0] := Option.some.inj hs
      have hhd : e.headD 0 = x.headD 0 := by
        rw [hse, headD_append hne]
      rw [hhd] at hse
      cases x with
      | nil => exact absurd rfl hne
      | cons x0 xs => rw [hse]; rfl

/-- The replay over codes that spell, followed by any others (R240). -/
theorem lzwReplay_spelled {a cap n : Nat} (cs2 rest : List Nat) {codes : List Nat} {prevc : Nat}
    {es es2 : List (List Nat)} {prev : List Nat}
    (h : spellsCodes a (codes ++ [prevc] ++ cs2) (es ++ [prev] ++ es2))
    (hlen : es.length = codes.length)
    (hn : (es ++ [prev] ++ es2).flatten.length ≤ n)
    (hcap : a + codes.length + cs2.length ≤ cap) :
    lzwReplay a cap n (codes.length + 1) (es ++ [prev]).flatten.length prev prevc
        (insOf (codes ++ [prevc]) (es ++ [prev])) (cs2 ++ rest) =
      (lzwReplay a cap n (codes.length + 1 + cs2.length) (es ++ [prev] ++ es2).flatten.length
        ((es ++ [prev] ++ es2).getLast?.getD []) ((codes ++ [prevc] ++ cs2).getLast?.getD 0)
        (insOf (codes ++ [prevc] ++ cs2) (es ++ [prev] ++ es2)) rest).map
          fun r => (es2.flatten ++ r.1, r.2) := by
  induction cs2 generalizing codes prevc es prev es2 with
  | nil =>
    obtain rfl : es2 = [] := List.length_eq_zero_iff.1 (by have := h.1; simp at this; omega)
    simp only [List.nil_append, List.append_nil, List.length_nil, Nat.add_zero,
      List.getLast?_append, List.getLast?_singleton, Option.some_or, Option.getD_some,
      List.flatten_nil]
    cases lzwReplay a cap n (codes.length + 1) (es ++ [prev]).flatten.length prev prevc
      (insOf (codes ++ [prevc]) (es ++ [prev])) rest <;> rfl
  | cons c cs2 ih =>
    match es2, h, hn with
    | [], h, _ => have := h.1; simp at this; omega
    | e :: es2, h, hn =>
      have hsplit : spellsCodes a (codes ++ [prevc] ++ [c]) (es ++ [prev] ++ [e]) := by
        have := spellsCodes_take (codes.length + 2) h
        rw [show codes ++ [prevc] ++ c :: cs2 = (codes ++ [prevc] ++ [c]) ++ cs2 by simp,
          show es ++ [prev] ++ e :: es2 = (es ++ [prev] ++ [e]) ++ es2 by simp,
          List.take_left' (by simp), List.take_left' (by simp [hlen])] at this
        exact this
      have hins : (insOf (codes ++ [prevc]) (es ++ [prev])).length = codes.length := by
        rw [length_insOf _ _ (by simp [hlen])]
        simp
      have hfl : (es ++ [prev]).flatten.length + e.length ≤ n := by
        simp only [List.flatten_append, List.flatten_cons, List.length_append] at hn ⊢
        omega
      rw [List.length_cons] at hcap
      rw [List.cons_append, lzwReplay, lzwEntry_spelled hsplit (by simp)]
      simp only
      rw [if_neg (by omega), if_neg (by rw [hins]; omega)]
      have hk : (es ++ [prev]).flatten.length + e.length = (es ++ [prev] ++ [e]).flatten.length := by
        simp only [List.flatten_append, List.flatten_cons, List.length_append, List.flatten_nil,
          List.append_nil]
      have := ih (codes := codes ++ [prevc]) (prevc := c) (es := es ++ [prev]) (prev := e)
        (es2 := es2) (by simpa using h) (by simp [hlen]) (by simpa using hn) (by simp; omega)
      rw [List.length_append, List.length_singleton] at this
      rw [hk, ← insOf_snoc codes (es ++ [prev]) (by simp [hlen]), this]
      rw [show codes ++ [prevc] ++ [c] ++ cs2 = codes ++ [prevc] ++ c :: cs2 by simp,
        show es ++ [prev] ++ [e] ++ es2 = es ++ [prev] ++ e :: es2 by simp,
        show codes.length + 1 + 1 + cs2.length = codes.length + 1 + (c :: cs2).length by
          simp; omega]
      cases lzwReplay a cap n (codes.length + 1 + (c :: cs2).length)
        (es ++ [prev] ++ e :: es2).flatten.length ((es ++ [prev] ++ e :: es2).getLast?.getD [])
        ((codes ++ [prevc] ++ c :: cs2).getLast?.getD 0)
        (insOf (codes ++ [prevc] ++ c :: cs2) (es ++ [prev] ++ e :: es2)) rest with
      | error r => rfl
      | ok r => simp [Except.map]

/-- The replay of codes that spell, from the first code on, followed by any others (R240). -/
theorem lzwDecode_spelled {a cap n : Nat} {codes rest : List Nat} {es : List (List Nat)}
    (h : spellsCodes a codes es) (hne : codes ≠ []) (hn : es.flatten.length ≤ n)
    (hcap : a + codes.length ≤ cap + 1) :
    lzwDecode a cap n (codes ++ rest) =
      (lzwReplay a cap n codes.length es.flatten.length (es.getLast?.getD [])
        (codes.getLast?.getD 0) (insOf codes es) rest).map fun r => (es.flatten ++ r.1, r.2) := by
  match codes, es, h with
  | c :: cs, [], h => have := h.1; simp at this
  | c :: cs, e :: es, h =>
    have h0 := h.2 0 c rfl
    have hlt : c < a := by
      by_contra hge
      obtain ⟨j, -, -, hj, -⟩ := h0.2 (by omega)
      omega
    obtain rfl : e = [c] := by simpa using h0.1 hlt
    have := lzwReplay_spelled (cap := cap) (n := n) cs rest (codes := []) (prevc := c) (es := [])
      (prev := [c]) (es2 := es) (by simpa using h) rfl (by simpa using hn)
      (by simp at hcap ⊢; omega)
    simp only [List.length_nil, Nat.zero_add, List.nil_append, List.flatten_cons,
      List.flatten_nil, List.append_nil, List.length_singleton, List.singleton_append] at this
    rw [List.cons_append, lzwDecode, if_neg (by omega),
      show ([] : List (Nat × Nat)) = insOf [c] [[c]] from rfl, this]
    simp only [List.flatten_cons, List.singleton_append, List.length_cons,
      Nat.add_comm cs.length 1, List.length_flatten]
    cases lzwReplay a cap n (1 + cs.length) ((List.map List.length es).sum + 1)
      (([c] :: es).getLast?.getD []) ((c :: cs).getLast?.getD 0) (insOf (c :: cs) ([c] :: es))
      rest <;> simp [Except.map]

/-- The symbols of spelled strings are seeds. -/
theorem spellsCodes_symbols {a : Nat} {codes : List Nat} {es : List (List Nat)}
    (h : spellsCodes a codes es) (i : Nat) (e : List Nat) (he : es[i]? = some e) :
    ∀ x ∈ e, x < a := by
  induction i using Nat.strongRecOn generalizing e with
  | ind i ih =>
    have hi : i < codes.length := by rw [← h.1]; exact (List.getElem?_eq_some_iff.1 he).1
    obtain ⟨h1, h2⟩ := h.2 i codes[i] (List.getElem?_eq_getElem hi)
    by_cases hlt : codes[i] < a
    · rw [h1 hlt] at he
      cases he
      intro x hx
      obtain rfl : x = codes[i] := by simpa using hx
      exact hlt
    · obtain ⟨j, x, y, hj, -, hx, hy, hs⟩ := h2 (by omega)
      rw [hs] at he
      cases he
      intro z hz
      rcases List.mem_append.1 hz with hz | hz
      · exact ih j hj x hx z hz
      · obtain rfl : z = y.headD 0 := by simpa using hz
        by_cases hk : j + 1 = i
        · subst hk
          rw [hs] at hy
          have hy' := Option.some.inj hy
          have hxne := spellsCodes_ne_nil h j x hx
          rw [← hy', headD_append hxne]
          cases x with
          | nil => exact absurd rfl hxne
          | cons x0 xs => exact ih j hj _ hx _ List.mem_cons_self
        · have hyne := spellsCodes_ne_nil h _ y hy
          cases y with
          | nil => exact absurd rfl hyne
          | cons y0 ys => exact ih (j + 1) (by omega) _ hy _ List.mem_cons_self

/-- Spelled codes stand for one sample or more each. -/
theorem spellsCodes_length_le {a : Nat} {codes : List Nat} {es : List (List Nat)}
    (h : spellsCodes a codes es) : codes.length ≤ es.flatten.length := by
  rw [← h.1]
  have h1 : ∀ e ∈ es, 1 ≤ e.length := by
    intro e he
    obtain ⟨j, hj⟩ := List.getElem?_of_mem he
    exact List.length_pos_iff.2 (spellsCodes_ne_nil h j e hj)
  clear h
  induction es with
  | nil => simp
  | cons e es ih =>
    have h2 := h1 e List.mem_cons_self
    have h3 := ih fun x hx => h1 x (List.mem_cons_of_mem _ hx)
    simp only [List.flatten_cons, List.length_append, List.length_cons]
    omega

/-! ## The scan over phrases -/

/-- The scan hits as long as the candidate's string grows towards the string of a known code
(R233). -/
theorem lzwScan_within {a cap w : Nat} {ins : List (Nat × Nat)} (hwf : dictWf a ins)
    (hnd : ins.Nodup) (hw : w < a + ins.length) (c k : Nat) (hc : c < a + ins.length)
    (ys rest : List Nat) (h : dstr a ins c = dstr a ins w ++ ys) :
    lzwScan a cap k w ins (ys ++ rest) = lzwScan a cap (k + ys.length) c ins rest := by
  induction c using Nat.strongRecOn generalizing ys rest with
  | ind c ih =>
    rcases List.eq_nil_or_concat ys with rfl | ⟨zs, x, hys⟩
    · rw [List.append_nil] at h
      rw [dstr_injective hwf hnd c w hc hw h]
      rfl
    · rw [List.concat_eq_append] at hys
      subst hys
      have hwne : dstr a ins w ≠ [] := dictString_ne_nil a ins ins.length w
      rcases code_cases hc with hs | ⟨j, p, x', rfl, hj⟩
      · rw [dstr_seed _ hs] at h
        have hl := congrArg List.length h
        have := List.length_pos_iff.2 hwne
        simp only [List.length_append, List.length_cons, List.length_nil] at hl
        omega
      · have hp : p < a + j := hwf _ _ hj
        rw [dstr_entry hwf hj, ← List.append_assoc] at h
        obtain ⟨h1, h2⟩ := List.append_inj' h rfl
        obtain rfl : x' = x := List.head_eq_of_cons_eq h2
        have hfind : dictFind a ins p x' = some (a + j) := by
          obtain ⟨hlt, he⟩ := List.getElem?_eq_some_iff.1 hj
          rw [dictFind, Option.map_eq_some_iff]
          refine ⟨j, List.findIdx?_eq_some_iff_getElem.2 ⟨hlt, by simp [he], ?_⟩, rfl⟩
          intro i hi
          have hne : ins[i] ≠ ins[j] := fun hij => by
            have := (List.Nodup.getElem_inj_iff hnd).1 hij
            omega
          rw [he] at hne
          simpa using hne
        rw [List.append_assoc, ih p hp (by omega) zs ([x'] ++ rest) h1, List.singleton_append,
          lzwScan, hfind, List.length_append, List.length_singleton, Nat.add_assoc]

theorem phraseEntries_cons (x y : List Nat) (es : List (List Nat)) :
    phraseEntries (x :: y :: es) = (x ++ [y.headD 0]) :: phraseEntries (y :: es) := rfl

theorem phraseEntries_append (es : List (List Nat)) (x : List Nat) (es2 : List (List Nat)) :
    phraseEntries (es ++ x :: es2) = phraseEntries (es ++ [x]) ++ phraseEntries (x :: es2) := by
  induction es with
  | nil => rfl
  | cons e es ih =>
    cases es with
    | nil => rfl
    | cons d es =>
      simp only [List.cons_append] at ih ⊢
      rw [phraseEntries_cons, ih, phraseEntries_cons]
      rfl

/-- The strings of the entries that spelled codes insert (R233). -/
theorem phraseEntries_eq {a : Nat} {codes : List Nat} {es : List (List Nat)}
    (h : spellsCodes a codes es) :
    phraseEntries es = (insOf codes es).map fun p => dstr a (insOf codes es) p.1 ++ [p.2] := by
  apply List.ext_getElem?
  intro j
  have hl := length_insOf codes es h.1
  by_cases hj : j + 1 < codes.length
  · have hc : codes[j]? = some codes[j] := List.getElem?_eq_getElem (by omega)
    have hx : es[j]? = some (es[j]'(by rw [h.1]; omega)) := List.getElem?_eq_getElem _
    have hy : es[j + 1]? = some (es[j + 1]'(by rw [h.1]; omega)) := List.getElem?_eq_getElem _
    rw [List.getElem?_map, getElem?_insOf codes es j _ _ hc hy, Option.map_some,
      dstr_insOf h j _ _ hc hx, phraseEntries, List.getElem?_map,
      (List.getElem?_zip_eq_some (z := (es[j]'(by rw [h.1]; omega),
        es[j + 1]'(by rw [h.1]; omega)))).2 ⟨hx, by rw [List.getElem?_tail, hy]⟩,
      Option.map_some]
  · rw [List.getElem?_eq_none (by simp [phraseEntries, h.1]; omega),
      List.getElem?_eq_none (by simp [hl]; omega)]

theorem nodup_insOf {a : Nat} {codes : List Nat} {es : List (List Nat)} (h : spellsCodes a codes es)
    (hnd : (phraseEntries es).Nodup) : (insOf codes es).Nodup := by
  rw [phraseEntries_eq h] at hnd
  exact List.Nodup.of_map _ hnd

/-- The miss after a phrase whose entry is new (R233). -/
theorem dictFind_spelled {a x : Nat} {codes : List Nat} {c : Nat} {es : List (List Nat)}
    {e : List Nat} (h : spellsCodes a (codes ++ [c]) (es ++ [e]))
    (hnd : (phraseEntries (es ++ [e] ++ [[x]])).Nodup) :
    dictFind a (insOf (codes ++ [c]) (es ++ [e])) c x = none := by
  have hlen : es.length = codes.length := by simpa using h.1
  have he : dstr a (insOf (codes ++ [c]) (es ++ [e])) c = e :=
    dstr_insOf h codes.length c e (by simp) (by simp [← hlen])
  rw [show es ++ [e] ++ [[x]] = es ++ e :: [[x]] by simp, phraseEntries_append,
    phraseEntries_eq h] at hnd
  cases hf : dictFind a (insOf (codes ++ [c]) (es ++ [e])) c x with
  | none => rfl
  | some j =>
    obtain ⟨i, -, hi⟩ := dictFind_some hf
    refine absurd ?_ ((List.nodup_append.1 hnd).2.2 (e ++ [x]) ?_ (e ++ [x]) ?_)
    · rfl
    · exact List.mem_map.2 ⟨(c, x), List.mem_of_getElem? hi, by simp only [he]⟩
    · simp [phraseEntries]

/-- The scan over one phrase: it reaches the phrase's code (R233). -/
theorem lzwScan_phrase {a cap k c : Nat} {codes : List Nat} {es : List (List Nat)} {e : List Nat}
    (h : spellsCodes a (codes ++ [c]) (es ++ [e])) (hnd : (phraseEntries (es ++ [e])).Nodup)
    (rest : List Nat) :
    lzwScan a cap k (e.headD 0) (insOf (codes ++ [c]) (es ++ [e])) (e.tail ++ rest) =
      lzwScan a cap (k + e.tail.length) c (insOf (codes ++ [c]) (es ++ [e])) rest := by
  have hlen : es.length = codes.length := by simpa using h.1
  have he : (es ++ [e])[codes.length]? = some e := by simp [← hlen]
  have hc : (codes ++ [c])[codes.length]? = some c := by simp
  have hne := spellsCodes_ne_nil h _ _ he
  have hsym := spellsCodes_symbols h _ _ he
  have hil := length_insOf _ _ h.1
  have hw : e.headD 0 < a := by
    cases e with
    | nil => exact absurd rfl hne
    | cons x xs => exact hsym x List.mem_cons_self
  have hcb : c < a + (insOf (codes ++ [c]) (es ++ [e])).length := by
    by_cases hlt : c < a
    · omega
    · obtain ⟨j, -, -, hj, rfl, -⟩ := (h.2 _ _ hc).2 (by omega)
      simp at hil
      omega
  refine lzwScan_within (dictWf_insOf h) (nodup_insOf h hnd) (by omega) c k hcb _ _ ?_
  rw [dstr_insOf h _ _ _ hc he, dstr_seed _ hw]
  cases e with
  | nil => exact absurd rfl hne
  | cons x xs => rfl

/-- The scan over phrases that spelled codes stand for, each inserting a new entry, followed by any
other samples (R233). -/
theorem lzwScan_spelled {a cap : Nat} (cs2 rest : List Nat) {codes : List Nat} {c k : Nat}
    {es es2 : List (List Nat)} {e : List Nat}
    (h : spellsCodes a (codes ++ [c] ++ cs2) (es ++ [e] ++ es2))
    (hlen : es.length = codes.length) (hnd : (phraseEntries (es ++ [e] ++ es2)).Nodup)
    (hcap : a + codes.length + cs2.length ≤ cap) :
    lzwScan a cap k (e.headD 0) (insOf (codes ++ [c]) (es ++ [e])) (e.tail ++ es2.flatten ++ rest) =
      (lzwScan a cap (k + (e.tail ++ es2.flatten).length) (cs2.getLastD c)
        (insOf (codes ++ [c] ++ cs2) (es ++ [e] ++ es2)) rest).map
          fun r => ((c :: cs2).dropLast ++ r.1, r.2) := by
  induction cs2 generalizing codes c es e es2 k with
  | nil =>
    obtain rfl : es2 = [] := List.length_eq_zero_iff.1 (by have := h.1; simp at this; omega)
    simp only [List.append_nil, List.flatten_nil] at h hnd ⊢
    rw [lzwScan_phrase h hnd]
    simp only [List.getLastD_nil, List.dropLast_singleton, List.nil_append]
    cases lzwScan a cap (k + e.tail.length) c (insOf (codes ++ [c]) (es ++ [e])) rest <;> rfl
  | cons c' cs2 ih =>
    match es2, h, hnd with
    | [], h, _ => have := h.1; simp at this; omega
    | e' :: es2, h, hnd =>
      have hpre : spellsCodes a (codes ++ [c]) (es ++ [e]) := by
        have := spellsCodes_take (codes.length + 1) h
        rwa [List.take_left' (by simp), List.take_left' (by simp [hlen])] at this
      have he' : (es ++ [e] ++ e' :: es2)[codes.length + 1]? = some e' := by simp [← hlen]
      have hne := spellsCodes_ne_nil h _ _ he'
      obtain ⟨y, ys, rfl⟩ : ∃ y ys, e' = y :: ys := by
        cases e' with
        | nil => exact absurd rfl hne
        | cons y ys => exact ⟨y, ys, rfl⟩
      have hnd1 : (phraseEntries (es ++ [e] ++ [[y]])).Nodup := by
        rw [phraseEntries_append, List.append_assoc, List.singleton_append,
          phraseEntries_append, phraseEntries_cons] at hnd
        rw [List.append_assoc, List.singleton_append, phraseEntries_append, phraseEntries_cons]
        refine hnd.sublist ?_
        rw [List.append_assoc]
        refine List.Sublist.append_left ?_ _
        simp [phraseEntries]
      have hnd0 : (phraseEntries (es ++ [e])).Nodup := by
        rw [List.append_assoc, List.singleton_append, phraseEntries_append] at hnd1
        exact (List.nodup_append.1 hnd1).1
      have hins : (insOf (codes ++ [c]) (es ++ [e])).length = codes.length := by
        rw [length_insOf _ _ hpre.1]
        simp
      rw [List.length_cons] at hcap
      have := ih (codes := codes ++ [c]) (c := c') (es := es ++ [e]) (e := y :: ys) (es2 := es2)
        (k := k + e.tail.length + 1) (by simpa using h) (by simp [hlen]) (by simpa using hnd)
        (by simp; omega)
      rw [List.append_assoc, lzwScan_phrase hpre hnd0, List.flatten_cons, List.cons_append,
        List.cons_append, lzwScan, dictFind_spelled hpre hnd1]
      simp only
      rw [if_neg (by omega), show (c, y) = (c, (y :: ys).headD 0) from rfl,
        ← insOf_snoc codes (es ++ [e]) (by simp [hlen]) c c']
      simp only [List.headD_cons, List.tail_cons] at this
      rw [this]
      have hk : k + e.tail.length + 1 + (ys ++ es2.flatten).length =
          k + (e.tail ++ y :: (ys ++ es2.flatten)).length := by simp; omega
      rw [hk, List.getLastD_cons, List.append_assoc (codes ++ [c]), List.singleton_append,
        List.append_assoc (es ++ [e]), List.singleton_append, List.dropLast_cons_cons]
      cases lzwScan a cap (k + (e.tail ++ y :: (ys ++ es2.flatten)).length) (cs2.getLastD c')
        (insOf (codes ++ [c] ++ c' :: cs2) (es ++ [e] ++ (y :: ys) :: es2)) rest <;> rfl

/-- The scan of a grid that begins with the phrases of spelled codes, each inserting a new entry
(R233). -/
theorem lzwEncode_spelled {a cap : Nat} {codes : List Nat} {es : List (List Nat)}
    (h : spellsCodes a codes es) (hne : codes ≠ []) (hnd : (phraseEntries es).Nodup)
    (hcap : a + codes.length ≤ cap + 1) (rest : List Nat) :
    lzwEncode a cap (es.flatten ++ rest) =
      (lzwScan a cap es.flatten.length (codes.getLastD 0) (insOf codes es) rest).map
        fun r => (codes.dropLast ++ r.1, r.2) := by
  match codes, es, h, hnd with
  | c :: cs, [], h, _ => have := h.1; simp at this
  | c :: cs, e :: es, h, hnd =>
    have h0 := h.2 0 c rfl
    have hlt : c < a := by
      by_contra hge
      obtain ⟨j, -, -, hj, -⟩ := h0.2 (by omega)
      omega
    obtain rfl : e = [c] := by simpa using h0.1 hlt
    have := lzwScan_spelled (cap := cap) cs rest (codes := []) (c := c) (k := 1) (es := [])
      (e := [c]) (es2 := es) (by simpa using h) rfl (by simpa using hnd)
      (by simp at hcap ⊢; omega)
    simp only [List.nil_append, List.headD_cons, List.tail_cons, List.singleton_append] at this
    rw [List.flatten_cons, List.singleton_append, List.cons_append, lzwEncode,
      show ([] : List (Nat × Nat)) = insOf [c] [[c]] from rfl, this, List.getLastD_cons,
      List.length_cons, Nat.add_comm 1]

/-- A grid of phrases for whose entries the dictionary has room codes to their codes (R233). -/
theorem lzwEncode_spelled_ok {a cap : Nat} {codes : List Nat} {es : List (List Nat)}
    (h : spellsCodes a codes es) (hne : codes ≠ []) (hnd : (phraseEntries es).Nodup)
    (hcap : a + codes.length ≤ cap + 1) :
    lzwEncode a cap es.flatten = .ok (codes, insOf codes es) := by
  have := lzwEncode_spelled h hne hnd hcap []
  rw [List.append_nil, lzwScan] at this
  rw [this]
  simp only [Except.map, Except.ok.injEq, Prod.mk.injEq, and_true]
  rw [List.getLastD_eq_getLast?, List.getLast?_eq_getLast_of_ne_nil hne, Option.getD_some]
  exact List.dropLast_append_getLast hne

/-- The miss that finds the dictionary full (R233). -/
theorem lzwEncode_spelled_full {a cap x : Nat} {codes : List Nat} {es : List (List Nat)}
    (h : spellsCodes a codes es) (hne : codes ≠ [])
    (hnd : (phraseEntries (es ++ [[x]])).Nodup) (hcap : a + codes.length = cap + 1)
    (rest : List Nat) :
    lzwEncode a cap (es.flatten ++ x :: rest) =
      .error { kind := .capacityExceeded, info := es.flatten.length } := by
  obtain ⟨cs, c, rfl⟩ : ∃ cs c, codes = cs ++ [c] :=
    ⟨codes.dropLast, codes.getLast hne, (List.dropLast_append_getLast hne).symm⟩
  have hes : es ≠ [] := by
    intro h0
    have := h.1
    simp [h0] at this
  obtain ⟨ds, e, rfl⟩ : ∃ ds e, es = ds ++ [e] :=
    ⟨es.dropLast, es.getLast hes, (List.dropLast_append_getLast hes).symm⟩
  have hnd0 : (phraseEntries (ds ++ [e])).Nodup := by
    rw [List.append_assoc, List.singleton_append, phraseEntries_append] at hnd
    exact (List.nodup_append.1 hnd).1
  have hil := length_insOf _ _ h.1
  simp only [List.length_append, List.length_singleton] at hil hcap
  rw [lzwEncode_spelled h hne hnd0 (by simp; omega), lzwScan]
  simp only [List.getLastD_eq_getLast?, List.getLast?_append, List.getLast?_singleton,
    Option.some_or, Option.getD_some]
  rw [dictFind_spelled h hnd]
  simp only
  rw [if_pos (by omega)]
  rfl

/-! ## The length of a replay -/

/-- A replay that ends well brings the output to `n` samples and the dictionary at most to its
capacity (R240). -/
theorem length_of_lzwReplay {a cap n : Nat} {cs : List Nat} {i k : Nat} {prev : List Nat}
    {prevc : Nat} {ins : List (Nat × Nat)} {r : List Nat × List (Nat × Nat)}
    (h : lzwReplay a cap n i k prev prevc ins cs = .ok r) :
    k + r.1.length = n ∧ (a + ins.length ≤ cap → a + r.2.length ≤ cap) := by
  induction cs generalizing i k prev prevc ins r with
  | nil =>
    simp only [lzwReplay] at h
    split at h
    · cases h; simp_all
    · cases h
  | cons c cs ih =>
    simp only [lzwReplay] at h
    split at h
    · cases h
    · split at h
      · cases h
      · split at h
        · cases h
        · obtain ⟨r', hr, rfl⟩ := map_eq_ok h
          obtain ⟨h1, h2⟩ := ih hr
          simp only [List.length_append, List.length_singleton] at h1 h2 ⊢
          exact ⟨by omega, fun hc => h2 (by omega)⟩

theorem length_of_lzwDecode {a cap n : Nat} {cs : List Nat} {r : List Nat × List (Nat × Nat)}
    (h : lzwDecode a cap n cs = .ok r) :
    r.1.length = n ∧ (a ≤ cap → a + r.2.length ≤ cap) := by
  cases cs with
  | nil => cases h
  | cons c cs =>
    simp only [lzwDecode] at h
    split at h
    · cases h
    · obtain ⟨r', hr, rfl⟩ := map_eq_ok h
      obtain ⟨h1, h2⟩ := length_of_lzwReplay hr
      simp only [List.length_cons] at *
      exact ⟨by omega, fun hc => h2 (by simpa using hc)⟩

/-! ## The dictionary in the state -/

theorem alphabet_bounds (s : State) : 2 ≤ s.alphabet ∧ s.alphabet ≤ 256 := by
  unfold State.alphabet
  split <;> omega

theorem amax_eq (s : State) : s.amax + 1 = s.alphabet := by
  have := alphabet_bounds s
  unfold State.amax
  omega

/-- The product of two 16-bit numbers leaves room for the seeds below 2^32. -/
theorem n_add_alphabet_lt (s : State) : s.n + 256 < 2 ^ 32 := by
  have h1 := s.height.isLt
  have h2 := s.width.isLt
  have : s.height.toNat * s.width.toNat ≤ (2 ^ 16 - 1) * (2 ^ 16 - 1) :=
    Nat.mul_le_mul (by omega) (by omega)
  unfold State.n
  omega

@[simp] theorem length_dictEntries (a : Nat) (ins : List (Nat × Nat)) :
    (dictEntries a ins).length = a + ins.length := by simp [dictEntries]

theorem getElem?_dictEntries_seed {a k : Nat} (ins : List (Nat × Nat)) (h : k < a) :
    (dictEntries a ins)[k]? = some (noNode, k) := by
  rw [dictEntries, List.getElem?_append_left (by simpa using h), List.getElem?_map,
    List.getElem?_range h]
  rfl

theorem getElem?_dictEntries_entry (a j : Nat) (ins : List (Nat × Nat)) :
    (dictEntries a ins)[a + j]? = ins[j]? := by
  rw [dictEntries, List.getElem?_append_right (by simp)]
  simp

/-- Entries whose codes and symbols fit 32 bits. -/
def dictFits (ins : List (Nat × Nat)) : Prop := ∀ p ∈ ins, p.1 < 2 ^ 32 ∧ p.2 < 2 ^ 32

/-- The seeds after a dictionary was stored (R231). -/
theorem dictAt_putDict_seed (s : State) (ins : List (Nat × Nat)) {k : Nat} (h : k < s.alphabet) :
    (s.putDict ins).dictAt k = (0xFFFFFFFF, k) := by
  have := alphabet_bounds s
  have hw := word_putPairs s .dt (dictEntries s.alphabet ins) k _
    (getElem?_dictEntries_seed ins h) (by simp [noNode]) (by simp only; omega)
  exact Prod.ext hw.1 hw.2

/-- The inserted entries after a dictionary was stored (R233, R240). -/
theorem dictAt_putDict_entry (s : State) {ins : List (Nat × Nat)} (hf : dictFits ins) {j : Nat}
    {p : Nat × Nat} (h : ins[j]? = some p) : (s.putDict ins).dictAt (s.alphabet + j) = p := by
  have hp := hf p (List.mem_of_getElem? h)
  have hw := word_putPairs s .dt (dictEntries s.alphabet ins) (s.alphabet + j) p
    (by rw [getElem?_dictEntries_entry]; exact h) hp.1 hp.2
  exact Prod.ext hw.1 hw.2

/-- The strings a state's dictionary spells are those of its inserted entries. -/
theorem stringOf_eq {t : State} {ins : List (Nat × Nat)} (hwf : dictWf t.alphabet ins)
    (hd : ∀ j p, ins[j]? = some p → t.dictAt (t.alphabet + j) = p) (f k : Nat)
    (hf : k < t.alphabet + f) (hk : k < t.alphabet + ins.length) :
    t.stringOf f k = dstr t.alphabet ins k := by
  induction f generalizing k with
  | zero => rw [dstr_seed _ (by omega)]; rfl
  | succ f ih =>
    rw [State.stringOf]
    rcases code_cases hk with hs | ⟨j, p, x, rfl, hj⟩
    · rw [if_pos hs, dstr_seed _ hs]
    · have hp : p < t.alphabet + j := hwf _ _ hj
      rw [if_neg (by omega), hd j _ hj, dstr_entry hwf hj, ih p (by omega) (by omega)]

/-- A dictionary written changes no byte outside its entries. -/
theorem byte_putDict_frame (s : State) (ins : List (Nat × Nat)) (b : Buf) (o : Nat)
    (h : b ≠ .dt ∨ 8 * (s.alphabet + ins.length) ≤ o) :
    (s.putDict ins).byte b o = s.byte b o := by
  have := byte_putPairs_frame s .dt (dictEntries s.alphabet ins) b o
    (h.imp_right fun h => by rw [length_dictEntries]; exact h)
  rw [← this]
  exact byte_congr (by simp) (by cases b <;> rfl) o

/-- What the scan of R233 makes of a grid that is not empty and lies in the alphabet. -/
theorem lzwEncode_ok {s : State} (h1 : 0 < s.n) (h2 : ∀ x ∈ s.samples, x ≤ s.amax)
    {codes : List Nat} {ins : List (Nat × Nat)}
    (h : lzwEncode s.alphabet s.params.dictCap s.samples = .ok (codes, ins)) :
    codes.length = ins.length + 1 ∧ ins.length + 1 ≤ s.n ∧ dictWf s.alphabet ins ∧ ins.Nodup ∧
      (s.alphabet ≤ s.params.dictCap → s.alphabet + ins.length ≤ s.params.dictCap) ∧
      codes.flatMap (dstr s.alphabet ins) = s.samples ∧
      (∀ i c, codes[i]? = some c → c < s.alphabet + i) ∧
      (∀ i c c', codes[i]? = some c → codes[i + 1]? = some c' →
        ins[i]? = some (c, (dstr s.alphabet ins c').headD 0)) ∧
      ∀ p ∈ ins, p.2 < s.alphabet := by
  have hl := length_samples s
  have ha := amax_eq s
  cases hs : s.samples with
  | nil => rw [hs] at hl; simp at hl; omega
  | cons x xs =>
    rw [hs] at h h2 hl
    have hx : x < s.alphabet := by have := h2 x List.mem_cons_self; omega
    obtain ⟨ext, c, cs, e, rfl, h3, h3', h4, h5, h6, h7, h8, h9, h10, -⟩ :=
      lzwScan_ok (ins := []) (w := x) (by simpa using hx) (fun j p h => by simp at h)
        List.nodup_nil
        (fun y hy => by have := h2 y (List.mem_cons_of_mem _ hy); omega) h
    rw [List.nil_append] at e
    subst e
    rw [List.length_cons] at hl
    refine ⟨by simp [h3], by omega, h4, h5, by simpa using h6, ?_, by simpa using h8, h9, h10⟩
    rw [h7, dstr_seed _ hx]
    rfl

/-- Entries built from a grid fit the fields of DT. -/
theorem dictFits_of_wf {s : State} {ins : List (Nat × Nat)} (hl : ins.length + 1 ≤ s.n)
    (hwf : dictWf s.alphabet ins) (h : ∀ p ∈ ins, p.2 < s.alphabet) : dictFits ins := by
  intro p hp
  have h1 := n_add_alphabet_lt s
  have h2 := alphabet_bounds s
  have h3 := h p hp
  obtain ⟨j, hj⟩ := List.getElem?_of_mem hp
  have h4 := hwf j p hj
  have h5 := (List.getElem?_eq_some_iff.1 hj).1
  omega

theorem lzwDecCheck_ok {s : State} (hd : s.dimCheck = none) (h0 : s.codeCount ≠ 0)
    (h1 : s.codeCount.toNat ≤ s.params.maxSamples) : s.lzwDecCheck = none := by
  have e : s.codeCount.toNat ≠ 0 := by have := toNat_pos_of_ne_zero h0; omega
  simp [State.lzwDecCheck, hd, raiseIf, e, h1]

/-- The codes after a write of words to CB. -/
theorem map_word_numBytes (s : State) (b : Buf) (xs : List Nat) (h : ∀ x ∈ xs, x < 2 ^ 32) :
    (List.range xs.length).map (fun i =>
      ((s.putBytes b 0 (numBytes xs)).word b (4 * i)).toNat) = xs := by
  apply map_range_eq
  intro i x hx
  have := word_putBytes_numBytes s b 0 xs i x hx
  rw [Nat.zero_add] at this
  rw [this, BitVec.toNat_ofNat, Nat.mod_eq_of_lt (h x (List.mem_of_getElem? hx))]

end Sys2Proof.Machine
end

