-- ==== Sys2Proof/Laws/Huffman.lean ====
section
/-! SUPPORT. The laws of the Huffman table commands: what HUF_FREQ tallies, and that the table, the
arena and the code entries are read back as they were stored. -/

namespace Sys2Proof.Machine

open Sys2Proof

/-! ## The frequency table -/

theorem mem_frequencies {a : Nat} {eosEn : Bool} {xs : List Nat} {v c : Nat} :
    (v, c) ∈ frequencies a eosEn xs ↔
      (v < a ∧ c = xs.count v ∧ 0 < c) ∨ (eosEn = true ∧ v = 256 ∧ c = 1) := by
  unfold frequencies
  rw [List.mem_append, List.mem_map]
  constructor
  · rintro (⟨w, hw, he⟩ | h)
    · cases he
      rw [List.mem_filter] at hw
      exact .inl ⟨by simpa using hw.1, rfl, by simpa using hw.2⟩
    · cases eosEn
      · simp at h
      · exact .inr ⟨rfl, by simpa using h⟩
  · rintro (⟨h1, rfl, h3⟩ | ⟨rfl, rfl, rfl⟩)
    · exact .inl ⟨v, by rw [List.mem_filter]; exact ⟨by simpa using h1, by simpa using h3⟩, rfl⟩
    · exact .inr (by simp)

/-- The symbols of the table rise (R273). -/
theorem frequencies_sorted {a : Nat} (eosEn : Bool) (xs : List Nat) (ha : a ≤ 256) :
    ((frequencies a eosEn xs).map (·.1)).Pairwise (· < ·) := by
  unfold frequencies
  rw [List.map_append, List.map_map, List.pairwise_append]
  have hid : (((fun x : Nat × Nat => x.1) ∘ fun v => (v, xs.count v)) : Nat → Nat) = id := rfl
  rw [hid, List.map_id]
  refine ⟨List.Pairwise.filter _ List.pairwise_lt_range, ?_, ?_⟩
  · cases eosEn <;> simp
  · intro x hx y hy
    rw [List.mem_filter] at hx
    have h1 : x < a := by simpa using hx.1
    cases eosEn
    · simp at hy
    · obtain rfl : y = 256 := by simpa using hy
      omega

theorem length_frequencies_le (a : Nat) (eosEn : Bool) (xs : List Nat) :
    (frequencies a eosEn xs).length ≤ a + eosEn.toNat := by
  unfold frequencies
  rw [List.length_append, List.length_map]
  have h1 : ((List.range a).filter fun v => decide (0 < xs.count v)).length ≤ a := by
    have := List.length_filter_le (fun v => decide (0 < xs.count v)) (List.range a)
    simpa using this
  cases eosEn
  · simpa using h1
  · simp only [if_true, List.length_singleton, Bool.toNat_true]
    omega

theorem sum_count_range (a : Nat) (xs : List Nat) (h : ∀ x ∈ xs, x < a) :
    ((List.range a).map fun v => xs.count v).sum = xs.length := by
  induction xs with
  | nil => simp
  | cons x xs ih =>
    have hx := h x List.mem_cons_self
    have hone : ∀ m, ((List.range m).map fun v => if x == v then 1 else 0).sum =
        if x < m then 1 else 0 := by
      intro m
      induction m with
      | zero => simp
      | succ m ihm =>
        rw [List.range_succ, List.map_append, List.sum_append, ihm]
        simp only [List.map_cons, List.map_nil, List.sum_cons, List.sum_nil, beq_iff_eq]
        split <;> split <;> split <;> omega
    have e : ((List.range a).map fun v => (x :: xs).count v) =
        (List.range a).map fun v => xs.count v + if x == v then 1 else 0 :=
      List.map_congr_left fun v _ => by rw [List.count_cons]
    rw [e, List.sum_map_add, ih fun y hy => h y (List.mem_cons_of_mem _ hy), hone, if_pos hx]
    rfl

/-- The counts add up to the samples, and the end-of-stream symbol (R273). -/
theorem sum_frequencies {a : Nat} (eosEn : Bool) {xs : List Nat} (h : ∀ x ∈ xs, x < a) :
    ((frequencies a eosEn xs).map (·.2)).sum = xs.length + eosEn.toNat := by
  unfold frequencies
  rw [List.map_append, List.sum_append, List.map_map]
  have hf : ((fun x : Nat × Nat => x.2) ∘ fun v => (v, xs.count v)) = fun v => xs.count v := rfl
  have hfilter : ∀ l : List Nat,
      ((l.filter fun v => decide (0 < xs.count v)).map fun v => xs.count v).sum =
        (l.map fun v => xs.count v).sum := by
    intro l
    induction l with
    | nil => rfl
    | cons v l ih =>
      rw [List.filter_cons]
      split
      · rw [List.map_cons, List.map_cons, List.sum_cons, List.sum_cons, ih]
      · rename_i hz
        have : xs.count v = 0 := by simp only [decide_eq_true_eq] at hz; omega
        rw [List.map_cons, List.sum_cons, ih, this, Nat.zero_add]
  rw [hf, hfilter, sum_count_range a xs h]
  cases eosEn <;> rfl

/-- A table whose pairs fit 32 bits and whose length fits FREQ_COUNT is read back. -/
theorem freqCount_storeTable (s : State) :
    s.storeTable.freqCount.toNat = (frequencies s.alphabet s.cfg.eosEn s.samples).length := by
  have h1 := length_frequencies_le s.alphabet s.cfg.eosEn s.samples
  have h2 := alphabet_bounds s
  have h3 := s.cfg.eosEn.toNat_le
  simp only [State.storeTable, BitVec.toNat_ofNat]
  omega

/-- What HUF_FREQ stores is read back as the tally of the grid. -/
theorem table_storeTable (s : State) :
    s.storeTable.table = frequencies s.alphabet s.cfg.eosEn s.samples := by
  have hn := n_add_alphabet_lt s
  have hb : ∀ p ∈ frequencies s.alphabet s.cfg.eosEn s.samples,
      p.1 < 2 ^ 32 ∧ p.2 < 2 ^ 32 := by
    rintro ⟨v, c⟩ hp
    have ha := alphabet_bounds s
    rcases mem_frequencies.1 hp with ⟨h1, h2, -⟩ | ⟨-, h1, h2⟩
    · have := List.count_le_length (a := v) (l := s.samples)
      rw [length_samples] at this
      simp only
      omega
    · simp only
      omega
  unfold State.table
  rw [freqCount_storeTable]
  refine Eq.trans (List.map_congr_left fun i _ => ?_) (map_word_putPairs s .ft _ hb)
  exact (freqAt_congr (t := s.putPairs .ft (frequencies s.alphabet s.cfg.eosEn s.samples))
    (by simp) rfl i)

/-! ## The arena -/

/-- No frequency of the tree is larger than the sum of the counts (R278). -/
theorem buildTree_freq_le {ft : List (Nat × Nat)} (h : ft ≠ []) :
    ∀ nd ∈ buildTree ft, nd.freq ≤ (ft.map (·.2)).sum := by
  intro nd hnd
  obtain ⟨k, hk⟩ := List.getElem?_of_mem hnd
  by_cases hone : ft.length = 1
  · match ft, hone with
    | [e], _ =>
      have hl := (List.getElem?_eq_some_iff.1 hk).1
      simp only [buildTree, leafNodes, List.map_cons, List.map_nil, List.cons_append,
        List.nil_append, List.length_cons, List.length_nil] at hl hk
      interval_cases k <;> (cases hk; simp [mergeNode])
  · have h2 : 2 ≤ ft.length := by
      have : ft.length ≠ 0 := fun h0 => h (List.length_eq_zero_iff.1 h0)
      omega
    obtain ⟨hlen, hinv⟩ := buildTree_inv h2
    have hroot := (hinv.keys _ (List.mem_singleton.2 rfl)).2
    -- going up from a node to the root, the frequency never falls
    have up : ∀ d k nd, (buildTree ft)[k]? = some nd → k + d = 2 * ft.length - 2 →
        nd.freq ≤ (ft.map (·.2)).sum := by
      intro d
      induction d using Nat.strongRecOn with
      | ind d ih =>
        intro k nd hk hd
        have hkl := (List.getElem?_eq_some_iff.1 hk).1
        have hkey : (keyAt (buildTree ft) k).1 = nd.freq := by simp [keyAt, hk]
        by_cases hz : d = 0
        · have hkr : k = 2 * ft.length - 2 := by omega
          rw [← hkey, hkr, ← hroot]
        · have hno : ¬ orphan ft.length (buildTree ft) k := fun ho => by
            have := (hinv.orphans k hkl).2 ho
            rw [List.mem_singleton] at this
            have := congrArg Prod.snd this
            simp only [keyAt] at this
            omega
          unfold orphan at hno
          push Not at hno
          obtain ⟨p, a, hp, hg, hch⟩ := hno
          have hm := hinv.merged p a hp hg
          have hpl := (List.getElem?_eq_some_iff.1 hg).1
          have h1 := hm.left
          have h2 := hm.right
          have hf := hm.freq
          have hle : nd.freq ≤ a.freq := by
            by_cases hl : a.left = k
            · rw [hl, hkey] at hf; omega
            · have := hch hl
              rw [this, hkey] at hf; omega
          have hkp : k < p := by
            by_cases hl : a.left = k
            · omega
            · have := hch hl; omega
          exact Nat.le_trans hle (ih (2 * ft.length - 2 - p) (by omega) p a hg (by omega))
    have hkl := (List.getElem?_eq_some_iff.1 hk).1
    exact up (2 * ft.length - 2 - k) k nd hk (by omega)

/-- The nodes of a table that passes the check fit the fields of the arena. -/
theorem buildTree_fits {ft : List (Nat × Nat)} (h : ft ≠ []) (hlen : ft.length ≤ 257)
    (hsym : ∀ e ∈ ft, e.1 < 2 ^ 32) (hsum : (ft.map (·.2)).sum < 2 ^ 32) :
    ∀ nd ∈ buildTree ft, Node.fits nd := by
  intro nd hnd
  have hf := buildTree_freq_le h nd hnd
  obtain ⟨k, hk⟩ := List.getElem?_of_mem hnd
  have hkl := (List.getElem?_eq_some_iff.1 hk).1
  have hbl := length_buildTree h
  by_cases hleaf : k < ft.length
  · rw [getElem?_buildTree_leaf (List.getElem?_eq_getElem hleaf)] at hk
    cases hk
    exact ⟨hsym _ (List.getElem_mem hleaf), by simp only at hf ⊢; omega,
      by simp [noNode], by simp [noNode]⟩
  · by_cases hone : ft.length = 1
    · match ft, hone with
      | [e], _ =>
        simp only [buildTree, leafNodes, List.map_cons, List.map_nil, List.cons_append,
          List.nil_append, List.length_cons, List.length_nil] at hkl hk hleaf
        obtain rfl : k = 1 := by omega
        cases hk
        simp only [mergeNode] at hf ⊢
        exact ⟨by simp, by simp only; omega, by simp, by simp [noNode]⟩
    · have hpos : ft.length ≠ 0 := fun h0 => h (List.length_eq_zero_iff.1 h0)
      have hm := (buildTree_inv (ft := ft) (by omega)).2.merged k nd (by omega) hk
      have h1 := hm.left
      have h2 := hm.right
      rw [if_neg hone] at hbl
      have hkk : k < 2 * ft.length - 1 := by omega
      exact ⟨by rw [hm.symbol]; decide, by omega, by omega, by omega⟩

/-- What HUF_TREE stores is read back as the arena of the table. -/
theorem nodeAt_storeTree {s : State} (h : s.table ≠ []) (hlen : s.table.length ≤ 257)
    (hsym : ∀ e ∈ s.table, e.1 < 2 ^ 32) (hsum : (s.table.map (·.2)).sum < 2 ^ 32) :
    (∀ j nd, (buildTree s.table)[j]? = some nd → s.storeTree.nodeAt j = nd) ∧
      s.storeTree.nodeCount.toNat = (buildTree s.table).length ∧
      s.storeTree.root.toNat + 1 = (buildTree s.table).length := by
  have hbl := length_buildTree h
  have hpos : s.table.length ≠ 0 := fun h0 => h (List.length_eq_zero_iff.1 h0)
  have hle : 2 ≤ (buildTree s.table).length ∧ (buildTree s.table).length ≤ 513 := by
    rw [hbl]
    split <;> omega
  refine ⟨fun j nd hj => ?_, ?_, ?_⟩
  · refine (nodeAt_congr (t := s.putNodes (buildTree s.table)) (by simp) rfl j).trans ?_
    exact nodeAt_putNodes s _ j nd hj (buildTree_fits h hlen hsym hsum nd (List.mem_of_getElem? hj))
  · simp only [State.storeTree, State.markTree, BitVec.toNat_ofNat]
    omega
  · simp only [State.storeTree, State.markTree, BitVec.toNat_ofNat]
    omega

/-! ## The code table -/

theorem codeOf_fits (node : Nat → Node) (root x : Nat) :
    (codeOf (visitTree node maxLevels root []) x).len < 2 ^ 32 ∧
      (codeOf (visitTree node maxLevels root []) x).code < 2 ^ 256 ∧
      (codeOf (visitTree node maxLevels root []) x).len ≤ 256 ∧
      (codeOf (visitTree node maxLevels root []) x).code <
        2 ^ (codeOf (visitTree node maxLevels root []) x).len := by
  cases hv : (codeOf (visitTree node maxLevels root []) x).valid with
  | false =>
    rw [(codeOf_invalid hv).1]
    exact ⟨by decide, Nat.two_pow_pos 256, by decide, by decide⟩
  | true =>
    obtain ⟨p, hm, he⟩ := codeOf_valid hv
    obtain ⟨_, k, rfl, hs, -⟩ := (mem_visitTree _ _ _ _ _ _).1 hm
    rw [he]
    have h1 : p.length ≤ 256 := by unfold maxLevels at hs; omega
    have h2 := pathNumber_lt p
    have h3 : 2 ^ p.length ≤ 2 ^ 256 := Nat.pow_le_pow_right (by decide) h1
    exact ⟨by simp only; omega, Nat.lt_of_lt_of_le h2 h3, h1, h2⟩

/-- What HUF_CODES stores is read back as the codes of the tree. -/
theorem codeEntry_storeCodeTable (s : State) {x : Nat} (hx : x < 257) :
    s.storeCodeTable.codeEntry x =
      codeOf (visitTree s.nodeAt maxLevels s.root.toNat []) x := by
  have hf := codeOf_fits s.nodeAt s.root.toNat x
  refine (codeEntry_congr (t := s.putCodes (deriveCodes s.nodeAt s.root.toNat)) (by simp) rfl
    x).trans ?_
  refine codeEntry_putCodes s _ x _ ?_ hf.1 hf.2.1
  rw [deriveCodes, List.getElem?_map, List.getElem?_range hx]
  rfl

end Sys2Proof.Machine
end

