-- ==== Sys2Proof/Laws/Bitstream.lean ====
section
/-! SUPPORT. The laws of the bitstream: what the loop of R332 appends and where it fails, that the
stored stream is read back bit by bit, and how the walk of R340 goes along paths. -/

namespace Sys2Proof.Machine

open Sys2Proof

/-! ## Packing -/

theorem bytesFor_le {cap bits : Nat} : cap < bytesFor bits ↔ 8 * cap < bits := by
  unfold bytesFor
  omega

/-- The bits of a list of samples under a code table. -/
abbrev bitsOf (entry : Nat → Code) (xs : List Nat) : List Bool :=
  xs.flatMap fun x => codeBits (entry x)

theorem length_bitsOf (entry : Nat → Code) (xs : List Nat) :
    (bitsOf entry xs).length = (xs.map fun x => (entry x).len).sum := by
  induction xs with
  | nil => rfl
  | cons x xs ih =>
    rw [List.map_cons, List.sum_cons, ← ih]
    simp [bitsOf, List.flatMap_cons]

/-- Packing samples that have codes and fit, followed by any others (R332). -/
theorem packSamples_append {entry : Nat → Code} {cap k l : Nat} {xs ys : List Nat}
    (hv : ∀ x ∈ xs, (entry x).valid = true) (hl : l + (bitsOf entry xs).length ≤ 8 * cap) :
    packSamples entry cap k l (xs ++ ys) =
      (packSamples entry cap (k + xs.length) (l + (bitsOf entry xs).length) ys).map
        (bitsOf entry xs ++ ·) := by
  induction xs generalizing k l with
  | nil =>
    simp only [List.nil_append, List.length_nil, Nat.add_zero, bitsOf, List.flatMap_nil]
    cases packSamples entry cap k l ys <;> rfl
  | cons x xs ih =>
    have hx := hv x List.mem_cons_self
    have hlen : (bitsOf entry (x :: xs)).length = (entry x).len + (bitsOf entry xs).length := by
      simp [bitsOf, List.flatMap_cons]
    rw [hlen] at hl
    have hfit : ¬ cap < bytesFor (l + (entry x).len) := by rw [bytesFor_le]; omega
    rw [List.cons_append, packSamples]
    simp only [hx, Bool.not_true, Bool.false_eq_true, if_false, if_neg hfit]
    rw [ih (fun y hy => hv y (List.mem_cons_of_mem _ hy)) (by omega), hlen, List.length_cons,
      show k + 1 + xs.length = k + (xs.length + 1) by omega, Nat.add_assoc l]
    cases packSamples entry cap (k + (xs.length + 1))
      (l + ((entry x).len + (bitsOf entry xs).length)) ys with
    | error e => rfl
    | ok b => simp [Except.map, bitsOf, List.flatMap_cons]

theorem packSamples_complete {entry : Nat → Code} {cap k l : Nat} {xs : List Nat}
    (hv : ∀ x ∈ xs, (entry x).valid = true) (hl : l + (bitsOf entry xs).length ≤ 8 * cap) :
    packSamples entry cap k l xs = .ok (bitsOf entry xs) := by
  have := packSamples_append (k := k) (ys := []) hv hl
  rw [List.append_nil] at this
  rw [this]
  simp [packSamples, Except.map]

/-- What the loop of R332 has appended when it ends well. -/
theorem packSamples_ok {entry : Nat → Code} {cap k l : Nat} {xs : List Nat} {bits : List Bool}
    (h : packSamples entry cap k l xs = .ok bits) (hl : l ≤ 8 * cap) :
    bits = bitsOf entry xs ∧ l + bits.length ≤ 8 * cap ∧ ∀ x ∈ xs, (entry x).valid = true := by
  induction xs generalizing k l bits with
  | nil =>
    cases h
    exact ⟨rfl, by simpa using hl, by simp⟩
  | cons x xs ih =>
    rw [packSamples] at h
    cases hx : (entry x).valid with
    | false => simp [hx] at h
    | true =>
      simp only [hx, Bool.not_true, Bool.false_eq_true, if_false] at h
      split at h
      · cases h
      · rename_i hfit
        rw [bytesFor_le] at hfit
        obtain ⟨ys, hy, rfl⟩ := map_eq_ok h
        obtain ⟨rfl, h2, h3⟩ := ih hy (by omega)
        refine ⟨by simp [bitsOf, List.flatMap_cons], ?_, ?_⟩
        · rw [List.length_append, length_codeBits]
          omega
        · intro y hy
          rcases List.mem_cons.1 hy with rfl | hy
          · exact hx
          · exact h3 y hy

/-- The payload of R332 when it ends well. -/
theorem packPayload_ok {entry : Nat → Code} {cap : Nat} {eosEn : Bool} {xs : List Nat}
    {bits : List Bool} (h : packPayload entry cap eosEn xs = .ok bits) :
    bits = bitsOf entry xs ++ (if eosEn then codeBits (entry 256) else []) ∧
      bits.length ≤ 8 * cap ∧ ∀ x ∈ xs, (entry x).valid = true := by
  unfold packPayload at h
  split at h
  · cases h
  · rename_i b hb
    obtain ⟨rfl, h2, h3⟩ := packSamples_ok hb (by omega)
    cases eosEn with
    | false =>
      cases h
      exact ⟨by simp, by omega, h3⟩
    | true =>
      simp only [Bool.not_true, Bool.false_eq_true, if_false] at h
      split at h
      · cases h
      · rename_i hfit
        rw [bytesFor_le] at hfit
        cases h
        refine ⟨by simp, ?_, h3⟩
        rw [List.length_append, length_codeBits]
        omega

/-! ## The stored stream -/

theorem byteOfBits_getLsbD (bs : List Bool) (h : bs.length = 8) (r : Nat) (hr : r < 8) :
    (byteOfBits bs).getLsbD (7 - r) = bs[r]'(by omega) := by
  have := testBit_pathNumber bs r (by omega)
  rw [show bs.length - 1 - r = 7 - r by omega] at this
  unfold byteOfBits
  rw [BitVec.getLsbD_ofNat, this]
  simp
  omega

@[simp] theorem length_bytesOfBits (count : Nat) (bits : List Bool) :
    (bytesOfBits count bits).length = count := by
  induction count generalizing bits with
  | zero => rfl
  | succ count ih => simp [bytesOfBits, ih]

theorem getElem?_bytesOfBits (count : Nat) (bits : List Bool) (o : Nat) (h : o < count) :
    (bytesOfBits count bits)[o]? = some (byteOfBits ((bits.drop (8 * o)).take 8)) := by
  induction count generalizing bits o with
  | zero => omega
  | succ count ih =>
    cases o with
    | zero => simp [bytesOfBits]
    | succ o =>
      rw [bytesOfBits, List.getElem?_cons_succ, ih _ _ (by omega), List.drop_drop,
        show 8 + 8 * o = 8 * (o + 1) by omega]

/-- A stream of whole bytes is read back bit by bit. -/
theorem bit_bytesOfBits {count : Nat} {bits : List Bool} (h : bits.length = 8 * count) (i : Nat)
    (b : Bool) (hi : bits[i]? = some b) :
    (((bytesOfBits count bits)[i / 8]?).getD 0).getLsbD (7 - i % 8) = b := by
  have hlt := (List.getElem?_eq_some_iff.1 hi).1
  have hlen : ((bits.drop (8 * (i / 8))).take 8).length = 8 := by
    rw [List.length_take, List.length_drop]
    omega
  rw [getElem?_bytesOfBits _ _ _ (by omega), Option.getD_some,
    byteOfBits_getLsbD _ hlen _ (by omega), List.getElem_take, List.getElem_drop]
  have h2 := (List.getElem?_eq_some_iff.1 hi).2
  simp only [show 8 * (i / 8) + i % 8 = i by omega]
  exact h2

theorem padCount_lt (l : Nat) : padCount l < 8 := by
  unfold padCount
  omega

theorem padCount_mod (l : Nat) : (l + padCount l) % 8 = 0 := by
  unfold padCount
  omega

/-- The registers of a stored stream (R332). -/
theorem storeStream_regs {s : State} {bits : List Bool} (h : bits.length < 2 ^ 32) :
    (s.storeStream bits).bitLen.toNat = bits.length ∧
      (s.storeStream bits).pad.toNat = padCount bits.length ∧
      (s.storeStream bits).byteLen.toNat = (bits.length + padCount bits.length) / 8 := by
  have h1 := padCount_lt bits.length
  simp only [State.storeStream, BitVec.toNat_ofNat]
  omega

/-- The bits of a stored stream, its padding included. -/
theorem streamBit_storeStream (s : State) (bits : List Bool) (i : Nat) (b : Bool)
    (hi : (bits ++ List.replicate (padCount bits.length) false)[i]? = some b) :
    (s.storeStream bits).streamBit i = b := by
  have hmod := padCount_mod bits.length
  have hlen : (bits ++ List.replicate (padCount bits.length) false).length =
      8 * ((bits.length + padCount bits.length) / 8) := by
    rw [List.length_append, List.length_replicate]
    omega
  have hlt := (List.getElem?_eq_some_iff.1 hi).1
  refine (streamBit_congr (t := s.putBytes .bb 0 (bytesOfBits
    ((bits.length + padCount bits.length) / 8)
    (bits ++ List.replicate (padCount bits.length) false))) (by simp) rfl i).trans ?_
  unfold State.streamBit
  rw [byte_putBytes, if_pos ⟨rfl, Nat.zero_le _, by rw [length_bytesOfBits]; omega⟩]
  exact bit_bytesOfBits hlen i b hi

/-- A stored stream changes no byte past its own. -/
theorem byte_storeStream_frame (s : State) (bits : List Bool) (b : Buf) (o : Nat)
    (h : b ≠ .bb ∨ (bits.length + padCount bits.length) / 8 ≤ o) :
    (s.storeStream bits).byte b o = s.byte b o := by
  refine (byte_congr (t := s.putBytes .bb 0 (bytesOfBits
    ((bits.length + padCount bits.length) / 8)
    (bits ++ List.replicate (padCount bits.length) false))) (by simp) ?_ o).trans ?_
  · cases b <;> rfl
  · apply byte_putBytes_frame
    rw [length_bytesOfBits]
    rcases h with h | h
    · exact .inl h
    · exact .inr (.inr (by omega))

/-! ## Unpacking -/

/-- The walk of R340 along a path that has not reached a leaf. -/
theorem unpackWalk_inner {node : Nat → Node} {root n pos k j m : Nat} {eosEn : Bool}
    {q rest : List Bool} (hw : walkPath node j q = some m)
    (hl : q ≠ [] → (node m).isLeaf = false) :
    unpackWalk node root n eosEn pos k j (q ++ rest) =
      unpackWalk node root n eosEn (pos + q.length) k m rest := by
  induction q generalizing j pos with
  | nil =>
    cases hw
    rfl
  | cons b bs ih =>
    rw [walkPath] at hw
    split at hw
    · cases hw
    · simp only at hw
      rw [List.cons_append, unpackWalk]
      simp only
      generalize (if b then (node j).right else (node j).left) = c at *
      split at hw
      · cases hw
      · rename_i hc
        have hcl : (node c).isLeaf = false := by
          cases bs with
          | nil =>
            cases hw
            exact hl (by simp)
          | cons b' bs' =>
            rw [walkPath] at hw
            split at hw
            · cases hw
            · rename_i h; simpa using h
        rw [if_neg hc, hcl]
        simp only [Bool.false_eq_true, if_false]
        rw [ih hw fun _ => hl (by simp), List.length_cons,
          show pos + 1 + bs.length = pos + (bs.length + 1) by omega]

/-- The walk of R340 along a path that ends at a leaf. -/
theorem unpackWalk_leaf {node : Nat → Node} {root n pos k j m : Nat} {eosEn : Bool}
    {q rest : List Bool} (hq : q ≠ []) (hw : walkPath node j q = some m)
    (hl : (node m).isLeaf = true) :
    unpackWalk node root n eosEn pos k j (q ++ rest) =
      if (node m).symbol = 256 then
        if k = n then .ok [] else .error { kind := .corruptStream, info := pos + q.length }
      else if k = n then .error { kind := .corruptStream, info := pos + q.length }
      else if !eosEn && k + 1 == n then .ok [(node m).symbol]
      else (unpackWalk node root n eosEn (pos + q.length) (k + 1) root rest).map
        ((node m).symbol :: ·) := by
  obtain ⟨q', b, rfl⟩ : ∃ q' b, q = q' ++ [b] := by
    rcases List.eq_nil_or_concat q with h | ⟨q', b, h⟩
    · exact absurd h hq
    · exact ⟨q', b, by simpa using h⟩
  rw [walkPath_append] at hw
  cases hw' : walkPath node j q' with
  | none => rw [hw'] at hw; cases hw
  | some m' =>
    rw [hw', Option.bind_some, walkPath] at hw
    split at hw
    · cases hw
    · rename_i hm'
      simp only at hw
      rw [List.append_assoc, unpackWalk_inner hw' fun _ => by simpa using hm',
        List.singleton_append, unpackWalk]
      simp only
      generalize (if b then (node m').right else (node m').left) = c at *
      split at hw
      · cases hw
      · rename_i hc
        cases hw
        rw [if_neg hc, hl]
        simp only [if_true, List.length_append, List.length_singleton, Nat.add_assoc]

/-- A walk that meets a missing child fails there; one whose bits run out fails at their end
(R340, R341). -/
theorem unpackWalk_missing {node : Nat → Node} {root n pos k j : Nat} {eosEn b : Bool}
    {bs : List Bool} (h : (if b then (node j).right else (node j).left) = noNode) :
    unpackWalk node root n eosEn pos k j (b :: bs) =
      .error { kind := .corruptStream, info := pos } := by
  rw [unpackWalk]
  simp only [h, if_true]

/-- The paths of data symbols, each from the root to its leaf. -/
def pathsOf (node : Nat → Node) (root : Nat) (segs : List (Nat × List Bool)) : Prop :=
  ∀ g ∈ segs, g.1 < 256 ∧ g.2 ≠ [] ∧
    ∃ j, walkPath node root g.2 = some j ∧ (node j).isLeaf = true ∧ (node j).symbol = g.1

/-- The walk of R340 over the paths of data symbols, fewer than it has still to find (or, with the
end-of-stream symbol in use, as many), followed by any bits. -/
theorem unpackWalk_paths {node : Nat → Node} {root n pos k : Nat} {eosEn : Bool}
    {segs : List (Nat × List Bool)} {rest : List Bool} (hs : pathsOf node root segs)
    (hk : k + segs.length ≤ n) (hn : eosEn = true ∨ k + segs.length < n) :
    unpackWalk node root n eosEn pos k root (segs.flatMap (·.2) ++ rest) =
      (unpackWalk node root n eosEn (pos + (segs.flatMap (·.2)).length) (k + segs.length) root
        rest).map (segs.map (·.1) ++ ·) := by
  induction segs generalizing pos k with
  | nil =>
    simp only [List.flatMap_nil, List.nil_append, List.length_nil, Nat.add_zero, List.map_nil]
    cases unpackWalk node root n eosEn pos k root rest <;> rfl
  | cons g segs ih =>
    obtain ⟨h1, h2, j, h3, h4, h5⟩ := hs g List.mem_cons_self
    rw [List.length_cons] at hk hn
    rw [List.flatMap_cons, List.append_assoc, unpackWalk_leaf h2 h3 h4, h5, if_neg (by omega),
      if_neg (by omega)]
    have hcond : (!eosEn && k + 1 == n) = false := by
      rcases hn with rfl | hn
      · rfl
      · have : (k + 1 == n) = false := by simp; omega
        rw [this, Bool.and_false]
    rw [hcond]
    simp only [Bool.false_eq_true, if_false]
    rw [ih (fun x hx => hs x (List.mem_cons_of_mem _ hx)) (by omega)
      (hn.imp_right fun h => by omega), List.length_append, List.length_cons,
      show pos + g.2.length + (segs.flatMap (·.2)).length =
        pos + (g.2.length + (segs.flatMap (·.2)).length) by omega,
      show k + 1 + segs.length = k + (segs.length + 1) by omega]
    cases unpackWalk node root n eosEn (pos + (g.2.length + (segs.flatMap (·.2)).length))
      (k + (segs.length + 1)) root rest <;> rfl

/-- A walk that ends well brings the output to `n` samples (R340). -/
theorem length_of_unpackWalk {node : Nat → Node} {root n : Nat} {eosEn : Bool} {bs : List Bool}
    {pos k j : Nat} {xs : List Nat} (h : unpackWalk node root n eosEn pos k j bs = .ok xs)
    (hk : k ≤ n) : k + xs.length = n := by
  induction bs generalizing pos k j xs with
  | nil => cases h
  | cons b bs ih =>
    simp only [unpackWalk] at h
    generalize (if b then (node j).right else (node j).left) = c at h
    split at h
    · cases h
    · split at h
      · split at h
        · split at h
          · cases h; simpa
          · cases h
        · split at h
          · cases h
          · split at h
            · rename_i hc
              cases h
              simp at hc
              simpa using hc.2
            · obtain ⟨ys, hy, rfl⟩ := map_eq_ok h
              have := ih hy (by omega)
              rw [List.length_cons]
              omega
      · exact ih h hk

theorem unpackCheck_ok {s : State} (ht : s.status.treeValid = true) (hd : s.dimCheck = none)
    (h0 : s.byteLen ≠ 0) (h1 : s.byteLen.toNat ≤ s.params.bitCap) : s.unpackCheck = none := by
  have e : s.byteLen.toNat ≠ 0 := by have := toNat_pos_of_ne_zero h0; omega
  simp [State.unpackCheck, State.needTree, ht, hd, raiseIf, e, h1]

theorem packCheck_ok {s : State} (hc : s.status.codesValid = true) (he : s.encoderCheck = none) :
    s.packCheck = none := by
  simp [State.packCheck, hc, he, raiseIf]

end Sys2Proof.Machine
end

