-- ==== Sys2Proof/Laws/Canonical.lean ====
section
/-! SUPPORT. Every memory operation of the state keeps the canonical form, and the memories of the
reset state have it. -/

namespace Sys2Proof.Machine

open Sys2Proof

/-- The memories of the reset state are in canonical form. -/
theorem wf_reset (b : Buf) : (State.reset.mem b).wf := by cases b <;> exact List.Pairwise.nil

theorem wf_slice {m : Memory} (hm : m.wf) (lo hi : Nat) : (m.slice lo hi).wf := hm.filter _

theorem memoriesOk_congr {s t : State} (hp : t.params = s.params) (hm : ∀ b, t.mem b = s.mem b)
    (h : s.memoriesOk) : t.memoriesOk := by
  intro b
  rw [hm, hp]
  exact h b

theorem memoriesOk_setMem {s : State} {b : Buf} {m : Memory} (h : s.memoriesOk) (hw : m.wf)
    (hc : ∀ c ∈ m, c.1 < Buf.used s.params b ∧ Buf.stores b c.1 = true) :
    (s.setMem b m).memoriesOk := by
  intro b'
  rw [params_setMem, mem_setMem]
  split
  · rename_i e
    subst e
    exact ⟨hw, hc⟩
  · exact h b'

/-- A write of bytes inside a window without reserved places. -/
theorem memoriesOk_putBytes {s : State} {b : Buf} {o : Nat} {bs : List Byte} (h : s.memoriesOk)
    (hl : o + bs.length ≤ Buf.used s.params b) (hb : ∀ k, Buf.stores b k = true) :
    (s.putBytes b o bs).memoriesOk := by
  refine memoriesOk_setMem h (wf_write (h b).1 o bs) fun c hc => ?_
  rcases mem_write hc with hc | hc
  · exact (h b).2 c hc
  · exact ⟨by omega, hb _⟩

theorem memoriesOk_drawBytes {s : State} {b : Buf} {len : Nat} (h : s.memoriesOk)
    (hl : len ≤ Buf.used s.params b) (hb : ∀ k, Buf.stores b k = true) :
    (s.drawBytes b len).memoriesOk :=
  memoriesOk_putBytes h (by simpa using hl) hb

theorem memoriesOk_putPairs {s : State} {b : Buf} {ps : List (Nat × Nat)} (h : s.memoriesOk)
    (hl : 8 * ps.length ≤ Buf.used s.params b) (hb : ∀ k, Buf.stores b k = true) :
    (s.putPairs b ps).memoriesOk := by
  refine memoriesOk_putBytes h ?_ hb
  rw [length_numBytes, length_flatMap_pair]
  omega

theorem stores_nodesCells {j : Nat} {nds : List Node} {c : Host.Cell} (h : c ∈ nodesCells j nds) :
    Buf.stores .nd c.1 = true := by
  induction nds generalizing j with
  | nil => simp [nodesCells] at h
  | cons nd nds ih =>
    rcases List.mem_append.1 h with h | h
    · have := mem_nodeCells h
      simp [Buf.stores]
      omega
    · exact ih h

theorem stores_codesCells {x : Nat} {cs : List Code} {c : Host.Cell} (h : c ∈ codesCells x cs) :
    Buf.stores .ct c.1 = true := by
  induction cs generalizing x with
  | nil => simp [codesCells] at h
  | cons e cs ih =>
    rcases List.mem_append.1 h with h | h
    · have := mem_codeCells h
      simp [Buf.stores]
      omega
    · exact ih h

theorem memoriesOk_putNodes {s : State} {nds : List Node} (h : s.memoriesOk)
    (hl : nds.length ≤ 513) : (s.putNodes nds).memoriesOk := by
  refine memoriesOk_setMem h (wf_splice (h .nd).1 (Nat.zero_le _) (wf_nodesCells _ _) fun c hc => ?_)
    fun c hc => ?_
  · have := mem_nodesCells hc
    omega
  · rcases mem_splice hc with hc | hc
    · exact (h .nd).2 c hc
    · have := mem_nodesCells hc
      exact ⟨by simp only [Buf.used]; omega, stores_nodesCells hc⟩

theorem memoriesOk_putCodes {s : State} {cs : List Code} (h : s.memoriesOk)
    (hl : cs.length ≤ 257) : (s.putCodes cs).memoriesOk := by
  refine memoriesOk_setMem h (wf_splice (h .ct).1 (Nat.zero_le _) (wf_codesCells _ _) fun c hc => ?_)
    fun c hc => ?_
  · have := mem_codesCells hc
    omega
  · rcases mem_splice hc with hc | hc
    · exact (h .ct).2 c hc
    · have := mem_codesCells hc
      exact ⟨by simp only [Buf.used]; omega, stores_codesCells hc⟩

end Sys2Proof.Machine
end

