-- ==== Sys2Proof/Laws/HostPort.lean ====
section
/-! SUPPORT. The laws of the host port: how an address selects a register or a window, what an
access can do to the state, and that it leaves the host's side alone. -/

namespace Sys2Proof.Machine

open Sys2Proof

/-! ## Addresses -/

theorem windowOf_regAddr (r : Reg) : windowOf (regAddr r) = .regs := by cases r <;> decide

theorem regAt_regAddr (r : Reg) : regAt (offsetOf (regAddr r)) = some r := by cases r <;> decide

theorem regAddr_aligned (r : Reg) : (regAddr r).toNat % 4 = 0 := by cases r <;> decide

theorem offset_of_regAt {o : Nat} {r : Reg} (h : regAt o = some r) : Reg.offset r = o := by
  have := List.find?_some h
  simpa using this

theorem windowOf_eq_regs {addr : Word} (h : windowOf addr = .regs) : addr.toNat < 2 ^ 28 := by
  unfold windowOf at h
  split at h
  · omega
  · split at h <;> cases h

/-- An address that selects a register is that register's address. -/
theorem addr_eq_regAddr {addr : Word} {r : Reg} (hw : windowOf addr = .regs)
    (hr : regAt (offsetOf addr) = some r) : addr = regAddr r := by
  have hlt := windowOf_eq_regs hw
  have ho := offset_of_regAt hr
  unfold offsetOf at ho
  rw [Nat.mod_eq_of_lt hlt] at ho
  apply BitVec.eq_of_toNat_eq
  rw [← ho]
  cases r <;> rfl

theorem number_pos (b : Buf) : 1 ≤ Buf.number b ∧ Buf.number b ≤ 8 := by cases b <;> decide

/-- The window number of a block address. -/
theorem windowOf_eq_buffer_iff {addr : Word} {b : Buf} :
    windowOf addr = .buffer b ↔ addr.toNat / 2 ^ 28 = Buf.number b := by
  unfold windowOf
  have hb := number_pos b
  have hlt : addr.toNat / 2 ^ 28 < 16 := by have := addr.isLt; omega
  generalize addr.toNat / 2 ^ 28 = w at *
  interval_cases w <;> cases b <;> decide

theorem windowOf_eq_regs_iff {addr : Word} : windowOf addr = .regs ↔ addr.toNat < 2 ^ 28 := by
  refine ⟨windowOf_eq_regs, fun h => ?_⟩
  unfold windowOf
  rw [if_pos (by omega)]

theorem windowOf_eq_reserved {addr : Word} (h : 0x90000000 ≤ addr.toNat) :
    windowOf addr = .reserved := by
  unfold windowOf
  have hlt : addr.toNat / 2 ^ 28 < 16 := by have := addr.isLt; omega
  have hge : 9 ≤ addr.toNat / 2 ^ 28 := by omega
  generalize addr.toNat / 2 ^ 28 = w at *
  interval_cases w <;> rfl

theorem bufAddr_toNat (b : Buf) (o : Nat) (h : o < 2 ^ 28) :
    (bufAddr b o).toNat = Buf.base b + o := by
  have := number_pos b
  unfold bufAddr Buf.base
  rw [BitVec.toNat_ofNat]
  omega

theorem windowOf_bufAddr (b : Buf) (o : Nat) (h : o < 2 ^ 28) :
    windowOf (bufAddr b o) = .buffer b := by
  rw [windowOf_eq_buffer_iff, bufAddr_toNat b o h]
  unfold Buf.base
  omega

theorem offsetOf_bufAddr (b : Buf) (o : Nat) (h : o < 2 ^ 28) : offsetOf (bufAddr b o) = o := by
  unfold offsetOf
  rw [bufAddr_toNat b o h]
  unfold Buf.base
  omega

theorem offsetOf_lt (addr : Word) : offsetOf addr < 2 ^ 28 := Nat.mod_lt _ (by decide)

/-! ## Accesses -/

theorem legal_writeWord (addr v : Word) :
    Transaction.legal (writeWord addr v) = true ↔ addr.toNat % 4 = 0 := by
  simp [Transaction.legal, writeWord]

theorem legal_readWord (addr : Word) :
    Transaction.legal (readWord addr) = true ↔ addr.toNat % 4 = 0 := by
  simp [Transaction.legal, readWord]

theorem access_writeWord (s : State) {addr : Word} (v : Word) (h : addr.toNat % 4 = 0) :
    s.access (writeWord addr v) = (.ok, s.memWrite addr v) := by
  unfold State.access
  rw [if_pos ((legal_writeWord _ _).2 h)]
  rfl

theorem access_readWord (s : State) {addr : Word} (h : addr.toNat % 4 = 0) :
    s.access (readWord addr) = (.data (s.memRead addr).1, (s.memRead addr).2) := by
  unfold State.access
  rw [if_pos ((legal_readWord _).2 h)]
  rfl

/-- A read in a memory's window (R104, R422). -/
theorem memRead_of_window {s : State} {addr : Word} {b : Buf} (h : windowOf addr = .buffer b) :
    s.memRead addr = if s.busy then (s.drawnWord addr.toNat, s.nextDraw)
      else (s.hostWord b (offsetOf addr), s) := by
  unfold State.memRead
  rw [h]

/-- A write in a memory's window (R105, R421). -/
theorem memWrite_of_window {s : State} {addr : Word} {b : Buf} (h : windowOf addr = .buffer b)
    (v : Word) : s.memWrite addr v = if s.busy then s else s.writeBufIdle b (offsetOf addr) v := by
  unfold State.memWrite
  rw [h]

theorem memWrite_regAddr (s : State) (r : Reg) (v : Word) :
    s.memWrite (regAddr r) v = if s.busy then s.writeRegBusy r v else s.writeRegIdle r v := by
  simp only [State.memWrite, windowOf_regAddr, regAt_regAddr]

theorem access_write_reg (s : State) (r : Reg) (v : Word) :
    s.access (writeWord (regAddr r) v) =
      (.ok, if s.busy then s.writeRegBusy r v else s.writeRegIdle r v) := by
  rw [access_writeWord s v (regAddr_aligned r), memWrite_regAddr]

theorem access_read_reg (s : State) (r : Reg) :
    s.access (readWord (regAddr r)) = (.data (s.readReg r), s) := by
  rw [access_readWord s (regAddr_aligned r)]
  simp only [State.memRead, windowOf_regAddr, regAt_regAddr]

/-- Everything an access can do to the state (R103-R105, R181, R421, R422). -/
theorem access_cases (s : State) (t : Transaction) :
    (s.access t).2 = s ∨
    (t.kind = .read ∧ s.busy = true ∧ (s.access t).2 = s.nextDraw) ∨
    (∃ r, t.kind = .write ∧ t.addr = regAddr r ∧ s.busy = true ∧
      (s.access t).2 = s.writeRegBusy r t.wdata) ∨
    (∃ r, t.kind = .write ∧ t.addr = regAddr r ∧ s.busy = false ∧
      (s.access t).2 = s.writeRegIdle r t.wdata) ∨
    (∃ b o, t.kind = .write ∧ t.addr.toNat = Buf.base b + o ∧ o < 2 ^ 28 ∧ s.busy = false ∧
      (s.access t).2 = s.writeBufIdle b o t.wdata) := by
  unfold State.access
  split
  · cases hk : t.kind with
    | read =>
      simp only [State.memRead]
      split
      · split <;> exact .inl rfl
      · split
        · exact .inr (.inl ⟨trivial, by assumption, rfl⟩)
        · exact .inl rfl
      · exact .inl rfl
    | write =>
      simp only [State.memWrite]
      split
      · rename_i hw
        split
        · rename_i r hr
          have ha := addr_eq_regAddr hw hr
          cases hb : s.busy with
          | true => exact .inr (.inr (.inl ⟨r, trivial, ha, rfl, by simp⟩))
          | false => exact .inr (.inr (.inr (.inl ⟨r, trivial, ha, rfl, by simp⟩)))
        · exact .inl rfl
      · rename_i b hw
        cases hb : s.busy with
        | true => exact .inl (by simp)
        | false =>
          refine .inr (.inr (.inr (.inr ⟨b, offsetOf t.addr, trivial, ?_, offsetOf_lt _, rfl,
            by simp⟩)))
          have := windowOf_eq_buffer_iff.1 hw
          unfold Buf.base offsetOf
          omega
      · exact .inl rfl
  · exact .inl rfl

/-- A window write is a write of bytes, and in window 1 it clears the valid bits too (R105, R108). -/
theorem writeBufIdle_cases (s : State) (b : Buf) (o : Nat) (v : Word) :
    (b ≠ .ft ∧ s.writeBufIdle b o v = s.storeHostWord b o v) ∨
      (b = .ft ∧ s.writeBufIdle b o v = (s.storeHostWord b o v).clearValid) := by
  cases b
  · exact .inr ⟨rfl, rfl⟩
  all_goals exact .inl ⟨by decide, rfl⟩

theorem storeHostWord_cases (s : State) (b : Buf) (o : Nat) (v : Word) :
    s.storeHostWord b o v = s ∨
      (Buf.hostWritable b = true ∧ o < Buf.used s.params b ∧
        s.storeHostWord b o v =
          s.putBytes b o ((wordBytes v).take (Buf.used s.params b - o))) := by
  unfold State.storeHostWord
  split
  · rename_i h
    rw [Bool.and_eq_true, decide_eq_true_eq] at h
    exact .inr ⟨h.1, h.2, rfl⟩
  · exact .inl rfl

/-- An access leaves the host's side of the port, the schedule and the configuration alone. -/
theorem access_frame (s : State) (t : Transaction) :
    (s.access t).2.host = s.host ∧ (s.access t).2.schedule = s.schedule ∧
      (s.access t).2.params = s.params ∧ (s.access t).2.memDraw = s.memDraw := by
  rcases access_cases s t with h | ⟨-, -, h⟩ | ⟨r, -, -, -, h⟩ | ⟨r, -, -, -, h⟩ |
    ⟨b, o, -, -, -, -, h⟩ <;> rw [h]
  · exact ⟨rfl, rfl, rfl, rfl⟩
  · exact ⟨rfl, rfl, rfl, rfl⟩
  · cases r <;> exact ⟨rfl, rfl, rfl, rfl⟩
  · cases r <;> exact ⟨rfl, rfl, rfl, rfl⟩
  · rcases writeBufIdle_cases s b o t.wdata with ⟨-, h⟩ | ⟨-, h⟩ <;> rw [h] <;>
      rcases storeHostWord_cases s b o t.wdata with h | ⟨-, -, h⟩ <;> rw [h] <;> simp

end Sys2Proof.Machine
end

