-- ==== Sys2Proof/Laws/PerInstr.lean ====
section
/-! SUPPORT. The family EncodedWord, one lemma per command: its word is a legal command word, and the
opcode field and the reserved field of that word are what the encoding says. -/

namespace Sys2Proof.Laws.EncodedWord

open Sys2Proof

/-- The word of a command is legal, its reserved field is 0 and its opcode field is the command's
opcode (R140, R142). -/
def Statement (i : Instr) : Prop :=
  Instr.wellFormed i = true ∧ CommandWord.wellFormed (encode i) = true ∧
    rsvdField (encode i) = 0 ∧ opcodeField (encode i) = opcodeOf i

theorem nop : Statement .nop := by unfold Statement; decide
theorem rleEnc : Statement .rleEnc := by unfold Statement; decide
theorem rleDec : Statement .rleDec := by unfold Statement; decide
theorem lzwEnc : Statement .lzwEnc := by unfold Statement; decide
theorem lzwDec : Statement .lzwDec := by unfold Statement; decide
theorem hufFreq : Statement .hufFreq := by unfold Statement; decide
theorem hufTree : Statement .hufTree := by unfold Statement; decide
theorem hufCodes : Statement .hufCodes := by unfold Statement; decide
theorem hufPack : Statement .hufPack := by unfold Statement; decide
theorem hufUnpack : Statement .hufUnpack := by unfold Statement; decide

end Sys2Proof.Laws.EncodedWord
end

