-- ==== Sys2Proof/Laws/Rle.lean ====
section
/-! SUPPORT. The laws of run lists: what the scan of R201 produces and what the replay of R206
accepts. -/

namespace Sys2Proof.Machine

open Sys2Proof

/-- The samples a run list stands for. -/
abbrev expandRuns (rs : List (Nat × Nat)) : List Nat := rs.flatMap fun r => List.replicate r.2 r.1

theorem length_expandRuns (rs : List (Nat × Nat)) :
    (expandRuns rs).length = (rs.map (·.2)).sum := by
  induction rs with
  | nil => rfl
  | cons r rs ih =>
    rw [List.map_cons, List.sum_cons, ← ih]
    simp [expandRuns, List.flatMap_cons]

theorem expandRuns_rleScan (v c : Nat) (xs : List Nat) :
    expandRuns (rleScan v c xs) = List.replicate c v ++ xs := by
  induction xs generalizing v c with
  | nil => simp [rleScan, expandRuns]
  | cons x xs ih =>
    rw [rleScan]
    split
    · rename_i h
      rw [ih, h, List.replicate_succ', List.append_assoc]
      rfl
    · have := ih x 1
      simp only [expandRuns] at this ⊢
      rw [List.flatMap_cons, this]
      rfl

/-- The runs of a grid expand to the grid (R202). -/
theorem expandRuns_rleRuns (xs : List Nat) : expandRuns (rleRuns xs) = xs := by
  cases xs with
  | nil => rfl
  | cons x xs => exact expandRuns_rleScan x 1 xs

theorem rleScan_counts {v c : Nat} (xs : List Nat) (hc : 1 ≤ c) :
    ∀ r ∈ rleScan v c xs, 1 ≤ r.2 ∧ (r.1 = v ∨ r.1 ∈ xs) := by
  induction xs generalizing v c with
  | nil =>
    intro r hr
    obtain rfl : r = (v, c) := by simpa [rleScan] using hr
    exact ⟨hc, .inl rfl⟩
  | cons x xs ih =>
    intro r hr
    rw [rleScan] at hr
    split at hr
    · have := ih (by omega) r hr
      exact ⟨this.1, this.2.imp_right (List.mem_cons_of_mem _)⟩
    · rcases List.mem_cons.1 hr with rfl | hr
      · exact ⟨hc, .inl rfl⟩
      · have := ih (Nat.le_refl 1) r hr
        refine ⟨this.1, .inr ?_⟩
        rcases this.2 with h | h
        · exact h ▸ List.mem_cons_self
        · exact List.mem_cons_of_mem _ h

/-- Every run of a grid is at least 1 long and has a value of the grid (R202). -/
theorem rleRuns_counts (xs : List Nat) : ∀ r ∈ rleRuns xs, 1 ≤ r.2 ∧ r.1 ∈ xs := by
  cases xs with
  | nil => simp [rleRuns]
  | cons x xs =>
    intro r hr
    have := rleScan_counts xs (Nat.le_refl 1) r hr
    refine ⟨this.1, ?_⟩
    rcases this.2 with h | h
    · exact h ▸ List.mem_cons_self
    · exact List.mem_cons_of_mem _ h

theorem rleScan_head (v c : Nat) (xs : List Nat) : ∃ c', (rleScan v c xs)[0]? = some (v, c') := by
  induction xs generalizing c with
  | nil => exact ⟨c, rfl⟩
  | cons x xs ih =>
    rw [rleScan]
    split
    · exact ih _
    · exact ⟨c, rfl⟩

theorem rleScan_maximal (v c : Nat) (xs : List Nat) (i : Nat) (a b : Nat × Nat)
    (ha : (rleScan v c xs)[i]? = some a) (hb : (rleScan v c xs)[i + 1]? = some b) : a.1 ≠ b.1 := by
  induction xs generalizing v c i with
  | nil => simp [rleScan] at hb
  | cons x xs ih =>
    rw [rleScan] at ha hb
    split at ha
    · rename_i h
      rw [if_pos h] at hb
      exact ih _ _ _ ha hb
    · rename_i h
      rw [if_neg h] at hb
      cases i with
      | zero =>
        obtain ⟨c', hc⟩ := rleScan_head x 1 xs
        obtain rfl : (v, c) = a := by simpa using ha
        obtain rfl : (x, c') = b := by simpa [hc] using hb
        exact fun he => h he.symm
      | succ i => exact ih _ _ i (by simpa using ha) (by simpa using hb)

/-- Neighbouring runs of a grid have different values: the runs are maximal (R202). -/
theorem rleRuns_maximal (xs : List Nat) (i : Nat) (a b : Nat × Nat)
    (ha : (rleRuns xs)[i]? = some a) (hb : (rleRuns xs)[i + 1]? = some b) : a.1 ≠ b.1 := by
  cases xs with
  | nil => simp [rleRuns] at ha
  | cons x xs => exact rleScan_maximal x 1 xs i a b ha hb

/-- A run list of positive counts has at most as many runs as samples. -/
theorem length_le_expandRuns {rs : List (Nat × Nat)} (h : ∀ r ∈ rs, 1 ≤ r.2) :
    rs.length ≤ (expandRuns rs).length := by
  induction rs with
  | nil => simp
  | cons r rs ih =>
    have h1 := h r List.mem_cons_self
    have h2 := ih fun x hx => h x (List.mem_cons_of_mem _ hx)
    simp only [expandRuns, List.flatMap_cons, List.length_append, List.length_replicate,
      List.length_cons] at *
    omega

theorem length_rleRuns_le (xs : List Nat) : (rleRuns xs).length ≤ xs.length := by
  have := length_le_expandRuns fun r hr => (rleRuns_counts xs r hr).1
  rwa [expandRuns_rleRuns] at this

/-- A replay that ends well gives the samples of the run list, whose counts bring `k` to `n`. -/
theorem rleReplay_ok {amax n i k : Nat} {rs : List (Nat × Nat)} {xs : List Nat}
    (h : rleReplay amax n i k rs = .ok xs) :
    xs = expandRuns rs ∧ k + (rs.map (·.2)).sum = n ∧ ∀ r ∈ rs, r.1 ≤ amax := by
  induction rs generalizing i k xs with
  | nil =>
    simp only [rleReplay] at h
    split at h
    · rename_i hk
      cases h
      exact ⟨rfl, by simpa using hk, by simp⟩
    · cases h
  | cons r rs ih =>
    simp only [rleReplay] at h
    split at h
    · cases h
    · split at h
      · cases h
      · obtain ⟨ys, hy, rfl⟩ := map_eq_ok h
        obtain ⟨rfl, h2, h3⟩ := ih hy
        refine ⟨rfl, ?_, ?_⟩
        · rw [List.map_cons, List.sum_cons]
          omega
        · intro x hx
          rcases List.mem_cons.1 hx with rfl | hx
          · omega
          · exact h3 x hx

theorem length_of_rleReplay {amax n i k : Nat} {rs : List (Nat × Nat)} {xs : List Nat}
    (h : rleReplay amax n i k rs = .ok xs) : k + xs.length = n := by
  obtain ⟨rfl, h2, -⟩ := rleReplay_ok h
  rw [length_expandRuns]
  exact h2

/-- A run list whose values are in the alphabet and whose counts bring `k` to `n` is replayed. -/
theorem rleReplay_complete {amax n i k : Nat} {rs : List (Nat × Nat)}
    (hv : ∀ r ∈ rs, r.1 ≤ amax) (hs : k + (rs.map (·.2)).sum = n) :
    rleReplay amax n i k rs = .ok (expandRuns rs) := by
  induction rs generalizing i k with
  | nil =>
    have : k = n := by simpa using hs
    simp [rleReplay, this, expandRuns]
  | cons r rs ih =>
    rw [List.map_cons, List.sum_cons] at hs
    have h1 := hv r List.mem_cons_self
    have h2 : ¬ n < k + r.2 := by omega
    rw [rleReplay, if_neg (by omega), if_neg h2,
      ih (fun x hx => hv x (List.mem_cons_of_mem _ hx)) (by omega)]
    rfl

/-- Where a replay fails: its first run at fault, or the end of the list below `n` samples (R206). -/
theorem rleReplay_append {amax n i k : Nat} {ps rs : List (Nat × Nat)}
    (hv : ∀ r ∈ ps, r.1 ≤ amax) (hs : k + (ps.map (·.2)).sum ≤ n) :
    rleReplay amax n i k (ps ++ rs) =
      (rleReplay amax n (i + ps.length) (k + (ps.map (·.2)).sum) rs).map (expandRuns ps ++ ·) := by
  induction ps generalizing i k with
  | nil =>
    simp only [List.nil_append, List.length_nil, Nat.add_zero, List.map_nil, List.sum_nil,
      expandRuns, List.flatMap_nil]
    cases rleReplay amax n i k rs <;> rfl
  | cons p ps ih =>
    rw [List.map_cons, List.sum_cons] at hs
    have h1 := hv p List.mem_cons_self
    have h2 : ¬ n < k + p.2 := by omega
    rw [List.cons_append, rleReplay, if_neg (by omega), if_neg h2,
      ih (fun x hx => hv x (List.mem_cons_of_mem _ hx)) (by omega), List.map_cons, List.sum_cons,
      List.length_cons, show i + 1 + ps.length = i + (ps.length + 1) by omega,
      show k + p.2 + (ps.map (·.2)).sum = k + (p.2 + (ps.map (·.2)).sum) by omega]
    cases rleReplay amax n (i + (ps.length + 1)) (k + (p.2 + (ps.map (·.2)).sum)) rs with
    | error e => rfl
    | ok ys => simp [Except.map, expandRuns]

/-! ## The commands -/

theorem rleRuns_fit (s : State) : ∀ p ∈ rleRuns s.samples, p.1 < 2 ^ 32 ∧ p.2 < 2 ^ 32 := by
  intro p hp
  have hn := n_lt s
  have h1 := rleRuns_counts _ p hp
  have h2 := samples_lt s _ h1.2
  have h3 : p.2 ≤ ((rleRuns s.samples).map (·.2)).sum :=
    List.le_sum_of_mem (List.mem_map_of_mem hp)
  rw [← length_expandRuns, expandRuns_rleRuns, length_samples] at h3
  omega

theorem runCount_storeRuns (s : State) :
    s.storeRuns.runCount.toNat = (rleRuns s.samples).length := by
  have hl := length_rleRuns_le s.samples
  have hn := n_lt s
  rw [length_samples] at hl
  simp only [State.storeRuns, BitVec.toNat_ofNat]
  omega

/-- What RLE_ENC stores is read back as the runs of the grid. -/
theorem runs_storeRuns (s : State) : s.storeRuns.runs = rleRuns s.samples := by
  unfold State.runs
  rw [runCount_storeRuns]
  exact map_word_putPairs s .rb _ (rleRuns_fit s)

theorem rleDecCheck_ok {s : State} (hd : s.dimCheck = none) (h0 : s.runCount ≠ 0)
    (h1 : s.runCount.toNat ≤ s.params.maxSamples) : s.rleDecCheck = none := by
  have e : s.runCount.toNat ≠ 0 := by have := toNat_pos_of_ne_zero h0; omega
  simp [State.rleDecCheck, hd, raiseIf, e, h1]

end Sys2Proof.Machine
end

