-- ==== Sys2Proof/Laws/Step.lean ====
section
/-! SUPPORT. What a step can be: a turn of the host, of the engine or of the reset input; and what a
turn of the engine can be. -/

namespace Sys2Proof.Machine

open Sys2Proof

/-- Every turn of the engine: nothing while idle, the meaning of the command it runs, the error
completion of a word that is no command (R44, R182, R189). -/
theorem engineTurn_cases (s : State) :
    (s.phase = .idle ∧ engineTurn s = .next s) ∨
    (∃ w i, s.phase = .busy w ∧ decode w = .ok i ∧ engineTurn s = exec i s) ∨
    (∃ w r, s.phase = .busy w ∧ decode w = .error r ∧
      engineTurn s = .next (s.fail { kind := .illegalCommand, info := w.toNat })) := by
  unfold engineTurn
  cases hp : s.phase with
  | idle => exact .inl ⟨rfl, rfl⟩
  | busy w =>
    cases hd : decode w with
    | ok i => exact .inr (.inl ⟨w, i, rfl, hd, by simp only [hd]⟩)
    | error r => exact .inr (.inr ⟨w, r, rfl, hd, by simp only [hd]; rfl⟩)

/-- Every step is a turn of the host, of the engine or of the reset input, on the state with that
turn taken off the schedule (R116, R410; log 5). -/
theorem step_cases (s : State) :
    ∃ rest, (step s = .next (State.hostTurn { s with schedule := rest }) ∧
        (s.schedule = .host :: rest ∨ (s.schedule = [] ∧ rest = [] ∧ s.busy = false))) ∨
      (step s = engineTurn { s with schedule := rest } ∧
        (s.schedule = .engine :: rest ∨ (s.schedule = [] ∧ rest = [] ∧ s.busy = true))) ∨
      (step s = .next (State.resetBlock { s with schedule := rest }) ∧
        s.schedule = .reset :: rest) := by
  have same : s.schedule = [] → { s with schedule := [] } = s := fun h => by rw [← h]
  unfold step
  match hs : s.schedule with
  | .host :: rest => exact ⟨rest, .inl ⟨rfl, .inl rfl⟩⟩
  | .engine :: rest => exact ⟨rest, .inr (.inl ⟨rfl, .inl rfl⟩)⟩
  | .reset :: rest => exact ⟨rest, .inr (.inr ⟨rfl, rfl⟩)⟩
  | [] =>
    refine ⟨[], ?_⟩
    rw [same hs]
    cases hb : s.busy with
    | false => exact .inl ⟨rfl, .inr ⟨rfl, rfl, rfl⟩⟩
    | true => exact .inr (.inl ⟨rfl, .inr ⟨rfl, rfl, rfl⟩⟩)

/-- A turn of the host leaves everything but its own side alone, or is one access with the answer
handed to the host (R100). -/
theorem hostTurn_cases (s : State) :
    (∃ h, s.hostTurn = { s with host := h }) ∨
      ∃ t h, s.hostTurn = { (s.access t).2 with host := h } := by
  unfold State.hostTurn
  split
  · exact .inl ⟨s.host, rfl⟩
  · exact .inr ⟨_, _, rfl⟩
  · split <;> exact .inr ⟨readWord (regAddr .status), _, rfl⟩
  · exact .inl ⟨_, rfl⟩
  · exact .inr ⟨readWord _, _, rfl⟩

/-! ## Between two commands -/

theorem handedOn_refl (s : State) : s.handedOn s := rfl

/-- Writes of STATUS, INT_EN and CMD touch no command's input (R38, R39, R180, R181). -/
theorem handedOn_write {s : State} {r : Reg} (h : r = .status ∨ r = .intEn ∨ r = .cmd) (v : Word) :
    s.handedOn (s.access (writeWord (regAddr r) v)).2 := by
  rw [access_write_reg]
  rcases h with rfl | rfl | rfl <;> split <;> rfl

/-- Nor does a read (R113). -/
theorem handedOn_read {s : State} {t : Transaction} (h : t.kind = .read) :
    s.handedOn (s.access t).2 := by
  unfold State.access State.memRead
  split
  · simp only [h]
    split
    · split <;> rfl
    · split <;> rfl
    · rfl
  · rfl

/-- One step of a run. -/
theorem run_of_step (M : Host.Core) (k : Nat) (s t : M.State) (h : M.step s = .next t) :
    M.run (k + 1) s = M.run k t := by
  simp only [Host.Core.run, h]

theorem run_succ (k : Nat) (s t : State) (h : step s = .next t) :
    Host.Core.run Sys2Proof.core (k + 1) s = Host.Core.run Sys2Proof.core k t :=
  run_of_step Sys2Proof.core k s t h

end Sys2Proof.Machine
end

