-- ==== Sys2Proof/Tests/Slice0.lean ====
section
/-! SUPPORT. Tests: ill-formed words and configurations, command words written out from
spec/30_encoding.md R140 and R141, vectors of spec/95_test_vectors.md (named in each comment), and
for every statement with hypotheses a state and operands that meet them. -/

namespace Sys2Proof.Tests

open Sys2Proof Sys2Proof.Machine

/-! ## Small states -/

/-- The state after reset with CFG, DIM and the first samples set. -/
def grid (alpha eosEn : Bool) (h w : Nat) (xs : List Nat) : State :=
  State.putSamples
    { State.reset with
      cfg := { alpha := alpha, eosEn := eosEn }
      height := BitVec.ofNat 16 h
      width := BitVec.ofNat 16 w } xs

/-- RB and RUN_COUNT set. -/
def withRuns (s : State) (rs : List (Nat × Nat)) : State :=
  { s.putPairs .rb rs with runCount := BitVec.ofNat 32 rs.length }

/-- CB and CODE_COUNT set. -/
def withCodes (s : State) (cs : List Nat) : State :=
  { s.putBytes .cb 0 (numBytes cs) with codeCount := BitVec.ofNat 32 cs.length }

/-- FT and FREQ_COUNT set. -/
def withTable (s : State) (ft : List (Nat × Nat)) : State :=
  { s.putPairs .ft ft with freqCount := BitVec.ofNat 9 ft.length }

/-- ND, NODE_COUNT, ROOT and TREE_VALID set. -/
def withTree (s : State) (nds : List Node) : State :=
  State.markTree
    { s.putNodes nds with
      nodeCount := BitVec.ofNat 10 nds.length
      root := BitVec.ofNat 10 (nds.length - 1) }

/-- Some entries of CT, and CODES_VALID, set. -/
def withCodeTable (s : State) (cs : List (Nat × Code)) : State :=
  State.markCodes { s with ct := cs.flatMap fun p => codeCells p.1 p.2 }

/-- BB, BYTE_LEN and PAD set. -/
def withStream (s : State) (bs : List Byte) (pad : Nat) : State :=
  { s.putBytes .bb 0 bs with
    byteLen := BitVec.ofNat 32 bs.length
    pad := BitVec.ofNat 3 pad }

/-- DICT_CAP set. -/
def withDictCap (s : State) (cap : Nat) : State :=
  { s with params := { s.params with dictCap := cap } }

/-- BIT_CAP set. -/
def withBitCap (s : State) (cap : Nat) : State :=
  { s with params := { s.params with bitCap := cap } }

/-- STATUS's valid bits set. -/
def withValid (s : State) : State := s.markTree.markCodes

/-- The engine running a word. -/
def running (w : Word) : State := State.reset.accept w

/-- The state a command ends in. -/
def outcome (i : Instr) (s : State) : State :=
  match exec i s with
  | .next t => t
  | .fault _ => s
  | .refused _ => s

/-- The state a step ends in. -/
def stepped (s : State) : State :=
  match step s with
  | .next t => t
  | .fault _ => s
  | .refused _ => s

/-- A failure's code and info, or none. -/
def failure (s : State) : Option (Nat × Nat) :=
  if s.status.err then some (s.status.errcode.toNat, s.errInfo.toNat) else none

theorem exec_outcome (i : Instr) (s : State) : exec i s = .next (outcome i s) := by
  obtain ⟨u, h | ⟨e, -, h⟩, -⟩ := exec_completes i s <;> simp [outcome, h]

/-- A leaf. -/
def leaf (x f : Nat) : Node :=
  { isLeaf := true, symbol := x, freq := f, left := noNode, right := noNode }

/-- The table of vector T1. -/
def tableT1 : List (Nat × Nat) := [(5, 4), (256, 1)]

/-- The tree of vector T1, as spec/95_test_vectors.md writes it. -/
def treeT1 : List Node := [leaf 5 4, leaf 256 1, mergeNode 5 1 0]

/-- The codes of vector T1. -/
def codesT1 : List (Nat × Code) :=
  [(5, { valid := true, len := 1, code := 1 }), (256, { valid := true, len := 1, code := 0 })]

/-- The tree of vector T3. -/
def treeT3 : List Node := [leaf 1 3, mergeNode 3 0 noNode]

/-! ## Well-formedness -/

theorem test_reserved_bits_are_ill_formed : CommandWord.wellFormed 0x00000010 = false := by decide

theorem test_reserved_opcode_is_ill_formed : CommandWord.wellFormed 0x0000000A = false := by decide

theorem test_last_opcode_is_well_formed : CommandWord.wellFormed 0x00000009 = true := by decide

theorem test_no_samples_is_ill_formed :
    Params.wellFormed { Config.reference with maxSamples := 0 } = false := by decide

theorem test_too_many_samples_is_ill_formed :
    Params.wellFormed { Config.reference with maxSamples := 2 ^ 25 + 1 } = false := by decide

theorem test_short_dictionary_is_ill_formed :
    Params.wellFormed { Config.reference with dictCap := 255 } = false := by decide

theorem test_long_dictionary_is_ill_formed :
    Params.wellFormed { Config.reference with dictCap := 2 ^ 25 + 1 } = false := by decide

theorem test_no_bit_buffer_is_ill_formed :
    Params.wellFormed { Config.reference with bitCap := 0 } = false := by decide

theorem test_long_bit_buffer_is_ill_formed :
    Params.wellFormed { Config.reference with bitCap := 2 ^ 28 + 1 } = false := by decide

theorem test_reference_is_well_formed : Params.wellFormed Config.reference = true := by decide

/-! ## Decoding: RSVD (28 bits), then OPCODE (4 bits) -/

theorem test_decode_nop : decodeTableWord 32 0b0000000000000000000000000000_0000 = some .nop := by
  decide

theorem test_decode_rleEnc :
    decodeTableWord 32 0b0000000000000000000000000000_0001 = some .rleEnc := by decide

theorem test_decode_rleDec :
    decodeTableWord 32 0b0000000000000000000000000000_0010 = some .rleDec := by decide

theorem test_decode_lzwEnc :
    decodeTableWord 32 0b0000000000000000000000000000_0011 = some .lzwEnc := by decide

theorem test_decode_lzwDec :
    decodeTableWord 32 0b0000000000000000000000000000_0100 = some .lzwDec := by decide

theorem test_decode_hufFreq :
    decodeTableWord 32 0b0000000000000000000000000000_0101 = some .hufFreq := by decide

theorem test_decode_hufTree :
    decodeTableWord 32 0b0000000000000000000000000000_0110 = some .hufTree := by decide

theorem test_decode_hufCodes :
    decodeTableWord 32 0b0000000000000000000000000000_0111 = some .hufCodes := by decide

theorem test_decode_hufPack :
    decodeTableWord 32 0b0000000000000000000000000000_1000 = some .hufPack := by decide

theorem test_decode_hufUnpack :
    decodeTableWord 32 0b0000000000000000000000000000_1001 = some .hufUnpack := by decide

theorem test_decode_reserved :
    decodeTableWord 32 0b0000000000000000000000000000_1010 = none ∧
      decodeTableWord 32 0b1000000000000000000000000000_0001 = none := by decide

/-! ## One step of each command (spec/95_test_vectors.md) -/

/-- Program 5 (a): the NOP completes with STATUS 0x00000002. -/
theorem test_nop : (stepped (State.reset.withFetchWord 32 0)).statusWord = 0x00000002 := by decide

/-- RE4: a run spans the row boundary. -/
theorem test_rleEnc_row_boundary :
    (outcome .rleEnc (grid true true 2 3 [9, 9, 9, 4, 4, 9])).runs = [(9, 3), (4, 2), (9, 1)] := by
  decide

/-- RE5. -/
theorem test_rleEnc_alphabet :
    failure (outcome .rleEnc (grid false true 1 3 [0, 2, 3])) = some (3, 1) := by decide

/-- RD11: a count-0 run and equal adjacent values. -/
theorem test_rleDec_zero_run :
    (outcome .rleDec (withRuns (grid true true 1 4 []) [(3, 0), (3, 2), (3, 2)])).samples =
      [3, 3, 3, 3] := by decide

/-- RD17: the sum is exact. -/
theorem test_rleDec_no_wrap :
    failure (outcome .rleDec (withRuns (grid true true 1 4 []) [(1, 0xFFFFFFFF)])) =
      some (2, 0) := by decide

/-- L2. -/
theorem test_lzwEnc_binary :
    let t := outcome .lzwEnc (grid false false 1 8 [0, 0, 0, 0, 1, 1, 0, 1])
    t.codes = [0, 2, 0, 1, 1, 4] ∧ t.dictSize = 7 ∧
      (List.range 5).map (fun j => t.dictAt (2 + j)) =
        [(0, 0), (2, 0), (0, 1), (1, 1), (1, 0)] := by decide

/-- L8: no room past the seeds. -/
theorem test_lzwEnc_full :
    failure (outcome .lzwEnc (withDictCap (grid true true 1 2 [1, 2]) 256)) = some (4, 1) := by
  decide

/-- L12: the KwKwK case, and the entry after it. -/
theorem test_lzwDec_kwkwk :
    let t := outcome .lzwDec (withCodes (grid true true 1 4 []) [65, 256, 65])
    t.samples = [65, 65, 65, 65] ∧ t.dictAt 257 = (256, 65) ∧ t.dictSize = 258 := by
  decide +kernel

/-- L19: the output would pass n. -/
theorem test_lzwDec_too_long :
    failure (outcome .lzwDec (withCodes (grid true true 1 4 []) [65, 256, 66, 66])) =
      some (2, 3) := by decide

/-- H5. -/
theorem test_hufFreq_binary :
    let t := outcome .hufFreq (withValid (grid false true 2 4 [0, 0, 1, 0, 1, 0, 0, 0]))
    t.table = [(0, 6), (1, 2), (256, 1)] ∧ t.status.treeValid = false ∧
      t.status.codesValid = false := by decide

/-- H6: a failure clears the valid bits. -/
theorem test_hufFreq_failure :
    let t := outcome .hufFreq (withValid (grid false false 1 3 [0, 5, 1]))
    failure t = some (3, 1) ∧ t.status.treeValid = false ∧ t.status.codesValid = false := by
  decide

/-- T4: at the second merge the leaf comes before the node of the same frequency. -/
theorem test_hufTree_tie :
    (outcome .hufTree
        (withTable (grid true true 0 0 []) [(1, 3), (2, 2), (3, 1), (256, 1)])).nodes.drop 4 =
      [mergeNode 2 2 3, mergeNode 4 1 4, mergeNode 7 0 5] := by decide

/-- T17: the total does not wrap. -/
theorem test_hufTree_total :
    failure (outcome .hufTree (withTable (grid true true 0 0 []) [(5, 0xFFFFFFFF), (256, 1)])) =
      some (2, 2) := by decide

/-- T1. -/
theorem test_hufCodes_two_leaves :
    let t := outcome .hufCodes (withTree (grid true true 1 4 []) treeT1)
    t.codeEntry 5 = { valid := true, len := 1, code := 1 } ∧
      t.codeEntry 256 = { valid := true, len := 1, code := 0 } ∧
      t.codeEntry 6 = { valid := false, len := 0, code := 0 } := by decide +kernel

/-- T3: one leaf has the code "0". -/
theorem test_hufCodes_one_leaf :
    (outcome .hufCodes (withTree (grid false false 1 3 []) treeT3)).codeEntry 1 =
      { valid := true, len := 1, code := 0 } := by decide

/-- P1. -/
theorem test_hufPack_padding :
    let t := outcome .hufPack (withCodeTable (grid true true 1 4 [5, 5, 5, 5]) codesT1)
    t.byte .bb 0 = 0xF0 ∧ t.bitLen = 5 ∧ t.pad = 3 ∧ t.byteLen = 1 := by decide

/-- P13: the end-of-stream code does not fit. -/
theorem test_hufPack_full :
    failure (outcome .hufPack
        (withBitCap (withCodeTable (grid true true 1 8 (List.replicate 8 5)) codesT1) 1)) =
      some (4, 8) := by decide

/-- U1. -/
theorem test_hufUnpack :
    (outcome .hufUnpack
        (withStream (withTree (grid true true 1 4 []) treeT1) [0xF0] 3)).samples =
      [5, 5, 5, 5] := by decide

/-- U10: the missing child. -/
theorem test_hufUnpack_missing_child :
    failure (outcome .hufUnpack
        (withStream (withTree (grid false false 1 3 []) treeT3) [0x20] 5)) = some (2, 2) := by
  decide

/-! ## Registers, bus and host program (spec/95_test_vectors.md Part 3 and 30_encoding.md) -/

/-- B3. -/
theorem test_freqCount_width :
    ((State.reset.access (writeWord 0x2C 0xFFFFFFFF)).2.access (readWord 0x2C)).1 =
      .data 0x1FF := by decide

/-- B10: a write past the used bytes of window 1 clears the valid bits. -/
theorem test_window1_clears :
    ((withValid State.reset).access (writeWord 0x10001000 0)).2.statusWord = 0 := by decide

/-- B11. -/
theorem test_status_ack :
    (State.access { State.reset with status :=
        { State.reset.status with
          done := true, treeValid := true, dropped := true, lastOp := 6 } }
      (writeWord 0x10 0x22)).2.statusWord = 0x00006008 := by decide

/-- B13. -/
theorem test_ld_bytes :
    HostLine.expand (.ldBytes (.window .sb 0) [1, 2, 3, 4, 5]) =
      [.access (writeWord 0x50000000 0x04030201) none,
        .access (writeWord 0x50000004 0x00000005) none] := by decide

/-- Program 3: the host's writes for a Huffman container. -/
theorem test_huffman_container :
    HuffmanContainer.load
        { height := 1, width := 4, table := tableT1, padding := some 3,
          bits := [true, true, true, true, false, false, false, false] } =
      some (programOps
        [.wr (.reg .dim) 0x00010004, .wr (.ftSymbol 0) 5, .wr (.ftCount 0) 4,
          .wr (.ftSymbol 1) 0x100, .wr (.ftCount 1) 1, .wr (.reg .freqCount) 2,
          .wr (.window .bb 0) 0xF0, .wr (.reg .byteLen) 1, .wr (.reg .pad) 3]) := by
  decide

/-- The shorthands of Programs 1 to 4 and the addresses beside them. -/
theorem test_address_shorthands :
    [HostAddr.rbValue 0, .rbCount 0, .rbValue 1, .rbCount 1, .ftSymbol 1, .ftCount 1, .ndLeft 2,
        .ndRight 2, .ctLen 5, .ctCode0 5, .ctCode0 256, .dtPrefix 256, .dtSymbol 256,
        .reg .root].map HostAddr.word =
      [0x60000000, 0x60000004, 0x60000008, 0x6000000C, 0x10000008, 0x1000000C, 0x2000004C,
        0x20000050, 0x30000144, 0x30000160, 0x30004020, 0x40000800, 0x40000804, 0x34] := by
  decide

/-! ## Witnesses: states and operands that meet the hypotheses of the statements

Each is named after its statement. A statement with several clauses has one for each, at a boundary
value of its range. -/

/-- MAX_SAMPLES set. -/
def withMaxSamples (s : State) (m : Nat) : State :=
  { s with params := { s.params with maxSamples := m } }

/-- A turn for every step of the schedule. -/
def scheduled (s : State) (turns : List Turn) : State := { s with schedule := turns }

/-- The host's operations set. -/
def withProgram (s : State) (ops : List HostOp) : State :=
  { s with host := { s.host with program := ops } }

/-- Table and tree of vector T1. -/
def builtT1 : State := withTree (withTable (grid true true 1 4 [5, 5, 5, 5]) tableT1) treeT1

/-- Table and tree of vector T3, the one leaf. -/
def builtT3 : State := withTree (withTable (grid false false 1 3 [1, 1, 1]) [(1, 3)]) treeT3

/-- Table, tree and codes of vector T1. -/
def codedT1 : State := builtT1.storeCodeTable

/-- Table of vector T4. -/
def tabledT4 : State := withTable (grid true true 0 0 []) [(1, 3), (2, 2), (3, 1), (256, 1)]

theorem exec_stepped (s : State) (i : Instr) (w : Word) (h : s.phase = .busy w)
    (hs : s.schedule = []) (hd : decode w = .ok i) : step s = .next (outcome i s) := by
  simp [step, hs, State.busy, h, engineTurn, hd, exec_outcome]

theorem treeOk_builtT1 : builtT1.treeOk ∧ builtT1.status.treeValid = true := by
  refine ⟨?_, by decide⟩
  unfold State.treeOk
  decide

theorem treeOk_builtT3 : builtT3.treeOk ∧ builtT3.status.treeValid = true := by
  refine ⟨?_, by decide⟩
  unfold State.treeOk
  decide

theorem treeOk_codedT1 : codedT1.treeOk ∧ codedT1.status.treeValid = true := by
  refine ⟨?_, rfl⟩
  unfold State.treeOk
  decide

theorem codesOk_codedT1 : codedT1.codesOk ∧ codedT1.status.codesValid = true := by
  refine ⟨fun _ => ⟨rfl, fun x hx => ?_⟩, rfl⟩
  rw [codedT1, codeEntry_storeCodeTable _ hx]
  rfl

theorem witness_DecodeEncodeAgree :
    Instr.wellFormed .hufUnpack = true ∧ decode 0x00000009 = .ok .hufUnpack := by decide

theorem witness_IllegalWordsCompleteWithTheWord :
    (running 0x00000010).phase = .busy 0x00000010 ∧ 16 ≤ (0x00000010 : Word).toNat ∧
      (running 0x0000000A).phase = .busy 0x0000000A ∧ 10 ≤ (0x0000000A : Word).toNat % 16 := by
  decide

theorem witness_StepRunsTheAcceptedCommand :
    (running 9).phase = .busy 9 ∧ decode 9 = .ok .hufUnpack ∧ (running 9).schedule = [] ∧
      (scheduled (running 9) [.engine, .host]).schedule = .engine :: [.host] := by decide

/-- An access with a name, a wait while BUSY and while idle, a stop after a STATUS value with ERR = 1
and after one without, and a test. -/
theorem witness_HostTurnPerformsOneTransaction :
    let turnOf := fun (s : State) (op : HostOp) => scheduled (withProgram s [op, .wait none]) [.host]
    let after := fun v : Word =>
      let s := turnOf State.reset (.stopOnErr 1)
      { s with host := { s.host with replies := [.data v] } }
    ([HostOp.access (readWord 0x00) (some "x"), .access (writeWord 0x0C 1) none, .wait (some "s"),
        .stopOnErr 1, .expect 0x00 0x434F5245].all fun op =>
      (turnOf State.reset op).host.program = op :: [.wait none] ∧
        (turnOf State.reset op).schedule = .host :: [] ∧ (turnOf State.reset op).busy = false ∧
        (turnOf (running 1) op).busy = true) = true ∧
    (scheduled State.reset [.host]).host.program = [] ∧
    (after 0x00001006).host.program = .stopOnErr 1 :: [.wait none] ∧
    (after 0x00001006).host.replies = .data 0x00001006 :: [] ∧
    (0x00001006 : Word).getLsbD 2 = true ∧
    (after 0x00001002).host.replies = .data 0x00001002 :: [] ∧
    (0x00001002 : Word).getLsbD 2 = false := by decide

theorem witness_IdleCommandWriteIsAccepted : State.reset.phase = .idle := by decide

theorem witness_BusyCommandWriteIsDropped : (running 1).phase = .busy 1 := by decide

theorem witness_BusyWritesAreIgnored :
    (running 1).busy = true ∧
      ([0x00000008, 0x00000018, 0x50000000, 0xFFFFFFFC].all fun a : Word =>
        let t := writeWord a 5
        t.kind = .write ∧ t.size = .four ∧ t.addr.toNat % 4 = 0 ∧ t.addr ≠ 0x0000000C ∧
          t.addr ≠ 0x00000010 ∧ t.addr ≠ 0x00000014) = true := by decide

theorem witness_IllegalAccessesHaveNoEffect :
    ({ readWord 0x50000000 with size := .one } : Transaction).size ≠ .four ∧
      (readWord 0x50000002).addr.toNat % 4 ≠ 0 ∧ (readWord 0x50000004).size = .four ∧
      (readWord 0x50000004).addr.toNat % 4 = 0 := by decide

theorem witness_StatusIsWriteOneToClear : (running 1).busy = true := by decide

theorem witness_ReadsHaveNoSideEffects :
    (readWord 0x50000000).kind = .read ∧ State.reset.busy = false ∧ (running 1).busy = true := by
  decide

/-- Each window's first and last word, the last used word of SB, and the first words past it. -/
theorem witness_WindowWriteThenRead :
    State.reset.busy = false ∧
    ([0, 4092, 4096, 0x0FFFFFFC].all fun o : Nat => o % 4 = 0 ∧ o < 2 ^ 28) = true ∧
    ([Buf.ft, .sb, .rb, .cb, .bb].all fun b => b ≠ .nd ∧ b ≠ .ct ∧ b ≠ .dt) = true ∧
    4092 + 4 ≤ State.reset.params.maxSamples ∧ State.reset.params.maxSamples ≤ 4096 ∧
    Buf.sb ≠ .ft ∧ Reg.cfg ≠ .status := by decide

/-- The addresses, in a state of each phase. -/
theorem witness_ReadOnlyAndReservedPlaces :
    State.reset.busy = false ∧ (running 1).busy = true ∧
      ([0x20000000, 0x4FFFFFFC].all fun a : Word =>
        a.toNat % 4 = 0 ∧ 0x20000000 ≤ a.toNat ∧ a.toNat < 0x50000000) = true ∧
      ([0x90000000, 0xFFFFFFFC, 0x1C, 0x50, 0x0FFFFFFC].all fun a : Word =>
        a.toNat % 4 = 0 ∧ (0x90000000 ≤ a.toNat ∨ a = 0x1C ∨
          (0x50 ≤ a.toNat ∧ a.toNat < 0x10000000))) = true := by decide

theorem witness_RegistersReadBack :
    State.reset.busy = false ∧ (running 1).busy = true ∧ (running 1).phase = .busy 1 ∧
      ([Reg.dim, .cfg, .freqCount].all fun r => r ≠ .cmd ∧ r ≠ .status) = true ∧
      Reg.cfg ≠ .dim ∧ Reg.status ≠ .dim ∧ Reg.dim ≠ .cfg ∧ Reg.dim ≠ .freqCount := by decide

theorem witness_BusyWindowReadsAreDraws :
    (running 1).busy = true ∧
      ([0x10000000, 0x8FFFFFFC].all fun a : Word =>
        a.toNat % 4 = 0 ∧ 0x10000000 ≤ a.toNat ∧ a.toNat < 0x90000000) = true := by
  decide

theorem witness_ResetTurnRestoresRegisters :
    (scheduled (running 1) [.reset]).schedule = .reset :: [] := by decide

theorem witness_InterruptFollowsDone :
    (running 0).busy = true ∧ State.reset.doneIe = false ∧ State.reset.phase = .idle ∧
      (0x00000002 : Word).getLsbD 1 = true ∧ (0x00000001 : Word).getLsbD 0 = true ∧
      (0x00000000 : Word).getLsbD 0 = false := by decide

theorem witness_EveryCommandCompletes :
    (outcome .nop State.reset).status.err = false ∧
      (outcome .rleEnc State.reset).status.err = true := by decide

/-- H = 0, W = 0, and the first sample count past MAX_SAMPLES, with the valid bits set. -/
theorem witness_DimensionCheckComesFirst :
    let s := withValid (grid true true 0 3 [])
    let t := withValid (grid true true 3 0 [])
    let u := withValid (grid true true 17 241 [])
    s.height = 0 ∧ t.width = 0 ∧
      (u.height ≠ 0 ∧ u.width ≠ 0 ∧ u.params.maxSamples + 1 = u.height.toNat * u.width.toNat) ∧
      s.status.codesValid = true ∧ s.status.treeValid = true ∧
      u.status.codesValid = true ∧ u.status.treeValid = true ∧
      (grid true true 0 3 []).height = 0 ∧
      (grid true true 0 3 []).status.codesValid = false ∧
      (grid true true 0 3 []).status.treeValid = false := by decide

/-- Vector RE5. -/
theorem witness_PreScanReportsTheLowestBadSample :
    let s := withValid (grid false true 1 3 [0, 2, 3])
    s.height ≠ 0 ∧ s.width ≠ 0 ∧ s.n ≤ s.params.maxSamples ∧ 1 < s.n ∧ s.amax < s.sample 1 ∧
      (∀ j, j < 1 → s.sample j ≤ s.amax) ∧ s.status.codesValid = true ∧
      (grid true true 1 3 []).cfg.alpha = true := by decide

theorem witness_SequenceErrorsWinOverOtherErrors :
    State.reset.status.treeValid = false ∧ State.reset.status.codesValid = false := by decide

theorem witness_DecodersCheckTheirCounts :
    let s := withValid (grid true true 64 64 [])
    let t : State := { s with runCount := 4097, codeCount := 4097, byteLen := 8193 }
    s.height ≠ 0 ∧ s.width ≠ 0 ∧ s.n ≤ s.params.maxSamples ∧ s.runCount = 0 ∧ s.codeCount = 0 ∧
      s.byteLen = 0 ∧ s.status.treeValid = true ∧
      t.height ≠ 0 ∧ t.width ≠ 0 ∧ t.n ≤ t.params.maxSamples ∧
      t.params.maxSamples < t.runCount.toNat ∧ t.runCount ≠ 0 ∧
      t.params.maxSamples < t.codeCount.toNat ∧ t.codeCount ≠ 0 ∧
      t.params.bitCap < t.byteLen.toNat ∧ t.byteLen ≠ 0 ∧ t.status.treeValid = true := by decide

/-- A grid of MAX_SAMPLES samples, which both runs and a dictionary just large enough hold. -/
theorem witness_RleEncStoresMaximalRuns :
    let s := withMaxSamples (grid false false 2 2 [0, 1, 1, 1]) 4
    s.height ≠ 0 ∧ s.width ≠ 0 ∧ s.n ≤ s.params.maxSamples ∧
      ∀ x ∈ s.samples, x ≤ s.amax := by decide

/-- Vector RD10. -/
theorem witness_RleDecReplaysRuns :
    let s := withRuns (grid false false 2 2 []) [(0, 1), (1, 3)]
    s.height ≠ 0 ∧ s.width ≠ 0 ∧ s.n ≤ s.params.maxSamples ∧ s.runCount ≠ 0 ∧
      s.runCount.toNat ≤ s.params.maxSamples ∧ (∀ r ∈ s.runs, r.1 ≤ s.amax) ∧
      (s.runs.map (·.2)).sum = s.n := by decide

/-- Vectors RD16, RD14 and RD15, a clause each. -/
theorem witness_RleDecReportsTheFirstFault :
    let s := withRuns (grid false false 1 2 []) [(2, 2)]
    let t := withRuns (grid true true 1 4 []) [(3, 2), (4, 3)]
    let u := withRuns (grid true true 1 4 []) [(3, 2), (4, 1)]
    (s.height ≠ 0 ∧ s.width ≠ 0 ∧ s.n ≤ s.params.maxSamples ∧ s.runCount ≠ 0 ∧
      s.runCount.toNat ≤ s.params.maxSamples ∧ s.runs[0]? = some (2, 2) ∧
      (∀ r ∈ s.runs.take 0, r.1 ≤ s.amax) ∧ ((s.runs.take 0).map (·.2)).sum ≤ s.n ∧
      s.amax < 2) ∧
    (t.height ≠ 0 ∧ t.width ≠ 0 ∧ t.n ≤ t.params.maxSamples ∧ t.runCount ≠ 0 ∧
      t.runCount.toNat ≤ t.params.maxSamples ∧ t.runs[1]? = some (4, 3) ∧
      (∀ r ∈ t.runs.take 1, r.1 ≤ t.amax) ∧ ((t.runs.take 1).map (·.2)).sum ≤ t.n ∧
      4 ≤ t.amax ∧ t.n < ((t.runs.take 1).map (·.2)).sum + 3) ∧
    (u.height ≠ 0 ∧ u.width ≠ 0 ∧ u.n ≤ u.params.maxSamples ∧ u.runCount ≠ 0 ∧
      u.runCount.toNat ≤ u.params.maxSamples ∧ (∀ r ∈ u.runs, r.1 ≤ u.amax) ∧
      (u.runs.map (·.2)).sum < u.n ∧ 2 = u.runCount.toNat) := by decide

/-- Example 1. -/
theorem witness_RleIsLossless :
    let s := grid false false 2 2 [0, 1, 1, 1]
    exec .rleEnc s = .next (outcome .rleEnc s) ∧ (outcome .rleEnc s).status.err = false :=
  ⟨exec_outcome _ _, by decide⟩

/-- Two seeds. -/
theorem spells_seeds (a x y : Nat) (hx : x < a) (hy : y < a) :
    spellsCodes a [x, y] [[x], [y]] := by
  refine ⟨rfl, fun i c h => ?_⟩
  match i with
  | 0 => obtain rfl : x = c := by simpa using h
         exact ⟨fun _ => rfl, fun _ => by omega⟩
  | 1 => obtain rfl : y = c := by simpa using h
         exact ⟨fun _ => rfl, fun _ => by omega⟩
  | _ + 2 => simp at h

/-- A seed and the KwKwK case. -/
theorem spells_kwkwk (a x : Nat) (hx : x < a) : spellsCodes a [x, a] [[x], [x, x]] := by
  refine ⟨rfl, fun i c h => ?_⟩
  match i with
  | 0 => obtain rfl : x = c := by simpa using h
         exact ⟨fun _ => rfl, fun _ => by omega⟩
  | 1 => obtain rfl : a = c := by simpa using h
         exact ⟨fun _ => by omega, fun _ => ⟨0, [x], [x, x], by simp⟩⟩
  | _ + 2 => simp at h

/-- One seed. -/
theorem spells_seed (a x : Nat) (hx : x < a) : spellsCodes a [x] [[x]] := by
  refine ⟨rfl, fun i c h => ?_⟩
  match i with
  | 0 => obtain rfl : x = c := by simpa using h
         exact ⟨fun _ => rfl, fun _ => by omega⟩
  | _ + 1 => simp at h

/-- The room for every sample, used up; a success; and vector L3's grid, whose two codes leave room
for the one entry they insert and no more. -/
theorem witness_LzwEncCodesSpellTheGrid :
    let s := withDictCap (grid true true 1 4 [10, 20, 30, 40]) 259
    let u := withDictCap (grid true true 1 3 [65, 65, 65]) 257
    (s.height ≠ 0 ∧ s.width ≠ 0 ∧ s.n ≤ s.params.maxSamples ∧ (∀ x ∈ s.samples, x ≤ s.amax) ∧
      s.alphabet + s.n = s.params.dictCap + 1 ∧ Params.wellFormed s.params = true) ∧
    (exec .lzwEnc u = .next (outcome .lzwEnc u) ∧ (outcome .lzwEnc u).status.err = false ∧
      u.alphabet ≤ u.params.dictCap) ∧
    (u.height ≠ 0 ∧ u.width ≠ 0 ∧ u.n ≤ u.params.maxSamples ∧ (∀ x ∈ u.samples, x ≤ u.amax) ∧
      u.params.dictCap + 1 < u.alphabet + u.n) ∧
    spellsCodes u.alphabet [65, 256] [[65], [65, 65]] ∧ [[65], [65, 65]].flatten = u.samples ∧
    (phraseEntries [[65], [65, 65]]).Nodup ∧
    u.alphabet + [65, 256].length = u.params.dictCap + 1 :=
  ⟨by decide, ⟨exec_outcome _ _, by decide, by decide⟩, by decide,
    spells_kwkwk 256 65 (by decide), by decide, by decide, by decide⟩

/-- Vector L2. -/
theorem witness_LzwEncIsGreedy :
    let s := grid false false 1 8 [0, 0, 0, 0, 1, 1, 0, 1]
    let t := outcome .lzwEnc s
    exec .lzwEnc s = .next t ∧ t.status.err = false ∧ t.codes[0]? = some 0 ∧
      t.codes[0 + 1]? = some 2 ∧ 1 < s.alphabet + 0 := ⟨exec_outcome _ _, by decide⟩

/-- Vector L8, and vector L3's grid with one more sample: the second miss, at sample 3, finds no
room. -/
theorem witness_LzwEncFailsOnAFullDictionary :
    let s := withDictCap (grid true true 1 2 [1, 2]) 256
    let u := withDictCap (grid true true 1 4 [65, 65, 65, 66]) 257
    (s.height ≠ 0 ∧ s.width ≠ 0 ∧ s.n ≤ s.params.maxSamples ∧ (∀ x ∈ s.samples, x ≤ s.amax) ∧
      s.params.dictCap = s.alphabet ∧ 2 ≤ s.n) ∧
    (u.height ≠ 0 ∧ u.width ≠ 0 ∧ u.n ≤ u.params.maxSamples ∧ (∀ x ∈ u.samples, x ≤ u.amax) ∧
      1 ≤ 3 ∧ 3 < u.n) ∧
    spellsCodes u.alphabet [65, 256] [[65], [65, 65]] ∧
    [[65], [65, 65]].flatten = u.samples.take 3 ∧
    (phraseEntries ([[65], [65, 65]] ++ [[u.sample 3]])).Nodup ∧
    u.alphabet + [65, 256].length = u.params.dictCap + 1 :=
  ⟨by decide, by decide, spells_kwkwk 256 65 (by decide), by decide, by decide, by decide⟩

/-- Vector L13, the KwKwK case. -/
theorem witness_LzwDecSpellsItsCodes :
    let s := withCodes (grid false false 1 3 []) [1, 2]
    (s.height ≠ 0 ∧ s.width ≠ 0 ∧ s.n ≤ s.params.maxSamples ∧ s.codeCount ≠ 0 ∧
      s.codeCount.toNat ≤ s.params.maxSamples) ∧ spellsCodes s.alphabet s.codes [[1], [1, 1]] ∧
      [[1], [1, 1]].flatten.length = s.n ∧
      s.alphabet + s.codeCount.toNat ≤ s.params.dictCap + 1 := by
  refine ⟨by decide, ?_, by decide, by decide⟩
  have : (withCodes (grid false false 1 3 []) [1, 2]).codes = [1, 2] := by decide
  rw [this]
  exact spells_kwkwk 2 1 (by decide)

/-- The five clauses: vectors L16, L18, L13 with n = 2, L21 and L20. -/
theorem witness_LzwDecReportsTheFirstFault :
    let base := fun s : State => s.height ≠ 0 ∧ s.width ≠ 0 ∧ s.n ≤ s.params.maxSamples ∧
      s.codeCount ≠ 0 ∧ s.codeCount.toNat ≤ s.params.maxSamples
    let s1 := withCodes (grid true true 1 4 []) [300]
    let s2 := withCodes (grid false false 1 3 []) [1, 3]
    let s3 := withCodes (grid false false 1 2 []) [1, 2]
    let s4 := withDictCap (withCodes (grid true true 1 2 []) [1, 2]) 256
    let s5 := withCodes (grid true true 1 4 []) [65, 66]
    (base s1 ∧ s1.codes[0]? = some 300 ∧ s1.alphabet ≤ 300) ∧
    (base s2 ∧ s2.codes[1]? = some 3 ∧ s2.alphabet + 1 - 1 < 3 ∧
      spellsCodes s2.alphabet (s2.codes.take 1) [[1]] ∧ [[1]].flatten.length ≤ s2.n ∧
      s2.alphabet + 1 ≤ s2.params.dictCap + 1) ∧
    (base s3 ∧ 1 < s3.codeCount.toNat ∧
      spellsCodes s3.alphabet (s3.codes.take (1 + 1)) [[1], [1, 1]] ∧
      ([[1], [1, 1]].take 1).flatten.length ≤ s3.n ∧ s3.alphabet + 1 ≤ s3.params.dictCap + 1 ∧
      s3.n < [[1], [1, 1]].flatten.length) ∧
    (base s4 ∧ 1 < s4.codeCount.toNat ∧
      spellsCodes s4.alphabet (s4.codes.take (1 + 1)) [[1], [2]] ∧
      ([[1], [2]].take 1).flatten.length ≤ s4.n ∧
      [[1], [2]].flatten.length ≤ s4.n ∧ s4.alphabet + 1 = s4.params.dictCap + 1) ∧
    (base s5 ∧ 2 = s5.codeCount.toNat ∧ spellsCodes s5.alphabet s5.codes [[65], [66]] ∧
      [[65], [66]].flatten.length < s5.n ∧ s5.alphabet + 2 ≤ s5.params.dictCap + 1) := by
  intro base s1 s2 s3 s4 s5
  have e2 : s2.codes.take 1 = [1] := by decide
  have e3 : s3.codes.take (1 + 1) = [1, 2] := by decide
  have e4 : s4.codes.take (1 + 1) = [1, 2] := by decide
  have e5 : s5.codes = [65, 66] := by decide
  rw [e2, e3, e4, e5]
  exact ⟨by decide, ⟨by decide, by decide, by decide, spells_seed 2 1 (by decide), by decide⟩,
    ⟨by decide, by decide, spells_kwkwk 2 1 (by decide), by decide⟩,
    ⟨by decide, by decide, spells_seeds 256 1 2 (by decide) (by decide), by decide⟩,
    ⟨by decide, by decide, spells_seeds 256 65 66 (by decide) (by decide), by decide⟩⟩

/-- Vector L3. -/
theorem witness_LzwIsLossless :
    let s := grid true true 1 3 [65, 65, 65]
    Params.wellFormed s.params = true ∧ exec .lzwEnc s = .next (outcome .lzwEnc s) ∧
      (outcome .lzwEnc s).status.err = false :=
  ⟨by decide, exec_outcome _ _, by decide⟩

/-- Vector H1. -/
theorem witness_HufFreqTalliesTheGrid :
    let s := grid true true 1 4 [5, 5, 5, 5]
    s.height ≠ 0 ∧ s.width ≠ 0 ∧ s.n ≤ s.params.maxSamples ∧
      ∀ x ∈ s.samples, x ≤ s.amax := by decide

/-- The alphabets; an empty table and one of too many entries; a first bad entry for each of the three
causes; no end-of-stream entry; a total of 2^32. -/
theorem witness_TableCheckAcceptsExactly :
    let good := fun (ft : List (Nat × Nat)) (i : Nat) (e : Nat × Nat) =>
      (e.1 < 2 ∨ e.1 = 256) ∧ e.1 ∉ (ft.take i).map (·.1) ∧ 1 ≤ e.2
    1 ≤ 2 ∧ 1 ≤ 256 ∧ 2 + true.toNat < [(0, 1), (1, 1), (256, 1), (256, 1)].length ∧
    (good [(0, 1), (2, 1)] 0 (0, 1) ∧ ¬ good [(0, 1), (2, 1)] 1 (2, 1)) ∧
    (good [(0, 1), (0, 1)] 0 (0, 1) ∧ ¬ good [(0, 1), (0, 1)] 1 (0, 1)) ∧
    (good [(0, 1), (1, 0)] 0 (0, 1) ∧ ¬ good [(0, 1), (1, 0)] 1 (1, 0)) ∧
    (good [(0, 1)] 0 (0, 1) ∧ 256 ∉ [(0, 1)].map (·.1)) ∧
    (good [(0, 0xFFFFFFFF), (256, 1)] 0 (0, 0xFFFFFFFF) ∧
      good [(0, 0xFFFFFFFF), (256, 1)] 1 (256, 1) ∧
      2 ^ 32 - 1 < ([(0, 0xFFFFFFFF), (256, 1)].map (·.2)).sum) := by decide

/-- Vectors T10 and T17. -/
theorem witness_HufTreeFailureKeepsTheArena :
    State.reset.treeCheck = some { kind := .corruptStream, info := 0 } ∧
      (withTable (grid true true 0 0 []) [(5, 0xFFFFFFFF), (256, 1)]).treeCheck =
        some { kind := .corruptStream, info := 2 } := by decide

/-- Vectors T4 and T3, the one leaf. -/
theorem witness_HufTreeBuildsTheArena :
    tabledT4.treeCheck = none ∧ tabledT4.freqCount.toNat = 4 ∧
      (withTable (grid false false 1 3 []) [(1, 3)]).treeCheck = none ∧
      (withTable (grid false false 1 3 []) [(1, 3)]).freqCount.toNat = 1 := by decide

/-- Vector T4: the second merge, with leaf 0 left over. -/
theorem witness_MergeTakesTheTwoLeastKeys :
    let t := outcome .hufTree tabledT4
    exec .hufTree tabledT4 = .next t ∧ t.status.err = false ∧ 2 ≤ tabledT4.freqCount.toNat ∧
      tabledT4.freqCount.toNat ≤ 5 ∧ 5 < t.nodeCount.toNat ∧ (t.nodeAt 5).left ≠ 0 ∧
      (t.nodeAt 5).right ≠ 0 ∧ (t.nodeAt 4).left ≠ 0 ∧ (t.nodeAt 4).right ≠ 0 :=
  ⟨exec_outcome _ _, by decide⟩

theorem witness_MergeFrequenciesNeverDecrease :
    let t := outcome .hufTree tabledT4
    exec .hufTree tabledT4 = .next t ∧ t.status.err = false ∧ 2 ≤ tabledT4.freqCount.toNat ∧
      tabledT4.freqCount.toNat ≤ 5 ∧ 5 + 1 < t.nodeCount.toNat :=
  ⟨exec_outcome _ _, by decide⟩

theorem witness_EqualTablesGiveEqualTrees :
    let s := withTable (grid true true 1 4 [5, 5, 5, 5]) tableT1
    let s' := withTable (grid true true 9 9 []) tableT1
    s.cfg = s'.cfg ∧ s.table = s'.table ∧ exec .hufTree s = .next (outcome .hufTree s) ∧
      exec .hufTree s' = .next (outcome .hufTree s') ∧
      (outcome .hufTree s).status.err = false ∧ 0 < (outcome .hufTree s).nodeCount.toNat :=
  ⟨by decide, by decide, exec_outcome _ _, exec_outcome _ _, by decide⟩

theorem witness_HufCodesStoresThePaths :
    builtT1.status.treeValid = true ∧ builtT1.treeOk ∧ builtT3.status.treeValid = true ∧
      builtT3.treeOk :=
  ⟨treeOk_builtT1.2, treeOk_builtT1.1, treeOk_builtT3.2, treeOk_builtT3.1⟩

theorem witness_CodesArePrefixFree :
    let t := outcome .hufCodes builtT1
    builtT1.treeOk ∧ exec .hufCodes builtT1 = .next t ∧ t.status.err = false ∧
      (t.codeEntry 5).valid = true ∧ (t.codeEntry 256).valid = true :=
  ⟨treeOk_builtT1.1, exec_outcome _ _, by decide +kernel⟩

theorem witness_KraftSumIsExact :
    builtT1.treeOk ∧ exec .hufCodes builtT1 = .next (outcome .hufCodes builtT1) ∧
      (outcome .hufCodes builtT1).status.err = false ∧ 2 ≤ builtT1.freqCount.toNat ∧
      builtT3.treeOk ∧ exec .hufCodes builtT3 = .next (outcome .hufCodes builtT3) ∧
      (outcome .hufCodes builtT3).status.err = false ∧ builtT3.freqCount.toNat = 1 :=
  ⟨treeOk_builtT1.1, exec_outcome _ _, by decide, by decide, treeOk_builtT3.1,
    exec_outcome _ _, by decide, by decide⟩

/-- Vector P14: a stream that fills BB. -/
theorem witness_HufPackStoresTheStream :
    let s := withBitCap (withCodeTable (grid true true 1 7 (List.replicate 7 5)) codesT1) 1
    let payload := [true, true, true, true, true, true, true, false]
    Params.wellFormed s.params = true ∧ s.status.codesValid = true ∧ s.height ≠ 0 ∧
      s.width ≠ 0 ∧ s.n ≤ s.params.maxSamples ∧
      (∀ x ∈ s.samples, x ≤ s.amax ∧ (s.codeEntry x).valid = true) ∧
      payload = s.samples.flatMap (fun x => codeBits (s.codeEntry x)) ++
        (if s.cfg.eosEn then codeBits (s.codeEntry 256) else []) ∧
      payload.length ≤ 8 * s.params.bitCap := by decide

/-- Vectors P11 (symbol 6 has no code), P15 and P13, a clause each. -/
theorem witness_HufPackReportsTheFirstFault :
    let base := fun (s : State) (k : Nat) => s.status.codesValid = true ∧ s.height ≠ 0 ∧
      s.width ≠ 0 ∧ s.n ≤ s.params.maxSamples ∧ (∀ x ∈ s.samples, x ≤ s.amax) ∧
      (∀ x ∈ s.samples.take k, (s.codeEntry x).valid = true) ∧
      ((s.samples.take k).map fun x => (s.codeEntry x).len).sum ≤ 8 * s.params.bitCap
    let s1 := withCodeTable (grid true true 1 4 [5, 6, 5, 5])
      ((6, { valid := false, len := 0, code := 0 }) :: codesT1)
    let s2 := withBitCap (withCodeTable (grid true true 1 9 (List.replicate 9 5)) codesT1) 1
    let s3 := withBitCap (withCodeTable (grid true true 1 8 (List.replicate 8 5)) codesT1) 1
    (base s1 1 ∧ s1.samples[1]? = some 6 ∧ (s1.codeEntry 6).valid = false) ∧
    (base s2 8 ∧ s2.samples[8]? = some 5 ∧ (s2.codeEntry 5).valid = true ∧
      8 * s2.params.bitCap <
        ((s2.samples.take 8).map fun x => (s2.codeEntry x).len).sum + (s2.codeEntry 5).len) ∧
    (base s3 8 ∧ 8 = s3.n ∧ s3.cfg.eosEn = true ∧ 8 * s3.params.bitCap <
      (s3.samples.map fun x => (s3.codeEntry x).len).sum + (s3.codeEntry 256).len) := by
  decide

/-- Vectors U1 and U9: with the end-of-stream symbol and without it. -/
theorem witness_HufUnpackFollowsThePaths :
    let base := fun s : State => s.status.treeValid = true ∧ s.height ≠ 0 ∧ s.width ≠ 0 ∧
      s.n ≤ s.params.maxSamples ∧ s.byteLen ≠ 0 ∧ s.byteLen.toNat ≤ s.params.bitCap
    let s := withStream (withTree (grid true true 1 4 []) treeT1) [0xF0] 3
    let t := withStream (withTree (grid false false 1 3 []) treeT3) [0x00] 5
    (base s ∧ walkPath s.nodeAt s.root.toNat [true] = some 0 ∧ (s.nodeAt 0).isLeaf = true ∧
      (s.nodeAt 0).symbol = 5 ∧ s.cfg.eosEn = true ∧
      walkPath s.nodeAt s.root.toNat [false] = some 1 ∧ (s.nodeAt 1).isLeaf = true ∧
      (s.nodeAt 1).symbol = 256 ∧
      s.streamBits = (List.replicate 4 (5, [true])).flatMap (·.2) ++ [false] ++ []) ∧
    (base t ∧ walkPath t.nodeAt t.root.toNat [false] = some 0 ∧ (t.nodeAt 0).isLeaf = true ∧
      (t.nodeAt 0).symbol = 1 ∧ t.cfg.eosEn = false ∧
      t.streamBits = (List.replicate 3 (1, [false])).flatMap (·.2) ++ [] ++ []) := by
  decide

/-- Vectors U2, U3, U4 and U10, a clause each; the paths of the data symbols are those of the
witness above. -/
theorem witness_HufUnpackReportsItsPosition :
    let base := fun s : State => s.status.treeValid = true ∧ s.height ≠ 0 ∧ s.width ≠ 0 ∧
      s.n ≤ s.params.maxSamples ∧ s.byteLen ≠ 0 ∧ s.byteLen.toNat ≤ s.params.bitCap
    let t1 := fun bs pad => withStream (withTree (grid true true 1 4 []) treeT1) bs pad
    let s1 := t1 [0xE0] 3
    let s2 := t1 [0xF8] 3
    let s3 := t1 [0xF0] 4
    let s4 := withStream (withTree (grid false false 1 3 []) treeT3) [0x20] 5
    (base s1 ∧ s1.cfg.eosEn = true ∧ 3 < s1.n ∧
      walkPath s1.nodeAt s1.root.toNat [false] = some 1 ∧ (s1.nodeAt 1).isLeaf = true ∧
      (s1.nodeAt 1).symbol = 256 ∧
      s1.streamBits = (List.replicate 3 (5, [true])).flatMap (·.2) ++ [false] ++ [false]) ∧
    (base s2 ∧ s2.cfg.eosEn = true ∧ 4 = s2.n ∧
      walkPath s2.nodeAt s2.root.toNat [true] = some 0 ∧ (s2.nodeAt 0).isLeaf = true ∧
      (s2.nodeAt 0).symbol = 5 ∧
      s2.streamBits = (List.replicate 4 (5, [true])).flatMap (·.2) ++ [true] ++ []) ∧
    (base s3 ∧ s3.cfg.eosEn = true ∧ 4 = s3.n ∧
      walkPath s3.nodeAt s3.root.toNat [] = some s3.root.toNat ∧
      s3.streamBits = (List.replicate 4 (5, [true])).flatMap (·.2) ++ [] ++ []) ∧
    (base s4 ∧ 2 < s4.n ∧ walkPath s4.nodeAt s4.root.toNat [] = some 1 ∧
      (s4.nodeAt 1).right = noNode ∧
      s4.streamBits = (List.replicate 2 (1, [false])).flatMap (·.2) ++ [] ++ [true]) := by
  decide

/-- Example 2, and a grid of one value without the end-of-stream symbol, with nothing between the
commands (`handedOn_refl`) and the decoder on the same block. -/
theorem witness_HuffmanIsLossless :
    let run := fun s =>
      outcome .hufPack (outcome .hufCodes (outcome .hufTree (outcome .hufFreq s)))
    let s := grid true true 1 4 [5, 5, 5, 5]
    let t := grid false false 1 3 [1, 1, 1]
    Params.wellFormed s.params = true ∧ s.handedOn s ∧ (run s).status.err = false ∧
      (run s).status.treeValid = true ∧ (run s).bitLen = 5 ∧
      Params.wellFormed t.params = true ∧ (run t).status.err = false ∧
      (run t).status.treeValid = true ∧ (run t).bitLen = 3 :=
  ⟨by decide, handedOn_refl _, by decide +kernel⟩

theorem witness_CommandsKeepToTheirWriteRange :
    Params.wellFormed State.reset.params = true ∧
      exec .rleDec State.reset = .next (outcome .rleDec State.reset) ∧
      State.reset.writeExtent .rleDec .sb ≤ 0 ∧ Instr.writesReg .rleDec .runCount = false :=
  ⟨by decide, exec_outcome _ _, by decide⟩

theorem witness_ValidBitsFollowTheTable :
    State.reset.busy = false ∧ (0x10000000 : Word).toNat % 4 = 0 ∧
      (0x1FFFFFFC : Word).toNat % 4 = 0 ∧ (0x1FFFFFFC : Word).toNat < 0x20000000 ∧
      ((readWord 0x04).kind = .read) ∧ (running 1).busy = true ∧
      ({ writeWord 0x04 0 with size := .two } : Transaction).size ≠ .four ∧
      (writeWord 0x06 0).addr.toNat % 4 ≠ 0 ∧ (running 0x10).phase = .busy 0x10 ∧
      decode 0x10 = .error .reservedBits ∧
      ((writeWord 0x20000000 0).addr ≠ 0x00000004 ∧ (writeWord 0x20000000 0).addr ≠ 0x0000002C ∧
        ¬ (0x10000000 ≤ (writeWord 0x20000000 0).addr.toNat ∧
          (writeWord 0x20000000 0).addr.toNat < 0x20000000)) ∧
      (outcome .hufTree builtT1).status.err = false ∧
      (outcome .hufCodes builtT1).status.err = false ∧
      (outcome .hufCodes State.reset).status.err = true := by decide

theorem witness_StepsKeepMemoriesCanonical :
    let s := (grid true true 2 3 [9, 9, 9, 4, 4, 9]).accept 1
    Params.wellFormed s.params = true ∧ s.memoriesOk ∧ step s = .next (outcome .rleEnc s) := by
  refine ⟨by decide, ?_, exec_stepped _ _ 1 rfl rfl rfl⟩
  intro b
  cases b <;> decide

theorem witness_StepsKeepTheMeaningOfValidBits :
    codedT1.treeOk ∧ codedT1.codesOk ∧ codedT1.status.codesValid = true ∧
      step codedT1 = .next codedT1.hostTurn :=
  ⟨treeOk_codedT1.1, codesOk_codedT1.1, codesOk_codedT1.2, rfl⟩

theorem witness_ValidTreesFitTheConfiguration :
    codedT1.treeOk ∧ codedT1.codesOk ∧ codedT1.status.codesValid = true ∧
      codedT1.status.treeValid = true ∧ 1 < codedT1.nodeCount.toNat ∧
      (codedT1.nodeAt 1).isLeaf = true ∧ (codedT1.nodeAt 1).symbol = 256 :=
  ⟨treeOk_codedT1.1, codesOk_codedT1.1, codesOk_codedT1.2, treeOk_codedT1.2, by decide⟩

theorem witness_StepsKeepTheResultFields :
    (running 1).busyOk ∧ (running 1).resultOk ∧
      step (running 1) = .next (outcome .rleEnc (running 1)) := by
  refine ⟨?_, ?_, exec_stepped _ _ 1 rfl rfl rfl⟩
  · intro w h
    obtain rfl : (1 : Word) = w := by simpa [running, State.accept] using h
    decide
  · unfold State.resultOk
    decide

theorem witness_StepsNeverStop : State.reset.drawsOk := by
  unfold State.drawsOk
  decide

theorem witness_HostTurnsLeaveARunningCommandAlone :
    let s := scheduled (running 1) [.host]
    s.busy = true ∧ s.schedule = .host :: [] ∧ step s = .next (stepped s) := ⟨rfl, rfl, rfl⟩

theorem witness_OutcomesAreDetermined :
    let s := running 1
    let s' : State := { s with doneIe := true, draws := 7, schedule := [.host] }
    s' = { s with
      status := { s.status with done := s'.status.done, dropped := s'.status.dropped }
      doneIe := s'.doneIe
      draws := s'.draws
      schedule := s'.schedule
      host := s'.host } ∧
    exec .rleEnc s = .next (outcome .rleEnc s) ∧
      exec .rleEnc s' = .next (outcome .rleEnc s') ∧
      (outcome .nop s).status.err = false :=
  ⟨rfl, exec_outcome _ _, exec_outcome _ _, by decide⟩

theorem witness_PollingEnds :
    (withProgram (scheduled (running 1) [.host, .host, .engine]) [.wait none]).host.program =
      .wait none :: [] := by decide

end Sys2Proof.Tests
end

section
/-! PROOFS. What every step keeps (spec/10_state.md R44, R48 to R50): the Huffman structures the valid
bits speak of, and the result fields of STATUS and ERR_INFO. -/

namespace Sys2Proof.Machine

open Sys2Proof

/-! ## Steps -/

/-- To keep a predicate at every step it is enough to keep it at every completion of the engine, at
every host access and at a reset, when it does not speak of the schedule or of the host's side. -/
theorem step_keeps {P : State → Prop} (hsched : ∀ s rest, P s → P { s with schedule := rest })
    (hhost : ∀ s h, P s → P { s with host := h }) (haccess : ∀ s t, P s → P (s.access t).2)
    (hreset : ∀ s, P s → P s.resetBlock)
    (hillegal : ∀ s w, P s → P (s.fail { kind := .illegalCommand, info := w }))
    (hexec : ∀ s i t, P s → exec i s = .next t → P t)
    {s t : State} (h : P s) (hst : step s = .next t) : P t := by
  obtain ⟨rest, hturn⟩ := step_cases s
  have h := hsched s rest h
  rcases hturn with ⟨hs, -⟩ | ⟨hs, -⟩ | ⟨hs, -⟩ <;> rw [hs] at hst
  · cases hst
    rcases hostTurn_cases { s with schedule := rest } with ⟨host, hh⟩ | ⟨tr, host, hh⟩ <;> rw [hh]
    · exact hhost _ _ h
    · exact hhost _ _ (haccess _ _ h)
  · rcases engineTurn_cases { s with schedule := rest } with
      ⟨-, he⟩ | ⟨w, i, -, -, he⟩ | ⟨w, -, -, -, he⟩ <;> rw [he] at hst
    · cases hst; exact h
    · exact hexec _ _ _ h hst
    · cases hst; exact hillegal _ _ h
  · cases hst; exact hreset _ h

/-! ## The tree, the codes and their inputs -/

/-- `t` holds the same inputs of the tree, the same tree and codes, and the same valid bits as `s`:
everything `State.treeOk` and `State.codesOk` speak of. -/
structure KeepsTree (s t : State) : Prop where
  cfg : t.cfg = s.cfg
  freqCount : t.freqCount = s.freqCount
  nodeCount : t.nodeCount = s.nodeCount
  root : t.root = s.root
  ft : t.ft = s.ft
  nd : t.nd = s.nd
  ct : t.ct = s.ct
  memDraw : t.memDraw = s.memDraw
  treeValid : t.status.treeValid = s.status.treeValid
  codesValid : t.status.codesValid = s.status.codesValid

namespace KeepsTree

variable {s t : State}

theorem refl (s : State) : KeepsTree s s := by constructor <;> rfl

theorem treeOk (h : KeepsTree s t) (hs : s.treeOk) : t.treeOk := by
  unfold State.treeOk State.alphabet at hs ⊢
  rw [h.treeValid, h.cfg, table_congr h.memDraw h.ft h.freqCount,
    nodes_congr h.memDraw h.nd h.nodeCount, h.root, h.nodeCount]
  exact hs

theorem codesOk (h : KeepsTree s t) (hs : s.codesOk) : t.codesOk := by
  unfold State.codesOk at hs ⊢
  rw [h.codesValid, h.treeValid, h.root, funext (nodeAt_congr h.memDraw h.nd)]
  simpa only [codeEntry_congr h.memDraw h.ct] using hs

end KeepsTree

/-- Both valid bits mean what R48 says. -/
def State.validOk (s : State) : Prop := s.treeOk ∧ s.codesOk

theorem KeepsTree.validOk {s t : State} (h : KeepsTree s t) (hs : s.validOk) : t.validOk :=
  ⟨h.treeOk hs.1, h.codesOk hs.2⟩

/-- Valid bits that are clear claim nothing. -/
theorem validOk_of_clear {s : State} (ht : s.status.treeValid = false)
    (hc : s.status.codesValid = false) : s.validOk :=
  ⟨fun h => by simp [ht] at h, fun h => by simp [hc] at h⟩

/-! ## Host accesses and the valid bits -/

theorem legal_iff (t : Transaction) :
    Transaction.legal t = true ↔ t.size = .four ∧ t.addr.toNat % 4 = 0 := by
  unfold Transaction.legal
  cases t.size <;> simp

theorem access_of_illegal (s : State) {t : Transaction} (h : ¬ Transaction.legal t = true) :
    s.access t = (.busError, s) := if_neg h

/-- The places whose performed write clears the valid bits: CFG, FREQ_COUNT and window 1 (R49). -/
def clearingAddr (addr : Word) : Prop :=
  addr = 0x00000004 ∨ addr = 0x0000002C ∨
    (0x10000000 ≤ addr.toNat ∧ addr.toNat < 0x20000000)

theorem clearingAddr_regAddr (r : Reg) : clearingAddr (regAddr r) ↔ r = .cfg ∨ r = .freqCount := by
  unfold clearingAddr
  cases r <;> decide

/-- In a memory's window exactly the writes of FT clear the valid bits. -/
theorem clearingAddr_iff_of_base {addr : Word} {b : Buf} {o : Nat}
    (ha : addr.toNat = Buf.base b + o) (ho : o < 2 ^ 28) : clearingAddr addr ↔ b = .ft := by
  have hn : b = .ft ↔ Buf.number b = 1 := by cases b <;> decide
  have hp := number_pos b
  unfold Buf.base at ha
  have hreg : ∀ r, addr ≠ regAddr r := by
    rintro r rfl
    have := windowOf_eq_regs (windowOf_regAddr r)
    omega
  have hcfg : addr ≠ 0x00000004 := hreg .cfg
  have hfreq : addr ≠ 0x0000002C := hreg .freqCount
  unfold clearingAddr
  rw [hn]
  simp only [hcfg, hfreq, false_or]
  omega

theorem KeepsTree.writeRegIdle (s : State) {r : Reg} (h1 : r ≠ .cfg) (h2 : r ≠ .freqCount)
    (v : Word) : KeepsTree s (s.writeRegIdle r v) := by
  cases r
  case cfg => exact absurd rfl h1
  case freqCount => exact absurd rfl h2
  all_goals constructor <;> rfl

theorem KeepsTree.writeRegBusy (s : State) (r : Reg) (v : Word) :
    KeepsTree s (s.writeRegBusy r v) := by
  cases r <;> constructor <;> rfl

@[simp] theorem status_storeHostWord (s : State) (b : Buf) (o : Nat) (v : Word) :
    (s.storeHostWord b o v).status = s.status := by
  rcases storeHostWord_cases s b o v with h | ⟨-, -, h⟩ <;> rw [h]
  exact status_putBytes s b o _

/-- A host write of a window keeps the memories the host cannot write. -/
theorem hostWritable_ne {b : Buf} (h : Buf.hostWritable b = true) : b ≠ .nd ∧ b ≠ .ct := by
  cases b <;> simp_all [Buf.hostWritable]

theorem KeepsTree.storeHostWord (s : State) {b : Buf} (hb : b ≠ .ft) (o : Nat) (v : Word) :
    KeepsTree s (s.storeHostWord b o v) := by
  rcases storeHostWord_cases s b o v with h | ⟨hw, -, h⟩ <;> rw [h]
  · exact refl s
  · obtain ⟨hnd, hct⟩ := hostWritable_ne hw
    constructor <;> simp [hb, hnd, hct]

/-- A performed write that clears the valid bits: a legal one, while idle, at one of the places of
R49. -/
def State.clearsValid (s : State) (t : Transaction) : Prop :=
  t.kind = .write ∧ s.busy = false ∧ Transaction.legal t = true ∧ clearingAddr t.addr

/-- Every other access leaves the tree, its inputs and the valid bits alone (R49). -/
theorem KeepsTree.access {s : State} {t : Transaction} (h : ¬ s.clearsValid t) :
    KeepsTree s (s.access t).2 := by
  by_cases hl : Transaction.legal t = true
  · rcases access_cases s t with hc | ⟨-, -, hc⟩ | ⟨r, -, -, -, hc⟩ | ⟨r, hk, ha, hb, hc⟩ |
      ⟨b, o, hk, ha, ho, hb, hc⟩ <;> rw [hc]
    · exact refl s
    · constructor <;> rfl
    · exact writeRegBusy s r _
    · have hr : ¬ (r = .cfg ∨ r = .freqCount) := fun hr =>
        h ⟨hk, hb, hl, by rwa [ha, clearingAddr_regAddr]⟩
      exact writeRegIdle s (fun e => hr (.inl e)) (fun e => hr (.inr e)) _
    · have hft : b ≠ .ft := fun e =>
        h ⟨hk, hb, hl, (clearingAddr_iff_of_base ha ho).2 e⟩
      rcases writeBufIdle_cases s b o t.wdata with ⟨-, hw⟩ | ⟨e, -⟩
      · rw [hw]; exact storeHostWord s hft o _
      · exact absurd e hft
  · rw [access_of_illegal s hl]; exact refl s

/-- A write at one of the places of R49 clears both valid bits. -/
theorem status_access_of_clearsValid {s : State} {t : Transaction} (h : s.clearsValid t) :
    (s.access t).2.status = { s.status with treeValid := false, codesValid := false } := by
  obtain ⟨hk, hb, hl, ha⟩ := h
  have hacc : (s.access t).2 = s.memWrite t.addr t.wdata := by
    unfold State.access
    rw [if_pos hl]
    simp only [hk]
  rw [hacc]
  rcases ha with ha | ha | ha
  · rw [ha, show (0x00000004 : Word) = regAddr .cfg from rfl, memWrite_regAddr, hb]
    rfl
  · rw [ha, show (0x0000002C : Word) = regAddr .freqCount from rfl, memWrite_regAddr, hb]
    rfl
  · have hw : windowOf t.addr = .buffer .ft := by
      rw [windowOf_eq_buffer_iff, Buf.number]
      omega
    rw [memWrite_of_window hw, hb]
    simp only [Bool.false_eq_true, if_false, State.writeBufIdle, status_clearValid,
      status_storeHostWord]

/-- Every host access keeps the meaning of the valid bits. -/
theorem validOk_access {s : State} (t : Transaction) (h : s.validOk) : (s.access t).2.validOk := by
  by_cases hc : s.clearsValid t
  · have hs := status_access_of_clearsValid hc
    exact validOk_of_clear (by rw [hs]) (by rw [hs])
  · exact (KeepsTree.access hc).validOk h

/-! ## Commands and the valid bits -/

theorem KeepsTree.fail (s : State) (e : Raise) : KeepsTree s (s.fail e) := by constructor <;> rfl

/-- Every command but the three Huffman table commands leaves the tree, its inputs and the valid bits
alone, whatever its outcome (R49, R144). -/
theorem KeepsTree.exec {i : Instr} {s t : State} (hf : i ≠ .hufFreq) (ht : i ≠ .hufTree)
    (hc : i ≠ .hufCodes) (h : exec i s = .next t) : KeepsTree s t := by
  cases i with
  | nop => cases h; constructor <;> rfl
  | rleEnc =>
    rcases execRleEnc_cases s with ⟨e, -, hr⟩ | ⟨-, hr⟩ <;> cases hr.symm.trans h
    all_goals constructor <;> simp
  | rleDec =>
    rcases execRleDec_cases s with ⟨e, -, hr⟩ | ⟨xs, -, -, hr⟩ | ⟨e, -, -, hr⟩ <;>
      cases hr.symm.trans h
    all_goals constructor <;> simp
  | lzwEnc =>
    rcases execLzwEnc_cases s with ⟨e, -, hr⟩ | ⟨codes, ins, -, -, hr⟩ | ⟨e, -, -, hr⟩ <;>
      cases hr.symm.trans h
    all_goals constructor <;> simp
  | lzwDec =>
    rcases execLzwDec_cases s with ⟨e, -, hr⟩ | ⟨xs, ins, -, -, hr⟩ | ⟨e, -, -, hr⟩ <;>
      cases hr.symm.trans h
    all_goals constructor <;> simp
  | hufFreq => exact absurd rfl hf
  | hufTree => exact absurd rfl ht
  | hufCodes => exact absurd rfl hc
  | hufPack =>
    rcases execHufPack_cases s with ⟨e, -, hr⟩ | ⟨bits, -, -, hr⟩ | ⟨e, -, -, hr⟩ <;>
      cases hr.symm.trans h
    all_goals constructor <;> simp
  | hufUnpack =>
    rcases execHufUnpack_cases s with ⟨e, -, hr⟩ | ⟨xs, -, -, hr⟩ | ⟨e, -, -, hr⟩ <;>
      cases hr.symm.trans h
    all_goals constructor <;> simp

/-- Which tables pass TableCheck (R277). -/
theorem tableCheck_eq_none_iff {a : Nat} {eosEn : Bool} {ft : List (Nat × Nat)} :
    tableCheck a eosEn ft = none ↔
      ft ≠ [] ∧ ft.length ≤ a + eosEn.toNat ∧
        (∀ e ∈ ft, (e.1 ≤ a - 1 ∨ (eosEn = true ∧ e.1 = 256)) ∧ 1 ≤ e.2) ∧
        (ft.map (·.1)).Nodup ∧ (eosEn = true → 256 ∈ ft.map (·.1)) ∧
        (ft.map (·.2)).sum ≤ 2 ^ 32 - 1 := by
  have hlen : (decide (ft.length = 0) || decide (a + eosEn.toNat < ft.length)) = false ↔
      ft ≠ [] ∧ ft.length ≤ a + eosEn.toNat := by
    simp
  have heos : (eosEn && !ft.any fun e => e.1 == 256) = false ↔
      (eosEn = true → 256 ∈ ft.map (·.1)) := by
    cases eosEn <;> simp
  simp only [tableCheck, Option.or_eq_none_iff, Option.map_eq_none_iff, raiseIf_eq_none, hlen, heos,
    firstBadEntry_eq_none, decide_eq_false_iff_not, Nat.not_lt, List.not_mem_nil, not_false_eq_true,
    implies_true, and_true, and_assoc]

/-- HUF_TREE's success leaves the tree of a table that passed the check (R278, R48). -/
theorem validOk_storeTree {s : State} (h : s.treeCheck = none) : s.storeTree.validOk := by
  obtain ⟨hne, hlen, hsym, -, -, hsum⟩ := tableCheck_eq_none_iff.1 h
  have ha := alphabet_bounds s
  have he := s.cfg.eosEn.toNat_le
  obtain ⟨hnode, hcount, hroot⟩ := nodeAt_storeTree hne (by omega)
    (fun e hm => by have := (hsym e hm).1; omega) (by omega)
  have htable : s.storeTree.table = s.table := table_congr (by simp) (by simp) (by simp)
  refine ⟨fun _ => ⟨?_, ?_, hroot.trans hcount.symm⟩, fun hc => ?_⟩
  · rwa [htable, alphabet_storeTree, cfg_storeTree]
  · rw [htable, State.nodes, hcount]
    exact map_range_eq _ _ hnode
  · cases hc

/-- HUF_CODES's success leaves the codes of the tree that stays (R311, R48). -/
theorem validOk_storeCodeTable {s : State} (ht : s.status.treeValid = true) (h : s.treeOk) :
    s.storeCodeTable.validOk := by
  have hnode : s.storeCodeTable.nodeAt = s.nodeAt :=
    funext (nodeAt_congr (by simp) (by simp))
  refine ⟨fun _ => ?_, fun _ => ⟨ht, fun x hx => ?_⟩⟩
  · rw [table_congr (t := s) (by simp) (by simp) (by simp),
      nodes_congr (t := s) (by simp) (by simp) (by simp)]
    simpa using h ht
  · rw [codeEntry_storeCodeTable s hx, hnode, root_storeCodeTable]

/-- Every command keeps the meaning of the valid bits. -/
theorem validOk_exec {i : Instr} {s t : State} (hs : s.validOk) (h : exec i s = .next t) :
    t.validOk := by
  by_cases hf : i = .hufFreq
  · subst hf
    rcases execHufFreq_cases s with ⟨e, -, hr⟩ | ⟨-, hr⟩ <;> cases hr.symm.trans h
    all_goals exact validOk_of_clear (by simp) (by simp)
  by_cases ht : i = .hufTree
  · subst ht
    rcases execHufTree_cases s with ⟨e, -, hr⟩ | ⟨hc, hr⟩ <;> cases hr.symm.trans h
    · exact validOk_of_clear rfl rfl
    · exact validOk_storeTree (s := s.clearValid) hc
  by_cases hc : i = .hufCodes
  · subst hc
    rcases execHufCodes_cases s with ⟨-, hr⟩ | ⟨hv, hr⟩ <;> cases hr.symm.trans h
    · exact (KeepsTree.fail s _).validOk hs
    · exact validOk_storeCodeTable hv hs.1
  exact (KeepsTree.exec hf ht hc h).validOk hs

/-- Settles O54: both valid bits are part of one invariant, kept by whatever keeps the tree and its
inputs, true of cleared bits, and made anew by HUF_TREE and HUF_CODES. -/
theorem stepsKeepTheMeaningOfValidBits : Obligations.StepsKeepTheMeaningOfValidBits := by
  intro s t htree hcodes hst
  refine step_keeps (P := State.validOk) (fun s rest h => ?_) (fun s host h => ?_)
    (fun s tr => validOk_access tr) (fun s _ => validOk_of_clear rfl rfl)
    (fun s w => (KeepsTree.fail s _).validOk) (fun s i t => validOk_exec) ⟨htree, hcodes⟩ hst
  · exact KeepsTree.validOk (by constructor <;> rfl) h
  · exact KeepsTree.validOk (by constructor <;> rfl) h

/-! ## The result fields -/

/-- The result fields are consistent, and while a command runs they name it and show no result. -/
def State.fieldsOk (s : State) : Prop := s.busyOk ∧ s.resultOk

/-- A successful completion shows no error and runs nothing. -/
theorem fieldsOk_succeed (s : State) : s.succeed.fieldsOk :=
  ⟨nofun, by simp [State.resultOk]⟩

theorem ErrorKind.code_bounds (k : ErrorKind) :
    (ErrorKind.code k).toNat ≤ 6 ∧ ErrorKind.code k ≠ 0 := by
  cases k <;> decide

/-- An error completion shows one of the six errors and runs nothing (R370). -/
theorem fieldsOk_fail (s : State) (e : Raise) : (s.fail e).fieldsOk :=
  ⟨nofun, by simpa [State.resultOk] using ErrorKind.code_bounds e.kind⟩

/-- An acceptance names the command and clears the result (R180). -/
theorem fieldsOk_accept (s : State) (w : Word) : (s.accept w).fieldsOk :=
  ⟨fun _ h => by cases h; simp, by simp [State.resultOk]⟩

/-- `t` shows the same result and runs the same command as `s`, and DONE does not come up. -/
structure KeepsResult (s t : State) : Prop where
  phase : t.phase = s.phase
  cmd : t.cmd = s.cmd
  lastOp : t.status.lastOp = s.status.lastOp
  err : t.status.err = s.status.err
  errcode : t.status.errcode = s.status.errcode
  errInfo : t.errInfo = s.errInfo
  done : s.status.done = false → t.status.done = false

theorem KeepsResult.fieldsOk {s t : State} (h : KeepsResult s t) (hs : s.fieldsOk) :
    t.fieldsOk := by
  obtain ⟨hbusy, hres⟩ := hs
  constructor
  · intro w hw
    obtain ⟨hc, ho, hd, he, hcode, hi⟩ := hbusy w (h.phase ▸ hw)
    exact ⟨h.cmd.trans hc, h.lastOp.trans ho, h.done hd, h.err.trans he, h.errcode.trans hcode,
      h.errInfo.trans hi⟩
  · unfold State.resultOk
    rw [h.err, h.errcode, h.errInfo]
    exact hres

theorem KeepsResult.ackStatus (s : State) (v : Word) : KeepsResult s (s.ackStatus v) := by
  constructor <;> simp +contextual

theorem KeepsResult.writeRegBusy (s : State) (r : Reg) (v : Word) :
    KeepsResult s (s.writeRegBusy r v) := by
  cases r
  case status => exact ackStatus s v
  all_goals exact ⟨rfl, rfl, rfl, rfl, rfl, rfl, id⟩

theorem KeepsResult.writeRegIdle (s : State) {r : Reg} (h : r ≠ .cmd) (v : Word) :
    KeepsResult s (s.writeRegIdle r v) := by
  cases r
  case cmd => exact absurd rfl h
  case status => exact ackStatus s v
  all_goals exact ⟨rfl, rfl, rfl, rfl, rfl, rfl, id⟩

theorem KeepsResult.writeBufIdle (s : State) (b : Buf) (o : Nat) (v : Word) :
    KeepsResult s (s.writeBufIdle b o v) := by
  rcases writeBufIdle_cases s b o v with ⟨-, h⟩ | ⟨-, h⟩ <;> rw [h] <;>
    rcases storeHostWord_cases s b o v with h | ⟨-, -, h⟩ <;> rw [h] <;> constructor <;> simp

/-- Every host access keeps the result fields consistent: it accepts a command, or shows the same
result. -/
theorem fieldsOk_access {s : State} (t : Transaction) (h : s.fieldsOk) :
    (s.access t).2.fieldsOk := by
  rcases access_cases s t with hc | ⟨-, -, hc⟩ | ⟨r, -, -, -, hc⟩ | ⟨r, -, -, -, hc⟩ |
    ⟨b, o, -, -, -, -, hc⟩ <;> rw [hc]
  · exact h
  · exact h
  · exact (KeepsResult.writeRegBusy s r _).fieldsOk h
  · by_cases hr : r = .cmd
    · subst hr; exact fieldsOk_accept s _
    · exact (KeepsResult.writeRegIdle s hr _).fieldsOk h
  · exact (KeepsResult.writeBufIdle s b o _).fieldsOk h

theorem fieldsOk_exec {i : Instr} {s t : State} (h : exec i s = .next t) : t.fieldsOk := by
  obtain ⟨u, hu | ⟨e, -, hu⟩, -⟩ := exec_completes i s <;> cases hu.symm.trans h
  · exact fieldsOk_succeed u
  · exact fieldsOk_fail u e

theorem fieldsOk_reset : State.reset.fieldsOk :=
  ⟨nofun, by simp [State.resultOk, State.reset]⟩

/-- A reset shows the result fields of the reset state. -/
theorem fieldsOk_resetBlock (s : State) : s.resetBlock.fieldsOk := fieldsOk_reset

/-- Settles O56: an acceptance and a completion write all the result fields, and everything else
leaves them and the running command alone. -/
theorem stepsKeepTheResultFields : Obligations.StepsKeepTheResultFields := by
  intro s t hbusy hres hst
  exact step_keeps (P := State.fieldsOk) (fun _ _ h => h) (fun _ _ h => h)
    (fun _ tr => fieldsOk_access tr) (fun s _ => fieldsOk_resetBlock s)
    (fun s _ _ => fieldsOk_fail s _) (fun _ _ _ _ => fieldsOk_exec) ⟨hbusy, hres⟩ hst

/-! ## The machine goes on -/

/-- Every step answers a next state (R192). -/
theorem step_next (s : State) : ∃ t, step s = .next t := by
  obtain ⟨rest, ⟨hs, -⟩ | ⟨hs, -⟩ | ⟨hs, -⟩⟩ := step_cases s <;> rw [hs]
  · exact ⟨_, rfl⟩
  · rcases engineTurn_cases { s with schedule := rest } with
      ⟨-, he⟩ | ⟨w, i, -, -, he⟩ | ⟨w, -, -, -, he⟩ <;> rw [he]
    · exact ⟨_, rfl⟩
    · obtain ⟨u, hu | ⟨e, -, hu⟩, -⟩ := exec_completes i { s with schedule := rest } <;>
        exact ⟨_, hu⟩
    · exact ⟨_, rfl⟩
  · exact ⟨_, rfl⟩

/-- `t` may come after `s`: the configuration stays, and the draws go on (R47; log 2). -/
def State.drawsAfter (s t : State) : Prop :=
  t.params = s.params ∧ s.draws ≤ t.draws ∧ (s.drawsOk → t.drawsOk)

theorem drawsAfter_trans {s t u : State} (h : s.drawsAfter t) (h' : t.drawsAfter u) :
    s.drawsAfter u :=
  ⟨h'.1.trans h.1, Nat.le_trans h.2.1 h'.2.1, h'.2.2 ∘ h.2.2⟩

/-- Draws that go on under the same number of the memories' draw. -/
theorem drawsAfter_of_le {s t : State} (hp : t.params = s.params) (hm : t.memDraw = s.memDraw)
    (hd : s.draws ≤ t.draws) : s.drawsAfter t := by
  refine ⟨hp, hd, fun h => ?_⟩
  unfold State.drawsOk at h ⊢
  omega

/-- Every host access uses up at most one draw. -/
theorem drawsAfter_access (s : State) (t : Transaction) : s.drawsAfter (s.access t).2 := by
  obtain ⟨-, -, hp, hm⟩ := access_frame s t
  refine drawsAfter_of_le hp hm ?_
  rcases access_cases s t with h | ⟨-, -, h⟩ | ⟨r, -, -, -, h⟩ | ⟨r, -, -, -, h⟩ |
    ⟨b, o, -, -, -, -, h⟩ <;> rw [h]
  · exact Nat.le_succ _
  · cases r <;> exact Nat.le_refl _
  · cases r <;> exact Nat.le_refl _
  · rcases writeBufIdle_cases s b o t.wdata with ⟨-, h⟩ | ⟨-, h⟩ <;> rw [h] <;>
      rcases storeHostWord_cases s b o t.wdata with h | ⟨-, -, h⟩ <;> rw [h] <;> simp

theorem drawsAfter_exec {i : Instr} {s t : State} (h : exec i s = .next t) : s.drawsAfter t := by
  obtain ⟨u, hu, -, -, -, -, -, -, -, hp, hm, hd, -, -⟩ := exec_completes i s
  rcases hu with hu | ⟨e, -, hu⟩ <;> cases hu.symm.trans h <;> exact drawsAfter_of_le hp hm hd

/-- A reset draws the memories afresh (R412; log 2). -/
theorem drawsAfter_resetBlock (s : State) : s.drawsAfter s.resetBlock :=
  ⟨rfl, Nat.le_succ _, fun _ => Nat.lt_succ_self _⟩

/-- Settles O57: every turn answers a next state, and whatever a turn does comes after the state it
started from. -/
theorem stepsNeverStop : Obligations.StepsNeverStop := by
  intro s
  obtain ⟨t, hst⟩ := step_next s
  have hafter : s.drawsAfter t := step_keeps (P := s.drawsAfter) (fun _ _ h => h) (fun _ _ h => h)
    (fun u tr h => drawsAfter_trans h (drawsAfter_access u tr))
    (fun u h => drawsAfter_trans h (drawsAfter_resetBlock u)) (fun _ _ h => h)
    (fun _ _ _ h he => drawsAfter_trans h (drawsAfter_exec he)) ⟨rfl, Nat.le_refl _, id⟩ hst
  exact ⟨t, hst, hafter⟩

/-! ## The table of the valid bits -/

/-- HUF_TREE leaves a valid tree exactly where it leaves no error, and no codes (R49). -/
theorem exec_hufTree_validBits {s t : State} (h : exec .hufTree s = .next t) :
    t.status.treeValid = !t.status.err ∧ t.status.codesValid = false := by
  rcases execHufTree_cases s with ⟨e, -, hr⟩ | ⟨-, hr⟩ <;> cases hr.symm.trans h
  all_goals exact ⟨rfl, rfl⟩

/-- HUF_FREQ clears both valid bits (R49). -/
theorem exec_hufFreq_validBits {s t : State} (h : exec .hufFreq s = .next t) :
    t.status.treeValid = false ∧ t.status.codesValid = false := by
  rcases execHufFreq_cases s with ⟨e, -, hr⟩ | ⟨-, hr⟩ <;> cases hr.symm.trans h
  all_goals simp

/-- HUF_CODES writes CODES_VALID on success alone (R49). -/
theorem exec_hufCodes_validBits {s t : State} (h : exec .hufCodes s = .next t) :
    t.status.treeValid = s.status.treeValid ∧
      (t.status.err = false → t.status.codesValid = true) ∧
      (t.status.err = true → t.status.codesValid = s.status.codesValid) := by
  rcases execHufCodes_cases s with ⟨-, hr⟩ | ⟨-, hr⟩ <;> cases hr.symm.trans h
  · exact ⟨rfl, nofun, fun _ => rfl⟩
  · exact ⟨rfl, fun _ => rfl, nofun⟩

/-- Settles O51: an access clears the bits exactly when `State.clearsValid` says so, the three Huffman
table commands write them, and every other event keeps the tree and its bits. -/
theorem validBitsFollowTheTable : Obligations.ValidBitsFollowTheTable := by
  refine ⟨fun s => ⟨rfl, rfl⟩, ?_, ?_, ?_, ?_⟩
  · intro s addr v hb hal haddr
    have hs := status_access_of_clearsValid (s := s) (t := writeWord addr v)
      ⟨rfl, hb, (legal_writeWord addr v).2 hal, haddr⟩
    rw [hs]
    exact ⟨rfl, rfl⟩
  · intro s t h
    have hk : KeepsTree s (s.access t).2 := by
      refine KeepsTree.access ?_
      rintro ⟨hw, hb, hl, ha⟩
      obtain ⟨hsize, hal⟩ := (legal_iff t).1 hl
      rcases h with h | h | h | h | ⟨hcfg, hfreq, hft⟩
      · rw [hw] at h; cases h
      · rw [hb] at h; cases h
      · exact h hsize
      · exact h hal
      · rcases ha with ha | ha | ha
        · exact hcfg ha
        · exact hfreq ha
        · exact hft ha
    exact ⟨hk.treeValid, hk.codesValid⟩
  · intro s w e hp hd
    refine ⟨s.fail { kind := .illegalCommand, info := w.toNat }, ?_, rfl, rfl⟩
    simp only [engineTurn, hp, hd]
    rfl
  · intro i s t h
    refine ⟨?_, ?_, ?_, fun hf ht hc => ?_⟩
    · rintro rfl; exact exec_hufFreq_validBits h
    · rintro rfl; exact exec_hufTree_validBits h
    · rintro rfl; exact exec_hufCodes_validBits h
    · have hk := KeepsTree.exec hf ht hc h
      exact ⟨hk.treeValid, hk.codesValid⟩

/-! ## Valid trees and CFG -/

/-- A valid tree is read back from ND node by node (R48). -/
theorem nodeAt_of_nodes_eq {s : State} {nds : List Node} (h : s.nodes = nds) :
    nds.length = s.nodeCount.toNat ∧ ∀ j nd, nds[j]? = some nd → s.nodeAt j = nd := by
  subst h
  refine ⟨by simp [State.nodes], fun j nd hj => ?_⟩
  have hlt : j < s.nodeCount.toNat := by
    simpa [State.nodes] using (List.getElem?_eq_some_iff.1 hj).1
  simpa [State.nodes, hlt] using hj

/-- The leaves of the arena of a table are its entries, in the same places (R278). -/
theorem leaf_iff_of_buildTree {ft : List (Nat × Nat)} (h1 : 1 ≤ ft.length)
    (h2 : ft.length ≤ 257) {node : Nat → Node}
    (hnode : ∀ j nd, (buildTree ft)[j]? = some nd → node j = nd) {j : Nat}
    (hj : j < (buildTree ft).length) (x : Nat) :
    (node j).isLeaf = true ∧ (node j).symbol = x ↔ ∃ c, ft[j]? = some (x, c) := by
  by_cases hlt : j < ft.length
  · have he : ft[j]? = some ft[j] := List.getElem?_eq_getElem hlt
    rw [hnode j _ (getElem?_buildTree_leaf he), he]
    simp [Prod.ext_iff]
  · have hin := (isTree_buildTree h1 h2 hnode).1.inner j (by omega) (by omega)
    simp [hin, hlt]

/-- Settles O55: the leaves of a valid tree are the entries of a table that passes TableCheck. -/
theorem validTreesFitTheConfiguration : Obligations.ValidTreesFitTheConfiguration := by
  intro s htree hcodes
  refine ⟨fun hc => (hcodes hc).1, fun hv => ?_⟩
  obtain ⟨hcheck, hnodes, -⟩ := htree hv
  obtain ⟨hne, hlen, hsym, -, heos, -⟩ := tableCheck_eq_none_iff.1 hcheck
  obtain ⟨hcount, hnode⟩ := nodeAt_of_nodes_eq hnodes
  have hle : s.table.length ≤ 257 := by
    have := alphabet_bounds s
    have := s.cfg.eosEn.toNat_le
    omega
  have hleaf {j : Nat} (hj : j < s.nodeCount.toNat) :=
    leaf_iff_of_buildTree (List.length_pos_iff.2 hne) hle hnode (hcount.symm ▸ hj)
  refine ⟨fun j hj hl => ?_, fun ⟨j, hj, hl, hx⟩ => ?_, fun he => ?_⟩
  · obtain ⟨c, hc⟩ := (hleaf hj _).1 ⟨hl, rfl⟩
    exact (hsym _ (List.mem_of_getElem? hc)).1
  · obtain ⟨c, hc⟩ := (hleaf hj _).1 ⟨hl, hx⟩
    have := amax_lt s
    rcases (hsym _ (List.mem_of_getElem? hc)).1 with hs | ⟨he, -⟩
    · exact absurd hs (by simp only [State.amax] at this; omega)
    · exact he
  · obtain ⟨⟨x, c⟩, hm, rfl⟩ := List.mem_map.1 (heos he)
    obtain ⟨j, hc⟩ := List.getElem?_of_mem hm
    have hj : j < s.nodeCount.toNat := by
      rw [← hcount]
      exact (List.getElem?_eq_some_iff.1 (getElem?_buildTree_leaf hc)).1
    exact ⟨j, hj, (hleaf hj _).2 ⟨c, hc⟩⟩

end Sys2Proof.Machine
end

section
/-! PROOFS. What a register reads as, what a write leaves it and every other register, and the values
after reset (spec/10_state.md R31 to R47, R70). -/

namespace Sys2Proof.Machine

open Sys2Proof

/-! ## Words with zeros above a field -/

theorem toNat_zero_append {m n : Nat} (x : BitVec n) : (0#m ++ x).toNat = x.toNat := by
  simp [BitVec.toNat_append]

/-- The low bits of a word with zeros above them are the word under a mask. -/
theorem zero_append_extractLsb' {m n : Nat} (v : BitVec (m + n)) :
    0#m ++ v.extractLsb' 0 n = v &&& BitVec.ofNat (m + n) (2 ^ n - 1) := by
  apply BitVec.eq_of_toNat_eq
  have hmod : (2 ^ n - 1) % 2 ^ (m + n) = 2 ^ n - 1 :=
    Nat.mod_eq_of_lt (Nat.lt_of_lt_of_le (Nat.sub_lt (Nat.two_pow_pos n) Nat.one_pos)
      (Nat.pow_le_pow_right (by decide) (Nat.le_add_left n m)))
  rw [toNat_zero_append, BitVec.toNat_and, BitVec.toNat_ofNat, hmod,
    Nat.and_two_pow_sub_one_eq_mod, BitVec.extractLsb'_toNat, Nat.shiftRight_zero]

theorem ofBool_getLsbD {w : Nat} (v : BitVec w) (i : Nat) :
    BitVec.ofBool (v.getLsbD i) = v.extractLsb' i 1 := by
  ext j hj
  obtain rfl : j = 0 := by omega
  simp

/-! ## The bits of STATUS -/

theorem busy_iff (s : State) : s.busy = true ↔ ∃ w, s.phase = .busy w := by
  unfold State.busy
  cases s.phase <;> simp

/-- A bit of STATUS is a bit of one of its parts, told apart by the appends of R37's layout. -/
theorem getLsbD_statusWord (s : State) (i : Nat) :
    s.statusWord.getLsbD i =
      (0#16 ++ s.status.lastOp ++ s.status.errcode ++ 0#2 ++
        BitVec.ofBool s.status.dropped ++ BitVec.ofBool s.status.codesValid ++
        BitVec.ofBool s.status.treeValid ++ BitVec.ofBool s.status.err ++
        BitVec.ofBool s.status.done ++ BitVec.ofBool s.busy).getLsbD i := rfl

/-- The flags of STATUS (R37). -/
theorem statusWord_flags (s : State) :
    s.statusWord.getLsbD 0 = s.busy ∧ s.statusWord.getLsbD 1 = s.status.done ∧
    s.statusWord.getLsbD 2 = s.status.err ∧ s.statusWord.getLsbD 3 = s.status.treeValid ∧
    s.statusWord.getLsbD 4 = s.status.codesValid ∧
    s.statusWord.getLsbD 5 = s.status.dropped := by
  simp only [getLsbD_statusWord, BitVec.getLsbD_append]
  simp

/-- The fields of STATUS above its flags: each is what is left after the parts below it (R37). -/
theorem statusWord_fields (s : State) :
    s.statusWord.extractLsb' 6 2 = 0 ∧ s.statusWord.extractLsb' 8 4 = s.status.errcode ∧
    s.statusWord.extractLsb' 12 4 = s.status.lastOp ∧ s.statusWord.extractLsb' 16 16 = 0 := by
  unfold State.statusWord
  refine ⟨?_, ?_, ?_, ?_⟩
  · iterate 6 refine (BitVec.extractLsb'_append_eq_of_le (by decide)).trans ?_
    exact BitVec.extractLsb'_append_eq_right
  · iterate 7 refine (BitVec.extractLsb'_append_eq_of_le (by decide)).trans ?_
    exact BitVec.extractLsb'_append_eq_right
  · iterate 8 refine (BitVec.extractLsb'_append_eq_of_le (by decide)).trans ?_
    exact BitVec.extractLsb'_append_eq_right
  · iterate 8 refine (BitVec.extractLsb'_append_eq_of_le (by decide)).trans ?_
    exact BitVec.extractLsb'_append_eq_left

/-- STATUS depends on the STATUS bits and on the phase alone (R37, R44). -/
theorem statusWord_congr {s t : State} (hp : t.phase = s.phase) (hs : t.status = s.status) :
    t.statusWord = s.statusWord := by
  simp only [State.statusWord, State.busy, hp, hs]

/-! ## Registers made of fields -/

theorem toNat_readReg_cfg (s : State) :
    (s.readReg .cfg).toNat = s.cfg.alpha.toNat + 2 * s.cfg.eosEn.toNat := by
  simp only [State.readReg]
  cases s.cfg.alpha <;> cases s.cfg.eosEn <;> rfl

theorem toNat_readReg_dim (s : State) :
    (s.readReg .dim).toNat = 2 ^ 16 * s.height.toNat + s.width.toNat := by
  simp only [State.readReg]
  rw [BitVec.toNat_append, Nat.shiftLeft_eq, Nat.mul_comm,
    Nat.two_pow_add_eq_or_of_lt s.width.isLt]

/-! ## Reading after a write while idle -/

theorem access_write_reg_idle {s : State} (hb : s.busy = false) (r : Reg) (v : Word) :
    s.access (writeWord (regAddr r) v) = (.ok, s.writeRegIdle r v) := by
  rw [access_write_reg, hb]
  rfl

theorem readReg_dim_writeRegIdle (s : State) (v : Word) :
    (s.writeRegIdle .dim v).readReg .dim = v :=
  BitVec.extractLsb'_append_extractLsb' (w := 16) (len := 16)

theorem readReg_cfg_writeRegIdle (s : State) (v : Word) :
    (s.writeRegIdle .cfg v).readReg .cfg = v &&& 0x3 := by
  have hcfg : (s.writeRegIdle .cfg v).readReg .cfg =
      0#30 ++ BitVec.ofBool (v.getLsbD 1) ++ BitVec.ofBool (v.getLsbD 0) := rfl
  have htwo : v.extractLsb' 1 1 ++ v.extractLsb' 0 1 = v.extractLsb' 0 2 :=
    BitVec.extractLsb'_append_extractLsb'_eq_extractLsb' rfl
  rw [hcfg, ofBool_getLsbD, ofBool_getLsbD, BitVec.append_assoc, htwo]
  exact zero_append_extractLsb' (m := 30) (n := 2) v

theorem readReg_intEn_writeRegIdle (s : State) (v : Word) :
    (s.writeRegIdle .intEn v).readReg .intEn = v &&& 0x1 := by
  have hie : (s.writeRegIdle .intEn v).readReg .intEn = 0#31 ++ BitVec.ofBool (v.getLsbD 0) := rfl
  rw [hie, ofBool_getLsbD]
  exact zero_append_extractLsb' (m := 31) (n := 1) v

theorem readReg_freqCount_writeRegIdle (s : State) (v : Word) :
    (s.writeRegIdle .freqCount v).readReg .freqCount = v &&& 0x1FF :=
  zero_append_extractLsb' (m := 23) (n := 9) v

theorem readReg_pad_writeRegIdle (s : State) (v : Word) :
    (s.writeRegIdle .pad v).readReg .pad = v &&& 0x7 :=
  zero_append_extractLsb' (m := 29) (n := 3) v

/-- A write while idle to a register but CMD and STATUS keeps the phase and the bytes, and of STATUS
all but the valid bits, which CFG and FREQ_COUNT clear. -/
theorem writeRegIdle_frame (s : State) {r : Reg} (h1 : r ≠ .cmd) (h2 : r ≠ .status) (v : Word) :
    (s.writeRegIdle r v).phase = s.phase ∧
      (s.writeRegIdle r v).status = (if r = .cfg ∨ r = .freqCount
        then { s.status with treeValid := false, codesValid := false } else s.status) ∧
      ∀ b o, (s.writeRegIdle r v).byte b o = s.byte b o := by
  cases r
  case cmd => exact absurd rfl h1
  case status => exact absurd rfl h2
  all_goals exact ⟨rfl, rfl, fun b o => rfl⟩

/-- A write while idle to a register but CMD and STATUS changes no other register, but STATUS. -/
theorem readReg_writeRegIdle_ne (s : State) {r r' : Reg} (h1 : r ≠ .cmd) (h2 : r ≠ .status)
    (hne : r' ≠ r) (h : r' ≠ .status) (v : Word) :
    (s.writeRegIdle r v).readReg r' = s.readReg r' := by
  cases r
  case cmd => exact absurd rfl h1
  case status => exact absurd rfl h2
  all_goals cases r' <;> trivial

/-- A write while idle to a register but CMD and STATUS keeps every other register, but that CFG and
FREQ_COUNT change STATUS. -/
theorem readReg_writeRegIdle_frame (s : State) {r r' : Reg} (h1 : r ≠ .cmd) (h2 : r ≠ .status)
    (hne : r' ≠ r) (h : r' ≠ .status ∨ (r ≠ .cfg ∧ r ≠ .freqCount)) (v : Word) :
    (s.writeRegIdle r v).readReg r' = s.readReg r' := by
  by_cases hs : r' = .status
  · subst hs
    obtain ⟨hc, hf⟩ := h.resolve_left fun hn => hn rfl
    obtain ⟨hphase, hstatus, -⟩ := writeRegIdle_frame s h1 h2 v
    rw [if_neg (not_or.2 ⟨hc, hf⟩)] at hstatus
    exact statusWord_congr hphase hstatus
  · exact readReg_writeRegIdle_ne s h1 h2 hne hs v

/-- What the host reads from a register right after a write to it while idle. -/
theorem access_read_after_write {s : State} (hb : s.busy = false) (r : Reg) (v : Word) :
    ((s.access (writeWord (regAddr r) v)).2.access (readWord (regAddr r))).1 =
      .data ((s.writeRegIdle r v).readReg r) := by
  rw [access_write_reg_idle hb, access_read_reg]

/-- Settles O14: the reads field by field, then the writes while idle from the rules above. -/
theorem registersReadBack : Obligations.RegistersReadBack := by
  intro s
  obtain ⟨hbusy, hdone, herr, htree, hcodes, hdropped⟩ := statusWord_flags s
  obtain ⟨hrsv, hcode, hop, hhigh⟩ := statusWord_fields s
  refine ⟨access_read_reg s, hbusy, busy_iff s, hdone, herr, htree, hcodes, hdropped, hrsv, hcode,
    hop, hhigh, rfl, toNat_readReg_cfg s, toNat_readReg_dim s, rfl, ?_, rfl, rfl, rfl, rfl,
    toNat_zero_append _, toNat_zero_append _, toNat_zero_append _, rfl, rfl, toNat_zero_append _,
    rfl, rfl, rfl, fun hb v => ⟨?_, ?_, ?_, ?_, ?_, ?_, ?_⟩⟩
  · exact (toNat_zero_append _).trans (BitVec.toNat_ofBool _)
  · intro r hr
    rw [access_read_after_write hb]
    rcases hr with rfl | rfl | rfl | rfl
    · rw [readReg_dim_writeRegIdle]
    all_goals rfl
  · rw [access_read_after_write hb, readReg_cfg_writeRegIdle]
  · rw [access_read_after_write hb, readReg_intEn_writeRegIdle]
  · rw [access_read_after_write hb, readReg_freqCount_writeRegIdle]
  · rw [access_read_after_write hb, readReg_pad_writeRegIdle]
  · intro r hr
    rw [access_write_reg_idle hb]
    rcases hr with rfl | rfl | rfl | rfl | rfl | rfl | rfl | rfl | rfl <;> rfl
  · intro r h1 h2
    obtain ⟨hphase, hstatus, hbyte⟩ := writeRegIdle_frame s h1 h2 v
    rw [access_write_reg_idle hb]
    exact ⟨rfl, hphase, fun r' hne h => readReg_writeRegIdle_frame s h1 h2 hne h v,
      fun hr => hstatus.trans (if_pos hr), hbyte⟩

/-! ## STATUS and reset -/

/-- Settles O11: a write to STATUS is the same acknowledgement in both phases, and a CMD write while
BUSY is noted. -/
theorem statusIsWriteOneToClear : Obligations.StatusIsWriteOneToClear := by
  intro s v
  have hstatus := access_write_reg s .status v
  have hcmd := access_write_reg s .cmd v
  constructor
  · refine hstatus.trans ?_
    cases s.busy <;> rfl
  · intro hb
    rw [hb] at hcmd
    exact congrArg (fun a : Reply × State => a.2.status.dropped) hcmd

/-- Settles O16: the reset state register by register. -/
theorem resetRegisterValues : Obligations.ResetRegisterValues := by
  refine ⟨rfl, rfl, fun r hr => ?_, rfl, rfl, rfl, rfl, rfl⟩
  rcases hr with rfl | rfl | rfl | rfl | rfl | rfl | rfl | rfl | rfl | rfl | rfl | rfl | rfl | rfl
  all_goals rfl

theorem memoriesOk_reset : State.reset.memoriesOk := by
  refine fun b => ⟨wf_reset b, fun c hc => ?_⟩
  have hnil : State.reset.mem b = [] := by cases b <;> rfl
  rw [hnil] at hc
  cases hc

/-- Settles O52: the memories are empty, the valid bits are clear, the result fields are 0 and draw 0
is used up. -/
theorem resetMeetsTheInvariants : Obligations.ResetMeetsTheInvariants := by
  obtain ⟨htree, hcodes⟩ := validOk_of_clear (s := State.reset) rfl rfl
  obtain ⟨hbusy, hresult⟩ := fieldsOk_reset
  exact ⟨memoriesOk_reset, htree, hcodes, hbusy, hresult, Nat.one_pos⟩

end Sys2Proof.Machine
end

section
/-! PROOFS. What the host port answers and does (spec/20_memory.md R102 to R113), and what a turn of
the host and the step after an acceptance do (spec/30_encoding.md R160 to R167,
spec/40_command_lifecycle.md R180, R182). -/

namespace Sys2Proof.Machine

open Sys2Proof

/-! ## Legal accesses and reads -/

/-- A legal access is never answered BUS_ERROR (R103). -/
theorem access_ne_busError {s : State} {t : Transaction} (h : Transaction.legal t = true) :
    (s.access t).1 ≠ .busError := by
  unfold State.access
  rw [if_pos h]
  cases t.kind <;> exact Reply.noConfusion

/-- Settles O9: BUS_ERROR is the answer to exactly the accesses that are not legal. -/
theorem illegalAccessesHaveNoEffect : Obligations.IllegalAccessesHaveNoEffect := by
  refine fun s t => ⟨fun h => access_of_illegal s fun hl => ?_, fun hs ha => ?_⟩
  · obtain ⟨hs, ha⟩ := (legal_iff t).1 hl
    exact h.elim (· hs) (· ha)
  · exact access_ne_busError ((legal_iff t).2 ⟨hs, ha⟩)

/-- A read changes nothing, or uses up a draw while BUSY (R113, R422). -/
theorem access_read_cases (s : State) {t : Transaction} (h : t.kind = .read) :
    (s.access t).2 = s ∨ (s.busy = true ∧ (s.access t).2 = s.nextDraw) := by
  rcases access_cases s t with hc | ⟨-, hb, hc⟩ | ⟨r, hk, -⟩ | ⟨r, hk, -⟩ | ⟨b, o, hk, -⟩
  · exact .inl hc
  · exact .inr ⟨hb, hc⟩
  all_goals rw [h] at hk; cases hk

/-- Settles O10: the one thing a read may use up is a draw, and only while BUSY. -/
theorem readsHaveNoSideEffects : Obligations.ReadsHaveNoSideEffects := by
  intro s t hk
  rcases access_read_cases s hk with h | ⟨hb, h⟩ <;> rw [h]
  · exact ⟨rfl, fun _ => rfl⟩
  · exact ⟨rfl, fun hi => by rw [hb] at hi; cases hi⟩

/-! ## Read-only and reserved places -/

theorem mem_allRegs (r : Reg) : r ∈ allRegs := by cases r <;> decide

/-- An offset of window 0 is reserved exactly where no register has it (R31, R109). -/
theorem regAt_eq_none_iff {o : Nat} : regAt o = none ↔ ∀ r, Reg.offset r ≠ o := by
  simp [regAt, mem_allRegs]

/-- The registers lie below offset 0x50, and none at 0x1C (R31). -/
theorem offset_bounds (r : Reg) : Reg.offset r < 0x50 ∧ Reg.offset r ≠ 0x1C := by
  cases r <;> decide

/-- The address selects no register and no memory (R109). -/
def reservedAddr (addr : Word) : Prop :=
  windowOf addr = .reserved ∨ (windowOf addr = .regs ∧ regAt (offsetOf addr) = none)

theorem memRead_reserved (s : State) {addr : Word} (h : reservedAddr addr) :
    s.memRead addr = (0, s) := by
  unfold State.memRead
  rcases h with hw | ⟨hw, hr⟩
  · rw [hw]
  · rw [hw, hr]

theorem memWrite_reserved (s : State) {addr : Word} (h : reservedAddr addr) (v : Word) :
    s.memWrite addr v = s := by
  unfold State.memWrite
  rcases h with hw | ⟨hw, hr⟩
  · rw [hw]
  · rw [hw, hr]

/-- Where the reserved places are: from window 9 on, at offset 0x1C of window 0 and from its offset
0x50 on (R102, R109). -/
theorem reservedAddr_of_range {addr : Word}
    (h : 0x90000000 ≤ addr.toNat ∨ addr = 0x1C ∨
      (0x50 ≤ addr.toNat ∧ addr.toNat < 0x10000000)) : reservedAddr addr := by
  rcases h with h | rfl | ⟨hlo, hhi⟩
  · exact .inl (windowOf_eq_reserved h)
  · exact .inr ⟨rfl, regAt_eq_none_iff.2 fun r => (offset_bounds r).2⟩
  · have hoff : offsetOf addr = addr.toNat := Nat.mod_eq_of_lt hhi
    refine .inr ⟨windowOf_eq_regs_iff.2 hhi, regAt_eq_none_iff.2 fun r => ?_⟩
    have := (offset_bounds r).1
    omega

theorem storeHostWord_readOnly (s : State) {b : Buf} (h : Buf.hostWritable b = false) (o : Nat)
    (v : Word) : s.storeHostWord b o v = s := by
  rcases storeHostWord_cases s b o v with hc | ⟨hw, -⟩
  · exact hc
  · rw [h] at hw; cases hw

/-- A write to a memory the host cannot write changes nothing (R102, R105). -/
theorem writeBufIdle_readOnly (s : State) {b : Buf} (h : Buf.hostWritable b = false) (o : Nat)
    (v : Word) : s.writeBufIdle b o v = s := by
  rcases writeBufIdle_cases s b o v with ⟨-, hc⟩ | ⟨hb, -⟩
  · rw [hc, storeHostWord_readOnly s h]
  · subst hb; cases h

/-- Windows 2 to 4 are ND, CT and DT, which the host cannot write (R102). -/
theorem windowOf_readOnly {addr : Word} (hlo : 0x20000000 ≤ addr.toNat)
    (hhi : addr.toNat < 0x50000000) :
    ∃ b, windowOf addr = .buffer b ∧ Buf.hostWritable b = false := by
  have hn : addr.toNat / 2 ^ 28 = 2 ∨ addr.toNat / 2 ^ 28 = 3 ∨ addr.toNat / 2 ^ 28 = 4 := by omega
  rcases hn with hn | hn | hn
  · exact ⟨.nd, windowOf_eq_buffer_iff.2 hn, rfl⟩
  · exact ⟨.ct, windowOf_eq_buffer_iff.2 hn, rfl⟩
  · exact ⟨.dt, windowOf_eq_buffer_iff.2 hn, rfl⟩

/-- Settles O13: the addresses of the read-only windows and of the reserved places, each with what an
access there does in either phase. -/
theorem readOnlyAndReservedPlaces : Obligations.ReadOnlyAndReservedPlaces := by
  refine fun s addr v ha => ⟨fun ⟨hlo, hhi⟩ => ?_, fun h => ?_⟩
  · obtain ⟨b, hw, hro⟩ := windowOf_readOnly hlo hhi
    rw [access_writeWord s v ha, memWrite_of_window hw, writeBufIdle_readOnly s hro, ite_self]
  · have hr := reservedAddr_of_range h
    rw [access_writeWord s v ha, memWrite_reserved s hr, access_readWord s ha,
      memRead_reserved s hr]
    exact ⟨rfl, rfl⟩

/-! ## Windows -/

/-- Past the used bytes the host reads 0 (R102). -/
theorem hostByte_of_used_le (s : State) {b : Buf} {k : Nat} (h : Buf.used s.params b ≤ k) :
    s.hostByte b k = 0 := by
  simp [State.hostByte, Nat.not_lt.2 h]

/-- The host's view of an ND record: bit 0 of FLAGS, the four fields, 0 elsewhere (R102, R107). -/
theorem hostByte_nd (s : State) {k : Nat} (h : k < Buf.used s.params .nd) :
    s.hostByte .nd k =
      if k % 32 = 0 then s.byte .nd k &&& 1
      else if 4 ≤ k % 32 ∧ k % 32 < 20 then s.byte .nd k else 0 := by
  by_cases h0 : k % 32 = 0 <;> simp [State.hostByte, Buf.stores, Buf.isFlags, h, h0]

/-- The host's view of a CT record: bit 0 of FLAGS, LEN, CODE, 0 elsewhere (R102, R107). -/
theorem hostByte_ct (s : State) {k : Nat} (h : k < Buf.used s.params .ct) :
    s.hostByte .ct k =
      if k % 64 = 0 then s.byte .ct k &&& 1
      else if (4 ≤ k % 64 ∧ k % 64 < 8) ∨ 32 ≤ k % 64 then s.byte .ct k else 0 := by
  by_cases h0 : k % 64 = 0 <;> simp [State.hostByte, Buf.stores, Buf.isFlags, h, h0]

/-- The other memories have no reserved places and no flags: the host sees their bytes (R102). -/
theorem hostByte_plain (s : State) {b : Buf} (hnd : b ≠ .nd) (hct : b ≠ .ct) {k : Nat}
    (h : k < Buf.used s.params b) : s.hostByte b k = s.byte b k := by
  unfold State.hostByte
  cases b
  case nd => exact absurd rfl hnd
  case ct => exact absurd rfl hct
  all_goals simp [Buf.stores, Buf.isFlags, h]

theorem bufAddr_aligned (b : Buf) {o : Nat} (ha : o % 4 = 0) (ho : o < 2 ^ 28) :
    (bufAddr b o).toNat % 4 = 0 := by
  rw [bufAddr_toNat b o ho]
  unfold Buf.base
  omega

/-- A read of a window while idle gives the word of its four bytes and changes nothing (R104, R113). -/
theorem access_read_window {s : State} (hb : s.busy = false) (b : Buf) {o : Nat} (ha : o % 4 = 0)
    (ho : o < 2 ^ 28) : s.access (readWord (bufAddr b o)) = (.data (s.hostWord b o), s) := by
  rw [access_readWord s (bufAddr_aligned b ha ho), memRead_of_window (windowOf_bufAddr b o ho), hb,
    offsetOf_bufAddr b o ho]
  rfl

theorem access_write_window {s : State} (hb : s.busy = false) (b : Buf) {o : Nat} (ha : o % 4 = 0)
    (ho : o < 2 ^ 28) (v : Word) :
    s.access (writeWord (bufAddr b o) v) = (.ok, s.writeBufIdle b o v) := by
  rw [access_writeWord s v (bufAddr_aligned b ha ho), memWrite_of_window (windowOf_bufAddr b o ho),
    hb, offsetOf_bufAddr b o ho]
  rfl

/-- The memories the host can write (R102). -/
theorem hostWritable_of_ne {b : Buf} (hnd : b ≠ .nd) (hct : b ≠ .ct) (hdt : b ≠ .dt) :
    Buf.hostWritable b = true := by
  cases b
  case nd => exact absurd rfl hnd
  case ct => exact absurd rfl hct
  case dt => exact absurd rfl hdt
  all_goals rfl

theorem getElem?_wordBytes (v : Word) {j : Nat} (hj : j < 4) :
    (wordBytes v)[j]? = some (v.extractLsb' (8 * j) 8) := by
  interval_cases j <;> rfl

/-- A word the host stores sets its bytes inside the used ones, least significant first, and no other
byte of any memory (R106, R108). -/
theorem byte_storeHostWord (s : State) {b : Buf} (hw : Buf.hostWritable b = true) (o : Nat) (v : Word)
    (b' : Buf) (k : Nat) :
    (s.storeHostWord b o v).byte b' k =
      if b' = b ∧ o ≤ k ∧ k < o + 4 ∧ k < Buf.used s.params b
      then v.extractLsb' (8 * (k - o)) 8 else s.byte b' k := by
  unfold State.storeHostWord
  by_cases hu : o < Buf.used s.params b
  · rw [if_pos (by simp [hw, hu]), byte_putBytes, List.length_take, length_wordBytes]
    by_cases hin : b' = b ∧ o ≤ k ∧ k < o + 4 ∧ k < Buf.used s.params b
    · obtain ⟨hb, hok, hk, hku⟩ := hin
      rw [if_pos ⟨hb, hok, by omega⟩, if_pos ⟨hb, hok, hk, hku⟩,
        List.getElem?_take_of_lt (by omega), getElem?_wordBytes v (by omega)]
      rfl
    · rw [if_neg hin, if_neg]
      rintro ⟨hb, hok, hk⟩
      exact hin ⟨hb, hok, by omega, by omega⟩
  · rw [if_neg (by simp [hu]), if_neg]
    rintro ⟨-, hok, -, hku⟩
    omega

theorem byte_writeBufIdle (s : State) {b : Buf} (hw : Buf.hostWritable b = true) (o : Nat) (v : Word)
    (b' : Buf) (k : Nat) :
    (s.writeBufIdle b o v).byte b' k =
      if b' = b ∧ o ≤ k ∧ k < o + 4 ∧ k < Buf.used s.params b
      then v.extractLsb' (8 * (k - o)) 8 else s.byte b' k := by
  rcases writeBufIdle_cases s b o v with ⟨-, h⟩ | ⟨-, h⟩ <;> rw [h]
  · exact byte_storeHostWord s hw o v b' k
  · exact byte_storeHostWord s hw o v b' k

@[simp] theorem params_writeBufIdle (s : State) (b : Buf) (o : Nat) (v : Word) :
    (s.writeBufIdle b o v).params = s.params := by
  rcases writeBufIdle_cases s b o v with ⟨-, h⟩ | ⟨-, h⟩ <;> rw [h] <;>
    rcases storeHostWord_cases s b o v with h | ⟨-, -, h⟩ <;> rw [h] <;> simp

/-- A word written inside the used bytes reads back (R104 to R107). -/
theorem hostWord_writeBufIdle (s : State) {b : Buf} (hw : Buf.hostWritable b = true) {o : Nat}
    (hu : o + 4 ≤ Buf.used s.params b) (v : Word) : (s.writeBufIdle b o v).hostWord b o = v := by
  obtain ⟨hnd, hct⟩ := hostWritable_ne hw
  have hbyte {j : Nat} (hj : j < 4) :
      (s.writeBufIdle b o v).hostByte b (o + j) = v.extractLsb' (8 * j) 8 := by
    rw [hostByte_plain _ hnd hct (by rw [params_writeBufIdle]; omega), byte_writeBufIdle s hw,
      if_pos ⟨rfl, by omega, by omega, by omega⟩, Nat.add_sub_cancel_left]
  have h0 := hbyte (j := 0) (by decide)
  rw [Nat.add_zero] at h0
  rw [State.hostWord, h0, hbyte (by decide), hbyte (by decide), hbyte (by decide)]
  exact wordOfBytes_extract v

theorem readReg_putBytes (s : State) (b : Buf) (o : Nat) (bs : List Byte) (r : Reg) :
    (s.putBytes b o bs).readReg r = s.readReg r := by
  cases b <;> rfl

theorem readReg_clearValid (s : State) {r : Reg} (h : r ≠ .status) :
    s.clearValid.readReg r = s.readReg r := by
  cases r
  case status => exact absurd rfl h
  all_goals rfl

theorem readReg_storeHostWord (s : State) (b : Buf) (o : Nat) (v : Word) (r : Reg) :
    (s.storeHostWord b o v).readReg r = s.readReg r := by
  rcases storeHostWord_cases s b o v with h | ⟨-, -, h⟩ <;> rw [h]
  exact readReg_putBytes s b o _ r

/-- A write to a window changes no register, but that one to FT changes STATUS (R108). -/
theorem readReg_writeBufIdle (s : State) {b : Buf} {r : Reg} (h : b = .ft → r ≠ .status) (o : Nat)
    (v : Word) : (s.writeBufIdle b o v).readReg r = s.readReg r := by
  rcases writeBufIdle_cases s b o v with ⟨-, hc⟩ | ⟨hb, hc⟩ <;> rw [hc]
  · exact readReg_storeHostWord s b o v r
  · rw [readReg_clearValid _ (h hb), readReg_storeHostWord]

theorem status_writeBufIdle_ft (s : State) (o : Nat) (v : Word) :
    (s.writeBufIdle .ft o v).status = { s.status with treeValid := false, codesValid := false } := by
  rw [State.writeBufIdle, status_clearValid, status_storeHostWord]

/-- Settles O12: the used bytes and the host's view of a byte are those of the layout, a read gives
the word of that view, and a write sets the bytes of its word. -/
theorem windowWriteThenRead : Obligations.WindowWriteThenRead := by
  intro s b o hb ha ho used seen
  have hused : used = Buf.used s.params b := by
    cases b
    case dt | rb | cb => exact Nat.mul_comm _ _
    all_goals rfl
  have hseen : ∀ k, seen k = s.hostByte b k := by
    intro k
    by_cases hk : used ≤ k
    · rw [hostByte_of_used_le s (hused ▸ hk)]
      exact if_pos hk
    · refine (if_neg hk).trans ?_
      have hlt : k < Buf.used s.params b := by omega
      cases b
      case nd => exact (hostByte_nd s hlt).symm
      case ct => exact (hostByte_ct s hlt).symm
      all_goals exact (hostByte_plain s (by decide) (by decide) hlt).symm
  refine ⟨?_, fun hnd hct hdt v => ?_⟩
  · rw [access_read_window hb b ha ho, hseen, hseen, hseen, hseen]
    rfl
  · have hw := hostWritable_of_ne hnd hct hdt
    have hphase := (KeepsResult.writeBufIdle s b o v).phase
    have hidle : (s.writeBufIdle b o v).busy = false := by simpa only [State.busy, hphase] using hb
    rw [access_write_window hb b ha ho v, hused]
    refine ⟨rfl, byte_writeBufIdle s hw o v, fun hu => ?_, hphase,
      fun r h => readReg_writeBufIdle s h o v, ?_⟩
    · rw [access_read_window hidle b ha ho, hostWord_writeBufIdle s hw hu v]
    · rintro rfl
      exact status_writeBufIdle_ft s o v

/-! ## Turns -/

theorem decode_encode (i : Instr) : decode (encode i) = .ok i := by cases i <;> rfl

/-- A turn of the engine is the meaning of the command it runs (R182). -/
theorem engineTurn_busy {s : State} {w : Word} {i : Instr} (hp : s.phase = .busy w)
    (hd : decode w = .ok i) : engineTurn s = exec i s := by
  unfold engineTurn
  simp only [hp, hd]

theorem step_engine {s : State} {rest : List Turn} (h : s.schedule = .engine :: rest) :
    step s = engineTurn { s with schedule := rest } := by
  unfold step
  rw [h]

theorem step_host {s : State} {rest : List Turn} (h : s.schedule = .host :: rest) :
    step s = .next (State.hostTurn { s with schedule := rest }) := by
  unfold step
  rw [h]

theorem step_busy {s : State} (h : s.schedule = []) (hb : s.busy = true) :
    step s = engineTurn s := by
  unfold step
  rw [h]
  exact if_pos hb

/-- Settles O4: an engine turn comes by the schedule, by its end while BUSY, or from withFetchWord. -/
theorem stepRunsTheAcceptedCommand : Obligations.StepRunsTheAcceptedCommand := by
  refine ⟨fun s w i hp hd => ⟨fun rest h => ?_, fun h => ?_⟩, fun s i => ?_⟩
  · rw [step_engine h]
    exact engineTurn_busy hp hd
  · rw [step_busy h ((busy_iff s).2 ⟨w, hp⟩), engineTurn_busy hp hd]
  · rw [State.withFetchWord, BitVec.ofNat_toNat, BitVec.setWidth_eq, step_engine rfl]
    exact engineTurn_busy rfl (decode_encode i)

/-! ## Turns of the host -/

/-- The bound names after an answer: a name given is bound to a word that was read (R160). -/
def namesAfter (names : List (String × Word)) : Option String → Reply → List (String × Word)
  | some x, .data v => (x, v) :: names
  | _, _ => names

/-- What an answer makes of the host's side `h` it finds. -/
theorem answered_eq {s : State} {h : HostSide} (hh : s.host = h) (r : Reply) (name : Option String)
    (rest : List HostOp) :
    s.answered r name rest = { s with host := { h with
      program := rest
      replies := r :: h.replies
      names := namesAfter h.names name r } } := by
  subst hh; rfl

section
variable {s : State} {ops : List HostOp}

theorem hostTurn_nil (h : s.host.program = []) : s.hostTurn = s := by
  unfold State.hostTurn
  rw [h]

theorem hostTurn_access {t : Transaction} {name : Option String}
    (h : s.host.program = .access t name :: ops) :
    s.hostTurn = (s.access t).2.answered (s.access t).1 name ops := by
  unfold State.hostTurn
  rw [h]

/-- A wait reads STATUS, and stays next while the block is BUSY (R163). -/
theorem hostTurn_wait {name : Option String} (h : s.host.program = .wait name :: ops) :
    s.hostTurn =
      if s.busy then s.answered (.data (s.readReg .status)) none (.wait name :: ops)
      else s.answered (.data (s.readReg .status)) name ops := by
  unfold State.hostTurn
  rw [h]
  simp only [access_read_reg]

theorem hostTurn_stopOnErr {k : Nat} {v : Word} {rs : List Reply}
    (h : s.host.program = .stopOnErr k :: ops) (hr : s.host.replies = .data v :: rs) :
    s.hostTurn = { s with host := { s.host with
      program := if v.getLsbD 2 then ops.drop k else ops } } := by
  have hlast : s.lastReadErr = v.getLsbD 2 := by
    unfold State.lastReadErr
    rw [hr]
  unfold State.hostTurn
  rw [h]
  simp only [hlast]

theorem hostTurn_expect {addr v : Word} (h : s.host.program = .expect addr v :: ops) :
    s.hostTurn =
      { (s.access (readWord addr)).2 with host := { s.host with
        program := ops
        replies := (s.access (readWord addr)).1 :: s.host.replies
        testFailed :=
          s.host.testFailed || decide ((s.access (readWord addr)).1 ≠ .data v) } } := by
  obtain ⟨hhost, -⟩ := access_frame s (readWord addr)
  unfold State.hostTurn
  rw [h]
  simp only [State.answered, hhost, bne, decide_not]
  rfl

end

/-- Settles O5: a host turn by its next operation, then the lines written out. -/
theorem hostTurnPerformsOneTransaction : Obligations.HostTurnPerformsOneTransaction := by
  refine ⟨?_, fun i name => ⟨rfl, rfl⟩, rfl, rfl, rfl, rfl⟩
  intro s ops rest hs u bind
  rw [step_host hs]
  refine ⟨fun h => ?_, fun t name h => ?_, ?_, fun k v rs h hr => ?_, fun addr v h => ?_⟩
  · rw [hostTurn_nil (s := u) h]
  · obtain ⟨hhost, -⟩ := access_frame u t
    rw [hostTurn_access (s := u) h, answered_eq hhost]
    rfl
  · intro name h r
    have hturn := hostTurn_wait (s := u) h
    refine ⟨fun hb => ?_, fun hb => ?_⟩
    · rw [hturn, if_pos (show u.busy = true from hb), answered_eq rfl, ← h]
      rfl
    · rw [hturn, if_neg (show ¬ u.busy = true from ne_true_of_eq_false hb), answered_eq rfl]
      rfl
  · rw [hostTurn_stopOnErr (s := u) h hr]
  · rw [hostTurn_expect (s := u) h]

end Sys2Proof.Machine
end

section
/-! PROOFS. Every step keeps the memories canonical and inside the storage that exists
(spec/20_memory.md R102, spec/41_rle.md R203, R208, spec/43_huffman_tree.md R279). -/

namespace Sys2Proof.Machine

open Sys2Proof

/-! ## What the checks say of the grid -/

/-- A grid that passes DimCheck fits SB (R183). -/
theorem n_le_of_dimCheck {s : State} (h : s.dimCheck = none) : s.n ≤ s.params.maxSamples :=
  ((dimCheck_eq_none s).1 h).2.2

theorem dimCheck_of_encoderCheck {s : State} (h : s.encoderCheck = none) : s.dimCheck = none :=
  (Option.or_eq_none_iff.1 h).1

theorem dimCheck_of_rleDecCheck {s : State} (h : s.rleDecCheck = none) : s.dimCheck = none :=
  (Option.or_eq_none_iff.1 h).1

theorem dimCheck_of_lzwDecCheck {s : State} (h : s.lzwDecCheck = none) : s.dimCheck = none :=
  (Option.or_eq_none_iff.1 h).1

theorem dimCheck_of_unpackCheck {s : State} (h : s.unpackCheck = none) : s.dimCheck = none :=
  (Option.or_eq_none_iff.1 (Option.or_eq_none_iff.1 h).2).1

/-- In a legal configuration the dictionary has room for the seeds (R10). -/
theorem alphabet_le_dictCap {s : State} (h : Params.wellFormed s.params = true) :
    s.alphabet ≤ s.params.dictCap := by
  have := alphabet_bounds s
  simp only [Params.wellFormed, Bool.and_eq_true, decide_eq_true_eq] at h
  omega

/-! ## What the commands write -/

section
variable {s : State} (h : s.memoriesOk)
include h

/-- The runs of a grid fit RB (R203). -/
theorem memoriesOk_storeRuns (hn : s.n ≤ s.params.maxSamples) : s.storeRuns.memoriesOk := by
  refine memoriesOk_putPairs (b := .rb) h ?_ fun _ => rfl
  have hl := length_rleRuns_le s.samples
  rw [length_samples] at hl
  simp only [Buf.used]
  omega

theorem memoriesOk_putSamples {xs : List Nat} (hl : xs.length ≤ s.params.maxSamples) :
    (s.putSamples xs).memoriesOk := by
  refine memoriesOk_putBytes (b := .sb) h ?_ fun _ => rfl
  simpa [Buf.used] using hl

theorem memoriesOk_putDict {ins : List (Nat × Nat)}
    (hl : s.alphabet + ins.length ≤ s.params.dictCap) : (s.putDict ins).memoriesOk := by
  refine memoriesOk_putPairs (b := .dt) h ?_ fun _ => rfl
  rw [length_dictEntries]
  simp only [Buf.used]
  omega

theorem memoriesOk_storeCodes {codes : List Nat} {ins : List (Nat × Nat)}
    (hc : codes.length ≤ s.params.maxSamples) (hi : s.alphabet + ins.length ≤ s.params.dictCap) :
    (s.storeCodes codes ins).memoriesOk := by
  have hcb : (s.putBytes .cb 0 (numBytes codes)).memoriesOk := by
    refine memoriesOk_putBytes h ?_ fun _ => rfl
    rw [length_numBytes]
    simp only [Buf.used]
    omega
  exact memoriesOk_putDict hcb (by simpa using hi)

/-- The samples of a failed decoder that are left unspecified (R186). -/
theorem memoriesOk_drawSamples (hn : s.n ≤ s.params.maxSamples) :
    (s.drawBytes .sb s.n).memoriesOk :=
  memoriesOk_drawBytes h hn fun _ => rfl

/-- A dictionary left unspecified is the whole of DT and no more (R144, R186). -/
theorem memoriesOk_drawDict : (s.drawBytes .dt (8 * s.params.dictCap)).memoriesOk :=
  memoriesOk_drawBytes h (Nat.mul_comm _ _).le fun _ => rfl

theorem memoriesOk_spoilLzwEnc (hn : s.n ≤ s.params.maxSamples) : s.spoilLzwEnc.memoriesOk := by
  have hcb : (s.drawBytes .cb (4 * s.n)).memoriesOk :=
    memoriesOk_drawBytes h (by simp only [Buf.used]; omega) fun _ => rfl
  exact memoriesOk_drawDict hcb

theorem memoriesOk_spoilLzwDec (hn : s.n ≤ s.params.maxSamples) : s.spoilLzwDec.memoriesOk :=
  memoriesOk_drawDict (memoriesOk_drawSamples h hn)

/-- A table has at most one entry per symbol (R272). -/
theorem memoriesOk_storeTable : s.storeTable.memoriesOk := by
  refine memoriesOk_putPairs (b := .ft) h ?_ fun _ => rfl
  have hl := length_frequencies_le s.alphabet s.cfg.eosEn s.samples
  have ha := alphabet_bounds s
  have he := s.cfg.eosEn.toNat_le
  simp only [Buf.used]
  omega

/-- The arena of a table that passes TableCheck fits ND (R277, R279). -/
theorem memoriesOk_storeTree (hc : s.treeCheck = none) : s.storeTree.memoriesOk := by
  refine memoriesOk_putNodes h ?_
  obtain ⟨hne, hlen, -⟩ := tableCheck_eq_none_iff.1 hc
  have ha := alphabet_bounds s
  have he := s.cfg.eosEn.toNat_le
  rw [length_buildTree hne]
  split <;> omega

theorem memoriesOk_storeCodeTable : s.storeCodeTable.memoriesOk :=
  memoriesOk_putCodes h (by simp [deriveCodes])

/-- A stream of at most BIT_CAP bytes, its padding included, fits BB (R332). -/
theorem memoriesOk_storeStream {bits : List Bool} (hl : bits.length ≤ 8 * s.params.bitCap) :
    (s.storeStream bits).memoriesOk := by
  refine memoriesOk_putBytes (b := .bb) h ?_ fun _ => rfl
  have hp := padCount_lt bits.length
  rw [length_bytesOfBits]
  simp only [Buf.used]
  omega

theorem memoriesOk_spoilPack : s.spoilPack.memoriesOk :=
  memoriesOk_drawBytes (b := .bb) h le_rfl fun _ => rfl

/-! ## Commands, accesses and reset -/

/-- In a legal configuration no command writes past the storage, whatever its outcome (R144). -/
theorem memoriesOk_exec (hp : Params.wellFormed s.params = true) {i : Instr} {t : State}
    (he : exec i s = .next t) : t.memoriesOk := by
  have ha := alphabet_le_dictCap hp
  cases i with
  | nop => cases he; exact h
  | rleEnc =>
    rcases execRleEnc_cases s with ⟨e, -, hr⟩ | ⟨hc, hr⟩ <;> cases hr.symm.trans he
    · exact h
    · exact memoriesOk_storeRuns h (n_le_of_dimCheck (dimCheck_of_encoderCheck hc))
  | rleDec =>
    rcases execRleDec_cases s with ⟨e, -, hr⟩ | ⟨xs, hc, hd, hr⟩ | ⟨e, hc, -, hr⟩ <;>
      cases hr.symm.trans he
    · exact h
    · have hn := n_le_of_dimCheck (dimCheck_of_rleDecCheck hc)
      have hl := length_of_rleReplay hd
      exact memoriesOk_putSamples h (by omega)
    · exact memoriesOk_drawSamples h (n_le_of_dimCheck (dimCheck_of_rleDecCheck hc))
  | lzwEnc =>
    rcases execLzwEnc_cases s with ⟨e, -, hr⟩ | ⟨codes, ins, hc, hd, hr⟩ | ⟨e, hc, -, hr⟩ <;>
      cases hr.symm.trans he
    · exact h
    · have hn := n_le_of_dimCheck (dimCheck_of_encoderCheck hc)
      obtain ⟨hcodes, hins, -, -, hcap, -⟩ :=
        lzwEncode_ok (n_pos_of_dimCheck (dimCheck_of_encoderCheck hc))
          ((encoderCheck_eq_none s).1 hc).2 hd
      exact memoriesOk_storeCodes h (by omega) (hcap ha)
    · exact memoriesOk_spoilLzwEnc h (n_le_of_dimCheck (dimCheck_of_encoderCheck hc))
  | lzwDec =>
    rcases execLzwDec_cases s with ⟨e, -, hr⟩ | ⟨xs, ins, hc, hd, hr⟩ | ⟨e, hc, -, hr⟩ <;>
      cases hr.symm.trans he
    · exact h
    · have hn := n_le_of_dimCheck (dimCheck_of_lzwDecCheck hc)
      obtain ⟨hxs, hcap⟩ := length_of_lzwDecode hd
      exact memoriesOk_putDict (memoriesOk_putSamples h (hxs.trans_le hn)) (by simpa using hcap ha)
    · exact memoriesOk_spoilLzwDec h (n_le_of_dimCheck (dimCheck_of_lzwDecCheck hc))
  | hufFreq =>
    rcases execHufFreq_cases s with ⟨e, -, hr⟩ | ⟨-, hr⟩ <;> cases hr.symm.trans he
    · exact h
    · exact memoriesOk_storeTable (s := s.clearValid) h
  | hufTree =>
    rcases execHufTree_cases s with ⟨e, -, hr⟩ | ⟨hc, hr⟩ <;> cases hr.symm.trans he
    · exact h
    · exact memoriesOk_storeTree (s := s.clearValid) h hc
  | hufCodes =>
    rcases execHufCodes_cases s with ⟨-, hr⟩ | ⟨-, hr⟩ <;> cases hr.symm.trans he
    · exact h
    · exact memoriesOk_storeCodeTable h
  | hufPack =>
    rcases execHufPack_cases s with ⟨e, -, hr⟩ | ⟨bits, -, hd, hr⟩ | ⟨e, -, -, hr⟩ <;>
      cases hr.symm.trans he
    · exact h
    · obtain ⟨-, hl, -⟩ := packPayload_ok hd
      exact memoriesOk_storeStream h hl
    · exact memoriesOk_spoilPack h
  | hufUnpack =>
    rcases execHufUnpack_cases s with ⟨e, -, hr⟩ | ⟨xs, hc, hd, hr⟩ | ⟨e, hc, -, hr⟩ <;>
      cases hr.symm.trans he
    · exact h
    · have hn := n_le_of_dimCheck (dimCheck_of_unpackCheck hc)
      have hl := length_of_unpackWalk hd (Nat.zero_le _)
      exact memoriesOk_putSamples h (by omega)
    · exact memoriesOk_drawSamples h (n_le_of_dimCheck (dimCheck_of_unpackCheck hc))

/-- What the host stores lies inside the used bytes of a memory without reserved places (R108). -/
theorem memoriesOk_storeHostWord (b : Buf) (o : Nat) (v : Word) :
    (s.storeHostWord b o v).memoriesOk := by
  rcases storeHostWord_cases s b o v with hc | ⟨hw, ho, hc⟩ <;> rw [hc]
  · exact h
  · refine memoriesOk_putBytes h ?_ fun k => ?_
    · rw [List.length_take]
      omega
    · cases b
      case nd | ct | dt => cases hw
      all_goals rfl

/-- Of the host's accesses only a window write reaches a memory (R105). -/
theorem memoriesOk_access (t : Transaction) : (s.access t).2.memoriesOk := by
  rcases access_cases s t with hc | ⟨-, -, hc⟩ | ⟨r, -, -, -, hc⟩ | ⟨r, -, -, -, hc⟩ |
    ⟨b, o, -, -, -, -, hc⟩ <;> rw [hc]
  · exact h
  · exact h
  · cases r <;> exact h
  · cases r <;> exact h
  · have hs := memoriesOk_storeHostWord h b o t.wdata
    rcases writeBufIdle_cases s b o t.wdata with ⟨-, hw⟩ | ⟨-, hw⟩ <;> rw [hw] <;> exact hs

end

/-- After a reset no byte of any memory is written (R411). -/
theorem memoriesOk_resetBlock (s : State) : s.resetBlock.memoriesOk := by
  intro b
  have hnil : s.resetBlock.mem b = [] := by cases b <;> rfl
  rw [hnil]
  exact ⟨List.Pairwise.nil, nofun⟩

/-- The configuration is legal, and every memory is in its canonical form inside the storage. -/
def State.storageOk (s : State) : Prop := Params.wellFormed s.params = true ∧ s.memoriesOk

/-- Whatever comes after a legal configuration has that configuration. -/
theorem wellFormed_of_drawsAfter {s t : State} (h : s.drawsAfter t)
    (hp : Params.wellFormed s.params = true) : Params.wellFormed t.params = true := by
  rw [h.1]
  exact hp

/-- Settles O53: a legal configuration with canonical memories is kept by every command, by every
host access and by a reset. -/
theorem stepsKeepMemoriesCanonical : Obligations.StepsKeepMemoriesCanonical := by
  intro s t hp hm hst
  have hok : t.storageOk := step_keeps (P := State.storageOk) (fun _ _ h => h) (fun _ _ h => h)
    (fun s tr ⟨hp, hm⟩ =>
      ⟨wellFormed_of_drawsAfter (drawsAfter_access s tr) hp, memoriesOk_access hm tr⟩)
    (fun s ⟨hp, _⟩ => ⟨hp, memoriesOk_resetBlock s⟩) (fun _ _ h => h)
    (fun s i u ⟨hp, hm⟩ he =>
      ⟨wellFormed_of_drawsAfter (drawsAfter_exec he) hp, memoriesOk_exec hm hp he⟩) ⟨hp, hm⟩ hst
  exact hok.2

end Sys2Proof.Machine
end

section
/-! PROOFS. Command words and their decoding (spec/30_encoding.md R140 to R142, R145), the end of a
host's polling (R163), and the write ranges of the commands (R144, R186, R187). -/

namespace Sys2Proof.Machine

open Sys2Proof

/-! ## Command words -/

/-- The opcode map of R141 and the encoder's table agree. -/
theorem opcodeOf_of_decodeOpcode {op : BitVec 4} {i : Instr} (h : decodeOpcode op = some i) :
    opcodeOf i = op := by
  unfold decodeOpcode at h
  split at h
  case h_11 => cases h
  all_goals
    rename_i hop
    cases h
    exact BitVec.eq_of_toNat_eq hop.symm

/-- What decodes has RSVD 0 and an opcode of the map (R142). -/
theorem decode_eq_ok_iff {w : Word} {i : Instr} :
    decode w = .ok i ↔ rsvdField w = 0 ∧ decodeOpcode (opcodeField w) = some i := by
  unfold decode
  split
  case isTrue hr => cases decodeOpcode (opcodeField w) <;> simp [hr]
  case isFalse hr => exact iff_of_false nofun (hr ·.1)

/-- A word is its RSVD field above its OPCODE field (R140). -/
theorem rsvdField_append_opcodeField (w : Word) : rsvdField w ++ opcodeField w = w :=
  (BitVec.extractLsb'_append_extractLsb'_eq_extractLsb' (x := w) rfl).trans
    BitVec.extractLsb'_eq_self

theorem encode_of_decode {w : Word} {i : Instr} (h : decode w = .ok i) : encode i = w := by
  obtain ⟨hr, hop⟩ := decode_eq_ok_iff.1 h
  calc encode i = rsvdField w ++ opcodeField w := by
        rw [encode, opcodeOf_of_decodeOpcode hop, hr]
        rfl
    _ = w := rsvdField_append_opcodeField w

/-- Settles O2: the reserved field of a word that decodes is 0, and its opcode is its command's. -/
theorem decodeEncodeAgree : Obligations.DecodeEncodeAgree :=
  ⟨fun i _ => decode_encode i, fun _ _ => encode_of_decode⟩

/-- Settles O1: the ten words are the encodings of the commands; the reserved ones are computed. -/
theorem commandWordsOfTheTable : Obligations.CommandWordsOfTheTable :=
  ⟨decode_encode .nop, decode_encode .rleEnc, decode_encode .rleDec, decode_encode .lzwEnc,
    decode_encode .lzwDec, decode_encode .hufFreq, decode_encode .hufTree, decode_encode .hufCodes,
    decode_encode .hufPack, decode_encode .hufUnpack, by decide⟩

/-! ## Polling -/

/-- After a turn of the engine it is idle, and the schedule and the host's side are as they were
(R182). -/
theorem engineTurn_frame {s t : State} (h : engineTurn s = .next t) :
    t.busy = false ∧ t.schedule = s.schedule ∧ t.host = s.host := by
  rcases engineTurn_cases s with ⟨hp, he⟩ | ⟨w, i, -, -, he⟩ | ⟨w, r, -, -, he⟩
  · cases he.symm.trans h
    exact ⟨by simp [State.busy, hp], rfl, rfl⟩
  · obtain ⟨u, hu, -, -, -, -, -, -, -, -, -, -, hsched, hhost⟩ := exec_completes i s
    rw [← he, h] at hu
    rcases hu with hu | ⟨e, -, hu⟩ <;> cases hu <;> exact ⟨rfl, hsched, hhost⟩
  · cases he.symm.trans h
    exact ⟨rfl, rfl, rfl⟩

theorem step_host_idle {s : State} (h : s.schedule = []) (hb : s.busy = false) :
    step s = .next s.hostTurn := by
  unfold step
  rw [h]
  exact if_neg (ne_true_of_eq_false hb)

section
variable {s : State} {name : Option String} {ops : List HostOp}
  (h : s.host.program = .wait name :: ops)
include h

/-- A wait is over at the host's next turn while the block is idle (R163). -/
theorem program_hostTurn_wait_idle (hb : s.busy = false) : s.hostTurn.host.program = ops := by
  rw [hostTurn_wait h, if_neg (ne_true_of_eq_false hb)]
  rfl

/-- A turn of the host ends the wait, or leaves it next and the schedule as it was (R163). -/
theorem hostTurn_wait_cases :
    s.hostTurn.host.program = ops ∨
      (s.hostTurn.host.program = .wait name :: ops ∧ s.hostTurn.schedule = s.schedule) := by
  cases hb : s.busy with
  | false => exact .inl (program_hostTurn_wait_idle h hb)
  | true =>
    rw [hostTurn_wait h, if_pos hb]
    exact .inr ⟨rfl, rfl⟩

/-- A step that takes a turn off the schedule ends the wait or leaves it next. -/
theorem step_wait_cases {turn : Turn} {rest : List Turn} (hs : s.schedule = turn :: rest) :
    ∃ t, step s = .next t ∧ (t.host.program = ops ∨
      (t.host.program = .wait name :: ops ∧ t.schedule = rest)) := by
  cases turn with
  | host => exact ⟨_, step_host hs, hostTurn_wait_cases (s := { s with schedule := rest }) h⟩
  | engine =>
    obtain ⟨t, ht⟩ := step_next s
    obtain ⟨-, hsched, hhost⟩ := engineTurn_frame ((step_engine hs).symm.trans ht)
    exact ⟨t, ht, .inr ⟨hhost ▸ h, hsched⟩⟩
  | reset =>
    refine ⟨State.resetBlock { s with schedule := rest }, ?_, .inr ⟨h, rfl⟩⟩
    unfold step
    rw [hs]

/-- Idle and with the schedule used up, one step ends the wait. -/
theorem run_wait_idle (hs : s.schedule = []) (hb : s.busy = false) :
    ∃ t, Host.Core.run Sys2Proof.core 1 s = .next t ∧ t.host.program = ops :=
  ⟨s.hostTurn, run_succ 0 s _ (step_host_idle hs hb), program_hostTurn_wait_idle h hb⟩

/-- With the schedule used up, a BUSY engine completes first (R431). -/
theorem run_wait_unscheduled (hs : s.schedule = []) :
    ∃ k t, k ≤ 2 ∧ Host.Core.run Sys2Proof.core k s = .next t ∧ t.host.program = ops := by
  cases hb : s.busy with
  | false => exact ⟨1, (run_wait_idle h hs hb).imp fun t ht => ⟨by decide, ht⟩⟩
  | true =>
    obtain ⟨u, hu⟩ := step_next s
    obtain ⟨hidle, hsched, hhost⟩ := engineTurn_frame ((step_busy hs hb).symm.trans hu)
    obtain ⟨t, ht⟩ := run_wait_idle (s := u) (hhost ▸ h) (hsched.trans hs) hidle
    exact ⟨2, t, le_rfl, (run_succ 1 s u hu).trans ht.1, ht.2⟩

end

/-- Settles O60, by induction on the schedule: each of its turns ends the wait or leaves it next. -/
theorem pollingEnds : Obligations.PollingEnds := by
  intro s name ops h
  induction hs : s.schedule generalizing s with
  | nil => exact run_wait_unscheduled h hs
  | cons turn rest ih =>
    obtain ⟨u, hu, hdone | ⟨hwait, hrest⟩⟩ := step_wait_cases h hs
    · exact ⟨1, u, by omega, run_succ 0 s u hu, hdone⟩
    · obtain ⟨k, t, hk, hrun, ht⟩ := ih u hwait hrest
      exact ⟨k + 1, t, by rw [List.length_cons]; omega, (run_succ k s u hu).trans hrun, ht⟩

/-! ## Write ranges -/

/-- `t` differs from `s` in the write range of command `i`, STATUS and ERR_INFO at most (R144). -/
structure KeepsRange (i : Instr) (s t : State) : Prop where
  byte : ∀ b o, s.writeExtent i b ≤ o → t.byte b o = s.byte b o
  reg : ∀ r, Instr.writesReg i r = false → t.readReg r = s.readReg r

theorem writesReg_status (i : Instr) : Instr.writesReg i .status = true := by cases i <;> rfl

theorem writesReg_errInfo (i : Instr) : Instr.writesReg i .errInfo = true := by cases i <;> rfl

/-- A place outside a command's write range lies in another memory or past the range in this one. -/
theorem ne_or_le_of_writeExtent_le {s : State} {i : Instr} {b : Buf} {o : Nat}
    (h : s.writeExtent i b ≤ o) (b' : Buf) : b ≠ b' ∨ s.writeExtent i b' ≤ o := by
  by_cases hb : b = b'
  · exact .inr (hb ▸ h)
  · exact .inl hb

namespace KeepsRange

variable {i : Instr} {s t u : State}

theorem refl (i : Instr) (s : State) : KeepsRange i s s := ⟨fun _ _ _ => rfl, fun _ _ => rfl⟩

/-- Registers of the range, STATUS and ERR_INFO may be written after the memories were. -/
theorem of_registers (h : KeepsRange i s t) (hb : ∀ b o, u.byte b o = t.byte b o)
    (hr : ∀ r, Instr.writesReg i r = false → u.readReg r = t.readReg r) : KeepsRange i s u :=
  ⟨fun b o ho => (hb b o).trans (h.byte b o ho), fun r hw => (hr r hw).trans (h.reg r hw)⟩

/-- A change of STATUS and ERR_INFO alone. -/
theorem of_status (h : KeepsRange i s t) (hb : ∀ b o, u.byte b o = t.byte b o)
    (hr : ∀ r, r ≠ .status → r ≠ .errInfo → u.readReg r = t.readReg r) : KeepsRange i s u := by
  refine h.of_registers hb fun r hw => hr r ?_ ?_
  · rintro rfl; rw [writesReg_status] at hw; cases hw
  · rintro rfl; rw [writesReg_errInfo] at hw; cases hw

theorem succeed (h : KeepsRange i s t) : KeepsRange i s t.succeed :=
  h.of_status (fun _ _ => rfl) fun r hs he => by cases r <;> trivial

theorem fail (h : KeepsRange i s t) (e : Raise) : KeepsRange i s (t.fail e) :=
  h.of_status (fun _ _ => rfl) fun r hs he => by cases r <;> trivial

theorem clearValid (h : KeepsRange i s t) : KeepsRange i s t.clearValid :=
  h.of_status (fun _ _ => rfl) fun _ hs _ => readReg_clearValid t hs

/-- Bytes written inside the range. -/
theorem putBytes (h : KeepsRange i s t) {b : Buf} {bs : List Byte}
    (hl : bs.length ≤ s.writeExtent i b) : KeepsRange i s (t.putBytes b 0 bs) := by
  refine ⟨fun b' o ho => ?_, fun r hr => (readReg_putBytes t b 0 bs r).trans (h.reg r hr)⟩
  refine (byte_putBytes_frame t b 0 bs b' o ?_).trans (h.byte b' o ho)
  exact (ne_or_le_of_writeExtent_le ho b).imp_right fun ho => .inr (by omega)

theorem drawBytes (h : KeepsRange i s t) {b : Buf} {len : Nat} (hl : len ≤ s.writeExtent i b) :
    KeepsRange i s (t.drawBytes b len) :=
  h.putBytes (by simpa using hl)

theorem putPairs (h : KeepsRange i s t) {b : Buf} {ps : List (Nat × Nat)}
    (hl : 8 * ps.length ≤ s.writeExtent i b) : KeepsRange i s (t.putPairs b ps) :=
  h.putBytes (by rw [length_numBytes, length_flatMap_pair]; omega)

theorem putSamples (h : KeepsRange i s t) {xs : List Nat}
    (hl : xs.length ≤ s.writeExtent i .sb) : KeepsRange i s (t.putSamples xs) :=
  h.putBytes (by simpa using hl)

theorem putNodes (h : KeepsRange i s t) {nds : List Node}
    (hl : 32 * nds.length ≤ s.writeExtent i .nd) : KeepsRange i s (t.putNodes nds) := by
  refine ⟨fun b o ho => ?_, h.reg⟩
  have hout := (ne_or_le_of_writeExtent_le ho .nd).imp_right hl.trans
  exact (byte_putNodes_frame t nds b o hout).trans (h.byte b o ho)

theorem putCodes (h : KeepsRange i s t) {cs : List Code}
    (hl : 64 * cs.length ≤ s.writeExtent i .ct) : KeepsRange i s (t.putCodes cs) := by
  refine ⟨fun b o ho => ?_, h.reg⟩
  have hout := (ne_or_le_of_writeExtent_le ho .ct).imp_right hl.trans
  exact (byte_putCodes_frame t cs b o hout).trans (h.byte b o ho)

/-! ## What the commands write -/

theorem storeRuns (s : State) : KeepsRange .rleEnc s s.storeRuns := by
  have hl := length_rleRuns_le s.samples
  rw [length_samples] at hl
  exact ((refl .rleEnc s).putPairs (b := .rb) (Nat.mul_le_mul_left 8 hl)).of_registers
    (fun _ _ => rfl) fun r hr => by cases r <;> trivial

/-- A dictionary of at most DICT_CAP entries, with its size (R144). -/
theorem putDict (h : KeepsRange i s t) (hi : i = .lzwEnc ∨ i = .lzwDec) {ins : List (Nat × Nat)}
    (hl : t.alphabet + ins.length ≤ s.params.dictCap) : KeepsRange i s (t.putDict ins) := by
  have hdt : 8 * (dictEntries t.alphabet ins).length ≤ s.writeExtent i .dt := by
    rw [length_dictEntries]
    rcases hi with rfl | rfl <;> exact Nat.mul_le_mul_left 8 hl
  refine (h.putPairs hdt).of_registers (fun _ _ => rfl) fun r hr => ?_
  rcases hi with rfl | rfl <;> cases r <;> trivial

theorem storeCodes (s : State) {codes : List Nat} {ins : List (Nat × Nat)}
    (hc : codes.length ≤ s.n) (hi : s.alphabet + ins.length ≤ s.params.dictCap) :
    KeepsRange .lzwEnc s (s.storeCodes codes ins) := by
  have hcb : (numBytes codes).length ≤ s.writeExtent .lzwEnc .cb := by
    rw [length_numBytes]
    exact Nat.mul_le_mul_left 4 hc
  exact (((refl .lzwEnc s).putBytes hcb).putDict (.inl rfl) hi).of_registers (fun _ _ => rfl)
    fun r hr => by cases r <;> trivial

theorem spoilLzwEnc (s : State) : KeepsRange .lzwEnc s s.spoilLzwEnc :=
  (((refl .lzwEnc s).drawBytes (b := .cb) le_rfl).drawBytes (b := .dt) le_rfl).of_registers
    (fun _ _ => rfl) fun r hr => by cases r <;> trivial

theorem spoilLzwDec (s : State) : KeepsRange .lzwDec s s.spoilLzwDec :=
  (((refl .lzwDec s).drawBytes (b := .sb) le_rfl).drawBytes (b := .dt) le_rfl).of_registers
    (fun _ _ => rfl) fun r hr => by cases r <;> trivial

/-- The samples a failed decoder leaves unspecified, with the draw used up (R186). -/
theorem drawSamples (s : State) (h : s.n ≤ s.writeExtent i .sb) :
    KeepsRange i s (s.drawBytes .sb s.n).nextDraw :=
  ((refl i s).drawBytes h).of_registers (fun _ _ => rfl) fun r _ => by cases r <;> rfl

theorem storeTable (h : KeepsRange .hufFreq s t) : KeepsRange .hufFreq s t.storeTable := by
  have hl := length_frequencies_le t.alphabet t.cfg.eosEn t.samples
  have ha := alphabet_bounds t
  have he := t.cfg.eosEn.toNat_le
  exact (h.putPairs (b := .ft) (Nat.mul_le_mul_left 8 (by omega))).of_registers (fun _ _ => rfl)
    fun r hr => by cases r <;> trivial

/-- A tree of at most 257 leaves has at most 513 nodes (R279). -/
theorem storeTree (h : KeepsRange .hufTree s t) (hc : t.treeCheck = none) :
    KeepsRange .hufTree s t.storeTree := by
  obtain ⟨hne, hlen, -⟩ := tableCheck_eq_none_iff.1 hc
  have ha := alphabet_bounds t
  have he := t.cfg.eosEn.toNat_le
  have hnodes : (buildTree t.table).length ≤ 513 := by
    rw [length_buildTree hne]
    split <;> omega
  exact (h.putNodes (Nat.mul_le_mul_left 32 hnodes)).of_registers (fun _ _ => rfl)
    fun r hr => by cases r <;> trivial

theorem storeCodeTable (s : State) : KeepsRange .hufCodes s s.storeCodeTable := by
  have hl : (deriveCodes s.nodeAt s.root.toNat).length = 257 := by simp [deriveCodes]
  exact ((refl .hufCodes s).putCodes (Nat.mul_le_mul_left 64 hl.le)).of_registers (fun _ _ => rfl)
    fun r hr => by cases r <;> trivial

/-- A stream of at most BIT_CAP bytes, its padding included (R332). -/
theorem storeStream (s : State) {bits : List Bool} (hl : bits.length ≤ 8 * s.params.bitCap) :
    KeepsRange .hufPack s (s.storeStream bits) := by
  have hp := padCount_lt bits.length
  have hbytes : (bits.length + padCount bits.length) / 8 ≤ s.params.bitCap := by omega
  exact ((refl .hufPack s).putBytes (b := .bb)
    ((length_bytesOfBits _ _).trans_le hbytes)).of_registers (fun _ _ => rfl)
    fun r hr => by cases r <;> trivial

theorem spoilPack (s : State) : KeepsRange .hufPack s s.spoilPack :=
  ((refl .hufPack s).drawBytes (b := .bb) le_rfl).of_registers (fun _ _ => rfl)
    fun r hr => by cases r <;> trivial

/-- Every outcome of every command keeps to the range (R144, R186, R187). -/
theorem exec (hp : Params.wellFormed s.params = true) (h : exec i s = .next t) :
    KeepsRange i s t := by
  have ha := alphabet_le_dictCap hp
  cases i with
  | nop => cases h; exact (refl .nop s).succeed
  | rleEnc =>
    rcases execRleEnc_cases s with ⟨e, -, hr⟩ | ⟨-, hr⟩ <;> cases hr.symm.trans h
    · exact (refl .rleEnc s).fail e
    · exact (storeRuns s).succeed
  | rleDec =>
    rcases execRleDec_cases s with ⟨e, -, hr⟩ | ⟨xs, -, hd, hr⟩ | ⟨e, -, -, hr⟩ <;>
      cases hr.symm.trans h
    · exact (refl .rleDec s).fail e
    · have hl := length_of_rleReplay hd
      exact ((refl .rleDec s).putSamples (by simp only [State.writeExtent]; omega)).succeed
    · exact (drawSamples s le_rfl).fail e
  | lzwEnc =>
    rcases execLzwEnc_cases s with ⟨e, -, hr⟩ | ⟨codes, ins, hc, hd, hr⟩ | ⟨e, -, -, hr⟩ <;>
      cases hr.symm.trans h
    · exact (refl .lzwEnc s).fail e
    · obtain ⟨hcodes, hins, -, -, hcap, -⟩ :=
        lzwEncode_ok (n_pos_of_dimCheck (dimCheck_of_encoderCheck hc))
          ((encoderCheck_eq_none s).1 hc).2 hd
      exact (storeCodes s (hcodes.trans_le hins) (hcap ha)).succeed
    · exact (spoilLzwEnc s).fail e
  | lzwDec =>
    rcases execLzwDec_cases s with ⟨e, -, hr⟩ | ⟨xs, ins, -, hd, hr⟩ | ⟨e, -, -, hr⟩ <;>
      cases hr.symm.trans h
    · exact (refl .lzwDec s).fail e
    · obtain ⟨hxs, hcap⟩ := length_of_lzwDecode hd
      have hdict : (s.putSamples xs).alphabet + ins.length ≤ s.params.dictCap := by
        simpa using hcap ha
      exact (((refl .lzwDec s).putSamples hxs.le).putDict (.inr rfl) hdict).succeed
    · exact (spoilLzwDec s).fail e
  | hufFreq =>
    rcases execHufFreq_cases s with ⟨e, -, hr⟩ | ⟨-, hr⟩ <;> cases hr.symm.trans h
    · exact (refl .hufFreq s).clearValid.fail e
    · exact (refl .hufFreq s).clearValid.storeTable.succeed
  | hufTree =>
    rcases execHufTree_cases s with ⟨e, -, hr⟩ | ⟨hc, hr⟩ <;> cases hr.symm.trans h
    · exact (refl .hufTree s).clearValid.fail e
    · exact ((refl .hufTree s).clearValid.storeTree hc).succeed
  | hufCodes =>
    rcases execHufCodes_cases s with ⟨-, hr⟩ | ⟨-, hr⟩ <;> cases hr.symm.trans h
    · exact (refl .hufCodes s).fail _
    · exact (storeCodeTable s).succeed
  | hufPack =>
    rcases execHufPack_cases s with ⟨e, -, hr⟩ | ⟨bits, -, hd, hr⟩ | ⟨e, -, -, hr⟩ <;>
      cases hr.symm.trans h
    · exact (refl .hufPack s).fail e
    · obtain ⟨-, hl, -⟩ := packPayload_ok hd
      exact (storeStream s hl).succeed
    · exact (spoilPack s).fail e
  | hufUnpack =>
    rcases execHufUnpack_cases s with ⟨e, -, hr⟩ | ⟨xs, -, hd, hr⟩ | ⟨e, -, -, hr⟩ <;>
      cases hr.symm.trans h
    · exact (refl .hufUnpack s).fail e
    · have hl := length_of_unpackWalk hd (Nat.zero_le _)
      exact ((refl .hufUnpack s).putSamples (by simp only [State.writeExtent]; omega)).succeed
    · exact (drawSamples s le_rfl).fail e

end KeepsRange

/-- Settles O50: each command's stores lie inside its range, a failure leaves at most that range
unspecified, and a completion writes STATUS and ERR_INFO. -/
theorem commandsKeepToTheirWriteRange : Obligations.CommandsKeepToTheirWriteRange := by
  intro i s t hp h
  have hk := KeepsRange.exec hp h
  exact ⟨hk.byte, hk.reg⟩

end Sys2Proof.Machine
end

section
/-! PROOFS. The life of a command (spec/40_command_lifecycle.md R180 to R191): its acceptance, its
one completion step, the checks that come before its data phase, and what it does not depend on. -/

namespace Sys2Proof.Machine

open Sys2Proof

/-! ## Acceptance -/

/-- Settles O6: a write to CMD while IDLE is the acceptance of its word. -/
theorem idleCommandWriteIsAccepted : Obligations.IdleCommandWriteIsAccepted := by
  intro s w hp
  have hb : s.busy = false := by simp [State.busy, hp]
  exact access_write_reg_idle hb .cmd w

/-- A write to a register while BUSY (R105, R181, R421). -/
theorem access_write_reg_busy {s : State} (hb : s.busy = true) (r : Reg) (v : Word) :
    s.access (writeWord (regAddr r) v) = (.ok, s.writeRegBusy r v) := by
  rw [access_write_reg, if_pos hb]

/-- Settles O7: a write to CMD while BUSY sets DROPPED. -/
theorem busyCommandWriteIsDropped : Obligations.BusyCommandWriteIsDropped :=
  fun s v w hp => access_write_reg_busy ((busy_iff s).2 ⟨v, hp⟩) .cmd w

/-! ## Completion -/

/-- Settles O24: NOP is its success completion. -/
theorem nopOnlyCompletes : Obligations.NopOnlyCompletes := execNop_eq

/-- A command's own errors have the codes 1 to 5; code 6 is IllegalCommand's (R370). -/
theorem ErrorKind.code_bounds_of_ne {k : ErrorKind} (h : k ≠ .illegalCommand) :
    1 ≤ (ErrorKind.code k).toNat ∧ (ErrorKind.code k).toNat ≤ 5 := by
  cases k
  case illegalCommand => exact absurd rfl h
  all_goals decide

/-- Settles O19: a command's completion records a success or an error that is not IllegalCommand. -/
theorem everyCommandCompletes : Obligations.EveryCommandCompletes := by
  intro i s
  obtain ⟨u, hout, hcmd, hop, hdrop, hie, hcfg, hh, hw, hp, hm, -, hsched, hhost⟩ :=
    exec_completes i s
  rcases hout with ht | ⟨e, he, ht⟩
  · exact ⟨_, ht, rfl, rfl, fun _ => ⟨rfl, rfl⟩, nofun, hcmd, hop, hdrop, hie, hcfg, hh, hw, hp, hm,
      hsched, hhost⟩
  · exact ⟨_, ht, rfl, rfl, nofun, fun _ => ErrorKind.code_bounds_of_ne he, hcmd, hop, hdrop, hie,
      hcfg, hh, hw, hp, hm, hsched, hhost⟩

/-! ## The first check that raises -/

/-- The first raise of a command's pre-check phase (R182, R185). -/
def State.preCheck (s : State) : Instr → Option Raise
  | .nop => none
  | .rleEnc | .lzwEnc | .hufFreq => s.encoderCheck
  | .rleDec => s.rleDecCheck
  | .lzwDec => s.lzwDecCheck
  | .hufTree => s.treeCheck
  | .hufCodes => s.needTree
  | .hufPack => s.packCheck
  | .hufUnpack => s.unpackCheck

/-- The state a raise of the pre-check phase leaves: HUF_FREQ and HUF_TREE clear the valid bits
whatever the outcome (R49, R186). -/
def State.preState (s : State) : Instr → State
  | .hufFreq | .hufTree => s.clearValid
  | .nop | .rleEnc | .rleDec | .lzwEnc | .lzwDec | .hufCodes | .hufPack | .hufUnpack => s

section
variable {s : State} {e : Raise}

/-- A raise of the pre-check phase ends the command and writes nothing but the result (R186). -/
theorem exec_of_preCheck {i : Instr} (h : s.preCheck i = some e) :
    exec i s = .next ((s.preState i).fail e) := by
  cases i
  case nop => cases h
  all_goals
    rw [exec]
    exact runCommand_pre h _ _

theorem packCheck_of_codesValid (hc : s.status.codesValid = true) :
    s.packCheck = s.encoderCheck := by
  simp [State.packCheck, raiseIf, hc]

/-- HUF_PACK asks for the codes before it looks at the grid (R332). -/
theorem packCheck_of_not_codesValid (hc : s.status.codesValid = false) :
    s.packCheck = some { kind := .sequenceError, info := 0 } := by
  simp [State.packCheck, raiseIf, hc]

/-- HUF_UNPACK asks for the tree before it looks at DIM (R340). -/
theorem unpackCheck_of_not_treeValid (ht : s.status.treeValid = false) :
    s.unpackCheck = some { kind := .sequenceError, info := 0 } := by
  simp [State.unpackCheck, State.needTree, raiseIf, ht]

/-- A raise of DimCheck is the raise of every check that begins with it (R183). -/
theorem checks_of_dimCheck (h : s.dimCheck = some e) :
    s.encoderCheck = some e ∧ s.rleDecCheck = some e ∧ s.lzwDecCheck = some e ∧
    (s.status.treeValid = true → s.unpackCheck = some e) := by
  simp +contextual [State.encoderCheck, State.rleDecCheck, State.lzwDecCheck, State.unpackCheck,
    State.needTree, raiseIf, h]

/-- A raise of the grid encoders' check ends each of them; HUF_PACK needs the codes first (R190). -/
theorem exec_encoders_of_check (h : s.encoderCheck = some e) :
    exec .rleEnc s = .next (s.fail e) ∧ exec .lzwEnc s = .next (s.fail e) ∧
    exec .hufFreq s = .next (s.clearValid.fail e) ∧
    (s.status.codesValid = true → exec .hufPack s = .next (s.fail e)) :=
  ⟨exec_of_preCheck h, exec_of_preCheck h, exec_of_preCheck h,
    fun hc => exec_of_preCheck ((packCheck_of_codesValid hc).trans h)⟩

/-- A raise of DimCheck ends each decoder; HUF_UNPACK needs the tree first (R183). -/
theorem exec_decoders_of_dimCheck (h : s.dimCheck = some e) :
    exec .rleDec s = .next (s.fail e) ∧ exec .lzwDec s = .next (s.fail e) ∧
    (s.status.treeValid = true → exec .hufUnpack s = .next (s.fail e)) := by
  obtain ⟨-, hrle, hlzw, hunpack⟩ := checks_of_dimCheck h
  exact ⟨exec_of_preCheck hrle, exec_of_preCheck hlzw, fun ht => exec_of_preCheck (hunpack ht)⟩

end

/-- Without its codes or its tree a bitstream command fails with SequenceError(0) (R332, R340). -/
theorem exec_bitstream_of_invalid (s : State) :
    (s.status.codesValid = false →
      exec .hufPack s = .next (s.fail { kind := .sequenceError, info := 0 })) ∧
    (s.status.treeValid = false →
      exec .hufUnpack s = .next (s.fail { kind := .sequenceError, info := 0 })) :=
  ⟨fun hc => exec_of_preCheck (packCheck_of_not_codesValid hc),
    fun ht => exec_of_preCheck (unpackCheck_of_not_treeValid ht)⟩

/-- DimCheck raises InvalidInput(0) on an empty grid (R183). -/
theorem dimCheck_of_empty {s : State} (h : s.height = 0 ∨ s.width = 0) :
    s.dimCheck = some { kind := .invalidInput, info := 0 } := by
  rcases h with h | h <;> simp [State.dimCheck, raiseIf, h]

/-- DimCheck raises CapacityExceeded(0) on a grid that does not fit SB (R183). -/
theorem dimCheck_of_too_large {s : State} (hh : s.height ≠ 0) (hw : s.width ≠ 0)
    (hn : s.params.maxSamples < s.n) :
    s.dimCheck = some { kind := .capacityExceeded, info := 0 } := by
  have hh0 := (toNat_pos_of_ne_zero hh).ne'
  have hw0 := (toNat_pos_of_ne_zero hw).ne'
  simp [State.dimCheck, raiseIf, hh0, hw0, hn]

/-- Settles O20: the raise of DimCheck is the first raise of each check but those that ask for a
valid tree or valid codes before it. -/
theorem dimensionCheckComesFirst : Obligations.DimensionCheckComesFirst := by
  intro s code h
  obtain ⟨k, hdim, rfl⟩ : ∃ k, s.dimCheck = some { kind := k, info := 0 } ∧
      ErrorKind.code k = code := by
    rcases h with ⟨hempty, rfl⟩ | ⟨⟨hh, hw, hn⟩, rfl⟩
    · exact ⟨_, dimCheck_of_empty hempty, rfl⟩
    · exact ⟨_, dimCheck_of_too_large hh hw hn, rfl⟩
  obtain ⟨hrleEnc, hlzwEnc, hfreq, hpack⟩ := exec_encoders_of_check (checks_of_dimCheck hdim).1
  obtain ⟨hrleDec, hlzwDec, hunpack⟩ := exec_decoders_of_dimCheck hdim
  obtain ⟨hcodes, htree⟩ := exec_bitstream_of_invalid s
  exact ⟨hrleEnc, hrleDec, hlzwEnc, hlzwDec, hfreq, hpack, hunpack, hcodes, htree⟩

/-! ## The pre-scan -/

/-- Under ALPHA = 1 every byte is a sample of the alphabet (R16). -/
theorem sample_le_amax_of_alpha {s : State} (h : s.cfg.alpha = true) (k : Nat) :
    s.sample k ≤ s.amax := by
  have hamax : s.amax = 255 := by simp [State.amax, State.alphabet, h]
  have := (s.byte .sb k).isLt
  simp only [State.sample, hamax]
  omega

/-- The pre-scan raises at the lowest index of a sample outside the alphabet (R190). -/
theorem validateSamples_of_lowest {s : State} {k : Nat} (hk : k < s.n) (hbad : s.amax < s.sample k)
    (hlow : ∀ j, j < k → s.sample j ≤ s.amax) :
    s.validateSamples = some { kind := .unsupportedAlphabet, info := k } := by
  have hfind : (s.samples.findIdx? fun x => s.amax < x) = some k := by
    rw [List.findIdx?_eq_some_iff_getElem]
    refine ⟨by simpa using hk, by simpa [State.samples] using hbad, fun j hj => ?_⟩
    simpa [State.samples] using hlow j hj
  rw [State.validateSamples, hfind]
  rfl

/-- Settles O21: past DimCheck the pre-scan is what raises, at the lowest bad index. -/
theorem preScanReportsTheLowestBadSample : Obligations.PreScanReportsTheLowestBadSample := by
  refine ⟨fun s => sample_le_amax_of_alpha, fun s k hh hw hn hk hbad hlow => ?_⟩
  refine exec_encoders_of_check (e := { kind := .unsupportedAlphabet, info := k }) ?_
  rw [State.encoderCheck, dimCheck_ok hh hw hn, Option.none_or]
  exact validateSamples_of_lowest hk hbad hlow

/-! ## What no outcome depends on -/

/-- `s` with everything no command's outcome depends on taken from `u`: DONE, DROPPED, the interrupt
enable, the count of draws, the schedule and the host's side (R182, R191). -/
def State.withHostPartOf (s u : State) : State :=
  { s with
    status := { s.status with done := u.status.done, dropped := u.status.dropped }
    doneIe := u.doneIe
    draws := u.draws
    schedule := u.schedule
    host := u.host }

/-- While BUSY an access changes nothing but what no outcome depends on, and not the schedule (R421,
R422). -/
theorem access_busy {s : State} (hb : s.busy = true) (t : Transaction) :
    (s.access t).2 = { s.withHostPartOf (s.access t).2 with schedule := s.schedule } := by
  rcases access_cases s t with h | ⟨-, -, h⟩ | ⟨r, -, -, -, h⟩ | ⟨r, -, -, hi, -⟩ |
    ⟨b, o, -, -, -, hi, -⟩
  · rw [h]; rfl
  · rw [h]; rfl
  · rw [h]; cases r <;> rfl
  all_goals rw [hb] at hi; cases hi

/-- While BUSY a turn of the host changes nothing but what no outcome depends on, and not the
schedule (R421). -/
theorem hostTurn_busy {s : State} (hb : s.busy = true) :
    s.hostTurn = { s.withHostPartOf s.hostTurn with schedule := s.schedule } := by
  rcases hostTurn_cases s with ⟨host, h⟩ | ⟨t, host, h⟩ <;> rw [h]
  · rfl
  · exact congrArg (fun u : State => { u with host := host }) (access_busy hb t)

/-- Settles O58: the step is a turn of the host, taken off the schedule. -/
theorem hostTurnsLeaveARunningCommandAlone : Obligations.HostTurnsLeaveARunningCommandAlone := by
  intro s t rest hb hs hst
  cases (step_host hs).symm.trans hst
  exact hostTurn_busy (s := { s with schedule := rest }) hb

/-! ## Determined outcomes -/

/-- `t'` shows the same result as `t`, and if that is a success it is `t` but for what no outcome
depends on, taken from `u`; DONE is the completion's (R191). -/
structure SameOutcome (u t t' : State) : Prop where
  err : t'.status.err = t.status.err
  errcode : t'.status.errcode = t.status.errcode
  errInfo : t'.errInfo = t.errInfo
  success : t.status.err = false → t' = { t.withHostPartOf u with
    status := { t.status with dropped := u.status.dropped } }

/-- The completions of two runs with the same pre-check, whose data phases raise the same or leave
states that differ in what no outcome depends on. -/
theorem sameOutcome_of_runCommand {u s s' t t' : State} {pre : Option Raise}
    {data data' : Unit → Except Raise State} {spoiled spoiled' : Unit → State}
    (h : runCommand s pre data spoiled = .next t)
    (h' : runCommand s' pre data' spoiled' = .next t')
    (hd : data' () = (data ()).map fun v => v.withHostPartOf u) : SameOutcome u t t' := by
  rcases runCommand_cases s pre data spoiled with
    ⟨e, hp, hr⟩ | ⟨v, hp, hv, hr⟩ | ⟨e, hp, hv, hr⟩ <;> cases hr.symm.trans h
  · cases (runCommand_pre hp data' spoiled').symm.trans h'
    exact ⟨rfl, rfl, rfl, nofun⟩
  · rw [hv] at hd
    cases (runCommand_ok hp hd spoiled').symm.trans h'
    exact ⟨rfl, rfl, rfl, fun _ => rfl⟩
  · rw [hv] at hd
    cases (runCommand_error hp hd spoiled').symm.trans h'
    exact ⟨rfl, rfl, rfl, nofun⟩

/-- A data phase that computes `x` and stores it: with another host part it
computes the same and stores it the same. -/
theorem map_withHostPartOf {α : Type} {u : State} {store store' : α → State} (x : Except Raise α)
    (h : ∀ a, store' a = (store a).withHostPartOf u) :
    x.map store' = (x.map store).map fun v => v.withHostPartOf u := by
  cases x with
  | error e => rfl
  | ok a => exact congrArg Except.ok (h a)

/-- Every command has the same outcome with another host part (R191). -/
theorem sameOutcome_exec {i : Instr} {s t t' : State} (u : State) (h : exec i s = .next t)
    (h' : exec i (s.withHostPartOf u) = .next t') : SameOutcome u t t' := by
  cases i
  all_goals rw [exec] at h h'
  case nop | rleEnc | hufFreq | hufTree | hufCodes => exact sameOutcome_of_runCommand h h' rfl
  case rleDec | lzwEnc | lzwDec | hufPack | hufUnpack =>
    exact sameOutcome_of_runCommand h h' (map_withHostPartOf _ fun _ => rfl)

/-- Settles O59: the second state is the first with the host part of its own. -/
theorem outcomesAreDetermined : Obligations.OutcomesAreDetermined := by
  intro i s s' t t' hs h h'
  have hs : s.withHostPartOf s' = s' := hs.symm
  obtain ⟨herr, hcode, hinfo, hsuccess⟩ := sameOutcome_exec s' h (hs.symm ▸ h')
  exact ⟨herr, hcode, hinfo, hsuccess⟩

end Sys2Proof.Machine
end

section
/-! PROOFS. Run-length coding (spec/41_rle.md R201 to R208): what RLE_ENC stores, what RLE_DEC
replays and at which run it fails, and that the one undoes the other; with the count checks the
three decoders share. -/

namespace Sys2Proof.Machine

open Sys2Proof

/-! ## The count checks of the decoders -/

/-- A decoder's check of its count register against the room for what it counts (R206, R240,
R340). -/
def countCheck (room : Nat) (count : Word) : Option Raise :=
  (raiseIf (count.toNat = 0) .invalidInput 0).or
    (raiseIf (room < count.toNat) .capacityExceeded 0)

theorem countCheck_zero (room : Nat) :
    countCheck room 0 = some { kind := .invalidInput, info := 0 } := rfl

theorem countCheck_of_lt {room : Nat} {count : Word} (h : room < count.toNat) (h0 : count ≠ 0) :
    countCheck room count = some { kind := .capacityExceeded, info := 0 } := by
  have hpos := (toNat_pos_of_ne_zero h0).ne'
  simp [countCheck, raiseIf, hpos, h]

/-- A command whose check comes down to its count fails on a count of zero and on one past its
room. -/
theorem exec_of_countCheck {s : State} {i : Instr} {room : Nat} {count : Word}
    (h : s.preCheck i = countCheck room count) :
    (count = 0 → exec i s = .next ((s.preState i).fail { kind := .invalidInput, info := 0 })) ∧
    (room < count.toNat → count ≠ 0 →
      exec i s = .next ((s.preState i).fail { kind := .capacityExceeded, info := 0 })) :=
  ⟨fun h0 => exec_of_preCheck (by rw [h, h0, countCheck_zero]),
    fun hlt h0 => exec_of_preCheck (h.trans (countCheck_of_lt hlt h0))⟩

/-- Past DimCheck a decoder checks its count; HUF_UNPACK asks for its tree before. -/
theorem decoderChecks_of_dimCheck {s : State} (hd : s.dimCheck = none) :
    s.preCheck .rleDec = countCheck s.params.maxSamples s.runCount ∧
    s.preCheck .lzwDec = countCheck s.params.maxSamples s.codeCount ∧
    (s.status.treeValid = true →
      s.preCheck .hufUnpack = countCheck s.params.bitCap s.byteLen) := by
  refine ⟨?_, ?_, fun ht => ?_⟩
  · rw [State.preCheck, State.rleDecCheck, hd]; rfl
  · rw [State.preCheck, State.lzwDecCheck, hd]; rfl
  · rw [State.preCheck, State.unpackCheck, State.needTree, ht, hd]; rfl

/-- Settles O23: past DimCheck the raise of the count check is the decoder's first raise. -/
theorem decodersCheckTheirCounts : Obligations.DecodersCheckTheirCounts := by
  intro s hh hw hn
  obtain ⟨hrle, hlzw, hunpack⟩ := decoderChecks_of_dimCheck (dimCheck_ok hh hw hn)
  obtain ⟨hrleZero, hrleFull⟩ := exec_of_countCheck hrle
  obtain ⟨hlzwZero, hlzwFull⟩ := exec_of_countCheck hlzw
  exact ⟨hrleZero, hrleFull, hlzwZero, hlzwFull, fun ht => (exec_of_countCheck (hunpack ht)).1,
    fun ht => (exec_of_countCheck (hunpack ht)).2⟩

/-! ## RLE_ENC -/

/-- A grid that passes the checks is encoded: RLE_ENC has no fault of its data phase (R203). -/
theorem exec_rleEnc_of_check {s : State} (h : s.encoderCheck = none) :
    exec .rleEnc s = .next s.storeRuns.succeed := by
  rw [exec]
  exact runCommand_ok h rfl _

/-- RLE_ENC leaves RB alone past the runs it stores (R203). -/
theorem byte_storeRuns_frame (s : State) {o : Nat} (h : 8 * s.storeRuns.runCount.toNat ≤ o) :
    s.storeRuns.byte .rb o = s.byte .rb o := by
  rw [runCount_storeRuns] at h
  exact byte_putPairs_frame s .rb _ .rb o (.inr h)

/-- The counts of the runs of a grid add up to its number of samples (R202). -/
theorem sum_counts_rleRuns (xs : List Nat) : ((rleRuns xs).map (·.2)).sum = xs.length := by
  rw [← length_expandRuns, expandRuns_rleRuns]

/-- Settles O25: RLE_ENC stores the scan's runs, which read back as they were stored. -/
theorem rleEncStoresMaximalRuns : Obligations.RleEncStoresMaximalRuns := by
  intro s hh hw hn hsamples
  refine ⟨_, exec_rleEnc_of_check (encoderCheck_ok hh hw hn hsamples), rfl, ?_⟩
  rw [runs_succeed, runs_storeRuns]
  refine ⟨expandRuns_rleRuns _, fun r hr => ?_, rleRuns_maximal _, ?_, fun o =>
    byte_storeRuns_frame s⟩
  · obtain ⟨hcount, hvalue⟩ := rleRuns_counts _ r hr
    exact ⟨hcount, hsamples _ hvalue⟩
  · rw [sum_counts_rleRuns, length_samples]

/-! ## RLE_DEC -/

section
variable {s : State}

/-- A run list that fits the grid is replayed into it (R206). -/
theorem exec_rleDec_of_fit (hc : s.rleDecCheck = none) (hv : ∀ r ∈ s.runs, r.1 ≤ s.amax)
    (hs : (s.runs.map (·.2)).sum = s.n) :
    exec .rleDec s = .next (s.putSamples (expandRuns s.runs)).succeed := by
  rw [exec]
  refine runCommand_ok hc ?_ _
  rw [rleReplay_complete hv (by omega)]
  rfl

/-- A fault of the replay ends RLE_DEC and leaves SB[0..n-1] unspecified (R186, R206). -/
theorem exec_rleDec_of_fault {e : Raise} (hc : s.rleDecCheck = none)
    (hr : rleReplay s.amax s.n 0 0 s.runs = .error e) :
    exec .rleDec s = .next ((s.drawBytes .sb s.n).nextDraw.fail e) := by
  rw [exec]
  refine runCommand_error hc ?_ _
  rw [hr]
  rfl

/-- The grid a fitting run list is replayed into (R206). -/
theorem samples_putSamples_expandRuns (hv : ∀ r ∈ s.runs, r.1 ≤ s.amax)
    (hs : (s.runs.map (·.2)).sum = s.n) :
    (s.putSamples (expandRuns s.runs)).samples = expandRuns s.runs := by
  refine samples_putSamples s _ ((length_expandRuns _).trans hs) fun x hx => ?_
  obtain ⟨r, hr, hx⟩ := List.mem_flatMap.1 hx
  rw [List.eq_of_mem_replicate hx]
  exact (hv r hr).trans_lt (amax_lt s)

end

/-- Samples written leave SB alone past them. -/
theorem byte_putSamples_frame (s : State) {xs : List Nat} {o : Nat} (h : xs.length ≤ o) :
    (s.putSamples xs).byte .sb o = s.byte .sb o :=
  byte_putBytes_frame s .sb 0 _ .sb o (.inr (.inr (by simpa using h)))

/-- Settles O26: the replay of a fitting run list is what RLE_DEC stores. -/
theorem rleDecReplaysRuns : Obligations.RleDecReplaysRuns := by
  intro s hh hw hn h0 hroom hv hs
  have hc := rleDecCheck_ok (dimCheck_ok hh hw hn) h0 hroom
  exact ⟨_, exec_rleDec_of_fit hc hv hs, rfl, samples_putSamples_expandRuns hv hs, fun o ho =>
    byte_putSamples_frame s ((length_expandRuns _).trans hs |>.trans_le ho)⟩

/-! ## Faults of the replay -/

section
variable {amax n i : Nat} {rs : List (Nat × Nat)}

/-- Past runs without a fault the replay goes on at run `i`, with their samples out (R206). -/
theorem rleReplay_eq_at {r : Nat × Nat} (hi : rs[i]? = some r)
    (hv : ∀ r ∈ rs.take i, r.1 ≤ amax) (hs : ((rs.take i).map (·.2)).sum ≤ n) :
    rleReplay amax n 0 0 rs =
      (rleReplay amax n i ((rs.take i).map (·.2)).sum (r :: rs.drop (i + 1))).map
        (expandRuns (rs.take i) ++ ·) := by
  obtain ⟨hlt, rfl⟩ := List.getElem?_eq_some_iff.1 hi
  have h := rleReplay_append (n := n) (i := 0) (k := 0) (rs := rs.drop i) hv (by omega)
  rwa [List.take_append_drop, List.length_take_of_le hlt.le, Nat.zero_add, Nat.zero_add,
    List.drop_eq_getElem_cons hlt] at h

/-- The first run whose value is outside the alphabet is reported (R206). -/
theorem rleReplay_of_bad_value {v c : Nat} (hi : rs[i]? = some (v, c))
    (hv : ∀ r ∈ rs.take i, r.1 ≤ amax) (hs : ((rs.take i).map (·.2)).sum ≤ n) (hbad : amax < v) :
    rleReplay amax n 0 0 rs = .error { kind := .unsupportedAlphabet, info := i } := by
  rw [rleReplay_eq_at hi hv hs, rleReplay, if_pos hbad]
  rfl

/-- The first run whose count takes the total past `n` is reported (R206). -/
theorem rleReplay_of_excess {v c : Nat} (hi : rs[i]? = some (v, c))
    (hv : ∀ r ∈ rs.take i, r.1 ≤ amax) (hs : ((rs.take i).map (·.2)).sum ≤ n) (hok : v ≤ amax)
    (hbad : n < ((rs.take i).map (·.2)).sum + c) :
    rleReplay amax n 0 0 rs = .error { kind := .corruptStream, info := i } := by
  rw [rleReplay_eq_at hi hv hs, rleReplay, if_neg hok.not_gt, if_pos hbad]
  rfl

/-- A run list that ends below `n` samples is reported at its end (R206). -/
theorem rleReplay_of_short (hv : ∀ r ∈ rs, r.1 ≤ amax) (hs : (rs.map (·.2)).sum < n) :
    rleReplay amax n 0 0 rs = .error { kind := .corruptStream, info := rs.length } := by
  have h := rleReplay_append (n := n) (i := 0) (k := 0) (rs := []) hv (by omega)
  rw [List.append_nil, Nat.zero_add, Nat.zero_add] at h
  rw [h, rleReplay, if_neg hs.ne]
  rfl

end

@[simp] theorem length_runs (s : State) : s.runs.length = s.runCount.toNat := by simp [State.runs]

/-- Settles O27: each fault of the run list is the replay's raise, and a raise of the data phase
leaves the grid a draw. -/
theorem rleDecReportsTheFirstFault : Obligations.RleDecReportsTheFirstFault := by
  intro s hh hw hn h0 hroom code info hfault
  obtain ⟨k, hr, rfl⟩ : ∃ k, rleReplay s.amax s.n 0 0 s.runs = .error { kind := k, info := info } ∧
      ErrorKind.code k = code := by
    rcases hfault with ⟨v, c, hi, hv, hs, ⟨hbad, rfl⟩ | ⟨hok, hbad, rfl⟩⟩ | ⟨hv, hs, rfl, rfl⟩
    · exact ⟨_, rleReplay_of_bad_value hi hv hs hbad, rfl⟩
    · exact ⟨_, rleReplay_of_excess hi hv hs hok hbad, rfl⟩
    · exact ⟨_, length_runs s ▸ rleReplay_of_short hv hs, rfl⟩
  have hc := rleDecCheck_ok (dimCheck_ok hh hw hn) h0 hroom
  refine ⟨_, exec_rleDec_of_fault hc hr, rfl, fun o ho => ?_, fun o ho => ?_, Nat.lt_succ_self _⟩
  · exact (byte_drawBytes s .sb s.n .sb o).trans (if_pos ⟨rfl, ho⟩)
  · exact (byte_drawBytes s .sb s.n .sb o).trans (if_neg fun h => h.2.not_ge ho)

/-! ## The lossless law -/

section
variable {s u : State}

theorem n_congr (hh : u.height = s.height) (hw : u.width = s.width) : u.n = s.n := by
  rw [State.n, State.n, hh, hw]

theorem amax_congr (hc : u.cfg = s.cfg) : u.amax = s.amax := by
  simp only [State.amax, State.alphabet, hc]

theorem dimCheck_congr (hp : u.params = s.params) (hh : u.height = s.height)
    (hw : u.width = s.width) : u.dimCheck = s.dimCheck := by
  simp only [State.dimCheck, n_congr hh hw, hp, hh, hw]

/-- RLE_ENC stores at least one run, and no more than SB holds samples (R203). -/
theorem runCount_storeRuns_bounds (hd : s.dimCheck = none) :
    s.storeRuns.runCount ≠ 0 ∧ s.storeRuns.runCount.toNat ≤ s.params.maxSamples := by
  have hlen := runCount_storeRuns s
  constructor
  · intro h0
    have hnil : rleRuns s.samples = [] := List.eq_nil_of_length_eq_zero (by rw [← hlen, h0]; rfl)
    have hsum := sum_counts_rleRuns s.samples
    have hpos := n_pos_of_dimCheck hd
    rw [hnil, length_samples] at hsum
    exact hpos.ne hsum
  · have hle := length_rleRuns_le s.samples
    have hn := n_le_of_dimCheck hd
    rw [length_samples] at hle
    omega

/-- What RLE_ENC leaves on success (R201). -/
theorem rleEnc_success {t : State} (h : exec .rleEnc s = .next t) (hok : t.status.err = false) :
    s.encoderCheck = none ∧ t = s.storeRuns.succeed := by
  rcases execRleEnc_cases s with ⟨e, -, hr⟩ | ⟨hcheck, hr⟩ <;> cases hr.symm.trans h
  · cases hok
  · exact ⟨hcheck, rfl⟩

end

/-- Settles O28: RLE_ENC's runs fit the grid they were scanned from, so RLE_DEC replays them. -/
theorem rleIsLossless : Obligations.RleIsLossless := by
  intro s t u hexec hok hparams hcfg hh hw hcount hruns
  obtain ⟨hcheck, rfl⟩ := rleEnc_success hexec hok
  simp only [params_succeed, cfg_succeed, height_succeed, width_succeed, runCount_succeed,
    runs_succeed, params_storeRuns, cfg_storeRuns, height_storeRuns, width_storeRuns,
    runs_storeRuns] at hparams hcfg hh hw hcount hruns
  have hdim := dimCheck_of_encoderCheck hcheck
  obtain ⟨hne, hroom⟩ := runCount_storeRuns_bounds hdim
  have hc : u.rleDecCheck = none :=
    rleDecCheck_ok ((dimCheck_congr hparams hh hw).trans hdim) (hcount ▸ hne)
      (hcount ▸ hparams ▸ hroom)
  have hv : ∀ r ∈ u.runs, r.1 ≤ u.amax := by
    rw [hruns, amax_congr hcfg]
    exact fun r hr => ((encoderCheck_eq_none s).1 hcheck).2 _ (rleRuns_counts _ r hr).2
  have hs : (u.runs.map (·.2)).sum = u.n := by
    rw [hruns, n_congr hh hw, sum_counts_rleRuns, length_samples]
  refine ⟨_, exec_rleDec_of_fit hc hv hs, rfl, ?_⟩
  rw [samples_succeed, samples_putSamples_expandRuns hv hs, hruns, expandRuns_rleRuns]

end Sys2Proof.Machine
end

section
/-! PROOFS. LZW coding (spec/42_lzw.md R231 to R243): what LZW_ENC emits and inserts, where it fails
on a full dictionary, what LZW_DEC rebuilds from its codes and at which code it fails, and that the
one undoes the other with the same dictionary. -/

namespace Sys2Proof.Machine

open Sys2Proof

/-! ## The stored dictionary -/

section
variable {s u : State} {ins : List (Nat × Nat)}

theorem toNat_dictSize_putDict (h : s.alphabet + ins.length < 2 ^ 32) :
    (s.putDict ins).dictSize.toNat = s.alphabet + ins.length :=
  (BitVec.toNat_ofNat _ _).trans (Nat.mod_eq_of_lt h)

/-- What a dictionary leaves in DT depends on its alphabet and its insertions alone (R242). -/
theorem dictAt_putDict_congr (ha : u.alphabet = s.alphabet) (hf : dictFits ins) {k : Nat}
    (hk : k < s.alphabet + ins.length) : (u.putDict ins).dictAt k = (s.putDict ins).dictAt k := by
  rcases code_cases hk with hs | ⟨j, p, x, rfl, hj⟩
  · rw [dictAt_putDict_seed s ins hs, dictAt_putDict_seed u ins (ha.symm ▸ hs)]
  · rw [dictAt_putDict_entry s hf hj, ← ha, dictAt_putDict_entry u hf hj]

/-- `stringOf_eq` for a state whose alphabet size is known by another name. -/
theorem stringOf_eq_of_alphabet {a f k : Nat} (ha : s.alphabet = a) (hwf : dictWf a ins)
    (hd : ∀ j p, ins[j]? = some p → s.dictAt (a + j) = p) (hf : k < a + f)
    (hk : k < a + ins.length) : s.stringOf f k = dstr a ins k := by
  subst ha
  exact stringOf_eq hwf hd f k hf hk

@[simp] theorem samples_putDict (s : State) (ins : List (Nat × Nat)) :
    (s.putDict ins).samples = s.samples := samples_congr (by simp) (by simp) (by simp)

end

/-- CB holds the codes written to it, whatever is stored after them (R233). -/
theorem codeAt_storeCodes (s : State) (codes : List Nat) (ins : List (Nat × Nat)) (i : Nat) :
    (s.storeCodes codes ins).codeAt i =
      ((s.putBytes .cb 0 (numBytes codes)).word .cb (4 * i)).toNat :=
  codeAt_congr (t := s.putBytes .cb 0 (numBytes codes)) (by simp) (cb_putDict _ ins) i

/-- LZW_ENC writes CB, CODE_COUNT, DT and DICT_SIZE (R233). -/
theorem storeCodes_succeed_eq (s : State) (codes : List Nat) (ins : List (Nat × Nat)) :
    (s.storeCodes codes ins).succeed = { s with
      phase := .idle
      status := { s.status with done := true, err := false, errcode := 0 }
      errInfo := 0
      cb := (s.storeCodes codes ins).succeed.cb
      codeCount := (s.storeCodes codes ins).succeed.codeCount
      dt := (s.storeCodes codes ins).succeed.dt
      dictSize := (s.storeCodes codes ins).succeed.dictSize } := by
  ext1 <;> simp

/-- A coding written leaves every byte alone but those of its codes and of its dictionary. -/
theorem byte_storeCodes_frame (s : State) {codes : List Nat} {ins : List (Nat × Nat)} {b : Buf}
    {o : Nat} (hcb : b ≠ .cb ∨ 4 * codes.length ≤ o)
    (hdt : b ≠ .dt ∨ 8 * (s.alphabet + ins.length) ≤ o) :
    (s.storeCodes codes ins).byte b o = s.byte b o := by
  have halpha : (s.putBytes .cb 0 (numBytes codes)).alphabet = s.alphabet := by simp
  refine (byte_putDict_frame _ ins b o (halpha ▸ hdt)).trans (byte_putBytes_frame s _ _ _ b o ?_)
  exact hcb.imp_right fun h => .inr (by rw [length_numBytes]; omega)

theorem dictAt_storeCodes_seed (s : State) (codes : List Nat) (ins : List (Nat × Nat)) {k : Nat}
    (h : k < s.alphabet) : (s.storeCodes codes ins).dictAt k = (0xFFFFFFFF, k) :=
  dictAt_putDict_seed (s.putBytes .cb 0 (numBytes codes)) ins h

@[simp] theorem length_codes (s : State) : s.codes.length = s.codeCount.toNat := by
  simp [State.codes]

/-! ## LZW_ENC -/

/-- The grid of `s` passes the checks of LZW_ENC and is coded to `codes`, with the entries `ins`
inserted (R233 to R235). -/
structure LzwCoding (s : State) (codes : List Nat) (ins : List (Nat × Nat)) : Prop where
  check : s.encoderCheck = none
  /-- One entry fewer than codes, and at most one code per sample (R234). -/
  count : codes.length = ins.length + 1
  le : ins.length + 1 ≤ s.n
  wf : dictWf s.alphabet ins
  nodup : ins.Nodup
  room : s.alphabet ≤ s.params.dictCap → s.alphabet + ins.length ≤ s.params.dictCap
  spell : codes.flatMap (dstr s.alphabet ins) = s.samples
  /-- A code is known when it is emitted (R234). -/
  known : ∀ i c, codes[i]? = some c → c < s.alphabet + i
  /-- The entry inserted at a code is its miss (R233). -/
  entry : ∀ i c c', codes[i]? = some c → codes[i + 1]? = some c' →
    ins[i]? = some (c, (dstr s.alphabet ins c').headD 0)
  symbol : ∀ p ∈ ins, p.2 < s.alphabet

/-- What the data phase of LZW_ENC makes of a grid that passes the checks (R233). -/
theorem lzwCoding_of_encode {s : State} {codes : List Nat} {ins : List (Nat × Nat)}
    (hc : s.encoderCheck = none)
    (h : lzwEncode s.alphabet s.params.dictCap s.samples = .ok (codes, ins)) :
    LzwCoding s codes ins := by
  obtain ⟨count, le, wf, nodup, room, spell, known, entry, symbol⟩ :=
    lzwEncode_ok (n_pos_of_dimCheck (dimCheck_of_encoderCheck hc))
      ((encoderCheck_eq_none s).1 hc).2 h
  exact ⟨hc, count, le, wf, nodup, room, spell, known, entry, symbol⟩

/-- A success of LZW_ENC stores a coding of the grid (R182, R233). -/
theorem lzwEnc_success {s t : State} (h : exec .lzwEnc s = .next t) (hok : t.status.err = false) :
    ∃ codes ins, LzwCoding s codes ins ∧ t = (s.storeCodes codes ins).succeed := by
  rcases execLzwEnc_cases s with ⟨e, -, hr⟩ | ⟨codes, ins, hc, hd, hr⟩ | ⟨e, -, -, hr⟩ <;>
    cases hr.symm.trans h
  · cases hok
  · exact ⟨codes, ins, lzwCoding_of_encode hc hd, rfl⟩
  · cases hok

theorem exec_lzwEnc_of_encode {s : State} {codes : List Nat} {ins : List (Nat × Nat)}
    (hc : s.encoderCheck = none)
    (h : lzwEncode s.alphabet s.params.dictCap s.samples = .ok (codes, ins)) :
    exec .lzwEnc s = .next (s.storeCodes codes ins).succeed := by
  rw [exec]
  refine runCommand_ok hc ?_ _
  rw [h]
  rfl

/-- A dictionary with room for one entry fewer than samples never fills up (R233). -/
theorem lzwEncode_complete {a cap : Nat} {xs : List Nat} (h : a + xs.length ≤ cap + 1) :
    ∃ r, lzwEncode a cap xs = .ok r := by
  cases xs with
  | nil => exact ⟨_, rfl⟩
  | cons x xs => exact lzwScan_complete (by rw [List.length_cons] at h; simp; omega)

namespace LzwCoding

variable {s : State} {codes : List Nat} {ins : List (Nat × Nat)} (h : LzwCoding s codes ins)
include h

/-- The dictionary's size fits DICT_SIZE. -/
theorem size_lt : s.alphabet + ins.length < 2 ^ 32 := by
  have := n_add_alphabet_lt s
  have := alphabet_bounds s
  have := h.le
  omega

theorem lt_size {i c : Nat} (hi : codes[i]? = some c) : c < s.alphabet + ins.length := by
  have := h.known i c hi
  have := h.count
  have := (List.getElem?_eq_some_iff.1 hi).1
  omega

theorem fits : dictFits ins := dictFits_of_wf h.le h.wf h.symbol

/-! ### The stored codes -/

theorem toNat_codeCount : (s.storeCodes codes ins).codeCount.toNat = codes.length := by
  have := h.size_lt
  have := h.count
  have := alphabet_bounds s
  exact (BitVec.toNat_ofNat _ _).trans (Nat.mod_eq_of_lt (by omega))

theorem codes_eq : (s.storeCodes codes ins).codes = codes := by
  rw [State.codes, h.toNat_codeCount, funext (codeAt_storeCodes s codes ins)]
  refine map_word_numBytes s .cb codes fun c hc => ?_
  obtain ⟨i, hi⟩ := List.getElem?_of_mem hc
  exact (h.lt_size hi).trans h.size_lt

theorem toNat_dictSize : (s.storeCodes codes ins).dictSize.toNat = s.alphabet + ins.length :=
  toNat_dictSize_putDict (s := s.putBytes .cb 0 (numBytes codes)) h.size_lt

theorem dictAt_entry {j : Nat} {p : Nat × Nat} (hj : ins[j]? = some p) :
    (s.storeCodes codes ins).dictAt (s.alphabet + j) = p :=
  dictAt_putDict_entry (s.putBytes .cb 0 (numBytes codes)) h.fits hj

/-- The strings of the stored dictionary (R58). -/
theorem stringOf_eq {k : Nat} (hk : k < s.alphabet + ins.length) :
    (s.storeCodes codes ins).succeed.stringOf (s.storeCodes codes ins).dictSize.toNat k =
      dstr s.alphabet ins k := by
  have hsize := h.toNat_dictSize
  refine stringOf_eq_of_alphabet (by simp) h.wf (fun j p hj => ?_) (by omega) hk
  rw [dictAt_succeed]
  exact h.dictAt_entry hj

/-- The strings of the stored codes make up the grid (R235). -/
theorem flatMap_stringOf :
    codes.flatMap ((s.storeCodes codes ins).succeed.stringOf
      (s.storeCodes codes ins).dictSize.toNat) = s.samples := by
  rw [← h.spell]
  refine List.flatMap_congr fun c hc => ?_
  obtain ⟨i, hi⟩ := List.getElem?_of_mem hc
  exact h.stringOf_eq (h.lt_size hi)

/-- An inserted entry extends an older one by a symbol of the alphabet (R232). -/
theorem dictAt_bounds {k : Nat} (hk : s.alphabet ≤ k)
    (hlt : k < (s.storeCodes codes ins).dictSize.toNat) :
    ((s.storeCodes codes ins).dictAt k).1 < k ∧
      ((s.storeCodes codes ins).dictAt k).2 ≤ s.amax := by
  obtain ⟨j, rfl⟩ := Nat.exists_eq_add_of_le hk
  rw [h.toNat_dictSize] at hlt
  have hj : ins[j]? = some (ins[j]'(by omega)) := List.getElem?_eq_getElem _
  rw [h.dictAt_entry hj]
  have holder := h.wf j _ hj
  have hsymbol := h.symbol _ (List.mem_of_getElem? hj)
  have hamax := amax_eq s
  omega

/-- No entry below the one inserted at a code has the string of that one (R235). -/
theorem dstr_ne_of_lt {i j c c' : Nat} (hc : codes[i]? = some c) (hc' : codes[i + 1]? = some c')
    (hj : j < s.alphabet + i) :
    dstr s.alphabet ins j ≠ dstr s.alphabet ins c ++ [(dstr s.alphabet ins c').headD 0] := by
  have hentry := h.entry i c c' hc hc'
  have hlt := (List.getElem?_eq_some_iff.1 hentry).1
  rw [← dstr_entry h.wf hentry]
  intro heq
  have := dstr_injective h.wf h.nodup j (s.alphabet + i) (by omega) (by omega) heq
  omega

/-! ### The codes as a spelling -/

/-- The codes of a grid spell the strings of the dictionary (R235, R241). -/
theorem spellsCodes_dstr : spellsCodes s.alphabet codes (codes.map (dstr s.alphabet ins)) := by
  refine ⟨List.length_map _, fun i c hi => ⟨fun hs => ?_, fun hs => ?_⟩⟩
  · rw [List.getElem?_map, hi, Option.map_some, dstr_seed ins hs]
  · obtain ⟨j, rfl⟩ := Nat.exists_eq_add_of_le hs
    have hji : j < i := by have := h.known i _ hi; omega
    have hil := (List.getElem?_eq_some_iff.1 hi).1
    have hj : codes[j]? = some codes[j] := List.getElem?_eq_getElem _
    have hj1 : codes[j + 1]? = some codes[j + 1] := List.getElem?_eq_getElem _
    refine ⟨j, dstr s.alphabet ins codes[j], dstr s.alphabet ins codes[j + 1], hji, rfl, ?_, ?_, ?_⟩
    · rw [List.getElem?_map, hj, Option.map_some]
    · rw [List.getElem?_map, hj1, Option.map_some]
    · rw [List.getElem?_map, hi, Option.map_some, dstr_entry h.wf (h.entry j _ _ hj hj1)]

/-- The codes of a grid insert its entries again (R242). -/
theorem insOf_dstr : insOf codes (codes.map (dstr s.alphabet ins)) = ins := by
  have hcount := h.count
  have hlen := length_insOf codes _ (h.spellsCodes_dstr.1)
  refine List.ext_getElem? fun j => ?_
  by_cases hj : j < ins.length
  · have hc : codes[j]? = some codes[j] := List.getElem?_eq_getElem _
    have hc' : codes[j + 1]? = some codes[j + 1] := List.getElem?_eq_getElem _
    rw [h.entry j _ _ hc hc',
      getElem?_insOf codes _ j _ _ hc (by rw [List.getElem?_map, hc', Option.map_some])]
  · rw [List.getElem?_eq_none (by omega), List.getElem?_eq_none (by omega)]

end LzwCoding

/-- Codes that spell something are not none. -/
theorem codes_ne_nil {a : Nat} {codes : List Nat} {es : List (List Nat)}
    (h : spellsCodes a codes es) (hne : es.flatten ≠ []) : codes ≠ [] := by
  rintro rfl
  exact hne (by rw [List.eq_nil_of_length_eq_zero h.1]; rfl)

theorem samples_ne_nil {s : State} (hd : s.dimCheck = none) : s.samples ≠ [] :=
  List.ne_nil_of_length_pos (by rw [length_samples]; exact n_pos_of_dimCheck hd)

/-- Settles O29: whatever LZW_ENC stores is a coding of the grid, and it stores one where the
dictionary has room. -/
theorem lzwEncCodesSpellTheGrid : Obligations.LzwEncCodesSpellTheGrid := by
  intro s coded
  have hcoded : ∀ {codes ins}, LzwCoding s codes ins → coded (s.storeCodes codes ins).succeed := by
    intro codes ins h
    have hcodes := h.toNat_codeCount
    have hdict := h.toNat_dictSize
    have hcount := h.count
    have hle := h.le
    refine ⟨storeCodes_succeed_eq s codes ins, ?_, ?_, ?_, ?_, ?_,
      fun k => dictAt_storeCodes_seed s codes ins, fun k => h.dictAt_bounds, fun o ho => ?_,
      fun o ho => ?_⟩
    · rw [codeCount_succeed]; omega
    · rw [codeCount_succeed]; omega
    · rw [codeCount_succeed, dictSize_succeed]; omega
    · rw [codes_succeed, h.codes_eq]
      exact h.flatMap_stringOf
    · rw [codes_succeed, h.codes_eq]
      exact h.known
    · rw [byte_succeed]
      exact byte_storeCodes_frame s (.inr (hcodes ▸ ho)) (.inl (by decide))
    · rw [byte_succeed]
      exact byte_storeCodes_frame s (.inl (by decide)) (.inr (hdict ▸ ho))
  refine ⟨fun t hexec hok => ?_, fun hh hw hn hsamples => ?_⟩
  · obtain ⟨codes, ins, h, rfl⟩ := lzwEnc_success hexec hok
    exact ⟨hcoded h, fun hcap => h.toNat_dictSize.trans_le (h.room hcap)⟩
  have hc := encoderCheck_ok hh hw hn hsamples
  refine ⟨fun hroom => ?_, fun codes es hsp hflat hnd hcap => ?_⟩
  · rw [← length_samples] at hroom
    obtain ⟨⟨codes, ins⟩, hr⟩ := lzwEncode_complete hroom
    exact ⟨_, exec_lzwEnc_of_encode hc hr, hcoded (lzwCoding_of_encode hc hr)⟩
  · have hne := codes_ne_nil hsp (hflat ▸ samples_ne_nil (dimCheck_ok hh hw hn))
    have hr := hflat ▸ lzwEncode_spelled_ok hsp hne hnd hcap
    have h := lzwCoding_of_encode hc hr
    exact ⟨_, exec_lzwEnc_of_encode hc hr, hcoded h, h.codes_eq⟩

/-- Settles O30: the entry inserted at a code is the miss after it, and no two entries have the same
string. -/
theorem lzwEncIsGreedy : Obligations.LzwEncIsGreedy := by
  intro s t hexec hok i c c' hc hc'
  obtain ⟨codes, ins, h, rfl⟩ := lzwEnc_success hexec hok
  rw [codes_succeed, h.codes_eq] at hc hc'
  rw [dictSize_succeed, dictAt_succeed, h.stringOf_eq (h.lt_size hc),
    h.stringOf_eq (h.lt_size hc')]
  have hentry := h.entry i c c' hc hc'
  have hlt := (List.getElem?_eq_some_iff.1 hentry).1
  refine ⟨h.dictAt_entry hentry, fun j hj => ?_⟩
  rw [h.stringOf_eq (by omega)]
  exact h.dstr_ne_of_lt hc hc' hj

/-! ## A full dictionary -/

/-- A fault of the scan ends LZW_ENC and leaves its write range unspecified (R186, R233). -/
theorem exec_lzwEnc_of_fault {s : State} {e : Raise} (hc : s.encoderCheck = none)
    (h : lzwEncode s.alphabet s.params.dictCap s.samples = .error e) :
    exec .lzwEnc s = .next (s.spoilLzwEnc.fail e) := by
  rw [exec]
  refine runCommand_error hc ?_ _
  rw [h]
  rfl

/-- A failed LZW_ENC leaves all but CB, CODE_COUNT, DT and DICT_SIZE alone (R186). -/
theorem spoilLzwEnc_fail_eq (s : State) (e : Raise) :
    s.spoilLzwEnc.fail e = { s with
      phase := .idle
      status := { s.status with done := true, err := true, errcode := ErrorKind.code e.kind }
      errInfo := BitVec.ofNat 32 e.info
      cb := (s.spoilLzwEnc.fail e).cb
      codeCount := (s.spoilLzwEnc.fail e).codeCount
      dt := (s.spoilLzwEnc.fail e).dt
      dictSize := (s.spoilLzwEnc.fail e).dictSize
      draws := (s.spoilLzwEnc.fail e).draws } := by
  ext1 <;> simp

theorem spellsCodes_seed {a x : Nat} (h : x < a) : spellsCodes a [x] [[x]] := by
  refine ⟨rfl, fun i c hi => ?_⟩
  obtain ⟨hlt, rfl⟩ := List.getElem?_eq_some_iff.1 hi
  obtain rfl : i = 0 := by simpa using hlt
  exact ⟨fun _ => rfl, fun hge => absurd h hge.not_gt⟩

/-- The grid around its sample `k`. -/
theorem samples_eq_at {s : State} {k : Nat} (hk : k < s.n) :
    s.samples = s.samples.take k ++ s.sample k :: s.samples.drop (k + 1) := by
  have hlt : k < s.samples.length := by rwa [length_samples]
  have hx : s.samples[k] = s.sample k := by simp [State.samples]
  rw [← hx, ← List.drop_eq_getElem_cons hlt, List.take_append_drop]

/-- Room for the seeds alone is a full dictionary after the phrase of sample 0. -/
theorem exists_phrases_of_no_room {s : State} (hsamples : ∀ x ∈ s.samples, x ≤ s.amax)
    (hcap : s.params.dictCap = s.alphabet) (hn : 0 < s.n) :
    ∃ codes es, spellsCodes s.alphabet codes es ∧ es.flatten = s.samples.take 1 ∧
      (phraseEntries (es ++ [[s.sample 1]])).Nodup ∧
      s.alphabet + codes.length = s.params.dictCap + 1 := by
  have hgrid := samples_eq_at hn
  have hseed : s.sample 0 < s.alphabet := by
    have := hsamples (s.sample 0) (by rw [hgrid]; simp)
    have := amax_eq s
    omega
  refine ⟨[s.sample 0], [[s.sample 0]], spellsCodes_seed hseed, ?_, List.nodup_singleton _, ?_⟩
  · rw [hgrid]; rfl
  · rw [hcap]; rfl

/-- Settles O31: the scan of phrases whose entries fill the dictionary fails at the sample after
them. -/
theorem lzwEncFailsOnAFullDictionary : Obligations.LzwEncFailsOnAFullDictionary := by
  intro s hh hw hn hsamples k hfull
  obtain ⟨h1, hk, codes, es, hsp, hflat, hnd, hcap⟩ : 1 ≤ k ∧ k < s.n ∧ ∃ codes es,
      spellsCodes s.alphabet codes es ∧ es.flatten = s.samples.take k ∧
        (phraseEntries (es ++ [[s.sample k]])).Nodup ∧
        s.alphabet + codes.length = s.params.dictCap + 1 := by
    rcases hfull with ⟨hcap, h2, rfl⟩ | hfull
    · exact ⟨le_rfl, h2, exists_phrases_of_no_room hsamples hcap (by omega)⟩
    · exact hfull
  have hlen : es.flatten.length = k := by
    rw [hflat, List.length_take, length_samples, Nat.min_eq_left hk.le]
  have hne := codes_ne_nil hsp (List.ne_nil_of_length_pos (by omega))
  have hr := lzwEncode_spelled_full hsp hne hnd hcap (s.samples.drop (k + 1))
  rw [hlen, hflat, ← samples_eq_at hk] at hr
  have hrange := (KeepsRange.spoilLzwEnc s).fail { kind := .capacityExceeded, info := k }
  exact ⟨_, exec_lzwEnc_of_fault (encoderCheck_ok hh hw hn hsamples) hr, spoilLzwEnc_fail_eq s _,
    hrange.byte .cb, hrange.byte .dt⟩

/-! ## LZW_DEC -/

/-- The replay of codes that spell `n` samples (R240, R241). -/
theorem lzwDecode_of_spelled {a cap n : Nat} {codes : List Nat} {es : List (List Nat)}
    (h : spellsCodes a codes es) (hne : codes ≠ []) (hn : es.flatten.length = n)
    (hcap : a + codes.length ≤ cap + 1) :
    lzwDecode a cap n codes = .ok (es.flatten, insOf codes es) := by
  have hd := lzwDecode_spelled (rest := []) h hne hn.le hcap
  rw [List.append_nil, lzwReplay, if_pos hn] at hd
  rw [hd]
  simp [Except.map]

/-- Spelled codes insert entries that fit the fields of DT. -/
theorem dictFits_insOf {a : Nat} {codes : List Nat} {es : List (List Nat)}
    (h : spellsCodes a codes es) (hlt : a + codes.length ≤ 2 ^ 32) : dictFits (insOf codes es) := by
  intro p hp
  obtain ⟨j, hj⟩ := List.getElem?_of_mem hp
  have hlen := length_insOf codes es h.1
  have hjl := (List.getElem?_eq_some_iff.1 hj).1
  have hes := h.1
  have hy : es[j + 1]? = some (es[j + 1]'(by omega)) := List.getElem?_eq_getElem _
  have hp' := getElem?_insOf codes es j _ _ (List.getElem?_eq_getElem (by omega)) hy
  obtain rfl := Option.some.inj (hj.symm.trans hp')
  refine ⟨by have := dictWf_insOf h j _ hj; omega, ?_⟩
  cases hys : es[j + 1]'(by omega) with
  | nil => simp
  | cons y ys =>
    have := spellsCodes_symbols h _ _ hy y (by simp [hys])
    simp only [List.headD_cons]
    omega

section
variable {s : State} {es : List (List Nat)}

theorem codes_ne_nil_of_codeCount (h : s.codeCount ≠ 0) : s.codes ≠ [] :=
  List.ne_nil_of_length_pos (by rw [length_codes]; exact toNat_pos_of_ne_zero h)

/-- LZW_DEC stores what its codes spell, with the dictionary they build (R240). -/
theorem exec_lzwDec_of_spelled (hc : s.lzwDecCheck = none) (h0 : s.codeCount ≠ 0)
    (hsp : spellsCodes s.alphabet s.codes es) (hn : es.flatten.length = s.n)
    (hcap : s.alphabet + s.codeCount.toNat ≤ s.params.dictCap + 1) :
    exec .lzwDec s = .next ((s.putSamples es.flatten).putDict (insOf s.codes es)).succeed := by
  rw [← length_codes] at hcap
  rw [exec]
  refine runCommand_ok hc ?_ _
  rw [lzwDecode_of_spelled hsp (codes_ne_nil_of_codeCount h0) hn hcap]
  rfl

/-- A fault of the replay ends LZW_DEC and leaves its write range unspecified (R186, R240). -/
theorem exec_lzwDec_of_fault {e : Raise} (hc : s.lzwDecCheck = none)
    (h : lzwDecode s.alphabet s.params.dictCap s.n s.codes = .error e) :
    exec .lzwDec s = .next (s.spoilLzwDec.fail e) := by
  rw [exec]
  refine runCommand_error hc ?_ _
  rw [h]
  rfl

/-- The codes of a grid and the seeds are fewer than 2^32 (R234). -/
theorem size_lt_of_spelled (hsp : spellsCodes s.alphabet s.codes es)
    (hn : es.flatten.length = s.n) : s.alphabet + s.codes.length < 2 ^ 32 := by
  have := spellsCodes_length_le hsp
  have := n_add_alphabet_lt s
  have := alphabet_bounds s
  omega

/-- What spelled codes stand for is a grid of samples. -/
theorem samples_putSamples_spelled {codes : List Nat} (hsp : spellsCodes s.alphabet codes es)
    (hn : es.flatten.length = s.n) : (s.putSamples es.flatten).samples = es.flatten := by
  refine samples_putSamples s _ hn fun x hx => ?_
  obtain ⟨e, he, hx⟩ := List.mem_flatten.1 hx
  obtain ⟨i, hi⟩ := List.getElem?_of_mem he
  exact (spellsCodes_symbols hsp i e hi x hx).trans_le (alphabet_bounds s).2

/-- LZW_DEC writes SB, DT and DICT_SIZE (R240). -/
theorem putDict_putSamples_succeed_eq (s : State) (xs : List Nat) (ins : List (Nat × Nat)) :
    ((s.putSamples xs).putDict ins).succeed = { s with
      phase := .idle
      status := { s.status with done := true, err := false, errcode := 0 }
      errInfo := 0
      sb := ((s.putSamples xs).putDict ins).succeed.sb
      dt := ((s.putSamples xs).putDict ins).succeed.dt
      dictSize := ((s.putSamples xs).putDict ins).succeed.dictSize } := by
  ext1 <;> simp

end

/-- Settles O32: the replay of codes that spell the grid is what LZW_DEC stores. -/
theorem lzwDecSpellsItsCodes : Obligations.LzwDecSpellsItsCodes := by
  intro s es hh hw hn h0 hroom hsp hlen hcap
  have hc := lzwDecCheck_ok (dimCheck_ok hh hw hn) h0 hroom
  have hpos := toNat_pos_of_ne_zero h0
  have hlt := size_lt_of_spelled hsp hlen
  have hins := length_insOf s.codes es hsp.1
  rw [length_codes] at hlt hins
  have halpha : (s.putSamples es.flatten).alphabet = s.alphabet := by simp
  have hsize : ((s.putSamples es.flatten).putDict (insOf s.codes es)).dictSize.toNat =
      s.alphabet + (insOf s.codes es).length := by
    rw [toNat_dictSize_putDict] <;> rw [halpha]
    omega
  refine ⟨_, exec_lzwDec_of_spelled hc h0 hsp hlen hcap, putDict_putSamples_succeed_eq .., ?_, ?_,
    fun k hk => ?_, fun j c y hj hy => ?_, fun o ho => ?_, fun o ho => ?_⟩
  · rw [samples_succeed, samples_putDict, samples_putSamples_spelled hsp hlen]
  · rw [dictSize_succeed, hsize]
    omega
  · rw [dictAt_succeed]
    exact dictAt_putDict_seed _ _ (halpha.symm ▸ hk)
  · rw [dictAt_succeed, ← halpha]
    exact dictAt_putDict_entry _ (dictFits_insOf hsp (by rw [length_codes]; exact hlt.le))
      (getElem?_insOf _ _ j c y hj hy)
  · rw [byte_succeed, byte_putDict_frame _ _ _ _ (.inl (by decide))]
    exact byte_putSamples_frame s (hlen.trans_le ho)
  · rw [dictSize_succeed, hsize] at ho
    rw [byte_succeed, byte_putDict_frame _ _ _ _ (.inr (halpha.symm ▸ ho))]
    exact byte_putBytes_frame s _ _ _ _ _ (.inl (by decide))

/-! ## Faults of the replay -/

theorem spellsCodes_init {a c : Nat} {cs : List Nat} {ds : List (List Nat)} {e : List Nat}
    (h : spellsCodes a (cs ++ [c]) (ds ++ [e])) : spellsCodes a cs ds := by
  have hlen : ds.length = cs.length := by simpa using h.1
  have ht := spellsCodes_take cs.length h
  rwa [List.take_left' rfl, List.take_left' hlen] at ht

/-- A first code that is no seed is reported (R240). -/
theorem lzwDecode_of_no_seed {a cap n c : Nat} {codes : List Nat} (hi : codes[0]? = some c)
    (h : a ≤ c) : lzwDecode a cap n codes = .error { kind := .corruptStream, info := 0 } := by
  cases codes with
  | nil => cases hi
  | cons d codes =>
    obtain rfl := Option.some.inj hi
    rw [lzwDecode, if_pos h]

section
variable {a cap n i c : Nat} {codes : List Nat} {ds : List (List Nat)}
  (hi : codes[i]? = some c) (h1 : 1 ≤ i) (hn : ds.flatten.length ≤ n) (hcap : a + i ≤ cap + 1)
include hi h1 hn hcap

/-- Past codes that spell, the replay goes on at code `i` with their samples out and their entries
inserted (R240). -/
theorem lzwDecode_eq_at (hsp : spellsCodes a (codes.take i) ds) :
    ds.getLast? = some (ds.getLast?.getD []) ∧ (insOf (codes.take i) ds).length + 1 = i ∧
    lzwDecode a cap n codes =
      (lzwReplay a cap n i ds.flatten.length (ds.getLast?.getD []) ((codes.take i).getLast?.getD 0)
        (insOf (codes.take i) ds) (c :: codes.drop (i + 1))).map
          fun r => (ds.flatten ++ r.1, r.2) := by
  obtain ⟨hlt, rfl⟩ := List.getElem?_eq_some_iff.1 hi
  have hlen : (codes.take i).length = i := List.length_take_of_le hlt.le
  have hds : ds.length = i := hsp.1.trans hlen
  have hins := length_insOf _ _ hsp.1
  refine ⟨?_, by omega, ?_⟩
  · rw [List.getLast?_eq_getLast_of_ne_nil (List.ne_nil_of_length_pos (by omega)),
      Option.getD_some]
  · have h := lzwDecode_spelled (cap := cap) (rest := codes.drop i) hsp
      (List.ne_nil_of_length_pos (by omega)) hn (by omega)
    rwa [List.take_append_drop, hlen, List.drop_eq_getElem_cons hlt] at h

/-- The first code that is not defined yet is reported (R240). -/
theorem lzwDecode_of_undefined (hsp : spellsCodes a (codes.take i) ds) (hbad : a + i - 1 < c) :
    lzwDecode a cap n codes = .error { kind := .corruptStream, info := i } := by
  obtain ⟨-, hins, hd⟩ := lzwDecode_eq_at hi h1 hn hcap hsp
  have hentry : lzwEntry a (insOf (codes.take i) ds) (ds.getLast?.getD []) c = none := by
    rw [lzwEntry, if_neg (by omega), if_neg (by omega)]
  rw [hd, lzwReplay, hentry]
  rfl

variable {e : List Nat} (hsp : spellsCodes a (codes.take i ++ [c]) (ds ++ [e]))
include hsp

/-- The first code whose string passes `n` samples is reported (R240). -/
theorem lzwDecode_of_excess (hbad : n < ds.flatten.length + e.length) :
    lzwDecode a cap n codes = .error { kind := .corruptStream, info := i } := by
  obtain ⟨hlast, -, hd⟩ := lzwDecode_eq_at hi h1 hn hcap (spellsCodes_init hsp)
  rw [hd, lzwReplay, lzwEntry_spelled hsp hlast]
  simp only [if_pos hbad]
  rfl

omit hcap in
/-- The first code that finds the dictionary full is reported (R240). -/
theorem lzwDecode_of_full (hok : ds.flatten.length + e.length ≤ n) (hfull : a + i = cap + 1) :
    lzwDecode a cap n codes = .error { kind := .capacityExceeded, info := i } := by
  obtain ⟨hlast, hins, hd⟩ := lzwDecode_eq_at hi h1 hn hfull.le (spellsCodes_init hsp)
  have hsize : a + (insOf (codes.take i) ds).length = cap := by omega
  rw [hd, lzwReplay, lzwEntry_spelled hsp hlast]
  simp only [if_neg hok.not_gt, if_pos hsize]
  rfl

end

/-- Codes that spell fewer than `n` samples are reported at their end (R240). -/
theorem lzwDecode_of_short {a cap n : Nat} {codes : List Nat} {es : List (List Nat)}
    (hsp : spellsCodes a codes es) (hne : codes ≠ []) (hn : es.flatten.length < n)
    (hcap : a + codes.length ≤ cap + 1) :
    lzwDecode a cap n codes = .error { kind := .corruptStream, info := codes.length } := by
  have h := lzwDecode_spelled (rest := []) hsp hne hn.le hcap
  rw [List.append_nil] at h
  rw [h, lzwReplay, if_neg hn.ne]
  rfl

/-- The spelling of one code more, taken apart at that code. -/
theorem spellsCodes_take_succ {a i : Nat} {codes : List Nat} {es : List (List Nat)}
    (hi : i < codes.length) (hsp : spellsCodes a (codes.take (i + 1)) es) :
    ∃ ds e, es = ds ++ [e] ∧ ds.length = i ∧
      spellsCodes a (codes.take i ++ [codes[i]]) (ds ++ [e]) := by
  have hlen : es.length = i + 1 := hsp.1.trans (List.length_take_of_le hi)
  obtain ⟨ds, e, rfl⟩ : ∃ ds e, es = ds ++ [e] :=
    have hne := List.ne_nil_of_length_pos (by omega)
    ⟨es.dropLast, es.getLast hne, (List.dropLast_append_getLast hne).symm⟩
  refine ⟨ds, e, rfl, by simpa using hlen, ?_⟩
  rwa [List.take_append_getElem hi]

/-- A failed LZW_DEC leaves all but SB, DT and DICT_SIZE alone (R186). -/
theorem spoilLzwDec_fail_eq (s : State) (e : Raise) :
    s.spoilLzwDec.fail e = { s with
      phase := .idle
      status := { s.status with done := true, err := true, errcode := ErrorKind.code e.kind }
      errInfo := BitVec.ofNat 32 e.info
      sb := (s.spoilLzwDec.fail e).sb
      dt := (s.spoilLzwDec.fail e).dt
      dictSize := (s.spoilLzwDec.fail e).dictSize
      draws := (s.spoilLzwDec.fail e).draws } := by
  ext1 <;> simp

/-- Settles O33: each fault of the code list is the replay's raise, and a raise of the data phase
leaves the write range unspecified. -/
theorem lzwDecReportsTheFirstFault : Obligations.LzwDecReportsTheFirstFault := by
  intro s es info code hh hw hn h0 hroom hfault
  obtain ⟨kind, hr, rfl⟩ : ∃ kind, lzwDecode s.alphabet s.params.dictCap s.n s.codes =
      .error { kind := kind, info := info } ∧ ErrorKind.code kind = code := by
    rcases hfault with ⟨rfl, rfl, c, hi, hbad⟩ | ⟨rfl, c, h1, hi, hbad, hsp, hlen, hcap⟩ |
      ⟨h1, hlt, hsp, hlen, hcap, hbad⟩ | ⟨rfl, rfl, hsp, hlen, hcap⟩
    · exact ⟨_, lzwDecode_of_no_seed hi hbad, rfl⟩
    · exact ⟨_, lzwDecode_of_undefined hi h1 hlen hcap hsp hbad, rfl⟩
    · rw [← length_codes] at hlt
      obtain ⟨ds, e, rfl, hds, hsp⟩ := spellsCodes_take_succ hlt hsp
      rw [List.take_left' hds] at hlen
      rw [List.flatten_append, List.length_append, List.flatten_singleton] at hbad
      have hi := List.getElem?_eq_getElem hlt
      rcases hbad with ⟨hbad, rfl⟩ | ⟨hok, hfull, rfl⟩
      · exact ⟨_, lzwDecode_of_excess hi h1 hlen hcap hsp hbad, rfl⟩
      · exact ⟨_, lzwDecode_of_full hi h1 hlen hsp hok hfull, rfl⟩
    · rw [← length_codes] at hcap ⊢
      exact ⟨_, lzwDecode_of_short hsp (codes_ne_nil_of_codeCount h0) hlen hcap, rfl⟩
  have hc := lzwDecCheck_ok (dimCheck_ok hh hw hn) h0 hroom
  have hrange := (KeepsRange.spoilLzwDec s).fail { kind := kind, info := info }
  exact ⟨_, exec_lzwDec_of_fault hc hr, spoilLzwDec_fail_eq s _, hrange.byte .sb, hrange.byte .dt⟩

/-! ## The lossless law -/

/-- Settles O34: LZW_ENC's codes spell the grid and insert its entries, so LZW_DEC rebuilds both. -/
theorem lzwIsLossless : Obligations.LzwIsLossless := by
  intro s t u hwf hexec hok hparams halpha hh hw hcount hcodes
  obtain ⟨codes, ins, h, rfl⟩ := lzwEnc_success hexec hok
  simp only [params_succeed, cfg_succeed, height_succeed, width_succeed, codeCount_succeed,
    codes_succeed, params_storeCodes, cfg_storeCodes, height_storeCodes, width_storeCodes,
    h.codes_eq] at hparams halpha hh hw hcount hcodes
  have ha : u.alphabet = s.alphabet := by rw [State.alphabet, halpha, State.alphabet]
  have hdim := dimCheck_of_encoderCheck h.check
  have hn := n_le_of_dimCheck hdim
  have hm : u.codeCount.toNat = ins.length + 1 := by rw [hcount, h.toNat_codeCount, h.count]
  have h0 : u.codeCount ≠ 0 := fun h0 => by rw [h0] at hm; cases hm
  have hle := h.le
  have hroom := h.room (alphabet_le_dictCap hwf)
  have hc : u.lzwDecCheck = none :=
    lzwDecCheck_ok ((dimCheck_congr hparams hh hw).trans hdim) h0 (by rw [hparams]; omega)
  have hsp : spellsCodes u.alphabet u.codes (codes.map (dstr s.alphabet ins)) := by
    rw [ha, hcodes]
    exact h.spellsCodes_dstr
  have hflat : (codes.map (dstr s.alphabet ins)).flatten = s.samples := by
    rw [← List.flatMap_def, h.spell]
  have hlen : (codes.map (dstr s.alphabet ins)).flatten.length = u.n := by
    rw [hflat, length_samples, n_congr hh hw]
  have hdec := exec_lzwDec_of_spelled hc h0 hsp hlen (by rw [ha, hparams]; omega)
  have hgrid := samples_putSamples_spelled hsp hlen
  rw [hcodes, h.insOf_dstr, hflat] at hdec
  rw [hflat] at hgrid
  have ha' : (u.putSamples s.samples).alphabet = s.alphabet := by simp [ha]
  refine ⟨_, hdec, rfl, ?_, ?_, fun k hk => ?_⟩
  · rw [samples_succeed, samples_putDict, hgrid]
  · refine BitVec.eq_of_toNat_eq ?_
    rw [dictSize_succeed, dictSize_succeed, h.toNat_dictSize, toNat_dictSize_putDict] <;> rw [ha']
    exact h.size_lt
  · rw [dictSize_succeed, h.toNat_dictSize] at hk
    rw [dictAt_succeed, dictAt_succeed]
    exact dictAt_putDict_congr (s := s.putBytes .cb 0 (numBytes codes)) ha' h.fits hk

end Sys2Proof.Machine
end

section
/-! PROOFS. The Huffman table and tree (spec/43_huffman_tree.md R272 to R282): which tables pass
TableCheck, what HUF_FREQ tallies, and the shape, the order and the frequencies of the arena that
HUF_TREE builds from its table alone. -/

namespace Sys2Proof.Machine

open Sys2Proof

/-! ## TableCheck -/

section
variable {a : Nat} {eosEn : Bool} {ft : List (Nat × Nat)}

theorem sizeBad_eq_false_iff :
    (decide (ft.length = 0) || decide (a + eosEn.toNat < ft.length)) = false ↔
      ft ≠ [] ∧ ft.length ≤ a + eosEn.toNat := by
  simp

theorem eosMissing_iff :
    (eosEn && !(ft.any fun e => e.1 == 256)) = true ↔ eosEn = true ∧ 256 ∉ ft.map (·.1) := by
  rw [Bool.and_eq_true, Bool.not_eq_true', List.any_eq_false]
  simp only [beq_iff_eq, List.mem_map, not_exists, not_and]

/-- A table of no entry, or of more than there are symbols, is reported as a whole (R277). -/
theorem tableCheck_of_size (h : ft = [] ∨ a + eosEn.toNat < ft.length) :
    tableCheck a eosEn ft = some { kind := .corruptStream, info := 0 } := by
  have hbad := mt sizeBad_eq_false_iff.1 fun ⟨hne, hlen⟩ => h.elim hne hlen.not_gt
  rw [tableCheck, Bool.eq_true_of_not_eq_false hbad]
  rfl

/-- The first bad entry of a table that is not empty and not too long is reported by its index
(R277). -/
theorem tableCheck_of_entry {i : Nat} (hne : ft ≠ []) (hlen : ft.length ≤ a + eosEn.toNat)
    (h : firstBadEntry (a - 1) eosEn [] ft = some i) :
    tableCheck a eosEn ft = some { kind := .corruptStream, info := i } := by
  rw [tableCheck, sizeBad_eq_false_iff.2 ⟨hne, hlen⟩, h]
  rfl

/-- A table of good entries without its end-of-stream symbol, or of too large a total, is reported
by its length (R277). -/
theorem tableCheck_of_total (hne : ft ≠ []) (hlen : ft.length ≤ a + eosEn.toNat)
    (h : firstBadEntry (a - 1) eosEn [] ft = none)
    (hbad : (eosEn = true ∧ 256 ∉ ft.map (·.1)) ∨ 2 ^ 32 - 1 < (ft.map (·.2)).sum) :
    tableCheck a eosEn ft = some { kind := .corruptStream, info := ft.length } := by
  rw [tableCheck, sizeBad_eq_false_iff.2 ⟨hne, hlen⟩, h]
  by_cases heos : eosEn = true ∧ 256 ∉ ft.map (·.1)
  · rw [eosMissing_iff.2 heos]
    rfl
  · rw [Bool.eq_false_of_not_eq_true (mt eosMissing_iff.1 heos),
      decide_eq_true (hbad.resolve_left heos)]
    rfl

/-- An entry of an alphabet of one symbol or more is good when its symbol is legal and new and its
count is not zero (R277). -/
theorem entryBad_eq_false_iff (ha : 1 ≤ a) {seen : List Nat} {e : Nat × Nat} :
    entryBad (a - 1) eosEn seen e = false ↔
      (e.1 < a ∨ (eosEn = true ∧ e.1 = 256)) ∧ e.1 ∉ seen ∧ 1 ≤ e.2 := by
  rw [entryBad_eq_false, Nat.le_sub_one_iff_lt ha, and_assoc, and_comm (a := 1 ≤ e.2)]

/-- Symbols of which each is new are different (R277). -/
theorem nodup_symbols (h : ∀ i e, ft[i]? = some e → e.1 ∉ (ft.take i).map (·.1)) :
    (ft.map (·.1)).Nodup := by
  rw [List.Nodup, List.pairwise_iff_getElem]
  intro i j hi hj hij he
  rw [List.length_map] at hi hj
  refine h j ft[j] (List.getElem?_eq_getElem hj) (List.mem_map.2 ⟨ft[i], ?_, by simpa using he⟩)
  refine List.mem_of_getElem? (i := i) ?_
  rw [List.getElem?_take_of_lt hij, List.getElem?_eq_getElem hi]

/-- No entry of a table of good entries is reported (R277). -/
theorem firstBadEntry_of_good
    (h : ∀ i e, ft[i]? = some e → entryBad (a - 1) eosEn ((ft.take i).map (·.1)) e = false) :
    firstBadEntry (a - 1) eosEn [] ft = none := by
  have hgood i e (he : ft[i]? = some e) := (entryBad_eq_false _ _ _ _).1 (h i e he)
  refine (firstBadEntry_eq_none _ _ _ _).2
    ⟨fun e he => ?_, nodup_symbols fun i e he => (hgood i e he).2, fun e _ => List.not_mem_nil⟩
  obtain ⟨i, hi⟩ := List.getElem?_of_mem he
  exact (hgood i e hi).1

end

/-- Settles O36: the check's parts in the order of R277, each reported when those before pass. -/
theorem tableCheckAcceptsExactly : Obligations.TableCheckAcceptsExactly := by
  intro a eosEn ft ha
  refine ⟨?_, tableCheck_of_size, fun hlen => ⟨fun i e hi hbad hgood => ?_,
    fun hne hgood hbad => ?_⟩⟩
  · simp only [tableCheck_eq_none_iff, Nat.le_sub_one_iff_lt ha]
  · refine tableCheck_of_entry (fun h => by simp [h] at hi) hlen ?_
    have hfirst := firstBadEntry_eq_some (seen := []) (amax := a - 1) (eosEn := eosEn) hi
      (Bool.eq_true_of_not_eq_false fun h => hbad ((entryBad_eq_false_iff ha).1 h))
      fun j d hj hd => (entryBad_eq_false_iff ha).2 (hgood j d hj hd)
    simpa using hfirst
  · exact tableCheck_of_total hne hlen
      (firstBadEntry_of_good fun i e he => (entryBad_eq_false_iff ha).2 (hgood i e he)) hbad

/-! ## HUF_FREQ -/

section
variable {s : State}

/-- A grid that passes the checks is tallied: HUF_FREQ has no fault of its data phase (R272). -/
theorem exec_hufFreq_of_check (h : s.encoderCheck = none) :
    exec .hufFreq s = .next s.clearValid.storeTable.succeed := by
  rw [exec]
  exact runCommand_ok h rfl _

/-- The tally of a grid passes TableCheck (R273). -/
theorem tableCheck_frequencies (hn : 0 < s.n) (hs : ∀ x ∈ s.samples, x ≤ s.amax) :
    tableCheck s.alphabet s.cfg.eosEn (frequencies s.alphabet s.cfg.eosEn s.samples) = none := by
  have ha := alphabet_bounds s
  have hmax := amax_eq s
  have hlt : ∀ x ∈ s.samples, x < s.alphabet := fun x hx => by have := hs x hx; omega
  have hsum := sum_frequencies s.cfg.eosEn hlt
  rw [length_samples] at hsum
  refine tableCheck_eq_none_iff.2 ⟨fun hnil => ?_, length_frequencies_le _ _ _, ?_,
    (frequencies_sorted _ _ ha.2).imp fun h => h.ne, fun he => ?_, ?_⟩
  · rw [hnil, List.map_nil, List.sum_nil] at hsum
    omega
  · rintro ⟨v, c⟩ hm
    rcases mem_frequencies.1 hm with ⟨hv, -, hc⟩ | ⟨he, hv, hc⟩
    · exact ⟨.inl (Nat.le_sub_one_of_lt hv), hc⟩
    · exact ⟨.inr ⟨he, hv⟩, hc.ge⟩
  · exact List.mem_map_of_mem (f := (·.1)) (mem_frequencies.2 (.inr ⟨he, rfl, rfl⟩))
  · have := n_add_alphabet_lt s
    have := s.cfg.eosEn.toNat_le
    omega

/-- HUF_FREQ leaves FT alone past the entries it stores (R272). -/
theorem byte_storeTable_frame (s : State) {o : Nat} (h : 8 * s.storeTable.freqCount.toNat ≤ o) :
    s.storeTable.byte .ft o = s.byte .ft o := by
  rw [freqCount_storeTable] at h
  exact byte_putPairs_frame s .ft _ .ft o (.inr h)

end

/-- Settles O35: HUF_FREQ stores the tally, which reads back as it was stored. -/
theorem hufFreqTalliesTheGrid : Obligations.HufFreqTalliesTheGrid := by
  intro s hh hw hn hs
  have hdim := dimCheck_ok hh hw hn
  have ha := alphabet_bounds s
  have hmax := amax_eq s
  have htable : s.clearValid.storeTable.succeed.table =
      frequencies s.alphabet s.cfg.eosEn s.samples := table_storeTable s.clearValid
  refine ⟨_, exec_hufFreq_of_check (encoderCheck_ok hh hw hn hs), rfl, ?_⟩
  rw [State.treeCheck, htable]
  refine ⟨frequencies_sorted _ _ ha.2, fun v c hv => ?_, fun v c hv => ?_, ?_, ?_, fun o =>
    byte_storeTable_frame s.clearValid⟩
  · have hdata : v < s.alphabet ∧ v ≠ 256 := by omega
    simp [mem_frequencies, hdata]
  · have hpast : ¬ v < s.alphabet := by omega
    simp [mem_frequencies, hpast]
  · rw [sum_frequencies _ fun x hx => by have := hs x hx; omega, length_samples]
  · rw [alphabet_succeed, alphabet_storeTable, cfg_succeed, cfg_storeTable]
    exact tableCheck_frequencies (n_pos_of_dimCheck hdim) hs

/-! ## HUF_TREE -/

section
variable {s t : State}

/-- A table that passes the check becomes a tree: HUF_TREE has no fault of its data phase (R278). -/
theorem exec_hufTree_of_check (h : s.treeCheck = none) :
    exec .hufTree s = .next s.clearValid.storeTree.succeed := by
  rw [exec]
  exact runCommand_ok h rfl _

/-- What HUF_TREE leaves on success (R278). -/
theorem hufTree_success (h : exec .hufTree s = .next t) (hok : t.status.err = false) :
    s.treeCheck = none ∧ t = s.clearValid.storeTree.succeed := by
  rcases execHufTree_cases s with ⟨e, -, hr⟩ | ⟨hcheck, hr⟩ <;> cases hr.symm.trans h
  · cases hok
  · exact ⟨hcheck, rfl⟩

end

/-- Settles O37: a raise of TableCheck is a raise of the pre-check phase. -/
theorem hufTreeFailureKeepsTheArena : Obligations.HufTreeFailureKeepsTheArena := by
  rintro s ⟨kind, info⟩ h
  obtain rfl : kind = .corruptStream := tableCheck_raises h
  exact exec_of_preCheck (i := .hufTree) h

@[simp] theorem length_table (s : State) : s.table.length = s.freqCount.toNat := by
  simp [State.table]

/-! ## The stored arena -/

/-- ND, NODE_COUNT and ROOT of `t` hold the arena of a table of 1 to 257 entries (R278). -/
structure HoldsTree (ft : List (Nat × Nat)) (t : State) : Prop where
  pos : 1 ≤ ft.length
  le : ft.length ≤ 257
  nodes : t.nodes = buildTree ft
  root : t.root.toNat + 1 = t.nodeCount.toNat

/-- What HUF_TREE leaves on success holds the arena of the table (R278). -/
theorem holdsTree_of_check {s : State} (h : s.treeCheck = none) :
    HoldsTree s.table s.clearValid.storeTree.succeed := by
  obtain ⟨hne, hlen, -⟩ := tableCheck_eq_none_iff.1 h
  have ha := alphabet_bounds s
  have he := s.cfg.eosEn.toNat_le
  obtain ⟨-, hnodes, hroot⟩ := (validOk_storeTree (s := s.clearValid) h).1 rfl
  have htable : s.clearValid.storeTree.table = s.table :=
    table_congr (by simp) (by simp) (by simp)
  exact ⟨List.length_pos_iff.2 hne, by omega, htable ▸ hnodes, hroot⟩

/-- NONE is no node (R55), so a child of `p` is what either field of `p` names. -/
theorem child_iff_childOf {t : State} {p k : Nat} (hk : k < t.nodeCount.toNat) :
    (t.nodeAt p).left = k ∨ (t.nodeAt p).right = k ↔ ∃ b, childOf t.nodeAt p b = some k := by
  have hlt := t.nodeCount.isLt
  have hnone : k ≠ noNode := by
    unfold noNode
    omega
  simp [childOf_eq_some, hnone]

namespace HoldsTree

variable {ft : List (Nat × Nat)} {t : State} {j k : Nat}

theorem length_eq (h : HoldsTree ft t) : (buildTree ft).length = t.nodeCount.toNat :=
  (nodeAt_of_nodes_eq h.nodes).1

theorem nodeAt_eq (h : HoldsTree ft t) {nd : Node} (hj : (buildTree ft)[j]? = some nd) :
    t.nodeAt j = nd := (nodeAt_of_nodes_eq h.nodes).2 j nd hj

/-- The number of nodes (R279). -/
theorem nodeCount (h : HoldsTree ft t) :
    t.nodeCount.toNat = if ft.length = 1 then 2 else 2 * ft.length - 1 := by
  rw [← h.length_eq, length_buildTree (List.length_pos_iff.1 h.pos)]

theorem getElem?_buildTree (h : HoldsTree ft t) (hj : j < t.nodeCount.toNat) :
    (buildTree ft)[j]? = some (t.nodeAt j) := by
  have hg := List.getElem?_eq_getElem (h.length_eq.symm ▸ hj : j < (buildTree ft).length)
  rw [hg, h.nodeAt_eq hg]

/-- The key of a node (R276). -/
theorem keyAt_eq (h : HoldsTree ft t) (hj : j < t.nodeCount.toNat) :
    keyAt (buildTree ft) j = ((t.nodeAt j).freq, j) := by
  rw [keyAt, h.getElem?_buildTree hj]
  rfl

/-- The leaves are the entries of the table, in order (R280). -/
theorem leaf (h : HoldsTree ft t) {e : Nat × Nat} (he : ft[j]? = some e) :
    t.nodeAt j = { isLeaf := true, symbol := e.1, freq := e.2, left := noNode, right := noNode } :=
  h.nodeAt_eq (getElem?_buildTree_leaf he)

/-- One leaf gets a root with one child (R278). -/
theorem nodeAt_one (h : HoldsTree ft t) (hone : ft.length = 1) :
    t.nodeAt 1 = mergeNode (t.nodeAt 0).freq 0 noNode := by
  obtain ⟨e, rfl⟩ := List.length_eq_one_iff.1 hone
  rw [h.leaf (j := 0) rfl]
  exact h.nodeAt_eq rfl

/-- With two leaves or more a merge takes the two least of the orphans before it (R276). -/
theorem merged (h : HoldsTree ft t) (h2 : 2 ≤ ft.length) (hj : ft.length ≤ j)
    (hj' : j < t.nodeCount.toNat) : MergedAt ft.length (buildTree ft) j (t.nodeAt j) :=
  (buildTree_inv h2).2.merged j _ hj (h.getElem?_buildTree hj')

/-- An internal node's frequency is the sum of its children's (R280). -/
theorem freq_eq (h : HoldsTree ft t) (h2 : 2 ≤ ft.length) (hj : ft.length ≤ j)
    (hj' : j < t.nodeCount.toNat) :
    (t.nodeAt j).freq = (t.nodeAt (t.nodeAt j).left).freq + (t.nodeAt (t.nodeAt j).right).freq := by
  have hm := h.merged h2 hj hj'
  rw [hm.freq, h.keyAt_eq (hm.left.trans hj'), h.keyAt_eq (hm.right.trans hj')]

/-- Two different nodes are merged, the least key as LEFT (R276). -/
theorem order (h : HoldsTree ft t) (h2 : 2 ≤ ft.length) (hj : ft.length ≤ j)
    (hj' : j < t.nodeCount.toNat) :
    keyLess ((t.nodeAt (t.nodeAt j).left).freq, (t.nodeAt j).left)
      ((t.nodeAt (t.nodeAt j).right).freq, (t.nodeAt j).right) = true := by
  have hm := h.merged h2 hj hj'
  have ho := hm.order
  rwa [h.keyAt_eq (hm.left.trans hj'), h.keyAt_eq (hm.right.trans hj')] at ho

/-- The key of RIGHT is below that of every other node that is no child yet (R276). -/
theorem least (h : HoldsTree ft t) (h2 : 2 ≤ ft.length) (hj : ft.length ≤ j)
    (hj' : j < t.nodeCount.toNat) (hk : k < j) (hl : k ≠ (t.nodeAt j).left)
    (hr : k ≠ (t.nodeAt j).right)
    (ho : ∀ p, ft.length ≤ p → p < j → (t.nodeAt p).left ≠ k ∧ (t.nodeAt p).right ≠ k) :
    keyLess ((t.nodeAt (t.nodeAt j).right).freq, (t.nodeAt j).right) ((t.nodeAt k).freq, k) =
      true := by
  have hm := h.merged h2 hj hj'
  have horphan : orphan ft.length ((buildTree ft).take j) k := fun p nd hp hg => by
    rw [List.getElem?_take, Option.ite_none_right_eq_some] at hg
    obtain ⟨hpj, hg⟩ := hg
    exact h.nodeAt_eq hg ▸ ho p hp hpj
  have hless := hm.least k hk hl hr horphan
  rwa [h.keyAt_eq (hm.right.trans hj'), h.keyAt_eq (hk.trans hj')] at hless

/-- A child of a merge is a child of no merge before it (R280). -/
theorem not_child_before (h : HoldsTree ft t) (h2 : 2 ≤ ft.length)
    (hj' : j < t.nodeCount.toNat) {p : Nat} (hp : ft.length ≤ p) (hpj : p < j)
    (hk : (t.nodeAt j).left = k ∨ (t.nodeAt j).right = k) :
    (t.nodeAt p).left ≠ k ∧ (t.nodeAt p).right ≠ k := by
  have hm := h.merged h2 (by omega) hj'
  have hg : ((buildTree ft).take j)[p]? = some (t.nodeAt p) := by
    rw [List.getElem?_take_of_lt hpj, h.getElem?_buildTree (hpj.trans hj')]
  rcases hk with rfl | rfl
  · exact hm.orphanLeft p _ hp hg
  · exact hm.orphanRight p _ hp hg

/-- The arena is a tree under ROOT (R280). -/
theorem isTree (h : HoldsTree ft t) : IsTree t.nodeAt ft.length t.root.toNat := by
  have hroot : t.root.toNat = (buildTree ft).length - 1 := by
    rw [h.length_eq, ← h.root]
    rfl
  exact hroot ▸ (isTree_buildTree h.pos h.le fun _ _ => h.nodeAt_eq).1

/-- ROOT's frequency is the total of the table (R280). -/
theorem freq_root (h : HoldsTree ft t) : (t.nodeAt t.root.toNat).freq = (ft.map (·.2)).sum := by
  have hroot := h.root
  have hcount := h.nodeCount
  have hpos := h.pos
  by_cases hone : ft.length = 1
  · rw [if_pos hone] at hcount
    obtain ⟨e, rfl⟩ := List.length_eq_one_iff.1 hone
    have hr : t.root.toNat = 1 := by omega
    rw [hr, h.nodeAt_one rfl, h.leaf (j := 0) rfl]
    simp [mergeNode]
  · rw [if_neg hone] at hcount
    have hr : t.root.toNat = 2 * ft.length - 2 := by omega
    have hkey := ((buildTree_inv (ft := ft) (by omega)).2.keys _ (List.mem_singleton.2 rfl)).2
    rw [h.keyAt_eq (show 2 * ft.length - 2 < t.nodeCount.toNat by omega)] at hkey
    exact hr ▸ (congrArg Prod.fst hkey).symm

/-- The shape of an internal node (R278, R280). -/
theorem internal (h : HoldsTree ft t) (hj : ft.length ≤ j) (hj' : j < t.nodeCount.toNat) :
    (t.nodeAt j).isLeaf = false ∧ (t.nodeAt j).symbol = 0 ∧ (t.nodeAt j).left < j ∧
      (ft.length = 1 →
        (t.nodeAt j).right = noNode ∧ (t.nodeAt j).freq = (t.nodeAt 0).freq) ∧
      (2 ≤ ft.length →
        (t.nodeAt j).right < j ∧ (t.nodeAt j).left ≠ (t.nodeAt j).right ∧
        (t.nodeAt j).freq =
          (t.nodeAt (t.nodeAt j).left).freq + (t.nodeAt (t.nodeAt j).right).freq) := by
  have hcount := h.nodeCount
  have hpos := h.pos
  by_cases hone : ft.length = 1
  · obtain rfl : j = 1 := by
      rw [if_pos hone] at hcount
      omega
    rw [h.nodeAt_one hone]
    exact ⟨rfl, rfl, Nat.one_pos, fun _ => ⟨rfl, rfl⟩, fun h2 => by omega⟩
  · have h2 : 2 ≤ ft.length := by omega
    have hm := h.merged h2 hj hj'
    have hne : (t.nodeAt j).left ≠ (t.nodeAt j).right := fun he => by
      have ho := hm.order
      rw [he, keyLess_iff] at ho
      omega
    exact ⟨hm.leaf, hm.symbol, hm.left, fun h1 => absurd h1 hone, fun _ =>
      ⟨hm.right, hne, h.freq_eq h2 hj hj'⟩⟩

/-- Every node but ROOT has a parent (R280). -/
theorem ne_root_iff (h : HoldsTree ft t) (hk : k < t.nodeCount.toNat) :
    k ≠ t.root.toNat ↔ ∃ p, ft.length ≤ p ∧ p < t.nodeCount.toNat ∧
      ((t.nodeAt p).left = k ∨ (t.nodeAt p).right = k) := by
  have hroot := h.root
  simp only [child_iff_childOf hk]
  constructor
  · intro hne
    obtain ⟨p, b, hp, hp', hc⟩ := h.isTree.parent k (by omega)
    exact ⟨p, hp, by omega, b, hc⟩
  · rintro ⟨p, hp, hp', b, hc⟩
    have := h.isTree.child p b k hp (by omega) hc
    omega

/-- A node has one parent (R280). -/
theorem parent_unique (h : HoldsTree ft t) (hk : k < t.nodeCount.toNat) {p q : Nat}
    (hp : ft.length ≤ p) (hp' : p < t.nodeCount.toNat) (hq : ft.length ≤ q)
    (hq' : q < t.nodeCount.toNat) (hpk : (t.nodeAt p).left = k ∨ (t.nodeAt p).right = k)
    (hqk : (t.nodeAt q).left = k ∨ (t.nodeAt q).right = k) : p = q := by
  have hroot := h.root
  obtain ⟨b, hb⟩ := (child_iff_childOf hk).1 hpk
  obtain ⟨c, hc⟩ := (child_iff_childOf hk).1 hqk
  exact (h.isTree.unique p q b c k hp (by omega) hq (by omega) hb hc).1

/-- Frequencies of the merges do not fall: the next merge takes this node, or two that this merge
left over (R281). -/
theorem freq_le_next (h : HoldsTree ft t) (h2 : 2 ≤ ft.length) (hj : ft.length ≤ j)
    (hj' : j + 1 < t.nodeCount.toNat) : (t.nodeAt j).freq ≤ (t.nodeAt (j + 1)).freq := by
  have hm := h.merged h2 (by omega) hj'
  rw [h.freq_eq h2 (by omega) hj']
  by_cases hjk : (t.nodeAt (j + 1)).left = j ∨ (t.nodeAt (j + 1)).right = j
  · rcases hjk with he | he <;> rw [he] <;> omega
  · rw [not_or] at hjk
    have left_over {k : Nat} (hk : k < j + 1) (hne : k ≠ j)
        (hc : (t.nodeAt (j + 1)).left = k ∨ (t.nodeAt (j + 1)).right = k) :
        (t.nodeAt (t.nodeAt j).right).freq ≤ (t.nodeAt k).freq := by
      have hnot := h.not_child_before h2 hj' hj (Nat.lt_succ_self j) hc
      have hless := h.least h2 hj (by omega) (show k < j by omega) hnot.1.symm hnot.2.symm
        fun p hp hpj => h.not_child_before h2 hj' hp (by omega) hc
      rw [keyLess_iff] at hless
      omega
    have hleft := left_over hm.left hjk.1 (.inl rfl)
    have hright := left_over hm.right hjk.2 (.inr rfl)
    have horder := h.order h2 hj (by omega)
    rw [keyLess_iff] at horder
    rw [h.freq_eq h2 hj (by omega)]
    omega

/-- Two blocks that hold the arena of one table hold the same nodes (R282). -/
theorem same (h : HoldsTree ft t) {t' : State} (h' : HoldsTree ft t') :
    t'.nodeCount = t.nodeCount ∧ t'.root = t.root ∧
      ∀ j, j < t.nodeCount.toNat → t'.nodeAt j = t.nodeAt j := by
  have hcount : t'.nodeCount.toNat = t.nodeCount.toNat := h'.length_eq.symm.trans h.length_eq
  have hroot := h.root
  have hroot' := h'.root
  exact ⟨BitVec.eq_of_toNat_eq hcount, BitVec.eq_of_toNat_eq (by omega), fun j hj =>
    h'.nodeAt_eq (h.getElem?_buildTree hj)⟩

end HoldsTree

/-- HUF_TREE leaves ND alone past the nodes it stores (R278). -/
theorem byte_storeTree_frame (s : State) {o : Nat} (h : 32 * (buildTree s.table).length ≤ o) :
    s.storeTree.byte .nd o = s.byte .nd o :=
  byte_putNodes_frame s _ .nd o (.inr h)

/-- Settles O38: the shape of the arena of the table, which ND holds after a success. -/
theorem hufTreeBuildsTheArena : Obligations.HufTreeBuildsTheArena := by
  intro s hcheck
  have h := holdsTree_of_check hcheck
  have hcount := h.nodeCount
  have hle := h.le
  rw [← length_table]
  refine ⟨_, exec_hufTree_of_check hcheck, rfl, hcount, h.root, ?_, fun i e => h.leaf,
    fun j => h.internal, fun k hk => ⟨h.ne_root_iff hk, fun p q => h.parent_unique hk⟩,
    h.freq_root, fun o ho => byte_storeTree_frame s.clearValid (h.length_eq.symm ▸ ho)⟩
  rw [hcount]
  split <;> omega

/-! ## The order of the merges -/

/-- Settles O39: the merge loop keeps its queue of orphans in key order. -/
theorem mergeTakesTheTwoLeastKeys : Obligations.MergeTakesTheTwoLeastKeys := by
  intro s t hexec hok h2 j
  obtain ⟨hcheck, rfl⟩ := hufTree_success hexec hok
  have h := holdsTree_of_check hcheck
  rw [← length_table] at h2 ⊢
  exact fun hj hj' => ⟨h.order h2 hj hj', fun k => h.least h2 hj hj'⟩

/-- Settles O40, by comparing the children of a merge with those of the next. -/
theorem mergeFrequenciesNeverDecrease : Obligations.MergeFrequenciesNeverDecrease := by
  intro s t hexec hok h2 j
  obtain ⟨hcheck, rfl⟩ := hufTree_success hexec hok
  rw [← length_table] at h2 ⊢
  exact (holdsTree_of_check hcheck).freq_le_next h2

/-! ## Determinism -/

/-- TableCheck depends on CFG and the table alone (R277). -/
theorem treeCheck_congr {s s' : State} (hcfg : s.cfg = s'.cfg) (htable : s.table = s'.table) :
    s.treeCheck = s'.treeCheck := by
  simp only [State.treeCheck, State.alphabet, hcfg, htable]

/-- Settles O41: both blocks hold the arena of the one table. -/
theorem equalTablesGiveEqualTrees : Obligations.EqualTablesGiveEqualTrees := by
  intro s s' t t' hcfg htable hexec hexec' hok
  obtain ⟨hcheck, rfl⟩ := hufTree_success hexec hok
  have hcheck' : s'.treeCheck = none := (treeCheck_congr hcfg htable).symm.trans hcheck
  cases (exec_hufTree_of_check hcheck').symm.trans hexec'
  exact ⟨rfl, (htable ▸ holdsTree_of_check hcheck).same (holdsTree_of_check hcheck')⟩

end Sys2Proof.Machine
end

section
/-! PROOFS. The code table (spec/44_huffman_codes.md R310 to R314): HUF_CODES on a valid tree stores
the path from the root to each leaf of the table, no path is a prefix of another, and the paths of
two leaves or more fill the code space exactly. -/

namespace Sys2Proof.Machine

open Sys2Proof

/-! ## HUF_CODES -/

section
variable {s t : State}

/-- With a valid tree HUF_CODES has no fault (R311). -/
theorem exec_hufCodes_of_treeValid (h : s.status.treeValid = true) :
    exec .hufCodes s = .next s.storeCodeTable.succeed := by
  rw [exec]
  exact runCommand_ok (raiseIf_eq_none.2 (by rw [h]; rfl)) rfl _

/-- What HUF_CODES leaves on success (R311). -/
theorem hufCodes_success (h : exec .hufCodes s = .next t) (hok : t.status.err = false) :
    s.status.treeValid = true ∧ t = s.storeCodeTable.succeed := by
  rcases execHufCodes_cases s with ⟨-, hr⟩ | ⟨hv, hr⟩ <;> cases hr.symm.trans h
  · cases hok
  · exact ⟨hv, rfl⟩

end

/-! ## The visit of a leaf -/

/-- Where one path only is collected for a symbol, its entry is that path. -/
theorem codeOf_of_mem {leaves : List (Nat × List Bool)} {x : Nat} {p : List Bool}
    (hm : (x, p) ∈ leaves) (huniq : ∀ q, (x, q) ∈ leaves → q = p) :
    codeOf leaves x = { valid := true, len := p.length, code := pathNumber p } := by
  cases hv : (codeOf leaves x).valid with
  | false => exact absurd hm ((codeOf_invalid hv).2 p)
  | true =>
    obtain ⟨q, hq, he⟩ := codeOf_valid hv
    rw [he, huniq q hq]

theorem visitTree_of_leaf {node : Nat → Node} {j : Nat} (h : (node j).isLeaf = true) (depth : Nat)
    (path : List Bool) : visitTree node (depth + 1) j path = [((node j).symbol, path)] := by
  rw [visitTree, if_pos h]

/-- The path to a leaf has an edge: the root is no leaf (R279). -/
theorem IsTree.path_pos {node : Nat → Node} {n root k : Nat} {p : List Bool}
    (h : IsTree node n root) (hk : k < n) (hw : walkPath node root p = some k) : 1 ≤ p.length := by
  cases p with
  | nil =>
    cases hw
    exact absurd h.le (by omega)
  | cons b bs => exact Nat.succ_pos _

/-! ## The leaves of a valid tree -/

/-- The leaves below ROOT, each with its symbol and its path (R311). -/
def State.leafPaths (s : State) : List (Nat × List Bool) :=
  visitTree s.nodeAt maxLevels s.root.toNat []

/-- What TREE_VALID means for the codes: the arena of the table, whose symbols are distinct and
index CT (R48, R277). -/
structure ValidTree (s : State) : Prop where
  holds : HoldsTree s.table s
  nodup : (s.table.map (·.1)).Nodup
  symbol_lt : ∀ x ∈ s.table.map (·.1), x < 257

theorem validTree_of_treeOk {s : State} (h : s.treeOk) (hv : s.status.treeValid = true) :
    ValidTree s := by
  obtain ⟨hcheck, hnodes, hroot⟩ := h hv
  obtain ⟨hne, hlen, hsym, hnodup, -⟩ := tableCheck_eq_none_iff.1 hcheck
  have ha := alphabet_bounds s
  have he := s.cfg.eosEn.toNat_le
  refine ⟨⟨List.length_pos_iff.2 hne, by omega, hnodes, hroot⟩, hnodup, fun x hx => ?_⟩
  obtain ⟨e, hm, rfl⟩ := List.mem_map.1 hx
  have := (hsym e hm).1
  omega

namespace ValidTree

variable {s : State} {x y : Nat} {p q : List Bool}

theorem isTree (h : ValidTree s) : IsTree s.nodeAt s.table.length s.root.toNat := h.holds.isTree

theorem symbol_eq (h : ValidTree s) {k : Nat} (hk : k < s.table.length) :
    (s.nodeAt k).symbol = (s.table.map (·.1))[k]'(by simpa using hk) := by
  rw [h.holds.leaf (List.getElem?_eq_getElem hk), List.getElem_map]

/-- No two leaves have the same symbol (R280). -/
theorem leaf_unique (h : ValidTree s) {k k' : Nat} (hk : k < s.table.length)
    (hk' : k' < s.table.length) (he : (s.nodeAt k).symbol = (s.nodeAt k').symbol) : k = k' := by
  rw [h.symbol_eq hk, h.symbol_eq hk'] at he
  exact (h.nodup.getElem_inj_iff).1 he

/-- The visit collects the path of each leaf (R310, R311). -/
theorem mem_leafPaths (h : ValidTree s) :
    (x, p) ∈ s.leafPaths ↔ ∃ k, k < s.table.length ∧
      walkPath s.nodeAt s.root.toNat p = some k ∧ (s.nodeAt k).symbol = x := by
  constructor
  · intro hm
    obtain ⟨k, hk, hw, hx, -⟩ := h.isTree.visit_sound hm
    exact ⟨k, hk, hw, hx⟩
  · rintro ⟨k, hk, hw, rfl⟩
    obtain ⟨q, hm, hq⟩ := h.isTree.visit_complete k hk
    exact h.isTree.path_unique hw hq ▸ hm

theorem exists_leafPath_iff (h : ValidTree s) :
    (∃ p, (x, p) ∈ s.leafPaths) ↔ x ∈ s.table.map (·.1) := by
  constructor
  · rintro ⟨p, hm⟩
    obtain ⟨k, hk, -, rfl⟩ := h.mem_leafPaths.1 hm
    exact h.symbol_eq hk ▸ List.getElem_mem _
  · intro hx
    obtain ⟨k, hk, rfl⟩ := List.getElem_of_mem hx
    rw [List.length_map] at hk
    obtain ⟨p, hm, -⟩ := h.isTree.visit_complete k hk
    exact ⟨p, h.symbol_eq hk ▸ hm⟩

/-- A symbol has one path (R310). -/
theorem leafPath_unique (h : ValidTree s) (hp : (x, p) ∈ s.leafPaths) (hq : (x, q) ∈ s.leafPaths) :
    q = p := by
  obtain ⟨k, hk, hw, hx⟩ := h.mem_leafPaths.1 hp
  obtain ⟨k', hk', hw', hx'⟩ := h.mem_leafPaths.1 hq
  obtain rfl := h.leaf_unique hk' hk (hx'.trans hx.symm)
  exact h.isTree.path_unique hw' hw

/-- A path has from 1 edge to one for each internal node (R11, R314). -/
theorem length_leafPath (h : ValidTree s) (hm : (x, p) ∈ s.leafPaths) :
    1 ≤ p.length ∧ p.length ≤ s.root.toNat + 1 - s.table.length := by
  obtain ⟨k, hk, hw, -⟩ := h.mem_leafPaths.1 hm
  exact ⟨h.isTree.path_pos hk hw, (h.isTree.walk_bounds (Nat.le_refl _) hw).2⟩

/-- A path ends at its leaf, so no path starts with the path of another symbol (R313). -/
theorem leafPath_prefix (h : ValidTree s) (hp : (x, p) ∈ s.leafPaths) (hq : (y, q) ∈ s.leafPaths)
    (hpre : p <+: q) : x = y := by
  obtain ⟨k, hk, hw, rfl⟩ := h.mem_leafPaths.1 hp
  obtain ⟨k', hk', hw', rfl⟩ := h.mem_leafPaths.1 hq
  obtain rfl := walkPath_leaf_prefix hw (h.isTree.leaf k hk) hw' hpre
  rw [Option.some.inj (hw.symm.trans hw')]

/-! ### The stored codes -/

/-- CT holds the path of every symbol that has a leaf (R311, R312). -/
theorem codeEntry_of_mem (h : ValidTree s) (hm : (x, p) ∈ s.leafPaths) :
    s.storeCodeTable.codeEntry x = { valid := true, len := p.length, code := pathNumber p } := by
  have hx := h.symbol_lt x (h.exists_leafPath_iff.1 ⟨p, hm⟩)
  rw [codeEntry_storeCodeTable s hx]
  exact codeOf_of_mem hm fun q => h.leafPath_unique hm

theorem codeEntry_of_valid (h : ValidTree s) (hx : x < 257)
    (hv : (s.storeCodeTable.codeEntry x).valid = true) :
    ∃ p, (x, p) ∈ s.leafPaths ∧ s.storeCodeTable.codeEntry x =
      { valid := true, len := p.length, code := pathNumber p } := by
  rw [codeEntry_storeCodeTable s hx] at hv
  obtain ⟨p, hm, -⟩ := codeOf_valid hv
  exact ⟨p, hm, h.codeEntry_of_mem hm⟩

/-- The valid codes are those of the table's symbols (R311). -/
theorem valid_iff (h : ValidTree s) (hx : x < 257) :
    (s.storeCodeTable.codeEntry x).valid = true ↔ x ∈ s.table.map (·.1) := by
  rw [← h.exists_leafPath_iff]
  constructor
  · intro hv
    obtain ⟨p, hm, -⟩ := h.codeEntry_of_valid hx hv
    exact ⟨p, hm⟩
  · rintro ⟨p, hm⟩
    rw [h.codeEntry_of_mem hm]

/-! ### The Kraft sum -/

theorem nodup_leafPaths (h : ValidTree s) : (s.leafPaths.map (·.1)).Nodup := by
  refine List.Nodup.map_on ?_ (List.Nodup.of_map _ (visitTree_nodup _ _ _ _))
  rintro ⟨x, p⟩ hp ⟨y, q⟩ hq rfl
  rw [h.leafPath_unique hp hq]

theorem validSymbols_perm (h : ValidTree s) :
    ((List.range 257).filter fun x => (s.storeCodeTable.codeEntry x).valid).Perm
      (s.leafPaths.map (·.1)) := by
  refine (List.perm_ext_iff_of_nodup (List.nodup_range.filter _) h.nodup_leafPaths).2 fun x => ?_
  have hleaf : x ∈ s.leafPaths.map (·.1) ↔ x ∈ s.table.map (·.1) := by
    rw [← h.exists_leafPath_iff]
    simp
  rw [List.mem_filter, List.mem_range, hleaf]
  constructor
  · rintro ⟨hx, hv⟩
    exact (h.valid_iff hx).1 hv
  · intro hm
    have hx := h.symbol_lt x hm
    exact ⟨hx, (h.valid_iff hx).2 hm⟩

/-- A sum over the valid codes is the sum over the leaves' paths. -/
theorem sum_validCodes (h : ValidTree s) (f : Nat → Nat) :
    (((List.range 257).filter fun x => (s.storeCodeTable.codeEntry x).valid).map fun x =>
      f (s.storeCodeTable.codeEntry x).len).sum = (s.leafPaths.map fun e => f e.2.length).sum := by
  rw [(h.validSymbols_perm.map _).sum_eq, List.map_map]
  refine congrArg List.sum (List.map_congr_left ?_)
  rintro ⟨x, p⟩ hm
  simp only [Function.comp_apply, h.codeEntry_of_mem hm]

/-- The one leaf of a table of one entry hangs LEFT of the root (R278). -/
theorem leafPaths_one (h : ValidTree s) (hone : s.table.length = 1) :
    s.leafPaths = [((s.nodeAt 0).symbol, [false])] := by
  have hcount := h.holds.nodeCount
  have hroot := h.holds.root
  rw [if_pos hone] at hcount
  have hr : s.root.toNat = 1 := by omega
  have hleaf := h.isTree.leaf 0 (by omega)
  rw [State.leafPaths, maxLevels, hr, visitTree, h.holds.nodeAt_one hone]
  simp [mergeNode, noNode, visitTree_of_leaf hleaf]

theorem sum_leafPaths (h : ValidTree s) :
    (s.leafPaths.map fun e => 2 ^ (256 - e.2.length)).sum =
      if s.table.length = 1 then 2 ^ 255 else 2 ^ 256 := by
  have hroot := h.holds.root
  have hsmall := h.isTree.small
  unfold maxLevels at hsmall
  split
  · next hone =>
    rw [h.leafPaths_one hone]
    simp
  · next hone =>
    have hpos := h.isTree.pos
    have hfull :=
      (isTree_buildTree h.holds.pos h.holds.le fun _ _ => h.holds.nodeAt_eq).2 (by omega)
    rw [h.holds.length_eq, ← hroot] at hfull
    exact h.isTree.kraft hfull 256 maxLevels _ [] (Nat.le_refl _) h.isTree.small (by decide)
      (by rw [List.length_nil]; omega)

end ValidTree

/-! ## What HUF_CODES stores of a valid tree -/

/-- Settles O42: an entry HUF_CODES stores is the path of the symbol's one leaf, or cleared. -/
theorem hufCodesStoresThePaths : Obligations.HufCodesStoresThePaths := by
  intro s hv htree
  have h := validTree_of_treeOk htree hv
  refine ⟨_, exec_hufCodes_of_treeValid hv, rfl, fun x hx => ?_⟩
  rw [codeEntry_succeed]
  obtain ⟨-, -, hlen, hcode⟩ := codeOf_fits s.nodeAt s.root.toNat x
  rw [← codeEntry_storeCodeTable s hx] at hlen hcode
  refine ⟨h.valid_iff hx, fun hvalid => ?_, fun hinvalid => ?_⟩
  · obtain ⟨p, hm, he⟩ := h.codeEntry_of_valid hx hvalid
    obtain ⟨k, hk, hw, hsym⟩ := h.mem_leafPaths.1 hm
    rw [he] at hlen hcode ⊢
    rw [codeBits_path]
    exact ⟨(h.length_leafPath hm).1, hlen, hcode, k, hw, h.isTree.leaf k hk, hsym⟩
  · rw [codeEntry_storeCodeTable s hx] at hinvalid ⊢
    rw [(codeOf_invalid hinvalid).1]
    exact ⟨rfl, rfl⟩

/-- Settles O43: the codes are paths to different leaves, and a path stops at a leaf. -/
theorem codesArePrefixFree : Obligations.CodesArePrefixFree := by
  intro s t htree hexec hok x y hx hy hne hvx hvy
  obtain ⟨hv, rfl⟩ := hufCodes_success hexec hok
  have h := validTree_of_treeOk htree hv
  rw [codeEntry_succeed] at hvx hvy ⊢
  rw [codeEntry_succeed]
  obtain ⟨p, hp, hpe⟩ := h.codeEntry_of_valid hx hvx
  obtain ⟨q, hq, hqe⟩ := h.codeEntry_of_valid hy hvy
  rw [hpe, hqe, codeBits_path, codeBits_path]
  exact fun hpre => hne (h.leafPath_prefix hp hq hpre)

/-- Settles O44: the valid codes are the leaves' paths, which fill the code space where every
internal node has two children. -/
theorem kraftSumIsExact : Obligations.KraftSumIsExact := by
  intro s t htree hexec hok
  obtain ⟨hv, rfl⟩ := hufCodes_success hexec hok
  have h := validTree_of_treeOk htree hv
  simp only [codeEntry_succeed]
  rw [← length_table]
  refine ⟨(h.sum_validCodes fun l => 2 ^ (256 - l)).trans h.sum_leafPaths, fun x hx hvalid => ?_⟩
  obtain ⟨p, hm, he⟩ := h.codeEntry_of_valid hx hvalid
  obtain ⟨k, hk, hw, hsym⟩ := h.mem_leafPaths.1 hm
  obtain ⟨hpos, hle⟩ := h.length_leafPath hm
  rw [he]
  refine ⟨⟨p, k, rfl, hw, h.isTree.leaf k hk, hsym⟩, fun h2 => ⟨hpos, hle.trans ?_⟩⟩
  have hcount := h.holds.nodeCount
  have hroot := h.holds.root
  rw [if_neg (by omega)] at hcount
  omega

end Sys2Proof.Machine
end

section
/-! PROOFS. The bitstream (spec/45_bitstream.md R330 to R363): the stream HUF_PACK stores and its
faults, the paths HUF_UNPACK follows and its faults, and that the one undoes the other. -/

namespace Sys2Proof.Machine

open Sys2Proof

/-! ## The payload -/

section
variable {entry : Nat → Code} {cap k : Nat} {eosEn : Bool} {xs : List Nat}

/-- Samples that have codes, with a payload that fits, are packed (R332). -/
theorem packPayload_of_fit (hv : ∀ x ∈ xs, (entry x).valid = true)
    (hl : (bitsOf entry xs ++ if eosEn then codeBits (entry 256) else []).length ≤ 8 * cap) :
    packPayload entry cap eosEn xs =
      .ok (bitsOf entry xs ++ if eosEn then codeBits (entry 256) else []) := by
  rw [List.length_append] at hl
  rw [packPayload, packSamples_complete hv (by omega)]
  cases eosEn with
  | false => simp
  | true =>
    rw [if_pos rfl, length_codeBits] at hl
    have hfit : ¬ cap < bytesFor ((bitsOf entry xs).length + (entry 256).len) := by
      rw [bytesFor_le]
      omega
    simp only [if_neg hfit]
    rfl

/-- A fault of the sample loop is the fault of the payload (R332). -/
theorem packPayload_of_packSamples_error {e : Raise}
    (h : packSamples entry cap 0 0 xs = .error e) : packPayload entry cap eosEn xs = .error e := by
  rw [packPayload, h]

section
variable {x : Nat} (hx : xs[k]? = some x) (hv : ∀ x ∈ xs.take k, (entry x).valid = true)
  (hl : (bitsOf entry (xs.take k)).length ≤ 8 * cap)
include hx hv hl

/-- Past samples without a fault the loop goes on at sample `k`, with their codes out (R332). -/
theorem packSamples_eq_at :
    packSamples entry cap 0 0 xs =
      (packSamples entry cap k (bitsOf entry (xs.take k)).length (x :: xs.drop (k + 1))).map
        (bitsOf entry (xs.take k) ++ ·) := by
  obtain ⟨hlt, rfl⟩ := List.getElem?_eq_some_iff.1 hx
  have h := packSamples_append (cap := cap) (k := 0) (l := 0) (ys := xs.drop k) hv (by omega)
  rwa [List.take_append_drop, List.length_take_of_le hlt.le, Nat.zero_add, Nat.zero_add,
    List.drop_eq_getElem_cons hlt] at h

/-- The first sample that has no code is reported (R332). -/
theorem packPayload_of_no_code (hbad : (entry x).valid = false) :
    packPayload entry cap eosEn xs = .error { kind := .invalidInput, info := k } := by
  refine packPayload_of_packSamples_error ?_
  rw [packSamples_eq_at hx hv hl, packSamples, hbad]
  rfl

/-- The first sample whose code would pass BIT_CAP bytes is reported (R332). -/
theorem packPayload_of_excess (hok : (entry x).valid = true)
    (hbad : 8 * cap < (bitsOf entry (xs.take k)).length + (entry x).len) :
    packPayload entry cap eosEn xs = .error { kind := .capacityExceeded, info := k } := by
  refine packPayload_of_packSamples_error ?_
  rw [packSamples_eq_at hx hv hl, packSamples]
  simp only [hok, if_pos (bytesFor_le.2 hbad)]
  rfl

end

/-- An end-of-stream code that would pass BIT_CAP bytes is reported past the samples (R332). -/
theorem packPayload_of_eos_excess (hv : ∀ x ∈ xs, (entry x).valid = true)
    (hl : (bitsOf entry xs).length ≤ 8 * cap)
    (hbad : 8 * cap < (bitsOf entry xs).length + (entry 256).len) :
    packPayload entry cap true xs = .error { kind := .capacityExceeded, info := xs.length } := by
  rw [packPayload, packSamples_complete hv (by omega)]
  simp only [if_pos (bytesFor_le.2 hbad)]
  rfl

end

/-! ## HUF_PACK -/

section
variable {s t : State}

/-- A payload without a fault is stored (R332). -/
theorem exec_hufPack_of_payload {bits : List Bool} (hc : s.packCheck = none)
    (h : packPayload s.codeEntry s.params.bitCap s.cfg.eosEn s.samples = .ok bits) :
    exec .hufPack s = .next (s.storeStream bits).succeed := by
  rw [exec]
  refine runCommand_ok hc ?_ _
  rw [h]
  rfl

/-- A fault of the payload ends HUF_PACK and leaves its write range unspecified (R186, R332). -/
theorem exec_hufPack_of_fault {e : Raise} (hc : s.packCheck = none)
    (h : packPayload s.codeEntry s.params.bitCap s.cfg.eosEn s.samples = .error e) :
    exec .hufPack s = .next (s.spoilPack.fail e) := by
  rw [exec]
  refine runCommand_error hc ?_ _
  rw [h]
  rfl

/-- What HUF_PACK leaves on success (R332). -/
theorem hufPack_success (h : exec .hufPack s = .next t) (hok : t.status.err = false) :
    s.packCheck = none ∧ ∃ bits,
      packPayload s.codeEntry s.params.bitCap s.cfg.eosEn s.samples = .ok bits ∧
        t = (s.storeStream bits).succeed := by
  rcases execHufPack_cases s with ⟨e, -, hr⟩ | ⟨bits, hc, hbits, hr⟩ | ⟨e, -, -, hr⟩ <;>
    cases hr.symm.trans h
  · cases hok
  · exact ⟨hc, bits, hbits, rfl⟩
  · cases hok

/-- HUF_PACK asks for the codes, then checks the grid (R332). -/
theorem packCheck_eq_none_iff :
    s.packCheck = none ↔ s.status.codesValid = true ∧ s.encoderCheck = none := by
  rw [State.packCheck, Option.or_eq_none_iff, raiseIf_eq_none, Bool.not_eq_false']

/-- A payload that fits BB has fewer than 2^32 bits (R10, R333). -/
theorem length_lt_of_fit {p : Params} (hp : Params.wellFormed p = true) {bits : List Bool}
    (h : bits.length ≤ 8 * p.bitCap) : bits.length < 2 ^ 32 := by
  simp only [Params.wellFormed, Bool.and_eq_true, decide_eq_true_eq] at hp
  omega

end

/-- The padding of a stored stream is zero bits (R333). -/
theorem streamBit_storeStream_pad (s : State) {bits : List Bool} {i : Nat} (h : bits.length ≤ i)
    (hi : i < bits.length + padCount bits.length) : (s.storeStream bits).streamBit i = false := by
  refine streamBit_storeStream s bits i false ?_
  rw [List.getElem?_append_right h, List.getElem?_replicate_of_lt (by omega)]

/-- The payload of a stored stream is read back (R333). -/
theorem streamBit_storeStream_payload (s : State) {bits : List Bool} {i : Nat} {b : Bool}
    (h : bits[i]? = some b) : (s.storeStream bits).streamBit i = b := by
  refine streamBit_storeStream s bits i b ?_
  rwa [List.getElem?_append_left (List.getElem?_eq_some_iff.1 h).1]

/-- HUF_PACK writes BB and the registers of the stream (R333). -/
theorem storeStream_succeed_eq (s : State) (bits : List Bool) :
    (s.storeStream bits).succeed = { s with
      phase := .idle
      status := { s.status with done := true, err := false, errcode := 0 }
      errInfo := 0
      bb := (s.storeStream bits).succeed.bb
      bitLen := (s.storeStream bits).succeed.bitLen
      byteLen := (s.storeStream bits).succeed.byteLen
      pad := (s.storeStream bits).succeed.pad } := by
  ext1 <;> simp

/-- Settles O45: the payload fits, so it is stored with its padding and reads back bit by bit. -/
theorem hufPackStoresTheStream : Obligations.HufPackStoresTheStream := by
  intro s payload hwf hcodes hh hw hn hsamples hpayload hfit
  have hcheck := packCheck_ok hcodes (encoderCheck_ok hh hw hn fun x hx => (hsamples x hx).1)
  have hbits : packPayload s.codeEntry s.params.bitCap s.cfg.eosEn s.samples = .ok payload := by
    subst hpayload
    exact packPayload_of_fit (fun x hx => (hsamples x hx).2) hfit
  obtain ⟨hlen, hpad, hbytes⟩ := storeStream_regs (s := s) (length_lt_of_fit hwf hfit)
  have hmod := padCount_mod payload.length
  refine ⟨_, exec_hufPack_of_payload hcheck hbits, storeStream_succeed_eq s payload, hlen, ?_, ?_,
    ?_, fun i b => streamBit_storeStream_payload s, fun i hi hi' => ?_, fun o ho => ?_⟩
  · rw [bitLen_succeed, hlen, hpayload, List.length_append, length_bitsOf]
    cases s.cfg.eosEn <;> simp
  · rw [bitLen_succeed, pad_succeed, hlen, hpad, padCount]
  · rw [bitLen_succeed, pad_succeed, byteLen_succeed, hlen, hpad, hbytes]
    omega
  · rw [bitLen_succeed, hlen] at hi
    rw [byteLen_succeed, hbytes] at hi'
    exact streamBit_storeStream_pad s hi (by omega)
  · rw [byteLen_succeed, hbytes] at ho
    exact byte_storeStream_frame s payload .bb o (.inr ho)

/-- A failed HUF_PACK leaves all but BB, BIT_LEN, PAD and BYTE_LEN alone (R186). -/
theorem spoilPack_fail_eq (s : State) (e : Raise) :
    s.spoilPack.fail e = { s with
      phase := .idle
      status := { s.status with done := true, err := true, errcode := ErrorKind.code e.kind }
      errInfo := BitVec.ofNat 32 e.info
      bb := (s.spoilPack.fail e).bb
      bitLen := (s.spoilPack.fail e).bitLen
      byteLen := (s.spoilPack.fail e).byteLen
      pad := (s.spoilPack.fail e).pad
      draws := (s.spoilPack.fail e).draws } := by
  ext1 <;> simp

/-- Settles O46: each fault is the raise of the payload, and a raise of the data phase leaves the
stream unspecified. -/
theorem hufPackReportsTheFirstFault : Obligations.HufPackReportsTheFirstFault := by
  intro s k code hcodes hh hw hn hsamples hv hl hfault
  simp only [← length_bitsOf] at hl hfault
  obtain ⟨kind, hbits, rfl⟩ : ∃ kind, packPayload s.codeEntry s.params.bitCap s.cfg.eosEn
      s.samples = .error { kind := kind, info := k } ∧ ErrorKind.code kind = code := by
    rcases hfault with ⟨x, hx, ⟨hbad, rfl⟩ | ⟨hok, rfl, hbad⟩⟩ | ⟨rfl, heos, rfl, hbad⟩
    · exact ⟨_, packPayload_of_no_code hx hv hl hbad, rfl⟩
    · exact ⟨_, packPayload_of_excess hx hv hl hok hbad, rfl⟩
    · rw [← length_samples, List.take_length] at hv hl
      rw [heos, ← length_samples]
      exact ⟨_, packPayload_of_eos_excess hv hl hbad, rfl⟩
  have hcheck := packCheck_ok hcodes (encoderCheck_ok hh hw hn hsamples)
  have hrange := (KeepsRange.spoilPack s).fail { kind := kind, info := k }
  exact ⟨_, exec_hufPack_of_fault hcheck hbits, spoilPack_fail_eq s _, hrange.byte .bb⟩

/-! ## Paths to leaves -/

/-- The path `p` leads from the root to a leaf of symbol `x` (R310, R361). -/
def IsLeafPath (node : Nat → Node) (root x : Nat) (p : List Bool) : Prop :=
  p ≠ [] ∧ ∃ j, walkPath node root p = some j ∧ (node j).isLeaf = true ∧ (node j).symbol = x

/-- What follows the data symbols in a stream: the path of the end-of-stream leaf where EOS_EN asks
for one (R340). -/
def IsEosPath (node : Nat → Node) (root : Nat) (eosEn : Bool) (p : List Bool) : Prop :=
  (eosEn = true → IsLeafPath node root 256 p) ∧ (eosEn = false → p = [])

section
variable {node : Nat → Node} {root n pos : Nat} {eosEn : Bool} {segs : List (Nat × List Bool)}
  {rest : List Bool}

/-- The end-of-stream leaf past `n` symbols ends the walk (R340). -/
theorem unpackWalk_of_eos {eos : List Bool} (h : IsLeafPath node root 256 eos) :
    unpackWalk node root n eosEn pos n root (eos ++ rest) = .ok [] := by
  obtain ⟨hne, j, hw, hl, hx⟩ := h
  rw [unpackWalk_leaf hne hw hl, if_pos hx, if_pos rfl]

/-- Without the end-of-stream symbol the last of `n` data symbols ends the walk (R340). -/
theorem unpackWalk_of_last {k x : Nat} {p : List Bool} (h : IsLeafPath node root x p)
    (hx : x < 256) (hk : k + 1 = n) :
    unpackWalk node root n false pos k root (p ++ rest) = .ok [x] := by
  obtain ⟨hne, j, hw, hl, rfl⟩ := h
  rw [unpackWalk_leaf hne hw hl, if_neg hx.ne, if_neg (by omega), if_pos (by simpa using hk)]

/-- The walk over the paths of `n` data symbols and, where it is used, of the end-of-stream symbol,
whatever bits follow (R340). -/
theorem unpackWalk_of_paths {eos : List Bool} (hs : pathsOf node root segs)
    (hlen : segs.length = n) (hn : 0 < n) (heos : IsEosPath node root eosEn eos) :
    unpackWalk node root n eosEn 0 0 root (segs.flatMap (·.2) ++ eos ++ rest) =
      .ok (segs.map (·.1)) := by
  cases eosEn with
  | true =>
    rw [List.append_assoc, unpackWalk_paths hs (by omega) (.inl rfl), Nat.zero_add, Nat.zero_add,
      hlen, unpackWalk_of_eos (heos.1 rfl)]
    simp [Except.map]
  | false =>
    obtain ⟨init, g, rfl⟩ : ∃ init g, segs = init ++ [g] :=
      have hne := List.ne_nil_of_length_pos (hlen.symm ▸ hn)
      ⟨segs.dropLast, segs.getLast hne, (List.dropLast_append_getLast hne).symm⟩
    rw [List.length_append, List.length_singleton] at hlen
    obtain ⟨hx, hpath⟩ := hs g (by simp)
    have hinit : pathsOf node root init := fun g hg => hs g (List.mem_append_left _ hg)
    rw [heos.2 rfl, List.append_nil, List.flatMap_append, List.flatMap_singleton,
      List.append_assoc, unpackWalk_paths hinit (by omega) (.inr (by omega)), Nat.zero_add,
      Nat.zero_add, unpackWalk_of_last hpath hx hlen]
    simp [Except.map]

/-! ## Faults of the walk -/

/-- Past the paths of data symbols a fault of the walk is the fault of the whole walk (R341). -/
theorem unpackWalk_of_later_error {e : Raise} (hs : pathsOf node root segs)
    (hk : segs.length ≤ n) (hn : eosEn = true ∨ segs.length < n)
    (h : unpackWalk node root n eosEn (segs.flatMap (·.2)).length segs.length root rest =
      .error e) :
    unpackWalk node root n eosEn 0 0 root (segs.flatMap (·.2) ++ rest) = .error e := by
  rw [unpackWalk_paths hs (by omega) (hn.imp_right fun h => by omega), Nat.zero_add, Nat.zero_add,
    h]
  rfl

/-- A leaf of symbol 256 before `n` symbols, or of a data symbol past them, is reported at the end of
its path (R340, R341). -/
theorem unpackWalk_of_bad_leaf {k j : Nat} {q : List Bool} (hne : q ≠ [])
    (hw : walkPath node root q = some j) (hl : (node j).isLeaf = true)
    (hbad : ((node j).symbol = 256 ∧ k < n) ∨ ((node j).symbol ≠ 256 ∧ k = n)) :
    unpackWalk node root n eosEn pos k root (q ++ rest) =
      .error { kind := .corruptStream, info := pos + q.length } := by
  rw [unpackWalk_leaf hne hw hl]
  rcases hbad with ⟨hx, hk⟩ | ⟨hx, hk⟩
  · rw [if_pos hx, if_neg hk.ne]
  · rw [if_neg hx, if_pos hk]

/-- Bits that run out before a leaf are reported at their end (R341). -/
theorem unpackWalk_of_short {k j : Nat} {q : List Bool} (hw : walkPath node root q = some j)
    (hl : q ≠ [] → (node j).isLeaf = false) :
    unpackWalk node root n eosEn pos k root q =
      .error { kind := .corruptStream, info := pos + q.length } := by
  have h := unpackWalk_inner (root := root) (n := n) (pos := pos) (k := k) (eosEn := eosEn)
    (rest := []) hw hl
  rw [List.append_nil] at h
  rw [h, unpackWalk]

/-- A bit that selects a missing child is reported where it stands (R341). -/
theorem unpackWalk_of_missing {k j : Nat} {q bs : List Bool} {b : Bool}
    (hw : walkPath node root q = some j) (hl : q ≠ [] → (node j).isLeaf = false)
    (hbad : (if b then (node j).right else (node j).left) = noNode) :
    unpackWalk node root n eosEn pos k root (q ++ b :: bs) =
      .error { kind := .corruptStream, info := pos + q.length } := by
  rw [unpackWalk_inner hw hl, unpackWalk_missing hbad]

end

/-! ## HUF_UNPACK -/

section
variable {s : State}

/-- A stream without a fault is stored as samples (R340). -/
theorem exec_hufUnpack_of_walk {xs : List Nat} (hc : s.unpackCheck = none)
    (h : unpackWalk s.nodeAt s.root.toNat s.n s.cfg.eosEn 0 0 s.root.toNat s.streamBits =
      .ok xs) :
    exec .hufUnpack s = .next (s.putSamples xs).succeed := by
  rw [exec]
  refine runCommand_ok hc ?_ _
  rw [h]
  rfl

/-- A fault of the walk ends HUF_UNPACK and leaves SB[0..n-1] unspecified (R186, R340). -/
theorem exec_hufUnpack_of_fault {e : Raise} (hc : s.unpackCheck = none)
    (h : unpackWalk s.nodeAt s.root.toNat s.n s.cfg.eosEn 0 0 s.root.toNat s.streamBits =
      .error e) :
    exec .hufUnpack s = .next ((s.drawBytes .sb s.n).nextDraw.fail e) := by
  rw [exec]
  refine runCommand_error hc ?_ _
  rw [h]
  rfl

/-- The symbols of `n` paths are a grid of samples. -/
theorem samples_putSamples_paths {node : Nat → Node} {root : Nat} {segs : List (Nat × List Bool)}
    (hs : pathsOf node root segs) (hlen : segs.length = s.n) :
    (s.putSamples (segs.map (·.1))).samples = segs.map (·.1) := by
  refine samples_putSamples s _ ((List.length_map _).trans hlen) fun x hx => ?_
  obtain ⟨g, hg, rfl⟩ := List.mem_map.1 hx
  exact (hs g hg).1

end

/-- Settles O47: the walk of the stream's paths is what HUF_UNPACK stores. -/
theorem hufUnpackFollowsThePaths : Obligations.HufUnpackFollowsThePaths := by
  intro s segs eos rest htree hh hw hn h0 hroom hlen hs heos hnoEos hbits
  have hdim := dimCheck_ok hh hw hn
  have hwalk := unpackWalk_of_paths (rest := rest) hs hlen (n_pos_of_dimCheck hdim) ⟨heos, hnoEos⟩
  rw [← hbits] at hwalk
  refine ⟨_, exec_hufUnpack_of_walk (unpackCheck_ok htree hdim h0 hroom) hwalk, rfl,
    samples_putSamples_paths hs hlen, fun o ho => ?_⟩
  exact byte_putSamples_frame s ((List.length_map _).trans hlen |>.trans_le ho)

/-- Settles O48: each fault past the paths is the walk's raise, at the position it has reached. -/
theorem hufUnpackReportsItsPosition : Obligations.HufUnpackReportsItsPosition := by
  intro s segs q rest info htree hh hw hn h0 hroom hk heos hs hbits hfault
  have hwalk : unpackWalk s.nodeAt s.root.toNat s.n s.cfg.eosEn 0 0 s.root.toNat s.streamBits =
      .error { kind := .corruptStream, info := info } := by
    rw [hbits, List.append_assoc]
    refine unpackWalk_of_later_error hs hk heos ?_
    rcases hfault with ⟨j, hne, hj, hl, hbad, rfl⟩ |
      ⟨j, hj, hl, ⟨rfl, rfl⟩ | ⟨b, bs, rfl, hbad, rfl⟩⟩
    · exact unpackWalk_of_bad_leaf hne hj hl hbad
    · rw [hbits, List.append_nil, List.append_nil, List.length_append]
      exact unpackWalk_of_short hj hl
    · exact unpackWalk_of_missing hj hl hbad
  have hcheck := unpackCheck_ok htree (dimCheck_ok hh hw hn) h0 hroom
  exact ⟨_, exec_hufUnpack_of_fault hcheck hwalk, rfl, fun o ho =>
    (byte_drawBytes s .sb s.n .sb o).trans (if_neg fun h => h.2.not_ge ho)⟩

/-! ## Between the commands of the encoder -/

/-- `t` holds the same grid as `s`, under the same parameters. -/
structure SameGrid (s t : State) : Prop where
  params : t.params = s.params
  samples : t.samples = s.samples

theorem SameGrid.trans {s t u : State} (h : SameGrid s t) (h' : SameGrid t u) : SameGrid s u :=
  ⟨h'.params.trans h.params, h'.samples.trans h.samples⟩

/-- A command that writes nothing of SB keeps the grid (R144). -/
theorem SameGrid.exec {i : Instr} {s t : State} (hp : Params.wellFormed s.params = true)
    (hi : s.writeExtent i .sb = 0) (h : exec i s = .next t) : SameGrid s t := by
  obtain ⟨u, hout, -, -, -, -, -, hh, hw, hpar, -⟩ := exec_completes i s
  obtain ⟨hparams, hheight, hwidth⟩ :
      t.params = s.params ∧ t.height = s.height ∧ t.width = s.width := by
    rcases hout with hr | ⟨e, -, hr⟩ <;> cases hr.symm.trans h <;> exact ⟨hpar, hh, hw⟩
  refine ⟨hparams, ?_⟩
  rw [State.samples, State.samples, n_congr hheight hwidth]
  refine List.map_congr_left fun k _ => ?_
  rw [State.sample, State.sample, (KeepsRange.exec hp h).byte .sb k (hi ▸ Nat.zero_le k)]

section
variable {s t : State} (h : s.handedOn t)
include h

/-- What comes between two commands keeps the grid. -/
theorem sameGrid_of_handedOn : SameGrid s t :=
  ⟨(congrArg State.params h :), (congrArg State.samples h :)⟩

/-- What comes between two commands keeps the tree, its inputs and the valid bits. -/
theorem keepsTree_of_handedOn : KeepsTree s t where
  cfg := (congrArg State.cfg h :)
  freqCount := (congrArg State.freqCount h :)
  nodeCount := (congrArg State.nodeCount h :)
  root := (congrArg State.root h :)
  ft := (congrArg State.ft h :)
  nd := (congrArg State.nd h :)
  ct := (congrArg State.ct h :)
  memDraw := (congrArg State.memDraw h :)
  treeValid := (congrArg (fun u : State => u.status.treeValid) h :)
  codesValid := (congrArg (fun u : State => u.status.codesValid) h :)

end

/-- After HUF_FREQ, HUF_TREE and HUF_CODES in sequence the grid is the one HUF_FREQ read, and the
valid bits mean what they say: HUF_FREQ cleared them, and what follows keeps their meaning (R48,
R49). -/
theorem encoder_keeps {s s1 t1 s2 t2 s3 t3 : State} (hp : Params.wellFormed s.params = true)
    (hfreq : exec .hufFreq s = .next s1) (h1 : s1.handedOn t1)
    (htree : exec .hufTree t1 = .next s2) (h2 : s2.handedOn t2)
    (hcodes : exec .hufCodes t2 = .next s3) (h3 : s3.handedOn t3) :
    SameGrid s t3 ∧ t3.validOk := by
  obtain ⟨ht, hc⟩ := exec_hufFreq_validBits hfreq
  have hv1 := (keepsTree_of_handedOn h1).validOk (validOk_of_clear ht hc)
  have hv2 := (keepsTree_of_handedOn h2).validOk (validOk_exec hv1 htree)
  have hv3 := (keepsTree_of_handedOn h3).validOk (validOk_exec hv2 hcodes)
  have hg1 := (SameGrid.exec hp rfl hfreq).trans (sameGrid_of_handedOn h1)
  have hg2 := hg1.trans
    ((SameGrid.exec (hg1.params ▸ hp) rfl htree).trans (sameGrid_of_handedOn h2))
  have hg3 := hg2.trans
    ((SameGrid.exec (hg2.params ▸ hp) rfl hcodes).trans (sameGrid_of_handedOn h3))
  exact ⟨hg3, hv3⟩

/-! ## Codes as paths -/

section
variable {s u : State}

/-- A valid code is the path to the leaf of its symbol (R48, R310). -/
theorem isLeafPath_of_codesValid (h : s.validOk) (hc : s.status.codesValid = true) {x : Nat}
    (hx : x < 257) (hv : (s.codeEntry x).valid = true) :
    IsLeafPath s.nodeAt s.root.toNat x (codeBits (s.codeEntry x)) := by
  obtain ⟨ht, hentry⟩ := h.2 hc
  have htree := validTree_of_treeOk h.1 ht
  rw [hentry x hx, ← codeEntry_storeCodeTable s hx] at hv ⊢
  obtain ⟨p, hm, he⟩ := htree.codeEntry_of_valid hx hv
  obtain ⟨k, hk, hw, hsym⟩ := htree.mem_leafPaths.1 hm
  rw [he, codeBits_path]
  exact ⟨List.ne_nil_of_length_pos (htree.isTree.path_pos hk hw), k, hw, htree.isTree.leaf k hk,
    hsym⟩

/-- With EOS_EN = 1 the end-of-stream symbol has a code (R277, R311). -/
theorem eos_valid_of_codesValid (h : s.validOk) (hc : s.status.codesValid = true)
    (he : s.cfg.eosEn = true) : (s.codeEntry 256).valid = true := by
  obtain ⟨ht, hentry⟩ := h.2 hc
  obtain ⟨-, -, -, -, heos, -⟩ := tableCheck_eq_none_iff.1 (h.1 ht).1
  rw [hentry 256 (by decide), ← codeEntry_storeCodeTable s (by decide)]
  exact ((validTree_of_treeOk h.1 ht).valid_iff (by decide)).2 (heos he)

/-- A walk depends on the nodes up to the root alone. -/
theorem IsTree.walkPath_congr {node node' : Nat → Node} {n root j : Nat}
    (h : IsTree node n root) (hnode : ∀ k, k ≤ root → node' k = node k) (hj : j ≤ root)
    (p : List Bool) : walkPath node' j p = walkPath node j p := by
  induction p generalizing j with
  | nil => rfl
  | cons b bs ih =>
    have hchild : childOf node' j b = childOf node j b := by rw [childOf, childOf, hnode j hj]
    rw [walkPath_cons, walkPath_cons, hnode j hj, hchild]
    by_cases hn : j < n
    · rw [if_pos (h.leaf j hn), if_pos (h.leaf j hn)]
    · cases hc : childOf node j b with
      | none => rfl
      | some k =>
        have hk := h.child j b k (by omega) hj hc
        rw [Option.bind_some, Option.bind_some, ih (by omega)]

/-- A block with the same nodes under the same root has the same paths (R363). -/
theorem IsLeafPath.congr (htree : ValidTree s) (hroot : u.root = s.root)
    (hnode : ∀ j, j < s.nodeCount.toNat → u.nodeAt j = s.nodeAt j) {x : Nat} {p : List Bool}
    (h : IsLeafPath s.nodeAt s.root.toNat x p) : IsLeafPath u.nodeAt u.root.toNat x p := by
  obtain ⟨hne, j, hw, hl, hx⟩ := h
  have hcount := htree.holds.root
  have hbound := htree.isTree.walk_bounds (Nat.le_refl _) hw
  have hcongr := htree.isTree.walkPath_congr (node' := u.nodeAt)
    (fun k hk => hnode k (by omega)) (Nat.le_refl _) p
  refine ⟨hne, j, hroot ▸ hcongr.trans hw, ?_⟩
  rw [hnode j (by omega)]
  exact ⟨hl, hx⟩

end

/-! ## The lossless law -/

/-- The decoder's block `u` has what R363 asks of the encoder's block `s`. -/
structure Receives (s u : State) : Prop where
  params : u.params = s.params
  treeValid : u.status.treeValid = true
  cfg : u.cfg = s.cfg
  height : u.height = s.height
  width : u.width = s.width
  byteLen : u.byteLen = s.byteLen
  pad : u.pad = s.pad
  root : u.root = s.root
  nodeAt : ∀ j, j < s.nodeCount.toNat → u.nodeAt j = s.nodeAt j
  byte : ∀ o, o < s.byteLen.toNat → u.byte .bb o = s.byte .bb o

/-- The symbols of a grid, each with its code. -/
def codedSegs (entry : Nat → Code) (xs : List Nat) : List (Nat × List Bool) :=
  xs.map fun x => (x, codeBits (entry x))

theorem map_fst_codedSegs (entry : Nat → Code) (xs : List Nat) :
    (codedSegs entry xs).map (·.1) = xs := by
  rw [codedSegs, List.map_map]
  exact List.map_id xs

theorem flatMap_snd_codedSegs (entry : Nat → Code) (xs : List Nat) :
    (codedSegs entry xs).flatMap (·.2) = bitsOf entry xs := by
  rw [codedSegs, List.flatMap_map]

/-- A stream that starts with a path is not empty. -/
theorem flatMap_append_ne_nil {node : Nat → Node} {root : Nat} {segs : List (Nat × List Bool)}
    (hs : pathsOf node root segs) (hpos : 0 < segs.length) (rest : List Bool) :
    segs.flatMap (·.2) ++ rest ≠ [] := by
  obtain ⟨g, hg⟩ := List.exists_mem_of_length_pos hpos
  intro hnil
  exact (hs g hg).2.1 (List.flatMap_eq_nil_iff.1 (List.append_eq_nil_iff.1 hnil).1 g hg)

namespace Receives

variable {s u : State} {bits : List Bool}

section
variable (h : Receives (s.storeStream bits).succeed u) (hvalid : s.validOk)
  (hcodes : s.status.codesValid = true)
include h hvalid hcodes

/-- The encoder's codes are paths of the decoder's tree. -/
theorem isLeafPath {x : Nat} (hx : x < 257) (hv : (s.codeEntry x).valid = true) :
    IsLeafPath u.nodeAt u.root.toNat x (codeBits (s.codeEntry x)) :=
  (isLeafPath_of_codesValid hvalid hcodes hx hv).congr
    (validTree_of_treeOk hvalid.1 (hvalid.2 hcodes).1) h.root h.nodeAt

theorem pathsOf_codedSegs (hv : ∀ x ∈ s.samples, (s.codeEntry x).valid = true) :
    pathsOf u.nodeAt u.root.toNat (codedSegs s.codeEntry s.samples) := by
  intro g hg
  obtain ⟨x, hx, rfl⟩ := List.mem_map.1 hg
  have hlt := samples_lt s x hx
  exact ⟨hlt, h.isLeafPath hvalid hcodes (by omega) (hv x hx)⟩

theorem isEosPath : IsEosPath u.nodeAt u.root.toNat u.cfg.eosEn
    (if s.cfg.eosEn then codeBits (s.codeEntry 256) else []) := by
  have hcfg : u.cfg = s.cfg := h.cfg
  rw [hcfg]
  refine ⟨fun he => ?_, fun he => by rw [he]; rfl⟩
  rw [if_pos he]
  exact h.isLeafPath hvalid hcodes (by decide) (eos_valid_of_codesValid hvalid hcodes he)

end

section
variable (h : Receives (s.storeStream bits).succeed u) (hlt : bits.length < 2 ^ 32)
include h hlt

/-- The decoder reads the payload (R333, R340). -/
theorem streamBits_eq : u.streamBits = bits := by
  have hbytes := h.byte
  obtain ⟨-, hp, hb⟩ := storeStream_regs (s := s) hlt
  have hmod := padCount_mod bits.length
  rw [byteLen_succeed, hb] at hbytes
  have hcount : 8 * u.byteLen.toNat - u.pad.toNat = bits.length := by
    rw [h.byteLen, h.pad, byteLen_succeed, pad_succeed, hp, hb]
    omega
  rw [State.streamBits, hcount]
  refine map_range_eq _ _ fun i b hi => ?_
  have hlen := (List.getElem?_eq_some_iff.1 hi).1
  rw [← streamBit_storeStream_payload s hi, State.streamBit, State.streamBit,
    hbytes _ (by omega), byte_succeed]

/-- A payload that is not empty and fits BB passes the decoder's checks (R340). -/
theorem unpackCheck_eq_none (hd : s.dimCheck = none) (hne : bits ≠ [])
    (hfit : bits.length ≤ 8 * s.params.bitCap) : u.unpackCheck = none := by
  obtain ⟨-, -, hb⟩ := storeStream_regs (s := s) hlt
  have hpos := List.length_pos_iff.2 hne
  have hmod := padCount_mod bits.length
  have hpad := padCount_lt bits.length
  have hparams : u.params = s.params := h.params
  rw [← byteLen_succeed, ← h.byteLen] at hb
  refine unpackCheck_ok h.treeValid ((dimCheck_congr hparams h.height h.width).trans hd)
    (fun h0 => ?_) (by rw [hparams]; omega)
  have hzero : u.byteLen.toNat = 0 := by rw [h0]; rfl
  omega

end

/-- HUF_UNPACK undoes HUF_PACK where the codes are those of the tree (R363). -/
theorem exec_hufUnpack {t : State} (hwf : Params.wellFormed s.params = true) (hvalid : s.validOk)
    (hexec : exec .hufPack s = .next t) (hok : t.status.err = false) (h : Receives t u) :
    ∃ v, exec .hufUnpack u = .next v ∧ v.status.err = false ∧ v.samples = s.samples := by
  obtain ⟨hcheck, bits, hbits, rfl⟩ := hufPack_success hexec hok
  obtain ⟨hcodes, henc⟩ := packCheck_eq_none_iff.1 hcheck
  obtain ⟨hpayload, hfit, hv⟩ := packPayload_ok hbits
  have hdim := dimCheck_of_encoderCheck henc
  have hpos := n_pos_of_dimCheck hdim
  have hlt := length_lt_of_fit hwf hfit
  have hsegs := h.pathsOf_codedSegs hvalid hcodes hv
  have hn : u.n = s.n := n_congr h.height h.width
  have hlen : (codedSegs s.codeEntry s.samples).length = s.n :=
    (List.length_map _).trans (length_samples s)
  rw [← flatMap_snd_codedSegs] at hpayload
  have hne : bits ≠ [] := hpayload ▸ flatMap_append_ne_nil hsegs (by omega) _
  have hwalk := unpackWalk_of_paths (rest := []) hsegs (hlen.trans hn.symm) (by omega)
    (h.isEosPath hvalid hcodes)
  rw [List.append_nil, ← hpayload, ← h.streamBits_eq hlt] at hwalk
  refine ⟨_, exec_hufUnpack_of_walk (h.unpackCheck_eq_none hlt hdim hne hfit) hwalk, rfl, ?_⟩
  rw [samples_succeed, samples_putSamples_paths hsegs (hlen.trans hn.symm), map_fst_codedSegs]

end Receives

/-- Settles O49: the valid bits mean what they say after HUF_CODES, so HUF_PACK's codes are the paths
that HUF_UNPACK follows. -/
theorem huffmanIsLossless : Obligations.HuffmanIsLossless := by
  intro s s1 t1 s2 t2 s3 t3 s4 u hwf hfreq h1 htree h2 hcodes h3 hpack hok hparams htv hcfg hh hw
    hbyteLen hpad hroot hnode hbb
  obtain ⟨⟨hgp, hgrid⟩, hvalid⟩ := encoder_keeps hwf hfreq h1 htree h2 hcodes h3
  rw [← hgrid]
  exact Receives.exec_hufUnpack (hgp ▸ hwf) hvalid hpack hok
    ⟨hparams, htv, hcfg, hh, hw, hbyteLen, hpad, hroot, hnode, hbb⟩

end Sys2Proof.Machine
end

section
/-! PROOFS. Exceptions (spec/60_exceptions.md R375, R376, R380): the completion of a word that is no
command, the commands that need a valid tree or valid codes, and the interrupt line. -/

namespace Sys2Proof.Machine

open Sys2Proof

/-! ## Illegal words -/

/-- The word of a command is its opcode, which is at most 0x9 (R140, R142). -/
theorem toNat_encode_lt (i : Instr) : (encode i).toNat < 10 := by
  cases i <;> decide

/-- A word with a reserved bit set or a reserved opcode is no command (R142). -/
theorem decode_ne_ok_of_reserved {w : Word} (h : 16 ≤ w.toNat ∨ 10 ≤ w.toNat % 16) (i : Instr) :
    decode w ≠ .ok i := by
  intro hd
  have hlt := toNat_encode_lt i
  rw [encode_of_decode hd] at hlt
  omega

/-- The turn of a word that is no command is its error completion (R189). -/
theorem engineTurn_of_no_command {s : State} {w : Word} (hp : s.phase = .busy w)
    (hd : ∀ i, decode w ≠ .ok i) :
    engineTurn s = .next (s.fail { kind := .illegalCommand, info := w.toNat }) := by
  rcases engineTurn_cases s with ⟨hi, -⟩ | ⟨v, i, hv, hok, -⟩ | ⟨v, r, hv, -, he⟩
  · cases hp.symm.trans hi
  · cases hp.symm.trans hv
    exact absurd hok (hd i)
  · cases hp.symm.trans hv
    exact he

/-- Settles O3: a reserved word does not decode, and ERR_INFO has room for the whole word. -/
theorem illegalWordsCompleteWithTheWord : Obligations.IllegalWordsCompleteWithTheWord := by
  intro s w hp h
  rw [engineTurn_of_no_command hp (decode_ne_ok_of_reserved h), State.fail,
    BitVec.ofNat_toNat, BitVec.setWidth_eq]
  rfl

/-! ## SequenceError -/

/-- Without its tree HUF_CODES fails with SequenceError(0) (R311). -/
theorem exec_hufCodes_of_not_treeValid {s : State} (ht : s.status.treeValid = false) :
    exec .hufCodes s = .next (s.fail { kind := .sequenceError, info := 0 }) := by
  refine exec_of_preCheck (i := .hufCodes) ?_
  rw [State.preCheck, State.needTree, ht]
  rfl

/-- Settles O22: the need for the tree or the codes is the first raise of each of the three. -/
theorem sequenceErrorsWinOverOtherErrors : Obligations.SequenceErrorsWinOverOtherErrors := by
  intro s
  obtain ⟨hpack, hunpack⟩ := exec_bitstream_of_invalid s
  exact ⟨fun ht => ⟨exec_hufCodes_of_not_treeValid ht, hunpack ht⟩, hpack⟩

/-! ## The interrupt line -/

theorem irq_eq (s : State) : s.irq = (s.doneIe && s.status.done) := rfl

theorem irq_of_done {s : State} (h : s.status.done = true) : s.irq = s.doneIe := by
  rw [irq_eq, h, Bool.and_true]

theorem irq_of_not_done {s : State} (h : s.status.done = false) : s.irq = false := by
  rw [irq_eq, h, Bool.and_false]

theorem irq_of_doneIe {s : State} (h : s.doneIe = true) : s.irq = s.status.done := by
  rw [irq_eq, h, Bool.true_and]

/-- With DONE_IE = 0 the line is masked (R380). -/
theorem irq_of_not_doneIe {s : State} (h : s.doneIe = false) : s.irq = false := by
  rw [irq_eq, h, Bool.false_and]

/-- A turn of a BUSY engine is a completion step: it sets DONE, and INT_EN is the host's (R182,
R380). -/
theorem engineTurn_sets_done {s : State} (hb : s.busy = true) :
    ∃ t, engineTurn s = .next t ∧ t.status.done = true ∧ t.doneIe = s.doneIe := by
  obtain ⟨w, hp⟩ := (busy_iff s).1 hb
  rcases engineTurn_cases s with ⟨hi, -⟩ | ⟨v, i, -, -, he⟩ | ⟨v, r, -, -, he⟩
  · cases hp.symm.trans hi
  · obtain ⟨t, ht, -, hdone, -, -, -, -, -, hie, -⟩ := everyCommandCompletes i s
    exact ⟨t, he.trans ht, hdone, hie⟩
  · exact ⟨_, he, rfl, rfl⟩

/-- A write to INT_EN is performed in both phases and sets DONE_IE alone (R39, R421). -/
theorem access_write_intEn (s : State) (v : Word) :
    s.access (writeWord (regAddr .intEn) v) = (.ok, { s with doneIe := v.getLsbD 0 }) := by
  rw [access_write_reg]
  cases s.busy <;> rfl

/-- An acknowledgement with bit 1 set clears DONE (R38). -/
theorem done_ackStatus_of_bit (s : State) {v : Word} (h : v.getLsbD 1 = true) :
    (s.ackStatus v).status.done = false := by
  simp [State.ackStatus, h]

/-- Settles O18: the line is read off DONE_IE and DONE after each of the events of R380. -/
theorem interruptFollowsDone : Obligations.InterruptFollowsDone := by
  refine ⟨rfl, fun s => ⟨irq_eq s, irq_of_not_doneIe rfl, fun hb => ?_, irq_of_not_doneIe,
    fun v hv => ?_, fun w hp => ?_, fun v => ?_⟩⟩
  · obtain ⟨t, ht, hdone, hie⟩ := engineTurn_sets_done hb
    exact ⟨t, ht, hdone, (irq_of_done hdone).trans hie⟩
  · rw [(statusIsWriteOneToClear s v).1]
    exact irq_of_not_done (done_ackStatus_of_bit s hv)
  · rw [idleCommandWriteIsAccepted s w hp]
    exact irq_of_not_done rfl
  · have hie : s.access (writeWord 0x00000014 v) = _ := access_write_intEn s v
    rw [hie]
    exact ⟨rfl, fun hv => irq_of_doneIe hv, fun hv => irq_of_not_doneIe hv⟩

end Sys2Proof.Machine
end

section
/-! PROOFS. Host accesses while BUSY and the reset input (spec/70_reset_and_hazards.md R410 to R412,
R421, R422). -/

namespace Sys2Proof.Machine

open Sys2Proof

/-! ## Writes while BUSY -/

/-- While BUSY only three registers take note of a write (R421). -/
theorem writeRegBusy_ignored (s : State) {r : Reg} (hcmd : r ≠ .cmd) (hstatus : r ≠ .status)
    (hintEn : r ≠ .intEn) (v : Word) : s.writeRegBusy r v = s := by
  cases r
  case cmd => exact absurd rfl hcmd
  case status => exact absurd rfl hstatus
  case intEn => exact absurd rfl hintEn
  all_goals rfl

/-- A legal write is answered OK, performed or ignored (R100). -/
theorem access_write_reply {s : State} {t : Transaction} (hk : t.kind = .write)
    (hl : Transaction.legal t = true) : (s.access t).1 = .ok := by
  unfold State.access
  rw [if_pos hl, hk]

/-- Settles O8: of the places a write can change, a BUSY block leaves three registers, which the
address is none of. -/
theorem busyWritesAreIgnored : Obligations.BusyWritesAreIgnored := by
  intro s t hb hk hsize halign hcmd hstatus hintEn
  refine Prod.ext (access_write_reply hk ((legal_iff t).2 ⟨hsize, halign⟩)) ?_
  rcases access_cases s t with h | ⟨hr, -⟩ | ⟨r, -, ha, -, h⟩ | ⟨r, -, -, hi, -⟩ |
    ⟨b, o, -, -, -, hi, -⟩
  · exact h
  · cases hk.symm.trans hr
  · have hne {r' : Reg} (h' : t.addr ≠ regAddr r') : r ≠ r' := fun e => h' (e ▸ ha)
    exact h.trans (writeRegBusy_ignored s (hne hcmd) (hne hstatus) (hne hintEn) _)
  · cases hb.symm.trans hi
  · cases hb.symm.trans hi

/-! ## Reads while BUSY -/

/-- Windows 1 to 8 are the memories (R102). -/
theorem windowOf_eq_buffer {addr : Word} (hlo : 0x10000000 ≤ addr.toNat)
    (hhi : addr.toNat < 0x90000000) : ∃ b, windowOf addr = .buffer b := by
  have hnumber : ∀ n, 1 ≤ n → n ≤ 8 → ∃ b, n = Buf.number b := by
    intro n h1 h8
    interval_cases n
    exacts [⟨.ft, rfl⟩, ⟨.nd, rfl⟩, ⟨.ct, rfl⟩, ⟨.dt, rfl⟩, ⟨.sb, rfl⟩, ⟨.rb, rfl⟩, ⟨.cb, rfl⟩,
      ⟨.bb, rfl⟩]
  obtain ⟨b, hb⟩ := hnumber (addr.toNat / 2 ^ 28) (by omega) (by omega)
  exact ⟨b, windowOf_eq_buffer_iff.2 hb⟩

/-- While BUSY a read of a memory's window answers the current draw and uses it up (R422; log 4). -/
theorem access_read_window_busy {s : State} (hb : s.busy = true) {addr : Word} {b : Buf}
    (ha : addr.toNat % 4 = 0) (hw : windowOf addr = .buffer b) :
    s.access (readWord addr) = (.data (s.drawnWord addr.toNat), s.nextDraw) := by
  rw [access_readWord s ha, memRead_of_window hw, if_pos hb]

/-- Settles O15: the range of addresses is that of the memories' windows. -/
theorem busyWindowReadsAreDraws : Obligations.BusyWindowReadsAreDraws := by
  refine fun s addr hb ha => ⟨fun ⟨hlo, hhi⟩ => ?_, access_read_reg s⟩
  obtain ⟨b, hw⟩ := windowOf_eq_buffer hlo hhi
  exact access_read_window_busy hb ha hw

/-! ## The reset input -/

theorem step_reset {s : State} {rest : List Turn} (h : s.schedule = .reset :: rest) :
    step s = .next (State.resetBlock { s with schedule := rest }) := by
  unfold step
  rw [h]

/-- After a reset every register but the parameter readbacks has its reset value (R70, R410). -/
theorem readReg_resetBlock (s : State) {r : Reg} (hsamples : r ≠ .paramMaxSamples)
    (hdict : r ≠ .paramDictCap) (hbits : r ≠ .paramBitCap) :
    s.resetBlock.readReg r = State.reset.readReg r := by
  cases r
  case paramMaxSamples => exact absurd rfl hsamples
  case paramDictCap => exact absurd rfl hdict
  case paramBitCap => exact absurd rfl hbits
  all_goals rfl

/-- After a reset no byte is written, so each reads as its value of the draw the reset uses up (R71,
R411). -/
theorem byte_resetBlock (s : State) (b : Buf) (o : Nat) :
    s.resetBlock.byte b o = Config.freeByte s.draws (Buf.base b + o) := by
  cases b <;> rfl

/-- Settles O17: the turn is the reset of the block, and a reset uses up one draw. -/
theorem resetTurnRestoresRegisters : Obligations.ResetTurnRestoresRegisters := by
  intro s rest hs
  exact ⟨_, step_reset hs, rfl, rfl, rfl, fun _ => readReg_resetBlock _, byte_resetBlock _,
    Nat.lt_succ_self _⟩

end Sys2Proof.Machine
end
